-- ==== Sys2Proof/Word.lean ====
section
/-!
DEFINITION. The plainest words of the part: a byte, a byte of a write with its enable, and a value of the
reference counter (R106, R189). Everything that composes or takes apart bytes is in Machine/Operands.lean.
-/

namespace Sys2Proof

/-- One byte as it passes at a port. -/
abbrev Byte := BitVec 8

/-- One byte of a write: its value where its enable is set, `none` where its enable is clear (R159: a write
carries a value and an enable for each byte; the value of a byte that is not enabled reaches nobody). -/
abbrev WByte := Option (BitVec 8)

/-- A value of the 32-bit reference counter, which wraps (R106). -/
abbrev Tick := BitVec 32

end Sys2Proof
end

