-- ==== Sys2Proof/Syntax.lean ====
section
/-!
DEFINITION. The steps of the part: one constructor for each row of spec/opcode_table.json, with what the
outside world brings along. Each row is one whole and indivisible step (95_what_each_step_holds.md).

Three kinds of row stand in the table. What an initiator or a pin does carries its operands here (an address,
bytes, a strap value). The end of an access at the memory port carries what the DRAM answered (data, or that
it ended in a memory error). What the part does by itself (a taking, an expiry, a command begun from CMU's
copy of its descriptor) carries at most the number of the channel or slot it is about: the rest of what it
works on is in State. The thirteen commands carry no operand because R175 has them executed from CMU's own
copy of the descriptor, which is State.
-/

namespace Sys2Proof

/-- The three masters on the interconnect side (R159). -/
inductive Initiator where
  | demodulator
  | processor
  | framer
  deriving DecidableEq, Repr, Inhabited

/-- The index words that the part writes and only passes when an initiator writes them (R161). -/
inductive PartWord where
  | commandConsumer
  | noticeProducer
  | dueProducer
  | runStateMirror
  deriving DecidableEq, Repr, Inhabited

/-- The steps of the part, a row of the table each. -/
inductive Instr where
  /-- PIN_RESET (R172): RESET_N is asserted. -/
  | pinReset
  /-- PIN_RESET_DEASSERTION (R172): RESET_N is deasserted with this value on the strap pins. -/
  | pinResetDeassertion (strap : BitVec 16)
  /-- PASSING_READ (R159): an initiator issues a read of `len` bytes from `addr`. -/
  | passingRead (init : Initiator) (addr len : Nat)
  /-- PASSING_WRITE (R159): an initiator issues a write of these bytes from `addr`. -/
  | passingWrite (init : Initiator) (addr : Nat) (bytes : List WByte)
  /-- READ_DATA_RETURN (R160): DRAM answers the passing read numbered `txn`, by data or by an error. -/
  | readDataReturn (txn : Nat) (data : Option (List Byte))
  /-- WRITE_RESPONSE_RETURN (R160): DRAM answers the passing write numbered `txn`. -/
  | writeResponseReturn (txn : Nat) (error : Bool)
  /-- COMMAND_PRODUCER_WRITE (R174): a passing write of the four bytes of the command producer word. -/
  | commandProducerWrite (init : Initiator) (bytes : List WByte)
  /-- NOTICE_CONSUMER_WRITE (R183): a passing write of the four bytes of the notice consumer word. -/
  | noticeConsumerWrite (init : Initiator) (bytes : List WByte)
  /-- DUE_CONSUMER_WRITE (R187): a passing write of the four bytes of the due consumer word. -/
  | dueConsumerWrite (init : Initiator) (bytes : List WByte)
  /-- PART_INDEX_WORD_WRITE (R161): a passing write of the four bytes of a word the part writes. -/
  | partIndexWordWrite (init : Initiator) (word : PartWord) (bytes : List WByte)
  /-- SLOT_HEADER_WRITE (R128): a passing write of the four key bytes of a response slot. -/
  | slotHeaderWrite (init : Initiator) (slot : Fin 64) (bytes : List WByte)
  /-- FETCH_DATA_ARRIVAL (R91, R94): the fetch of the context at `index` ends, by data or by an error. -/
  | fetchDataArrival (index : Nat) (data : Option (List Byte))
  /-- WRITE_BACK_END (R92, R95): the write-back of the context at `index` ends. -/
  | writeBackEnd (index : Nat) (error : Bool)
  /-- JOB_TAKE (R70): CE takes the head job of the queue. -/
  | jobTake
  /-- JOB_CONTEXT_GIVEN (R72): the cache gives CE the context it asked for. -/
  | jobContextGiven
  /-- JOB_COMPLETION (R74, R75, R81): the computation of the job in flight ends. -/
  | jobCompletion
  /-- OFFER_TAKING (R111, R112): the calendar takes its head entry, an OFFER or OFFER_FORCED one. -/
  | offerTaking
  /-- GRACE_EXPIRY (R113, R114): the calendar takes its head entry, a GRACE one. -/
  | graceExpiry
  /-- SILENT_LAPSE_APPLIED (R115): the cache gives the calendar the context whose lapse is in progress. -/
  | silentLapseApplied
  /-- QUIET_TIMER_EXPIRY (R63): a channel's running quiet timer has run its interval. -/
  | quietTimerExpiry (channel : Fin 16)
  /-- COALESCING_TIMER_EXPIRY (R188): the coalescing timer's count has reached T. -/
  | coalescingTimerExpiry
  /-- SLOT_BINDING_MADE (R133): the cache gives a binding slot its context. -/
  | slotBindingMade (slot : Fin 64)
  /-- PROMOTION (R138, R139): the promotion at the head of the list gets its context and is decided. -/
  | promotion
  /-- NOTICE_WRITE_END (R181): the oldest outstanding notice write ends. -/
  | noticeWriteEnd (error : Bool)
  /-- NOTICE_PRODUCER_WRITE_END (R182): the oldest outstanding notice producer-word write ends. -/
  | noticeProducerWriteEnd (error : Bool)
  /-- OFFER_WRITE_END (R186): the oldest outstanding offer write ends. -/
  | offerWriteEnd (error : Bool)
  /-- DUE_PRODUCER_WRITE_END (R185): the oldest outstanding due producer-word write ends. -/
  | dueProducerWriteEnd (error : Bool)
  /-- DESCRIPTOR_FETCH_END (R175): the descriptor fetch ends, by 32 bytes or by an error. -/
  | descriptorFetchEnd (data : Option (List Byte))
  /-- START (R165), executed from CMU's copy. -/
  | start
  /-- STOP (R166), executed from CMU's copy. -/
  | stop
  /-- SET_WINDOW (R163, R164), executed from CMU's copy. -/
  | setWindow
  /-- SET_POLICY (R153), executed from CMU's copy. -/
  | setPolicy
  /-- READ_CHANNEL (R155), executed from CMU's copy. -/
  | readChannel
  /-- ADMIT (R19, R20), executed from CMU's copy. -/
  | admitLink
  /-- RELEASE (R21, R22), executed from CMU's copy. -/
  | release
  /-- REVIVE (R23), executed from CMU's copy. -/
  | revive
  /-- FORCE_DUE (R122 to R124), executed from CMU's copy. -/
  | forceDue
  /-- TRIAL (R79), executed from CMU's copy. -/
  | trial
  /-- READ_CONTEXTS (R102, R103), executed from CMU's copy. -/
  | readContexts
  /-- SET_NOTIFY (R179), executed from CMU's copy. -/
  | setNotify
  /-- IDENTIFY (R180), executed from CMU's copy. -/
  | identify
  /-- ADMIT_IMAGE_WRITE_END (R20). -/
  | admitImageWriteEnd (error : Bool)
  /-- RELEASE_HEADER_WRITE_END (R21, R22). -/
  | releaseHeaderWriteEnd (error : Bool)
  /-- REVIVE_CONTEXT_GIVEN (R23). -/
  | reviveContextGiven
  /-- POLICY_BLOCK_READ_END (R154): the read of the policy block ends, by 64 bytes or by an error. -/
  | policyBlockReadEnd (data : Option (List Byte))
  /-- CHANNEL_RECORD_WRITE_END (R156, R157). -/
  | channelRecordWriteEnd (error : Bool)
  /-- TRIAL_RECORD_READ_END (R79, R80): the read of the record ends, by 64 bytes or by an error. -/
  | trialRecordReadEnd (data : Option (List Byte))
  /-- TRIAL_RESULT_WRITE_END (R82). -/
  | trialResultWriteEnd (error : Bool)
  /-- CONTEXT_COPY_COMPOSED (R104). -/
  | contextCopyComposed
  /-- COPY_WRITE_END (R105). -/
  | copyWriteEnd (error : Bool)
  /-- IDENTIFY_WRITE_END (R180). -/
  | identifyWriteEnd (error : Bool)
  /-- MIRROR_WRITE_END (R165, R166). -/
  | mirrorWriteEnd (error : Bool)
  /-- RESULT_WRITE_END (R177): the oldest outstanding result-field write ends. -/
  | resultWriteEnd (error : Bool)
  /-- STATUS_WRITE_END (R177). -/
  | statusWriteEnd (error : Bool)
  /-- COMMAND_INDEX_WRITE_END (R177). -/
  | commandIndexWriteEnd (error : Bool)
  deriving DecidableEq, Repr

end Sys2Proof
end

