-- ==== Sys2Proof/Decode.lean ====
section
/-!
DEFINITION. The command a word spells. The part has no instruction words: no row of spec/opcode_table.json gives
bits, so no word spells a step, and there is nothing to encode. (A descriptor of the command ring is a record in
DRAM, read by DESCRIPTOR_FETCH_END through Machine/Operands.lean, not a word of the table.)
-/

namespace Sys2Proof

/-- The step that `nbits` bits with the value `w` spell: none of any (log 2). -/
def decodeTableWord (_nbits _w : Nat) : Option Instr := none

end Sys2Proof
end

