-- ==== Sys2Proof/Config.lean ====
section
/-!
DEFINITION. What the Adrestan 2640 fixes in numbers (00_scope.md, Principal figures), and the values its
manual leaves open, each an opaque constant that no proof can evaluate.
-/

namespace Sys2Proof.Config

/-- Ticks of the reference counter in one millisecond (00_scope.md, Units). -/
def ticksPerMs : Nat := 16384

/-- Transactions that may be open at the system port (R158). -/
def openLimit : Nat := 32

/-- Places of the update queue (R66). -/
def queuePlaces : Nat := 64

/-- The most contexts any window gives room for (R162). -/
def poolLimit : Nat := 8192

/-- Places of the notice ring and of the due ring (R198). -/
def ringPlaces : Nat := 1024

/-- Places of a ring that may be held at once (R182, R186). -/
def ringHeldLimit : Nat := 1023

/-- Descriptors of the command ring (R198). -/
def commandPlaces : Nat := 256

/-- One past the highest 40-bit address (00_scope.md, Addresses). -/
def addressTop : Nat := 2 ^ 40

/-- Where the coalescing timer's count stops: 1000 ms (R188). -/
def coalescingStop : Nat := 16384000

/-- FREE VALUE (notes/assumptions/3.md). What a code byte of a fetched context image that names no member of
its code set stands for. R189 says such a code is handled where the owning rule says, and no rule of the
context chapters says. Only memory that the part did not write can hold one. -/
opaque unnamedCode : Nat → Nat

/-- FREE VALUE (notes/assumptions/4.md). The datum of the MEMORY_FAULT notice of a failed descriptor fetch,
by the descriptor's ring position. R175 names the detail DESCRIPTOR_READ and states no datum. -/
opaque descriptorReadDatum : Nat → Nat

end Sys2Proof.Config
end

