-- ==== Sys2Proof/Machine/State.lean ====
section
/-!
DEFINITION. Everything the spec gives the part to hold, as plain data, and the state after pin reset.
Fields that are the MODEL's own (they stand for a port or for an order the spec keeps, and no rule names them
as state of the part) say so in their docstring; INVENTORY.md lists them apart.
-/

namespace Sys2Proof.Machine

/-- A step of the part never stops the part with a fault: every error the spec knows ends in a status, a
notice, a counter or an error response, and the part goes on. The type is therefore closed and empty. -/
inductive Fault where
  deriving DecidableEq, Repr

/-- Why a step is refused. -/
inductive Refusal where
  /-- Raised by `exec`'s arm of a row that has no meaning yet; no arm is left so. Safe. -/
  | notModelled (mnemonic : String)
  /-- Raised by a meaning on a term that is no step of the part: a transaction the port cannot carry, a write
  that does not cover what its row says, an answer of another length than the access (log 11). Safe: nothing
  is claimed about it. -/
  | illFormed
  deriving DecidableEq, Repr

/-! ## The code sets (R189) -/

/-- Run state (R158). -/
inductive RunState where
  | idle
  | running
  | stopped
  deriving DecidableEq, Repr, Inhabited

/-- Channel state (R145, R146); `opened` is the manual's OPEN. -/
inductive ChannelState where
  | closed
  | opened
  | quiet
  deriving DecidableEq, Repr, Inhabited

/-- Context state (R5). -/
inductive CtxState where
  | vacant
  | initial
  | acquiring
  | tracking
  | held
  | lapsed
  deriving DecidableEq, Repr, Inhabited

/-- Lapse reason (R5). -/
inductive LapseReason where
  | noReason
  | silent
  | noSettle
  deriving DecidableEq, Repr, Inhabited

/-- Kind of a calendar entry (R108). -/
inductive CalKind where
  | offer
  | offerForced
  | grace
  deriving DecidableEq, Repr, Inhabited

/-- Period class of a calendar entry (R108). -/
inductive PeriodClass where
  | acquire
  | tracking
  deriving DecidableEq, Repr, Inhabited

/-- Status of a correction (R42). -/
inductive CorrStatus where
  | continuing
  | settled
  | abort
  deriving DecidableEq, Repr, Inhabited

/-- Why a job in flight is lost (R69, R71). -/
inductive LossCause where
  | released
  | lapsed
  | operator
  deriving DecidableEq, Repr, Inhabited

/-- The status a descriptor is answered with (R193). -/
inductive Status where
  | done
  | doneClamped
  | badOpcode
  | state
  | duplicate
  | notFound
  | full
  | closed
  | keyInvalid
  | overlap
  | inUse
  | range
  | memory
  deriving DecidableEq, Repr, Inhabited

/-! ## Contexts -/

/-- A link key, or the channel and station a record or header names (R1, R189). -/
structure Key where
  channel : Nat := 0
  station : Nat := 0
  deriving DecidableEq, Repr, Inhabited

/-- One complex tap, each component in Q2.13. -/
structure Tap where
  re : Int := 0
  im : Int := 0
  deriving DecidableEq, Repr, Inhabited

/-- A correction (R5, R8, R43). TAPS_PRESENT is set exactly when `taps` is present (R5). -/
structure Correction where
  status : CorrStatus
  taps : Option (List Tap)
  clipped : Bool
  tapsSkipped : Bool
  timingClamped : Bool
  powerClamped : Bool
  freqClamped : Bool
  timing : Int
  power : Int
  freq : Int
  basis : Nat
  id : Nat
  deriving DecidableEq, Repr, Inhabited

/-- The last measurement of a context (R9). -/
structure Measurement where
  timing : Int := 0
  power : Int := 0
  freq : Int := 0
  snr : Nat := 0
  health : Nat := 0
  stamp : Tick := 0
  deriving DecidableEq, Repr, Inhabited

/-- The counters of a context (R10). -/
structure CtxCounters where
  captures : Nat := 0
  delivered : Nat := 0
  superseded : Nat := 0
  replaced : Nat := 0
  lost : Nat := 0
  rejected : Nat := 0
  clipped : Nat := 0
  deriving DecidableEq, Repr, Inhabited

/-- A ranging context (R5), field by field; its 256 bytes are `Context.toBytes` (R192). -/
structure Context where
  key : Key := {}
  state : CtxState := .vacant
  lapse : LapseReason := .noReason
  step : Nat := 0
  settle : Nat := 0
  impaired : Bool := false
  timingAtLimit : Bool := false
  powerAtLimit : Bool := false
  freqAtLimit : Bool := false
  calKind : Option CalKind := none
  miss : Nat := 0
  due : Tick := 0
  offTiming : Int := 0
  offFreq : Int := 0
  offPower : Int := 0
  hold : Bool := false
  freeze : Bool := false
  basis : Nat := 0
  corrSeq : Nat := 0
  taps : List Tap := List.replicate 12 {}
  pending : Option Correction := none
  meas : Measurement := {}
  counters : CtxCounters := {}
  deriving DecidableEq, Repr, Inhabited

/-! ## Channel policies -/

/-- One gain set: four shifts, each 0..3 (R27, R148). -/
structure Gains where
  timing : Nat
  power : Nat
  freq : Nat
  taps : Nat
  deriving DecidableEq, Repr, Inhabited

/-- The policy of a channel (R148), with its defaults. -/
structure Policy where
  mainTap : Nat := 4
  acq : Gains := ⟨0, 0, 0, 1⟩
  trk : Gains := ⟨2, 1, 2, 3⟩
  timingStep : Nat := 16384
  timingRange : Nat := 16777216
  powerStep : Nat := 24
  powerRange : Nat := 96
  freqStep : Nat := 2000
  freqRange : Nat := 20000
  settleTiming : Nat := 64
  settlePower : Nat := 8
  settleFreq : Nat := 50
  settleHealth : Nat := 230
  relapseTiming : Nat := 2048
  relapsePower : Nat := 48
  impaired : Nat := 200
  snrMin : Nat := 80
  settleTarget : Nat := 2
  acquireLimit : Nat := 16
  acquirePeriod : Nat := 200
  trackingPeriod : Nat := 15000
  grace : Nat := 500
  missLimit : Nat := 8
  quiet : Nat := 0
  deriving DecidableEq, Repr, Inhabited

/-- The six capture counters of a channel (R64). -/
structure ChanCounters where
  taken : Nat := 0
  unknown : Nat := 0
  lapsedCapture : Nat := 0
  collided : Nat := 0
  dropped : Nat := 0
  torn : Nat := 0
  deriving DecidableEq, Repr, Inhabited

/-- A channel record of CPT (R145). -/
structure Channel where
  state : ChannelState := .closed
  policy : Policy := {}
  counters : ChanCounters := {}
  deriving DecidableEq, Repr, Inhabited

/-- A running quiet timer: its interval in ticks and the instant it was last restarted (R62). -/
structure QuietTimer where
  interval : Nat
  since : Tick
  deriving DecidableEq, Repr, Inhabited

/-! ## Windows and capture intake -/

/-- Kind of a window-table entry (R162). -/
inductive WindowKind where
  | capture
  | context
  deriving DecidableEq, Repr, Inhabited

/-- An enabled window-table entry (R162). -/
structure Window where
  kind : WindowKind
  base : Nat
  size : Nat
  deriving DecidableEq, Repr, Inhabited

/-- An open assembly (R47): the block's address, its 64 bytes as far as written, the latched stamp. -/
structure Assembly where
  block : Nat
  bytes : List WByte
  stamp : Tick
  deriving DecidableEq, Repr, Inhabited

/-! ## Update queue and coefficient engine -/

/-- The two kinds of job and what each alone carries (R66). -/
inductive JobKind where
  | capture (tally : Nat)
  | trial (raw : Bool) (position : Nat)
  deriving DecidableEq, Repr, Inhabited

/-- A job of the update queue (R66). -/
structure Job where
  kind : JobKind
  index : Nat
  key : Key
  record : List Byte
  stamp : Tick
  deriving DecidableEq, Repr, Inhabited

/-- What an update reads at its job start (R25). The counts are in it for TRIAL alone (R81). -/
structure Snapshot where
  state : CtxState
  offTiming : Int
  offPower : Int
  offFreq : Int
  taps : List Tap
  basis : Nat
  freeze : Bool
  step : Nat
  settle : Nat
  policy : Policy
  deriving DecidableEq, Repr, Inhabited

/-- The coefficient engine (R69): idle, or a job in its obtaining or its computing phase with its mark. -/
inductive Engine where
  | idle
  | obtaining (job : Job) (mark : Option LossCause)
  | computing (job : Job) (mark : Option LossCause) (snap : Snapshot)
  deriving DecidableEq, Repr, Inhabited

/-! ## Context cache -/

/-- Condition of a cache entry (R85). -/
inductive EntryCond where
  | invalid
  | fetching
  | valid
  | retiring
  deriving DecidableEq, Repr, Inhabited

/-- An operator write waiting in a merge list: the transaction it came by and the operator bytes it carries,
each with its offset in the context (R85, R101). -/
structure MergeWrite where
  txn : Nat
  bytes : List (Nat × Byte)
  deriving DecidableEq, Repr, Inhabited

/-- What has come about since the write-back of a RETIRING entry was issued (R92): a request was given the
entry, the image changed, the write-back ended while reads were still held. -/
structure Retire where
  given : Bool := false
  changed : Bool := false
  ended : Bool := false
  deriving DecidableEq, Repr, Inhabited

/-- A cache entry (R85). `released` records that a RELEASE was taken against a FETCHING or pinned entry
(R21, R91, R93). -/
structure Entry where
  cond : EntryCond := .invalid
  index : Nat := 0
  key : Key := {}
  image : Context := {}
  dirty : Bool := false
  pinned : Bool := false
  faulted : Bool := false
  holds : Nat := 0
  merge : List MergeWrite := []
  retire : Retire := {}
  released : Bool := false
  deriving DecidableEq, Repr, Inhabited

/-- Who asks CC for a context (R87, R89, R94). -/
inductive Requester where
  | engine
  | slot (n : Nat)
  | promotion
  | lapse
  | revive
  | copy
  | write (txn index : Nat) (bytes : List (Nat × Byte))
  deriving DecidableEq, Repr, Inhabited

/-- What a request waits on (R87 to R89): a place in the cache, the write-back of an entry, the fetch data, or
nothing more (the entry is there, or the context is gone, and the requester's own step takes it). `kept` is
`ready` on an entry that was RETIRING when the request was given it: the giving does not move it (R86). -/
inductive Wait where
  | list
  | writeBack (entry : Nat)
  | fetch
  | ready
  | kept
  deriving DecidableEq, Repr, Inhabited

/-- A request, with the index and the key it carries (R3, R87). -/
structure Req where
  who : Requester
  index : Nat
  key : Key
  wait : Wait
  deriving DecidableEq, Repr, Inhabited

/-! ## Maintenance calendar -/

/-- A calendar entry (R108). -/
structure CalEntry where
  index : Nat
  key : Key
  kind : CalKind
  due : Tick
  miss : Nat
  cls : PeriodClass
  base : Tick
  lapsing : Bool
  deriving DecidableEq, Repr, Inhabited

/-- A link of the lapse list with the counter value at the taking that began its lapse (R106, R115). -/
structure Lapse where
  index : Nat
  key : Key
  stamp : Tick
  deriving DecidableEq, Repr, Inhabited

/-! ## Response slots -/

/-- Slot state (R126). -/
inductive SlotState where
  | idle
  | armed
  | bound
  | delivered
  deriving DecidableEq, Repr, Inhabited

/-- A bound copy (R126): a NOCHANGE copy with source none, or a correction with its source. -/
inductive BoundCopy where
  | noChange
  | correction (index : Nat) (key : Key) (corr : Correction)
  deriving DecidableEq, Repr, Inhabited

/-- A slot record (R126). `waiting` names each waiting read by its transaction and the number of its part;
`heldWrites` holds the key bytes of each held header write by their offset in the slot. -/
structure Slot where
  state : SlotState := .idle
  keyImage : List Byte := [0, 0, 0, 0]
  latched : Key := {}
  copy : Option BoundCopy := none
  binding : Bool := false
  waiting : List (Nat × Nat) := []
  heldWrites : List (List (Nat × Byte)) := []
  deriving DecidableEq, Repr, Inhabited

/-- A record of the promotion list (R137). -/
structure Promotion where
  slot : Nat
  index : Nat
  key : Key
  corr : Correction
  deriving DecidableEq, Repr, Inhabited

/-! ## Command unit -/

/-- Where a READ_CONTEXTS stands (R103 to R105): the keys still to visit, the destination, the count asked
for, the copies made and the last key copied. -/
structure CopyWork where
  rest : List (Key × Nat)
  dest : Nat
  count : Nat
  made : Nat
  last : Key
  deriving DecidableEq, Repr, Inhabited

/-- Where the command unit stands (R174). IDLE, FETCHING and the three ANSWERING phases aside, every phase is
the condition EXECUTING: `executing` is a command fetched and not yet begun, and each other phase is one
command waiting on one access or on the cache. -/
inductive CmuPhase where
  | idle
  | fetching
  | executing (copy : List Byte)
  | admitWrite (key : Key) (index : Nat) (clamped : Bool)
  /-- RELEASE waits for the outstanding write-back of the context (R92) before its header write. -/
  | releaseDrain (key : Key) (index : Nat) (rest : List (Key × Nat)) (failed : Bool)
  | releaseWrite (key : Key) (index : Nat) (rest : List (Key × Nat)) (failed : Bool)
  | reviving (key : Key) (index : Nat) (rest : List (Key × Nat)) (failed : Bool)
  /-- FORCE_DUE with station 0 between its visits, with the links still to visit (R124). -/
  | forcing (rest : List (Key × Nat))
  | policyRead (channel : Nat)
  | channelWrite (channel : Nat) (clear : Bool) (reported : ChanCounters)
  | trialRead (key : Key) (index : Nat) (raw : Bool)
  | trialWait
  | trialWrite (key : Key)
  | copying (key : Key) (index : Nat) (work : CopyWork)
  | copyWrite (key : Key) (work : CopyWork)
  | identifyWrite
  | mirrorWrite
  | resultWrite (left : Nat) (status : Status)
  | statusWrite
  | indexWrite
  deriving DecidableEq, Repr, Inhabited

/-- The command unit (R173, R174). `producerTake` is the number of the passing write that last handed a
producer value; descriptor fetches are issued after every passing write taken before it (R170, R175). -/
structure Cmu where
  producer : Nat := 0
  consumer : Nat := 0
  shadow : BitVec 32 := 0
  producerTake : Nat := 0
  phase : CmuPhase := .idle
  deriving DecidableEq, Repr, Inhabited

/-! ## Notice writer -/

/-- The three indices of a ring (10_command_ring_and_notices.md). -/
structure Ring where
  claimed : Nat := 0
  published : Nat := 0
  consumer : Nat := 0
  deriving DecidableEq, Repr, Inhabited

/-- The notice writer (R173, R179, R181 to R188). `timer` is the coalescing timer: stopped, holding 0, or
running with its count. -/
structure Nw where
  notices : Ring := {}
  due : Ring := {}
  noticeShadow : BitVec 32 := 0
  dueShadow : BitVec 32 := 0
  overflow : Nat := 0
  coalesceN : Nat := 1
  coalesceT : Nat := 0
  timer : Option Nat := none
  attn : Bool := false
  deriving DecidableEq, Repr, Inhabited

/-! ## Memory port -/

/-- The sources that share the memory port (R169). -/
inductive Source where
  | passing
  | cache
  | command
  | notice
  deriving DecidableEq, Repr, Inhabited

/-- What an access at the memory port is for: which of its ends is which. -/
inductive Purpose where
  | passing (txn : Nat)
  | fetch (index : Nat)
  | writeBack (index : Nat) (key : Key)
  | descriptor
  | admitImage
  | releaseHeader
  | policyBlock
  | channelRecord
  | trialRecord
  | trialResult
  | contextCopy
  | identify
  | mirror
  | resultField
  | status
  | consumerWord
  | notice
  | noticeProducer
  | offer (position : Nat) (key : Key)
  | dueProducer (value : Nat)
  deriving DecidableEq, Repr, Inhabited

/-- The body of an access: a read of so many bytes, or a write of these bytes with their enables. -/
inductive Body where
  | read (len : Nat)
  | write (bytes : List WByte)
  deriving DecidableEq, Repr, Inhabited

/-- An access at the memory port. -/
structure Access where
  purpose : Purpose
  addr : Nat
  body : Body
  deriving DecidableEq, Repr, Inhabited

/-- An access waiting for its grant. A passing one carries its initiator and its number in `order`; for the part's
own, `order` says how many transactions had been taken when it was made, which is what R170 and R171 order it
by. `ready` is set once no ordering rule holds it back (R169). -/
structure QItem where
  access : Access
  order : Nat
  init : Option Initiator := none
  ready : Bool := false
  deriving DecidableEq, Repr, Inhabited

/-- The memory port (R169): what each source has waiting, the ready ones first in the order they became ready and
the held ones behind them in the order they were made, the source last granted, and the accesses issued and not yet answered, oldest first. -/
structure MemPort where
  passing : List QItem := []
  cache : List QItem := []
  command : List QItem := []
  notice : List QItem := []
  last : Source := .notice
  outstanding : List Access := []
  deriving DecidableEq, Repr, Inhabited

/-! ## Passing transactions -/

/-- The owner of a run of bytes of a transaction (R159, R161), with the unit the owner divides by: an index
word, a slot, a 64-byte block of a capture window, a 256-byte context. -/
inductive Owner where
  | plain
  | word (w : Nat)
  | slot (n : Nat)
  | capture (window block : Nat)
  | context (index : Nat)
  deriving DecidableEq, Repr, Inhabited

/-- A part of a transaction: its owner, where it starts and ends in the transaction, and the offset of its
first byte in the owner's unit. -/
structure Part where
  owner : Owner
  start : Nat
  len : Nat
  off : Nat
  deriving DecidableEq, Repr, Inhabited

/-- What a part of a read is at its take (R97, R98, R127): plain, of a slot, of an admitted context with its
key and whether a hold is placed, or waiting for an ADMIT or RELEASE write to be judged again. -/
inductive ReadOwner where
  | plain
  | slot (n : Nat)
  | context (index : Nat) (key : Key) (held : Bool)
  | unjudged (index : Nat)
  deriving DecidableEq, Repr, Inhabited

/-- A part of a read and whether it has been completed. -/
structure ReadPart where
  owner : ReadOwner
  start : Nat
  len : Nat
  off : Nat
  done : Bool
  deriving DecidableEq, Repr, Inhabited

/-- The direction of an open transaction and what each direction keeps. A write keeps the parts its owners have
still to handle, its bytes as they will go out, the number of dropped bytes and the key of the first context
that dropped one (R99). -/
inductive TxnBody where
  | read (len : Nat) (parts : List ReadPart) (data : Option (List Byte))
  | write (todo : List Part) (bytes : List WByte) (dropped : Nat) (firstKey : Option Key)
  deriving DecidableEq, Repr, Inhabited

/-- The completion of a transaction to its initiator: a normal response (with data for a read), or an error. -/
inductive Response where
  | normal (data : List Byte)
  | error
  deriving DecidableEq, Repr, Inhabited

/-- An open passing transaction (R158): its number in the order of takes (the MODEL's own name for it), its
initiator, the run state at its take (R167), whether it has been handed to the memory port or completed by the
part, its completion once known, and whether that has been returned. A write-allocated write stays on the list
after its return until it is taken (R101). -/
structure Txn where
  id : Nat
  init : Initiator
  addr : Nat
  run : RunState
  body : TxnBody
  handled : Bool
  result : Option Response
  responded : Bool
  deriving DecidableEq, Repr, Inhabited

/-- A transaction an initiator holds at the system port, not yet taken (R159). -/
inductive PortTxn where
  | read (init : Initiator) (addr len : Nat)
  | write (init : Initiator) (addr : Nat) (bytes : List WByte)
  deriving DecidableEq, Repr, Inhabited

/-- A response returned at the system port. -/
structure Returned where
  init : Initiator
  txn : Nat
  response : Response
  deriving DecidableEq, Repr, Inhabited

/-! ## The state -/

/-- The state of the part. -/
structure State where
  /-- RESET_N is asserted (R172). -/
  inReset : Bool
  /-- The reference counter (R106). -/
  now : Tick
  /-- The latched strap value (R158). -/
  strapBase : BitVec 16
  /-- The run state (R158). -/
  run : RunState
  /-- The window table (R162). -/
  windows : Vector (Option Window) 6
  /-- The assembly of each window-table entry, `none` where it is empty or the entry has none (R47). -/
  assemblies : Vector (Option Assembly) 6
  /-- The quiet timer of each channel, `none` where it is stopped (R62). -/
  quietTimers : Vector (Option QuietTimer) 16
  /-- The channel records (R145). -/
  channels : Vector Channel 16
  /-- The key directory, in ascending key order (R2). -/
  kdir : List (Key × Nat)
  /-- The update queue, its head first (R66). -/
  queue : List Job
  /-- The coefficient engine (R69). -/
  engine : Engine
  /-- The cache entries (R85). -/
  entries : Vector Entry 32
  /-- The order of recency: entry numbers, the most recently used last (R86). -/
  recency : List Nat
  /-- The requests made of the cache and not yet served, in the order they began to wait (R87 to R89). -/
  reqs : List Req
  /-- The calendar entries, each placed behind the others when its due time is set (R108, R109). -/
  calendar : List CalEntry
  /-- The lapse list (R115). -/
  lapses : List Lapse
  /-- The slot records (R126). -/
  slots : Vector Slot 64
  /-- The promotion list (R137). -/
  promotions : List Promotion
  /-- The command unit (R174). -/
  cmu : Cmu
  /-- The notice writer (R181 to R188), with the ATTN line. -/
  nw : Nw
  /-- The open list (R158), in the order of the takes. -/
  txns : List Txn
  /-- The MODEL's own: the number of the next take. -/
  takes : Nat
  /-- The MODEL's own: transactions that wait at the system port for a place on the open list (R159). -/
  atPort : List PortTxn
  /-- The MODEL's own: the responses returned at the system port so far, oldest first. -/
  returned : List Returned
  /-- The memory port (R169): waiting and outstanding accesses. -/
  mem : MemPort
  /-- The MODEL's own: the steps that are waiting to be made, first in, first out. -/
  pending : List Instr
  deriving DecidableEq, Repr

/-- The part while its RESET_N is asserted: every block at its pin-reset value (R172), the reference counter at
0 (R106), nothing in the model's own fields. The strap base is latched only at the deassertion; until then its
field holds 0, which nothing reads (log 1). -/
def State.reset : State where
  inReset := true
  now := 0
  strapBase := 0
  run := .idle
  windows := Vector.replicate 6 none
  assemblies := Vector.replicate 6 none
  quietTimers := Vector.replicate 16 none
  channels := Vector.replicate 16 {}
  kdir := []
  queue := []
  engine := .idle
  entries := Vector.replicate 32 {}
  recency := []
  reqs := []
  calendar := []
  lapses := []
  slots := Vector.replicate 64 {}
  promotions := []
  cmu := {}
  nw := {}
  txns := []
  takes := 0
  atPort := []
  returned := []
  mem := {}
  pending := []

end Sys2Proof.Machine
end

