-- ==== Sys2Proof/Machine/Flags.lean ====
section
/-!
DEFINITION. The flag bytes and code sets of the records (R189, R191, R192, R194, R195, R196): each state or
flag to its code, and back where the part reads one.
-/

namespace Sys2Proof.Machine

/-- Bit `n` of a flag byte, set when `b`. -/
def flagBit (n : Nat) (b : Bool) : Nat := if b then 2 ^ n else 0

/-- Run-state codes (R189): they start from 1. -/
def RunState.code : RunState → Nat
  | .idle => 1
  | .running => 2
  | .stopped => 3

/-- Channel-state codes (R189). -/
def ChannelState.code : ChannelState → Nat
  | .closed => 0
  | .opened => 1
  | .quiet => 2

/-- Context-state codes (R189). -/
def CtxState.code : CtxState → Nat
  | .vacant => 0
  | .initial => 1
  | .acquiring => 2
  | .tracking => 3
  | .held => 4
  | .lapsed => 5

/-- The state a named code gives. -/
def CtxState.ofNamed : Nat → CtxState
  | 0 => .vacant
  | 1 => .initial
  | 2 => .acquiring
  | 3 => .tracking
  | 4 => .held
  | _ => .lapsed

/-- The state a code byte gives; a code that names no state is open (log 3). -/
def CtxState.ofCode (c : Nat) : CtxState :=
  if c ≤ 5 then CtxState.ofNamed c else CtxState.ofNamed (Config.unnamedCode c % 6)

/-- Lapse-reason codes (R189). -/
def LapseReason.code : LapseReason → Nat
  | .noReason => 0
  | .silent => 1
  | .noSettle => 2

/-- The lapse reason a named code gives. -/
def LapseReason.ofNamed : Nat → LapseReason
  | 0 => .noReason
  | 1 => .silent
  | _ => .noSettle

/-- The lapse reason a code byte gives; a code that names none is open (log 3). -/
def LapseReason.ofCode (c : Nat) : LapseReason :=
  if c ≤ 2 then LapseReason.ofNamed c else LapseReason.ofNamed (Config.unnamedCode c % 3)

/-- Calendar-kind codes (R189), 0 for none. -/
def calKindCode : Option CalKind → Nat
  | none => 0
  | some .offer => 1
  | some .offerForced => 2
  | some .grace => 3

/-- The calendar kind a named code gives. -/
def calKindOfNamed : Nat → Option CalKind
  | 0 => none
  | 1 => some .offer
  | 2 => some .offerForced
  | _ => some .grace

/-- The calendar kind a code byte gives; a code that names none is open (log 3). -/
def calKindOfCode (c : Nat) : Option CalKind :=
  if c ≤ 3 then calKindOfNamed c else calKindOfNamed (Config.unnamedCode c % 4)

/-- Correction-status codes (R189). -/
def CorrStatus.code : CorrStatus → Nat
  | .continuing => 1
  | .settled => 2
  | .abort => 3

/-- The correction status a named code gives. -/
def CorrStatus.ofNamed : Nat → CorrStatus
  | 1 => .continuing
  | 2 => .settled
  | _ => .abort

/-- The status of the pending correction by byte 80 of a context: `none` for 0 (R192); another code that names
no status is open (log 3). -/
def pendingStatus (c : Nat) : Option CorrStatus :=
  if c = 0 then none
  else if c ≤ 3 then some (CorrStatus.ofNamed c)
  else some (CorrStatus.ofNamed (1 + Config.unnamedCode c % 3))

/-- Status codes of a descriptor (R193). -/
def Status.code : Status → Nat
  | .done => 1
  | .doneClamped => 2
  | .badOpcode => 3
  | .state => 4
  | .duplicate => 5
  | .notFound => 6
  | .full => 7
  | .closed => 8
  | .keyInvalid => 9
  | .overlap => 10
  | .inUse => 11
  | .range => 12
  | .memory => 13

/-- The flags byte of a context (R192). -/
def Context.flagsByte (c : Context) : Nat :=
  flagBit 0 c.impaired + flagBit 1 c.timingAtLimit + flagBit 2 c.powerAtLimit + flagBit 3 c.freqAtLimit

/-- The operator control byte (R192): bit 0 hold, bit 1 freeze, the rest zero. -/
def controlByte (hold freeze : Bool) : Nat := flagBit 0 hold + flagBit 1 freeze

/-- The flags byte of a correction in a context and in the trial result (R192, R196). -/
def correctionFlags (tapsPresent clipped tapsSkipped timingClamped powerClamped freqClamped : Bool) : Nat :=
  flagBit 0 tapsPresent + flagBit 1 clipped + flagBit 2 tapsSkipped + flagBit 3 timingClamped
    + flagBit 4 powerClamped + flagBit 5 freqClamped

/-- The flags byte of a pending correction (R192). -/
def Correction.flagsByte (c : Correction) : Nat :=
  correctionFlags c.taps.isSome c.clipped c.tapsSkipped c.timingClamped c.powerClamped c.freqClamped

/-- One or more of the three clamp flags (R134, R45). -/
def Correction.clamped (c : Correction) : Bool := c.timingClamped || c.powerClamped || c.freqClamped

/-- The detail of ADJUST_CLAMPED (R194). -/
def Correction.clampDetail (c : Correction) : Nat :=
  flagBit 0 c.timingClamped + flagBit 1 c.powerClamped + flagBit 2 c.freqClamped

/-- The status-and-flags byte of a response (R191). -/
def Correction.responseByte (c : Correction) : Nat :=
  c.status.code + flagBit 4 c.taps.isSome + flagBit 5 c.clipped + flagBit 6 c.tapsSkipped + flagBit 7 c.clamped

/-- The detail of STATE_CHANGE (R194): old state in bits 0 to 3, new state in bits 4 to 7. -/
def stateChangeDetail (old new : CtxState) : Nat := old.code + 16 * new.code

/-- The kinds of notice (R194). -/
inductive NoticeKind where
  | captureUnknown
  | captureDropped
  | captureTorn
  | stateChange
  | updateLost
  | updateRejected
  | adjustClamped
  | impaired
  | restored
  | pendingDiscarded
  | deliveryStale
  | guardedWrite
  | channelQuiet
  | channelAlive
  | memoryFault
  | overflow
  deriving DecidableEq, Repr, Inhabited

/-- Notice-kind codes (R194). -/
def NoticeKind.code : NoticeKind → Nat
  | .captureUnknown => 1
  | .captureDropped => 2
  | .captureTorn => 3
  | .stateChange => 4
  | .updateLost => 5
  | .updateRejected => 6
  | .adjustClamped => 7
  | .impaired => 8
  | .restored => 9
  | .pendingDiscarded => 10
  | .deliveryStale => 11
  | .guardedWrite => 12
  | .channelQuiet => 13
  | .channelAlive => 14
  | .memoryFault => 15
  | .overflow => 16

/-- The accesses a MEMORY_FAULT names (R194). -/
inductive FaultAccess where
  | fetch
  | writeBack
  | admitWrite
  | releaseWrite
  | trialRead
  | trialWrite
  | copyWrite
  | policyRead
  | channelWrite
  | mirrorWrite
  | descriptorRead
  | resultWrite
  | statusWrite
  | commandIndexWrite
  | identifyWrite
  | offerWrite
  | dueIndexWrite
  deriving DecidableEq, Repr, Inhabited

/-- MEMORY_FAULT details (R194). -/
def FaultAccess.code : FaultAccess → Nat
  | .fetch => 1
  | .writeBack => 2
  | .admitWrite => 3
  | .releaseWrite => 4
  | .trialRead => 5
  | .trialWrite => 6
  | .copyWrite => 7
  | .policyRead => 8
  | .channelWrite => 9
  | .mirrorWrite => 10
  | .descriptorRead => 11
  | .resultWrite => 12
  | .statusWrite => 13
  | .commandIndexWrite => 14
  | .identifyWrite => 15
  | .offerWrite => 16
  | .dueIndexWrite => 17

/-- UPDATE_LOST details (R194). -/
def LossCause.code : LossCause → Nat
  | .released => 1
  | .lapsed => 2
  | .operator => 3

/-- CAPTURE_UNKNOWN details (R194). -/
inductive UnknownDetail where
  | badKey
  | closed
  | notAdmitted
  deriving DecidableEq, Repr, Inhabited

/-- CAPTURE_UNKNOWN detail codes (R194). -/
def UnknownDetail.code : UnknownDetail → Nat
  | .badKey => 1
  | .closed => 2
  | .notAdmitted => 3

/-- CAPTURE_TORN details (R194). -/
inductive TornDetail where
  | newBlock
  | windowChanged
  | stopped
  deriving DecidableEq, Repr, Inhabited

/-- CAPTURE_TORN detail codes (R194). -/
def TornDetail.code : TornDetail → Nat
  | .newBlock => 1
  | .windowChanged => 2
  | .stopped => 3

/-- DELIVERY_STALE details (R194). -/
inductive StaleReason where
  | gone
  | basis
  | noPending
  | fault
  deriving DecidableEq, Repr, Inhabited

/-- DELIVERY_STALE detail codes (R194). -/
def StaleReason.code : StaleReason → Nat
  | .gone => 1
  | .basis => 2
  | .noPending => 3
  | .fault => 4

/-- PENDING_DISCARDED detail codes (R194). -/
def discardedByOperator : Nat := 1

/-- PENDING_DISCARDED detail codes (R194). -/
def supersededByDelivery : Nat := 2

/-- Offer reasons (R111, R189). -/
inductive OfferReason where
  | scheduled
  | retry
  | forced
  deriving DecidableEq, Repr, Inhabited

/-- Offer-reason codes (R189). -/
def OfferReason.code : OfferReason → Nat
  | .scheduled => 1
  | .retry => 2
  | .forced => 3

end Sys2Proof.Machine
end

