-- ==== Sys2Proof/Machine/Operands.lean ====
section
/-!
DEFINITION. Bytes and fields: little-endian composition and reading (R189), and the byte layout of every record
the part reads or writes (R190 to R197). Offsets are those of 11_formats.md.
-/

namespace Sys2Proof.Machine

/-! ## Bytes (R189) -/

/-- The `n` bytes of an unsigned value, little-endian. -/
def le (n v : Nat) : List Byte :=
  (List.range n).map fun i => BitVec.ofNat 8 (v / 2 ^ (8 * i))

/-- The `n` bytes of a signed value in two's complement, little-endian. -/
def leInt (n : Nat) (v : Int) : List Byte := le n (v % 2 ^ (8 * n)).toNat

/-- The byte at an offset; bytes past the end of the list read 0 (a record is read at its full length only). -/
def byteAt (bs : List Byte) (off : Nat) : Nat := (bs.getD off 0).toNat

/-- An unsigned field of `n` bytes at an offset. -/
def getLe (bs : List Byte) (off n : Nat) : Nat :=
  (List.range n).foldr (fun i acc => byteAt bs (off + i) * 2 ^ (8 * i) + acc) 0

/-- A value of `n` bytes read in two's complement. -/
def signed (n v : Nat) : Int := if v < 2 ^ (8 * n - 1) then (v : Int) else (v : Int) - 2 ^ (8 * n)

/-- A signed field of `n` bytes at an offset. -/
def getInt (bs : List Byte) (off n : Nat) : Int := signed n (getLe bs off n)

/-- Bit `n` of the byte at an offset. -/
def bitAt (bs : List Byte) (off n : Nat) : Bool := (byteAt bs off).testBit n

/-- `n` zero bytes. -/
def zeros (n : Nat) : List Byte := List.replicate n 0

/-- Replaces, in a record, the bytes named with their offsets. -/
def putBytes (bs : List Byte) (ps : List (Nat × Byte)) : List Byte :=
  ps.foldl (fun acc p => acc.set p.1 p.2) bs

/-- A write of these bytes, all enabled. -/
def enabled (bs : List Byte) : List WByte := bs.map some

/-! ## Keys, taps -/

/-- A key field (R189): channel, a byte that is not part of the key and is composed as 0, station. -/
def Key.toBytes (k : Key) : List Byte := le 1 k.channel ++ zeros 1 ++ le 2 k.station

/-- The key field at an offset; byte 1 of the field is not examined (R189). -/
def getKey (bs : List Byte) (off : Nat) : Key := ⟨byteAt bs off, getLe bs (off + 2) 2⟩

/-- A 40-bit address at an offset (R189). -/
def getAddress (bs : List Byte) (off : Nat) : Nat := getLe bs off 5

/-- The four bytes of a tap (R189). -/
def Tap.toBytes (t : Tap) : List Byte := leInt 2 t.re ++ leInt 2 t.im

/-- Tap `k` of a tap set; a set has twelve. -/
def tapAt (ts : List Tap) (k : Nat) : Tap := ts.getD k {}

/-- The 48 bytes of a tap set (R189). -/
def tapBytes (ts : List Tap) : List Byte := (List.range 12).flatMap fun k => (tapAt ts k).toBytes

/-- The tap set at an offset (R189). -/
def getTaps (bs : List Byte) (off : Nat) : List Tap :=
  (List.range 12).map fun k => ⟨getInt bs (off + 4 * k) 2, getInt bs (off + 4 * k + 2) 2⟩

/-! ## Capture record (R190) -/

/-- The key field of a capture record. -/
def recKey (r : List Byte) : Key := getKey r 0

/-- TAPS_PRESENT of a capture record. -/
def recTapsPresent (r : List Byte) : Bool := bitAt r 1 0

/-- COLLIDED of a capture record. -/
def recCollided (r : List Byte) : Bool := bitAt r 1 1

/-- Timing error e, signed 24-bit (R24). -/
def recTiming (r : List Byte) : Int := getInt r 4 3

/-- SNR, quarter dB. -/
def recSnr (r : List Byte) : Nat := byteAt r 7

/-- Power error p, 1/16 dB. -/
def recPower (r : List Byte) : Int := getInt r 8 2

/-- Frequency error f, Hz. -/
def recFreq (r : List Byte) : Int := getInt r 10 2

/-- The stamp bytes of a record, as they stand in it. -/
def recStamp (r : List Byte) : Tick := BitVec.ofNat 32 (getLe r 12 4)

/-- The captured taps C. -/
def recTaps (r : List Byte) : List Tap := getTaps r 16

/-! ## Context record (R192) -/

/-- The pending correction block, all zero when there is none. -/
def pendingBytes (p : Option Correction) : List Byte :=
  match p with
  | none => zeros 64
  | some c =>
    le 1 c.status.code ++ le 1 c.flagsByte ++ leInt 1 c.power ++ zeros 1 ++ leInt 4 c.timing ++ leInt 2 c.freq
      ++ le 2 c.basis ++ le 2 c.id ++ zeros 2
      ++ (match c.taps with
          | none => zeros 48
          | some ts => tapBytes ts)

/-- The last measurement block. -/
def Measurement.toBytes (m : Measurement) : List Byte :=
  leInt 4 m.timing ++ leInt 2 m.power ++ leInt 2 m.freq ++ le 1 m.snr ++ le 1 m.health ++ zeros 2
    ++ le 4 m.stamp.toNat

/-- The counters block. -/
def CtxCounters.toBytes (c : CtxCounters) : List Byte :=
  le 4 c.captures ++ le 4 c.delivered ++ le 2 c.superseded ++ le 2 c.replaced ++ le 2 c.lost
    ++ le 2 c.rejected ++ le 2 c.clipped ++ zeros 14

/-- The first 16 bytes of a context: key, state, counts, flags and calendar fields. -/
def Context.headerBytes (c : Context) : List Byte :=
  c.key.toBytes ++ le 1 c.state.code ++ le 1 c.lapse.code ++ le 1 c.step ++ le 1 c.settle ++ le 1 c.flagsByte
    ++ le 1 (calKindCode c.calKind) ++ le 1 c.miss ++ zeros 1 ++ le 4 c.due.toNat

/-- The 256 bytes of a context. -/
def Context.toBytes (c : Context) : List Byte :=
  c.headerBytes
    ++ leInt 4 c.offTiming ++ leInt 2 c.offFreq ++ leInt 1 c.offPower ++ le 1 (controlByte c.hold c.freeze)
    ++ le 2 c.basis ++ le 2 c.corrSeq ++ zeros 4
    ++ tapBytes c.taps
    ++ pendingBytes c.pending
    ++ c.meas.toBytes
    ++ c.counters.toBytes
    ++ zeros 64

/-- The pending correction of a context image. -/
def getPending (bs : List Byte) : Option Correction :=
  (pendingStatus (byteAt bs 80)).map fun st =>
    { status := st
      taps := if bitAt bs 81 0 then some (getTaps bs 96) else none
      clipped := bitAt bs 81 1
      tapsSkipped := bitAt bs 81 2
      timingClamped := bitAt bs 81 3
      powerClamped := bitAt bs 81 4
      freqClamped := bitAt bs 81 5
      timing := getInt bs 84 4
      power := getInt bs 82 1
      freq := getInt bs 88 2
      basis := getLe bs 90 2
      id := getLe bs 92 2 }

/-- The context that 256 bytes of the context store hold. -/
def Context.ofBytes (bs : List Byte) : Context :=
  { key := getKey bs 0
    state := CtxState.ofCode (byteAt bs 4)
    lapse := LapseReason.ofCode (byteAt bs 5)
    step := byteAt bs 6
    settle := byteAt bs 7
    impaired := bitAt bs 8 0
    timingAtLimit := bitAt bs 8 1
    powerAtLimit := bitAt bs 8 2
    freqAtLimit := bitAt bs 8 3
    calKind := calKindOfCode (byteAt bs 9)
    miss := byteAt bs 10
    due := BitVec.ofNat 32 (getLe bs 12 4)
    offTiming := getInt bs 16 4
    offFreq := getInt bs 20 2
    offPower := getInt bs 22 1
    hold := bitAt bs 23 0
    freeze := bitAt bs 23 1
    basis := getLe bs 24 2
    corrSeq := getLe bs 26 2
    taps := getTaps bs 32
    pending := getPending bs
    meas :=
      { timing := getInt bs 144 4
        power := getInt bs 148 2
        freq := getInt bs 150 2
        snr := byteAt bs 152
        health := byteAt bs 153
        stamp := BitVec.ofNat 32 (getLe bs 156 4) }
    counters :=
      { captures := getLe bs 160 4
        delivered := getLe bs 164 4
        superseded := getLe bs 168 2
        replaced := getLe bs 170 2
        lost := getLe bs 172 2
        rejected := getLe bs 174 2
        clipped := getLe bs 176 2 } }

/-- The operator control byte of a context. -/
def controlOffset : Nat := 23

/-- An issued-tap byte of a context. -/
def isTapOffset (off : Nat) : Bool := decide (32 ≤ off) && decide (off < 80)

/-- An operator byte of a context: byte 23 and bytes 32 to 79 (R6, R192). -/
def isOperatorOffset (off : Nat) : Bool := off == controlOffset || isTapOffset off

/-- A calendar-owned byte of a context: 9, 10 and 12 to 15 (R6, R192). -/
def isCalendarOffset (off : Nat) : Bool := off == 9 || off == 10 || (decide (12 ≤ off) && decide (off < 16))

/-! ## Response slot (R191, R134) -/

/-- The 64 bytes of a slot as its body is patched; the header places are not used. -/
def BoundCopy.toBytes (c : BoundCopy) : List Byte :=
  match c with
  | .noChange => zeros 64
  | .correction _ _ p =>
    zeros 8 ++ le 1 p.responseByte ++ leInt 1 p.power ++ leInt 2 p.freq ++ leInt 4 p.timing
      ++ (match p.taps with
          | none => zeros 48
          | some ts => tapBytes ts)

/-! ## Policy block (R195) -/

/-- The fields of a policy block, read as unsigned numbers and not yet clamped (R149). -/
def Policy.read (bs : List Byte) : Policy :=
  { mainTap := byteAt bs 0
    acq := ⟨byteAt bs 1, byteAt bs 2, byteAt bs 3, byteAt bs 4⟩
    trk := ⟨byteAt bs 5, byteAt bs 6, byteAt bs 7, byteAt bs 8⟩
    powerStep := byteAt bs 9
    powerRange := byteAt bs 10
    settleTarget := byteAt bs 11
    timingStep := getLe bs 12 4
    timingRange := getLe bs 16 4
    freqStep := getLe bs 20 2
    freqRange := getLe bs 22 2
    settleTiming := getLe bs 24 4
    settlePower := getLe bs 28 2
    settleFreq := getLe bs 30 2
    settleHealth := byteAt bs 32
    impaired := byteAt bs 33
    snrMin := byteAt bs 34
    acquireLimit := byteAt bs 35
    relapseTiming := getLe bs 36 4
    relapsePower := getLe bs 40 2
    acquirePeriod := getLe bs 42 2
    trackingPeriod := getLe bs 44 2
    grace := getLe bs 46 2
    missLimit := byteAt bs 48
    quiet := byteAt bs 49 }

/-- The 64 bytes of a policy in the policy block layout (R195). -/
def Policy.toBytes (p : Policy) : List Byte :=
  le 1 p.mainTap
    ++ le 1 p.acq.timing ++ le 1 p.acq.power ++ le 1 p.acq.freq ++ le 1 p.acq.taps
    ++ le 1 p.trk.timing ++ le 1 p.trk.power ++ le 1 p.trk.freq ++ le 1 p.trk.taps
    ++ le 1 p.powerStep ++ le 1 p.powerRange ++ le 1 p.settleTarget
    ++ le 4 p.timingStep ++ le 4 p.timingRange ++ le 2 p.freqStep ++ le 2 p.freqRange
    ++ le 4 p.settleTiming ++ le 2 p.settlePower ++ le 2 p.settleFreq
    ++ le 1 p.settleHealth ++ le 1 p.impaired ++ le 1 p.snrMin ++ le 1 p.acquireLimit
    ++ le 4 p.relapseTiming ++ le 2 p.relapsePower
    ++ le 2 p.acquirePeriod ++ le 2 p.trackingPeriod ++ le 2 p.grace
    ++ le 1 p.missLimit ++ le 1 p.quiet
    ++ zeros 14

/-- A value brought into its range (R149): below it, the lower bound; above it, the upper bound. -/
def clampTo (lo hi v : Nat) : Nat := if v < lo then lo else if hi < v then hi else v

/-- A gain set with each shift in 0..3 (R148). -/
def Gains.clamp (g : Gains) : Gains :=
  ⟨clampTo 0 3 g.timing, clampTo 0 3 g.power, clampTo 0 3 g.freq, clampTo 0 3 g.taps⟩

/-- A policy with every field clamped into its range (R148, R149). -/
def Policy.clamp (p : Policy) : Policy :=
  { mainTap := clampTo 0 11 p.mainTap
    acq := p.acq.clamp
    trk := p.trk.clamp
    timingStep := clampTo 1 1048576 p.timingStep
    timingRange := clampTo 1 134217727 p.timingRange
    powerStep := clampTo 1 64 p.powerStep
    powerRange := clampTo 1 127 p.powerRange
    freqStep := clampTo 1 32767 p.freqStep
    freqRange := clampTo 1 32767 p.freqRange
    settleTiming := clampTo 0 8388607 p.settleTiming
    settlePower := clampTo 0 32767 p.settlePower
    settleFreq := clampTo 0 32767 p.settleFreq
    settleHealth := clampTo 0 255 p.settleHealth
    relapseTiming := clampTo 0 8388607 p.relapseTiming
    relapsePower := clampTo 0 32767 p.relapsePower
    impaired := clampTo 0 255 p.impaired
    snrMin := clampTo 0 255 p.snrMin
    settleTarget := clampTo 1 8 p.settleTarget
    acquireLimit := clampTo 1 64 p.acquireLimit
    acquirePeriod := clampTo 10 65535 p.acquirePeriod
    trackingPeriod := clampTo 10 65535 p.trackingPeriod
    grace := clampTo 10 65535 p.grace
    missLimit := clampTo 1 15 p.missLimit
    quiet := clampTo 0 255 p.quiet }

/-! ## Trial area and capability record (R196, R197) -/

/-- A channel record as READ_CHANNEL writes it: bytes 0 to 127 of the trial area (R155, R196). -/
def channelRecordBytes (ch : Nat) (c : Channel) (admitted : Nat) : List Byte :=
  le 1 2 ++ le 1 ch ++ le 1 c.state.code ++ zeros 1 ++ le 2 admitted ++ zeros 2
    ++ le 4 c.counters.taken ++ le 4 c.counters.unknown ++ le 4 c.counters.lapsedCapture
    ++ le 4 c.counters.collided ++ le 4 c.counters.dropped ++ le 4 c.counters.torn
    ++ zeros 32 ++ c.policy.toBytes

/-- The capability record (R180, R197). -/
def capabilityBytes (capacity strap : Nat) (run : RunState) : List Byte :=
  le 4 0x2640 ++ le 1 16 ++ le 1 32 ++ le 1 64 ++ le 1 64 ++ le 2 8192 ++ le 2 capacity
    ++ le 2 256 ++ le 2 1024 ++ le 2 1024 ++ le 1 6 ++ le 1 5 ++ le 2 strap ++ le 1 run.code ++ zeros 9

/-! ## Command descriptor (R193) -/

/-- The command code, byte 0 of a descriptor. -/
def cmdCode (d : List Byte) : Nat := byteAt d 0

/-- The command codes (R193). -/
def codeStart : Nat := 0x01
/-- STOP. -/
def codeStop : Nat := 0x02
/-- SET_WINDOW. -/
def codeSetWindow : Nat := 0x03
/-- SET_POLICY. -/
def codeSetPolicy : Nat := 0x04
/-- READ_CHANNEL. -/
def codeReadChannel : Nat := 0x05
/-- ADMIT. -/
def codeAdmit : Nat := 0x10
/-- RELEASE. -/
def codeRelease : Nat := 0x11
/-- REVIVE. -/
def codeRevive : Nat := 0x12
/-- FORCE_DUE. -/
def codeForceDue : Nat := 0x13
/-- TRIAL. -/
def codeTrial : Nat := 0x14
/-- READ_CONTEXTS. -/
def codeReadContexts : Nat := 0x15
/-- SET_NOTIFY. -/
def codeSetNotify : Nat := 0x20
/-- IDENTIFY. -/
def codeIdentify : Nat := 0x21

/-- The thirteen commands (R176). -/
def commandCodes : List Nat :=
  [codeStart, codeStop, codeSetWindow, codeSetPolicy, codeReadChannel, codeAdmit, codeRelease, codeRevive,
    codeForceDue, codeTrial, codeReadContexts, codeSetNotify, codeIdentify]

/-- The key field of a descriptor. -/
def cmdKey (d : List Byte) : Key := getKey d 4

/-- The channel a command names: the channel byte of the key field (R193). -/
def cmdChannel (d : List Byte) : Nat := byteAt d 4

/-- The channel mask of FORCE_DUE. -/
def cmdMask (d : List Byte) : Nat := getLe d 4 4

/-! ## Notices and offers (R194) -/

/-- A notice: kind, detail, key, stamp and datum. -/
structure Notice where
  kind : NoticeKind
  detail : Nat
  key : Key
  stamp : Tick
  datum : Nat
  deriving DecidableEq, Repr, Inhabited

/-- The 16 bytes of a notice. -/
def Notice.toBytes (n : Notice) : List Byte :=
  le 1 n.kind.code ++ le 1 n.detail ++ zeros 2 ++ n.key.toBytes ++ le 4 n.stamp.toNat ++ le 4 n.datum

/-- The datum of DELIVERY_STALE and PENDING_DISCARDED: correction id at bytes 12 and 13, slot at byte 14. -/
def slotDatum (slot id : Nat) : Nat := id % 65536 + 65536 * slot

/-- The slot number of a PENDING_DISCARDED that concerns no slot. -/
def noSlot : Nat := 0xFF

/-- The datum of UPDATE_REJECTED: r as a signed 32-bit value. -/
def signedDatum (r : Int) : Nat := (r % 2 ^ 32).toNat

/-- The 8 bytes of an offer. -/
def offerBytes (key : Key) (reason : OfferReason) (miss : Nat) (stamp : Tick) : List Byte :=
  key.toBytes ++ le 1 reason.code ++ le 1 miss ++ le 2 (stamp.toNat % 65536)

end Sys2Proof.Machine
end

