-- ==== Sys2Proof/Machine/Arithmetic.lean ====
section
/-!
DEFINITION. The correction arithmetic (02_correction_arithmetic.md): exact integers with one rounding rule.
-/

namespace Sys2Proof.Machine

/-- The magnitude test of a measurement against a threshold, `|v| ≤ lim`. -/
def within (v : Int) (lim : Nat) : Bool := decide (v.natAbs ≤ lim)

/-- Division rounding half away from zero (R26). -/
def roundDiv (n : Int) (d : Nat) : Int :=
  let q : Nat := (2 * n.natAbs + d) / (2 * d)
  if n < 0 then -(q : Int) else (q : Int)

/-! ## Timing, power and frequency (R29 to R32) -/

/-- What one scalar stage delivers: the adjustment, whether the axis was clamped at all, and whether its range
clamp acted. -/
structure Axis where
  adjust : Int := 0
  clamped : Bool := false
  ranged : Bool := false
  deriving DecidableEq, Repr, Inhabited

/-- A value brought to the bound of ±lim on its side when it lies beyond it. -/
def clampSym (lim : Nat) (v : Int) : Int :=
  if (lim : Int) < v then (lim : Int) else if v < -(lim : Int) then -(lim : Int) else v

/-- The common pattern of the scalar stages: step limit, sum with the accumulated offset, range, delivered
adjustment. -/
def axisStage (step : Int) (limit range : Nat) (offset : Int) : Axis :=
  let limited := clampSym limit step
  let moved := clampSym range (offset + limited)
  { adjust := moved - offset
    clamped := decide (limited ≠ step) || decide (moved ≠ offset + limited)
    ranged := decide (moved ≠ offset + limited) }

/-- Stage T (R29): a late burst is told to transmit earlier. -/
def stageT (e : Int) (shift : Nat) (p : Policy) (offset : Int) : Axis :=
  axisStage (roundDiv e (2 ^ shift)) p.timingStep p.timingRange offset

/-- Stage P (R30): 1/16 dB to quarter dB, gain and sign in one division. -/
def stageP (e : Int) (shift : Nat) (p : Policy) (offset : Int) : Axis :=
  axisStage (roundDiv (-e) (4 * 2 ^ shift)) p.powerStep p.powerRange offset

/-- Stage F (R31). -/
def stageF (e : Int) (shift : Nat) (p : Policy) (offset : Int) : Axis :=
  axisStage (roundDiv (-e) (2 ^ shift)) p.freqStep p.freqRange offset

/-! ## Taps (R33 to R37) -/

/-- The identity set for a main tap index (R33). -/
def identityTaps (m : Nat) : List Tap :=
  (List.range 12).map fun k => if k = m then ⟨8192, 0⟩ else {}

/-- One component of the blend (R34). -/
def blendOne (c i : Int) (shift : Nat) : Int := i + roundDiv (c - i) (2 ^ shift)

/-- The blend D of the captured taps with the identity set (R34). -/
def blend (captured : List Tap) (m shift : Nat) : List Tap :=
  (List.range 12).map fun k =>
    ⟨blendOne (tapAt captured k).re (tapAt (identityTaps m) k).re shift,
      blendOne (tapAt captured k).im (tapAt (identityTaps m) k).im shift⟩

/-- The complex product (R35). -/
def tapMul (x y : Tap) : Tap := ⟨x.re * y.re - x.im * y.im, x.re * y.im + x.im * y.re⟩

/-- The term of the convolution for tap `n` from issued tap `k`: left out when its D index n − k + m falls
outside 0..11 (R35). -/
def convTerm (issued d : List Tap) (m n k : Nat) : Tap :=
  if k ≤ n + m ∧ n + m - k < 12 then tapMul (tapAt issued k) (tapAt d (n + m - k)) else {}

/-- The exact sum of the convolution for tap `n` (R35). -/
def convSum (issued d : List Tap) (m n : Nat) : Tap :=
  (List.range 12).foldl
    (fun acc k => ⟨acc.re + (convTerm issued d m n k).re, acc.im + (convTerm issued d m n k).im⟩) {}

/-- The convolution Q (R35): each component divided by 8192 and rounded, not saturated. -/
def convolve (issued d : List Tap) (m : Nat) : List Tap :=
  (List.range 12).map fun n =>
    ⟨roundDiv (convSum issued d m n).re 8192, roundDiv (convSum issued d m n).im 8192⟩

/-- r, the real part of Q[m] (R36). -/
def mainReal (q : List Tap) (m : Nat) : Int := (tapAt q m).re

/-- The tap set cannot be normalised (R36). -/
def isDegenerate (r : Int) : Bool := decide (r < 1024) || decide (262143 < r)

/-- The scale factor F (R36). -/
def scaleFactor (r : Int) : Int := roundDiv 67108864 r.toNat

/-- A component saturated to 16 bits (R37). -/
def saturate16 (v : Int) : Int := if v < -32768 then -32768 else if 32767 < v then 32767 else v

/-- A tap scaled by F and not yet saturated (R37). -/
def scaleTap (f : Int) (t : Tap) : Tap := ⟨roundDiv (t.re * f) 8192, roundDiv (t.im * f) 8192⟩

/-- P′ (R37): scaled, saturated, the real part of the main tap set to 8192. -/
def normalise (q : List Tap) (m : Nat) (f : Int) : List Tap :=
  (List.range 12).map fun n =>
    let t := scaleTap f (tapAt q n)
    ⟨if n = m then 8192 else saturate16 t.re, saturate16 t.im⟩

/-- A component of the tap saturates (R37). -/
def tapSaturates (t : Tap) : Bool :=
  decide (saturate16 t.re ≠ t.re) || decide (saturate16 t.im ≠ t.im)

/-- One or more components saturate (R37). -/
def saturates (q : List Tap) (f : Int) : Bool :=
  (List.range 12).any fun n => tapSaturates (scaleTap f (tapAt q n))

/-! ## Health (R39) -/

/-- The energy of a tap. -/
def tapEnergy (t : Tap) : Nat := t.re.natAbs ^ 2 + t.im.natAbs ^ 2

/-- The energy of a tap set. -/
def totalEnergy (ts : List Tap) : Nat :=
  (List.range 12).foldl (fun acc k => acc + tapEnergy (tapAt ts k)) 0

/-- The health of a tap set (R39). -/
def healthOf (ts : List Tap) (m : Nat) : Nat :=
  if totalEnergy ts = 0 then 0 else min 255 (tapEnergy (tapAt ts m) * 256 / totalEnergy ts)

/-! ## The figures of one update -/

/-- What stage Q leaves (R33 to R37): Q and r, and P′ with its CLIPPED unless DEGENERATE. -/
structure TapStage where
  q : List Tap
  r : Int
  taps : Option (List Tap)
  clipped : Bool
  deriving DecidableEq, Repr, Inhabited

/-- Stage Q (R33 to R37). -/
def stageQ (captured issued : List Tap) (m shift : Nat) : TapStage :=
  let q := convolve issued (blend captured m shift) m
  let r := mainReal q m
  if isDegenerate r then { q := q, r := r, taps := none, clipped := false }
  else
    { q := q
      r := r
      taps := some (normalise q m (scaleFactor r))
      clipped := saturates q (scaleFactor r) }

/-- The figures of one update: the scalar stages, the tap stage when it ran, TAPS_SKIPPED, the health and the
outcome of the settle test. -/
structure Figures where
  timing : Axis
  power : Axis
  freq : Axis
  tapsSkipped : Bool
  tapStage : Option TapStage
  health : Nat
  settles : Bool
  deriving DecidableEq, Repr, Inhabited

/-- The update is DEGENERATE (R36): stage Q ran and left no tap set. -/
def Figures.degenerate (f : Figures) : Bool :=
  match f.tapStage with
  | none => false
  | some t => t.taps.isNone

/-- P′, when stage Q produced it. -/
def Figures.newTaps (f : Figures) : Option (List Tap) :=
  match f.tapStage with
  | none => none
  | some t => t.taps

/-- Scaling saturated (R37). -/
def Figures.clipped (f : Figures) : Bool :=
  match f.tapStage with
  | none => false
  | some t => t.clipped

/-- The record carries taps and the freeze flag is clear: the tap stage runs unless the SNR is too low (R33). -/
def wantsTaps (s : Snapshot) (r : List Byte) : Bool := recTapsPresent r && !s.freeze

/-- The tap stage of an update (R33). -/
def runTaps (s : Snapshot) (r : List Byte) (g : Gains) : Option TapStage :=
  if wantsTaps s r && decide (s.policy.snrMin ≤ recSnr r) then
    some (stageQ (recTaps r) s.taps s.policy.mainTap g.taps)
  else none

/-- The settle test (R41) on a health. -/
def settleTest (s : Snapshot) (r : List Byte) (health : Nat) : Bool :=
  within (recTiming r) s.policy.settleTiming && within (recPower r) s.policy.settlePower
    && within (recFreq r) s.policy.settleFreq
    && (s.freeze || !recTapsPresent r || decide (s.policy.settleHealth ≤ health))

/-- All stages of an update with a gain set (R28 to R41). -/
def figures (s : Snapshot) (r : List Byte) (g : Gains) : Figures :=
  let tapStage := runTaps s r g
  let healthTaps := ((tapStage.bind fun t => t.taps)).getD s.taps
  let health := healthOf healthTaps s.policy.mainTap
  { timing := stageT (recTiming r) g.timing s.policy s.offTiming
    power := stageP (recPower r) g.power s.policy s.offPower
    freq := stageF (recFreq r) g.freq s.policy s.offFreq
    tapsSkipped := wantsTaps s r && decide (recSnr r < s.policy.snrMin)
    tapStage := tapStage
    health := health
    settles := settleTest s r health }

/-- The relapse test (R27). -/
def relapses (s : Snapshot) (r : List Byte) : Bool :=
  !(within (recTiming r) s.policy.relapseTiming && within (recPower r) s.policy.relapsePower)

/-- The gains of a CAPTURE job (R27). -/
def captureGains (s : Snapshot) (r : List Byte) : Gains :=
  if s.state = .tracking ∧ relapses s r = false then s.policy.trk else s.policy.acq

/-- The gains of a TRIAL job (R81). -/
def trialGains (s : Snapshot) : Gains := if s.state = .tracking then s.policy.trk else s.policy.acq

/-- The correction of a CONTINUE or SETTLED update (R43). -/
def Figures.correction (f : Figures) (status : CorrStatus) (basis id : Nat) : Correction :=
  { status := status
    taps := f.newTaps
    clipped := f.clipped
    tapsSkipped := f.tapsSkipped
    timingClamped := f.timing.clamped
    powerClamped := f.power.clamped
    freqClamped := f.freq.clamped
    timing := f.timing.adjust
    power := f.power.adjust
    freq := f.freq.adjust
    basis := basis
    id := id }

/-- An ABORT (R44). -/
def abortCorrection (basis id : Nat) : Correction :=
  { status := .abort
    taps := none
    clipped := false
    tapsSkipped := false
    timingClamped := false
    powerClamped := false
    freqClamped := false
    timing := 0
    power := 0
    freq := 0
    basis := basis
    id := id }

/-! ## The trial result (R81, R82, R196) -/

/-- The status of a TRIAL result, `none` for REJECTED (R81). -/
def trialStatus (s : Snapshot) (f : Figures) : Option CorrStatus :=
  if f.degenerate then none
  else if s.state = .tracking then some (if f.settles then .settled else .continuing)
  else
    let settle := if f.settles then s.settle + 1 else 0
    if s.policy.settleTarget ≤ settle then some .settled
    else if s.policy.acquireLimit ≤ s.step + 1 then some .abort
    else some .continuing

/-- REJECTED in the trial result (R189). -/
def codeRejected : Nat := 4

/-- What a TRIAL reports as its correction (R81): an ABORT as R44 forms it; for REJECTED zero adjustments, no
taps, and the clamp flags as the scalar stages formed them. -/
def trialCorrection (s : Snapshot) (f : Figures) : Correction :=
  match trialStatus s f with
  | none =>
    { abortCorrection s.basis 0 with
      timingClamped := f.timing.clamped
      powerClamped := f.power.clamped
      freqClamped := f.freq.clamped }
  | some .abort => abortCorrection s.basis 0
  | some st => f.correction st s.basis 0

/-- The eight bytes of a tap of Q in the raw part (R196). -/
def rawTapBytes (t : Tap) : List Byte := leInt 4 t.re ++ leInt 4 t.im

/-- The raw part, zero when stage Q did not run (R82). -/
def rawBytes (f : Figures) : List Byte :=
  match f.tapStage with
  | none => zeros 100
  | some t => leInt 4 t.r ++ (List.range 12).flatMap fun k => rawTapBytes (tapAt t.q k)

/-- The trial result as written into the trial area (R82, R196): 128 bytes, or 228 with RAW. -/
def trialResultBytes (key : Key) (stamp : Tick) (s : Snapshot) (r : List Byte) (raw : Bool) : List Byte :=
  let g := trialGains s
  let f := figures s r g
  let c := trialCorrection s f
  le 1 1
    ++ le 1 (match trialStatus s f with
             | none => codeRejected
             | some st => st.code)
    ++ le 1 (if s.state = .tracking then 2 else 1)
    ++ le 1 c.flagsByte
    ++ key.toBytes
    ++ leInt 4 c.timing ++ leInt 2 c.freq ++ leInt 1 c.power ++ le 1 f.health
    ++ le 1 (flagBit 0 (f.settles && !f.degenerate))
    ++ le 1 (flagBit 0 f.timing.ranged + flagBit 1 f.power.ranged + flagBit 2 f.freq.ranged)
    ++ le 2 s.basis ++ le 4 stamp.toNat ++ zeros 8
    ++ (match c.taps with
        | none => zeros 48
        | some ts => tapBytes ts)
    ++ zeros 48
    ++ (if raw then rawBytes f else [])

/-! ## Applying an update to its context (R12 to R14, R38, R40, R42 to R45, R75) -/

/-- An increment of a 16-bit counter of a context, saturating (R10). -/
def sat16 (n : Nat) : Nat := min 65535 n

/-- An increment of a 32-bit counter, saturating (R10, R64). -/
def sat32 (n : Nat) : Nat := min 4294967295 n

/-- What an applied update hands the calendar (R76). -/
inductive HandOver where
  | nothing
  | nowTracking
  | nowAcquire
  | remove
  deriving DecidableEq, Repr, Inhabited

/-- What an applied update leaves: the context, the hand-over, and its notices in the order of R45, each with
its kind, detail and datum. -/
structure Applied where
  ctx : Context
  handOver : HandOver
  notices : List (NoticeKind × Nat × Nat)
  deriving DecidableEq, Repr, Inhabited

/-- The last measurement of an update (R9). -/
def measurementOf (r : List Byte) (stamp : Tick) (health : Nat) : Measurement :=
  { timing := recTiming r, power := recPower r, freq := recFreq r, snr := recSnr r, health := health, stamp := stamp }

/-- What every applied update does: last measurement, captures taken, the supersede tally (R9, R75). -/
def Context.measured (c : Context) (r : List Byte) (stamp : Tick) (health tally : Nat) : Context :=
  { c with
    meas := measurementOf r stamp health
    counters := { c.counters with
                  captures := sat32 (c.counters.captures + 1)
                  superseded := sat16 (c.counters.superseded + tally) } }

/-- The notices of the IMPAIRED flag (R40). -/
def impairedNotices (old new : Bool) (health : Nat) : List (NoticeKind × Nat × Nat) :=
  if old = new then [] else if new then [(.impaired, 0, health)] else [(.restored, 0, health)]

/-- An update applied in HELD (R14). -/
def applyHeld (c : Context) (s : Snapshot) (r : List Byte) (stamp : Tick) (tally : Nat) : Applied :=
  let health := healthOf s.taps s.policy.mainTap
  let impaired := decide (health < s.policy.impaired)
  { ctx := { c.measured r stamp health tally with impaired := impaired }
    handOver := .nothing
    notices := impairedNotices c.impaired impaired health }

/-- An update rejected as DEGENERATE (R38). -/
def applyRejected (c : Context) (s : Snapshot) (r : List Byte) (stamp : Tick) (tally : Nat) (main : Int) : Applied :=
  let c' := c.measured r stamp (healthOf s.taps s.policy.mainTap) tally
  { ctx := { c' with counters := { c'.counters with rejected := sat16 (c'.counters.rejected + 1) } }
    handOver := .nothing
    notices := [(.updateRejected, 1, signedDatum main)] }

/-- Where an update that formed a correction brings the link: state, lapse reason, counts and the status of
the correction (R12, R13, R42). -/
structure Verdict where
  state : CtxState
  lapse : LapseReason
  step : Nat
  settle : Nat
  status : CorrStatus
  deriving DecidableEq, Repr, Inhabited

/-- R12: an update of an INITIAL or ACQUIRING context. -/
def acquireVerdict (c : Context) (p : Policy) (settles : Bool) : Verdict :=
  let settle := if settles then c.settle + 1 else 0
  if p.settleTarget ≤ settle then ⟨.tracking, .noReason, c.step, settle, .settled⟩
  else if p.acquireLimit ≤ c.step + 1 then ⟨.lapsed, .noSettle, c.step + 1, settle, .abort⟩
  else ⟨.acquiring, .noReason, c.step + 1, settle, .continuing⟩

/-- R13: an update of a TRACKING context. -/
def trackVerdict (c : Context) (relapse settles : Bool) : Verdict :=
  if relapse then ⟨.acquiring, .noReason, 0, 0, .continuing⟩
  else ⟨.tracking, .noReason, c.step, c.settle, if settles then .settled else .continuing⟩

/-- The hand-over of a change of state (R76). -/
def handOverOf (old new : CtxState) : HandOver :=
  if old = new then .nothing
  else match new with
    | .tracking => .nowTracking
    | .lapsed => .remove
    | .acquiring => if old = .tracking then .nowAcquire else .nothing
    | _ => .nothing

/-- An update that formed a correction, applied (R12, R13, R43, R44, R45). -/
def applyCorrection (c : Context) (s : Snapshot) (r : List Byte) (stamp : Tick) (tally : Nat) (f : Figures)
    (v : Verdict) : Applied :=
  let id := (c.corrSeq + 1) % 65536
  let corr := if v.status = .abort then abortCorrection s.basis id else f.correction v.status s.basis id
  let impaired := decide (f.health < s.policy.impaired)
  let c' := c.measured r stamp f.health tally
  { ctx :=
      { c' with
        state := v.state
        lapse := v.lapse
        step := v.step
        settle := v.settle
        corrSeq := id
        pending := some corr
        impaired := impaired
        timingAtLimit := f.timing.ranged
        powerAtLimit := f.power.ranged
        freqAtLimit := f.freq.ranged
        counters := { c'.counters with
                      replaced := if c.pending.isSome then sat16 (c'.counters.replaced + 1) else c'.counters.replaced
                      clipped := if f.clipped then sat16 (c'.counters.clipped + 1) else c'.counters.clipped } }
    handOver := handOverOf c.state v.state
    notices :=
      (if c.state = v.state then [] else [(.stateChange, stateChangeDetail c.state v.state, v.lapse.code)])
        ++ (if corr.clamped then [(.adjustClamped, corr.clampDetail, id)] else [])
        ++ impairedNotices c.impaired impaired f.health }

/-- An applied CAPTURE update, by the case of its snapshot (R75). -/
def applyUpdate (c : Context) (s : Snapshot) (r : List Byte) (stamp : Tick) (tally : Nat) : Applied :=
  if s.state = .held then applyHeld c s r stamp tally
  else
    let f := figures s r (captureGains s r)
    if f.degenerate then applyRejected c s r stamp tally ((f.tapStage.map fun t => t.r).getD 0)
    else if s.state = .tracking then applyCorrection c s r stamp tally f (trackVerdict c (relapses s r) f.settles)
    else applyCorrection c s r stamp tally f (acquireVerdict c s.policy f.settles)

end Sys2Proof.Machine
end

