-- ==== Sys2Proof/Machine/Ops.lean ====
section
/-!
DEFINITION. The named operations every block uses: reading and replacing one record of State, time, the memory
port, the notice writer's claim, the key directory, and the records of open transactions.
-/

namespace Sys2Proof.Machine

/-! ## Records of fixed tables -/

/-- The channel record of a channel. -/
def State.channel (s : State) (ch : Nat) : Channel := s.channels.getD ch {}

/-- Replaces a channel record; a number above 15 names none. -/
def State.setChannel (s : State) (ch : Nat) (c : Channel) : State :=
  { s with channels := s.channels.setIfInBounds ch c }

/-- The policy of a channel (R145). -/
def State.policy (s : State) (ch : Nat) : Policy := (s.channel ch).policy

/-- Changes the capture counters of a channel (R64). -/
def State.countChannel (s : State) (ch : Nat) (f : ChanCounters → ChanCounters) : State :=
  s.setChannel ch { s.channel ch with counters := f (s.channel ch).counters }

/-- The record of a response slot. -/
def State.slot (s : State) (n : Nat) : Slot := s.slots.getD n {}

/-- Replaces the record of a response slot. -/
def State.setSlot (s : State) (n : Nat) (x : Slot) : State := { s with slots := s.slots.setIfInBounds n x }

/-- A cache entry. -/
def State.entry (s : State) (e : Nat) : Entry := s.entries.getD e {}

/-- Replaces a cache entry. -/
def State.setEntry (s : State) (e : Nat) (x : Entry) : State := { s with entries := s.entries.setIfInBounds e x }

/-- A window-table entry. -/
def State.window (s : State) (w : Nat) : Option Window := s.windows.getD w none

/-- The assembly of a window-table entry. -/
def State.assembly (s : State) (w : Nat) : Option Assembly := s.assemblies.getD w none

/-- Replaces the assembly of a window-table entry. -/
def State.setAssembly (s : State) (w : Nat) (a : Option Assembly) : State :=
  { s with assemblies := s.assemblies.setIfInBounds w a }

/-- The quiet timer of a channel. -/
def State.quietTimer (s : State) (ch : Nat) : Option QuietTimer := s.quietTimers.getD ch none

/-- Replaces the quiet timer of a channel. -/
def State.setQuietTimer (s : State) (ch : Nat) (t : Option QuietTimer) : State :=
  { s with quietTimers := s.quietTimers.setIfInBounds ch t }

/-! ## Time (R106, R107) -/

/-- The time elapsed from an earlier instant to now (R107). -/
def elapsed (now since : Tick) : Nat := (now - since).toNat

/-- An instant is reached at the counter value now (R107). -/
def reached (now due : Tick) : Bool := decide ((now - due).toNat < 2 ^ 31)

/-- The signed distance of a due time from now (R109). -/
def distance (now due : Tick) : Int := (due - now).toInt

/-- Milliseconds in ticks. -/
def msTicks (ms : Nat) : Nat := ms * Config.ticksPerMs

/-- The counter value so many ticks on. -/
def later (t : Tick) (ticks : Nat) : Tick := t + BitVec.ofNat 32 ticks

/-- One period of REFCLK (R106, R188): the reference counter counts, and so does a running coalescing timer up
to its stop. While RESET_N is asserted the counter holds 0. -/
def tick (s : State) : State :=
  if s.inReset then s
  else
    { s with
      now := s.now + 1
      nw := { s.nw with timer := s.nw.timer.map fun n => min Config.coalescingStop (n + 1) } }

/-! ## Windows and the control region (R158, R162) -/

/-- The first byte of the control region (R158). -/
def State.controlBase (s : State) : Nat := s.strapBase.toNat * 2 ^ 24

/-- An address lies in the control region. -/
def State.inControl (s : State) (a : Nat) : Bool :=
  decide (s.controlBase ≤ a) && decide (a < s.controlBase + 0x10000)

/-- The enabled windows of a kind, each with its entry number. -/
def State.windowsOf (s : State) (k : WindowKind) : List (Nat × Window) :=
  (List.range 6).filterMap fun i =>
    match s.window i with
    | some w => if w.kind = k then some (i, w) else none
    | none => none

/-- The context window (R162: at most one entry has kind CONTEXT). -/
def State.contextWindow (s : State) : Option Window :=
  match s.windowsOf .context with
  | [] => none
  | (_, w) :: _ => some w

/-- The pool capacity (R162). -/
def State.capacity (s : State) : Nat :=
  match s.contextWindow with
  | none => 0
  | some w => min Config.poolLimit (w.size / 256)

/-- The address of a context in the context store (R5). -/
def State.contextAddr (s : State) (idx : Nat) : Nat :=
  (match s.contextWindow with
   | none => 0
   | some w => w.base) + 256 * idx

/-! ## The key directory (R2, R3) -/

/-- Keys are ordered by channel, then by station (R2). -/
def Key.lt (a b : Key) : Bool :=
  decide (a.channel < b.channel) || (a.channel == b.channel && decide (a.station < b.station))

/-- The context index of a key, if it is admitted (R3). -/
def State.lookup (s : State) (k : Key) : Option Nat :=
  (s.kdir.find? fun p => p.1 == k).map Prod.snd

/-- The key a context index is held under, if it is not VACANT (R2). -/
def State.keyAt (s : State) (idx : Nat) : Option Key :=
  (s.kdir.find? fun p => p.2 == idx).map Prod.fst

/-- A reference to a context finds it present (R3): the directory holds its index and its key. A link released and
admitted again with the same key at the same index is present to a reference made before (log 42). -/
def State.present (s : State) (idx : Nat) (k : Key) : Bool := s.kdir.any fun p => p.2 == idx && p.1 == k

/-- Places an entry in key order. -/
def kdirInsert (k : Key) (idx : Nat) : List (Key × Nat) → List (Key × Nat)
  | [] => [(k, idx)]
  | p :: rest => if k.lt p.1 then (k, idx) :: p :: rest else p :: kdirInsert k idx rest

/-- Takes a key out of the directory. -/
def State.kdirRemove (s : State) (k : Key) : State := { s with kdir := s.kdir.filter fun p => p.1 != k }

/-- The admitted keys of a channel, in key order. -/
def State.keysOf (s : State) (ch : Nat) : List (Key × Nat) := s.kdir.filter fun p => p.1.channel == ch

/-- A channel in 0..15 (R1). -/
def channelValid (ch : Nat) : Bool := decide (ch ≤ 15)

/-- A station of an admitted link, 1..16383 (R1). -/
def stationValid (st : Nat) : Bool := decide (1 ≤ st) && decide (st ≤ 16383)

/-! ## The memory port (R169 to R171) -/

/-- The first element that satisfies a test, and the rest of the list. -/
def extract {α : Type} (p : α → Bool) : List α → Option (α × List α)
  | [] => none
  | x :: xs => if p x then some (x, xs) else (extract p xs).map fun r => (r.1, x :: r.2)

/-- What a source has waiting. -/
def MemPort.queueOf (m : MemPort) : Source → List QItem
  | .passing => m.passing
  | .cache => m.cache
  | .command => m.command
  | .notice => m.notice

/-- Replaces what a source has waiting. -/
def MemPort.setQueue (m : MemPort) (src : Source) (q : List QItem) : MemPort :=
  match src with
  | .passing => { m with passing := q }
  | .cache => { m with cache := q }
  | .command => { m with command := q }
  | .notice => { m with notice := q }

/-- The bytes an access writes. -/
def Access.written (a : Access) : List WByte :=
  match a.body with
  | .read _ => []
  | .write bs => bs

/-- An access writes the byte at an address. -/
def Access.writes (a : Access) (x : Nat) : Bool :=
  decide (a.addr ≤ x) && (a.written.getD (x - a.addr) none).isSome

/-- An access is a write. -/
def Access.isWrite (a : Access) : Bool :=
  match a.body with
  | .read _ => false
  | .write _ => true

/-- Two accesses write one byte. -/
def Access.meets (a b : Access) : Bool := a.written.zipIdx.any fun p => p.1.isSome && b.writes (a.addr + p.2)

/-- An access covers the byte at an address: a read asks for it, a write writes it. -/
def Access.covers (a : Access) (x : Nat) : Bool :=
  match a.body with
  | .read len => decide (a.addr ≤ x) && decide (x < a.addr + len)
  | .write _ => a.writes x

/-- One access writes a byte that the other covers. -/
def Access.reaches (a b : Access) : Bool := a.written.zipIdx.any fun p => p.1.isSome && b.covers (a.addr + p.2)

/-- Two accesses reach one byte, and one of them writes it (R169). -/
def Access.clashes (a b : Access) : Bool := a.reaches b || b.reaches a

/-- What holds accesses at the port back from outside it: the passing transactions taken and not yet handed to the
port, and the context whose ADMIT image write or RELEASE header write is outstanding (R97). -/
structure Holding where
  taken : List QItem
  index : Option Nat

/-- The writes R97 has passing writes wait for, and the write-back that a RELEASE header write waits for (R92), are
held by no passing write (log 41). -/
def Holding.exempts (h : Holding) : Purpose → Bool
  | .admitImage => true
  | .releaseHeader => true
  | .writeBack i _ => h.index == some i
  | _ => false

/-- An access keeps its place among those of its source: a passing transaction among its initiator's (R168), one of
the part's own writes among the source's (R171). -/
def QItem.inLine (q : QItem) : Bool := q.init.isSome || q.access.isWrite

/-- A passing transaction is held while one of the part's own writes made before its take meets it (R171), and while
one taken before it that reaches a byte with it is not issued (R169). -/
def MemPort.holdsPassing (m : MemPort) (h : Holding) (q : QItem) : Bool :=
  ((m.cache ++ m.command ++ m.notice).any fun o => decide (o.order ≤ q.order) && q.access.meets o.access)
    || (h.taken ++ m.passing).any fun p => decide (p.order < q.order) && q.access.clashes p.access

/-- One of the part's own accesses is held by the passing writes taken before it was made and not issued: a read by
every one (R170), a write by those that meet it (R171). -/
def MemPort.holdsOwn (m : MemPort) (h : Holding) (q : QItem) : Bool :=
  (h.taken ++ m.passing).any fun p =>
    p.access.isWrite && decide (p.order < q.order) && (!q.access.isWrite || q.access.meets p.access)

/-- No ordering rule holds an access back (R168 to R171); `lines` are those an earlier held access of the source
stands in. -/
def MemPort.allows (m : MemPort) (h : Holding) (lines : List (Option Initiator)) (q : QItem) : Bool :=
  h.exempts q.access.purpose
    || (!(q.inLine && lines.contains q.init)
        && !(if q.init.isSome then m.holdsPassing h q else m.holdsOwn h q))

/-- The accesses of a source that are ready, in the order they became so, and those still held (R169). -/
def MemPort.sort (m : MemPort) (h : Holding) : List (Option Initiator) → List QItem → List QItem × List QItem
  | _, [] => ([], [])
  | lines, q :: rest =>
    if q.ready || m.allows h lines q then
      let r := m.sort h lines rest
      ({ q with ready := true } :: r.1, r.2)
    else
      let r := m.sort h (if q.inLine then q.init :: lines else lines) rest
      (r.1, q :: r.2)

/-- What became ready goes behind what was, and before what is held (R169). -/
def MemPort.arrange (m : MemPort) (h : Holding) (q : List QItem) : List QItem :=
  (m.sort h [] q).1 ++ (m.sort h [] q).2

/-- What a source has waiting is judged again. -/
def MemPort.wakeSource (h : Holding) (m : MemPort) (src : Source) : MemPort :=
  m.setQueue src (m.arrange h (m.queueOf src))

/-- What every source has waiting is judged again. -/
def MemPort.wake (h : Holding) (m : MemPort) : MemPort :=
  [Source.passing, .cache, .command, .notice].foldl (MemPort.wakeSource h) m

/-- The context whose ADMIT image write or RELEASE header write is outstanding (R97). -/
def State.heldIndex (s : State) : Option Nat :=
  match s.cmu.phase with
  | .admitWrite _ idx _ => some idx
  | .releaseDrain _ idx _ _ => some idx
  | .releaseWrite _ idx _ _ => some idx
  | _ => none

/-- The access a transaction is to be. -/
def Txn.access (t : Txn) : Access :=
  ⟨.passing t.id, t.addr,
    match t.body with
    | .read len _ _ => .read len
    | .write _ bytes _ _ => .write bytes⟩

/-- The passing transactions taken and not yet handed to the port. -/
def State.unhandled (s : State) : List QItem :=
  (s.txns.filter fun t => !t.handled).map fun t => { access := t.access, order := t.id, init := some t.init }

/-- What holds accesses back from outside the port. -/
def State.holding (s : State) : Holding := ⟨s.unhandled, s.heldIndex⟩

/-- An access comes to wait at the port for its source. -/
def State.enqueue (s : State) (src : Source) (q : QItem) : State :=
  { s with mem := s.mem.setQueue src (s.mem.arrange s.holding (s.mem.queueOf src ++ [q])) }

/-- A block of the part makes an access, ordered behind the passing writes taken so far, or those before another
event (R170, R171). -/
def State.submit (s : State) (src : Source) (a : Access) (after : Option Nat := none) : State :=
  s.enqueue src { access := a, order := after.getD s.takes }

/-- An open transaction is handed to the memory port. -/
def State.pass (s : State) (id : Nat) (init : Initiator) (addr : Nat) (body : Body) : State :=
  s.enqueue .passing { access := ⟨.passing id, addr, body⟩, order := id, init := some init }

/-- The rotation of the sources, from the one after the source last granted (R169). -/
def rotation : Source → List Source
  | .passing => [.cache, .command, .notice, .passing]
  | .cache => [.command, .notice, .passing, .cache]
  | .command => [.notice, .passing, .cache, .command]
  | .notice => [.passing, .cache, .command, .notice]

/-- One grant (R169): the first source of the rotation with an access ready, the one of its accesses that became
ready first. -/
def MemPort.grantOne (m : MemPort) : Option MemPort :=
  (rotation m.last).findSome? fun src =>
    (extract QItem.ready (m.queueOf src)).map fun r =>
      { m.setQueue src r.2 with last := src, outstanding := m.outstanding ++ [r.1.access] }

/-- Grants until no access is ready; each grant may make others ready. -/
def MemPort.grantLoop (h : Holding) : Nat → MemPort → MemPort
  | 0, m => m
  | n + 1, m =>
    match m.grantOne with
    | none => m
    | some m' => MemPort.grantLoop h n (m'.wake h)

/-- Every access that waits at the port. -/
def MemPort.waiting (m : MemPort) : Nat :=
  m.passing.length + m.cache.length + m.command.length + m.notice.length

/-- What waits at the port is judged again. -/
def wakePort (s : State) : State := { s with mem := s.mem.wake s.holding }

/-- The memory port grants every access that is ready, after each transaction handed to it and at the end of each
step (log 7). -/
def grantAll (s : State) : State :=
  { s with mem := (s.mem.wake s.holding).grantLoop s.holding s.mem.waiting }

/-- Ends the oldest outstanding access of a purpose and goes on with it; where none is outstanding, what arrives
is discarded (R172; log 6). -/
def State.ending (s : State) (p : Purpose → Bool) (k : Access → State → State) : State :=
  match extract (fun a => p a.purpose) s.mem.outstanding with
  | none => s
  | some (a, rest) => k a { s with mem := { s.mem with outstanding := rest } }

/-- A write of a purpose is still at the port or outstanding. -/
def State.inProgress (s : State) (p : Purpose → Bool) : Bool :=
  s.mem.outstanding.any (fun a => p a.purpose) || s.mem.cache.any (fun q => p q.access.purpose)

/-- Bytes written on the part's own account. -/
def ownWrite (p : Purpose) (addr : Nat) (bs : List Byte) : Access := ⟨p, addr, .write (enabled bs)⟩

/-! ## Notices (R181, R182) -/

/-- Indices of a ring, modulo its places. -/
def ringDiff (a b : Nat) : Nat := (a + Config.ringPlaces - b) % Config.ringPlaces

/-- Places of a ring that are held. -/
def Ring.held (r : Ring) : Nat := ringDiff r.claimed r.consumer

/-- Entries of a ring published and not yet consumed. -/
def Ring.unread (r : Ring) : Nat := ringDiff r.published r.consumer

/-- The next index of a ring. -/
def ringNext (n : Nat) : Nat := (n + 1) % Config.ringPlaces

/-- Claims the next place of the notice ring and writes the notice there (R181). -/
def claimNotice (n : Notice) (s : State) : State :=
  { s with nw := { s.nw with notices := { s.nw.notices with claimed := ringNext s.nw.notices.claimed } } }.submit
    .notice (ownWrite .notice (s.controlBase + 0x4000 + 16 * s.nw.notices.claimed) n.toBytes)

/-- One more notice counted as overflow (R182). -/
def Nw.countOverflow (w : Nw) : Nw := { w with overflow := sat16 (w.overflow + 1) }

/-- A notice is handed to NW (R181, R182). -/
def notify (n : Notice) (s : State) : State :=
  if s.nw.notices.held < Config.ringHeldLimit then claimNotice n s
  else { s with nw := s.nw.countOverflow }

/-- Several notices of one event, in order. -/
def notifyAll (ns : List Notice) (s : State) : State := ns.foldl (fun acc n => notify n acc) s

/-- A MEMORY_FAULT notice (R96). -/
def memoryFault (a : FaultAccess) (key : Key) (datum : Nat) (s : State) : State :=
  notify ⟨.memoryFault, a.code, key, s.now, datum⟩ s

/-- NW judges the ATTN line (R188). -/
def Nw.judge (w : Nw) : Nw :=
  { w with
    attn := decide (w.coalesceN ≤ w.notices.unread)
      || (decide (1 ≤ w.notices.unread) && decide (w.coalesceT ≠ 0)
          && match w.timer with
             | none => false
             | some n => decide (msTicks w.coalesceT ≤ n)) }

/-! ## Open transactions -/

/-- Changes the open transaction of a number. -/
def State.modifyTxn (s : State) (id : Nat) (f : Txn → Txn) : State :=
  { s with txns := s.txns.map fun t => if t.id = id then f t else t }

/-- The open transaction of a number. -/
def State.txn (s : State) (id : Nat) : Option Txn := s.txns.find? fun t => t.id == id

/-- Changes the data of a read. -/
def Txn.mapData (f : List Byte → List Byte) (t : Txn) : Txn :=
  match t.body with
  | .read len parts data => { t with body := .read len parts (data.map f) }
  | .write _ _ _ _ => t

/-- Changes a part of a read. -/
def Txn.mapPart (k : Nat) (f : ReadPart → ReadPart) (t : Txn) : Txn :=
  match t.body with
  | .read len parts data => { t with body := .read len (parts.modify k f) data }
  | .write _ _ _ _ => t

/-- The parts of a read. -/
def Txn.readParts (t : Txn) : List ReadPart :=
  match t.body with
  | .read _ parts _ => parts
  | .write _ _ _ _ => []

/-- The data of a read has returned. -/
def Txn.hasData (t : Txn) : Bool :=
  match t.body with
  | .read _ _ data => data.isSome
  | .write _ _ _ _ => false

/-- Part `k` of the read of a number. -/
def State.readPart (s : State) (id k : Nat) : Option ReadPart :=
  match s.txn id with
  | none => none
  | some t => t.readParts[k]?

/-- Replaces bytes of a part in the data of a read: `f` gives, by the offset in the owner's unit and the byte
DRAM returned, the byte the initiator gets. -/
def patchBytes (start len off : Nat) (f : Nat → Byte → Byte) (data : List Byte) : List Byte :=
  data.zipIdx.map fun p => if start ≤ p.2 ∧ p.2 < start + len then f (off + (p.2 - start)) p.1 else p.1

/-- A part of a read is completed, its bytes replaced by `f`. When it is the last, the read is complete (R160). -/
def State.completePart (s : State) (id k : Nat) (f : Nat → Byte → Byte) : State :=
  match s.readPart id k with
  | none => s
  | some p =>
    s.modifyTxn id fun t =>
      let t' := (t.mapData (patchBytes p.start p.len p.off f)).mapPart k fun q => { q with done := true }
      match t'.body with
      | .read _ parts (some data) =>
        if parts.all (fun q => q.done) then { t' with result := some (.normal data) } else t'
      | _ => t'

/-- The bytes of a part that are left as DRAM returned them. -/
def asReturned : Nat → Byte → Byte := fun _ b => b

/-- A read ends in an error response. -/
def State.failTxn (s : State) (id : Nat) : State := s.modifyTxn id fun t => { t with result := some .error }

/-! ## Command unit (R177) -/

/-- An access of CMU's own. -/
def State.cmuSubmit (s : State) (a : Access) (phase : CmuPhase) (after : Option Nat := none) : State :=
  { s with cmu := { s.cmu with phase := phase } }.submit .command a after

/-- The address of the descriptor at CMU's consumer position (R174). -/
def State.descriptorAddr (s : State) : Nat := s.controlBase + 0x2000 + 32 * s.cmu.consumer

/-- The status byte is written (R177). -/
def writeStatus (st : Status) (s : State) : State :=
  s.cmuSubmit (ownWrite .status (s.descriptorAddr + 1) (le 1 st.code)) .statusWrite

/-- CMU answers the descriptor without a result field (R177). -/
def answer (st : Status) (s : State) : State := writeStatus st s

/-- CMU answers the descriptor with result fields, each its own write (R177, R193). -/
def answerWith (fields : List (Nat × List Byte)) (st : Status) (s : State) : State :=
  match fields with
  | [] => writeStatus st s
  | _ =>
    fields.foldl (fun acc p => acc.submit .command (ownWrite .resultField (s.descriptorAddr + p.1) p.2))
      { s with cmu := { s.cmu with phase := .resultWrite fields.length st } }

/-- CMU fetches the descriptor at its consumer position (R174, R175). -/
def fetchDescriptor (s : State) : State :=
  s.cmuSubmit ⟨.descriptor, s.descriptorAddr, .read 32⟩ .fetching (some s.cmu.producerTake)

/-- A step of CMU on a command it holds and has not begun: nothing where CMU holds no such command (log 5). -/
def onCommand (code : Nat) (f : List Byte → State → State) (s : State) : State :=
  match s.cmu.phase with
  | .executing copy => if cmdCode copy = code then f copy s else s
  | _ => s

end Sys2Proof.Machine
end

