-- ==== Sys2Proof/Machine/CalendarOps.lean ====
section
/-!
DEFINITION. The operations of the maintenance calendar that other blocks call (06_maintenance_calendar.md):
finding, making, setting and removing entries, the heard effect, the hand-overs, the calendar-owned bytes.

The list `State.calendar` keeps the entries in the order in which each received its due time, so that entries
with one due time stand as R109 orders them; the head of the due order is found by the signed distance.
-/

namespace Sys2Proof.Machine

/-- The calendar entry of a context index. -/
def State.calEntry (s : State) (idx : Nat) : Option CalEntry := s.calendar.find? fun e => e.index == idx

/-- Replaces the entry of an index where it stands: its due time is not set. -/
def calKeep (e : CalEntry) (s : State) : State :=
  { s with calendar := s.calendar.map fun x => if x.index = e.index then e else x }

/-- Replaces the entry of an index, or makes it, its due time being set: it goes behind every other entry with
that due time (R109). -/
def calSet (e : CalEntry) (s : State) : State :=
  { s with calendar := (s.calendar.filter fun x => x.index != e.index) ++ [e] }

/-- Takes a link out of the lapse list (R115, R116). -/
def lapseDrop (idx : Nat) (s : State) : State := { s with lapses := s.lapses.filter fun l => l.index != idx }

/-- Removes the entry of an index, and its link from the lapse list (R110, R116). -/
def calRemove (idx : Nat) (s : State) : State :=
  lapseDrop idx { s with calendar := s.calendar.filter fun x => x.index != idx }

/-- The entry made when ADMIT or REVIVE takes effect (R110). -/
def calMake (idx : Nat) (key : Key) (cls : PeriodClass) (s : State) : State :=
  calSet ⟨idx, key, .offer, s.now, 0, cls, s.now, false⟩ s

/-- The earlier of two entries in the due order, the first of two with equal distance (R109). -/
def earlier (now : Tick) (a b : CalEntry) : CalEntry :=
  if distance now b.due < distance now a.due then b else a

/-- The head of the due order: entries with the lapsing mark stand outside it (R109). -/
def State.calHead (s : State) : Option CalEntry :=
  match s.calendar.filter fun e => !e.lapsing with
  | [] => none
  | e :: rest => some (rest.foldl (earlier s.now) e)

/-- The entry the calendar takes now, if it takes one (R109): in RUNNING and STOPPED, the head when its due time
is reached. -/
def State.calTaken (s : State) : Option CalEntry :=
  if s.run = .idle then none
  else
    match s.calHead with
    | none => none
    | some e => if reached s.now e.due then some e else none

/-- The period of a class on a channel, in ticks (R117). -/
def periodTicks (p : Policy) : PeriodClass → Nat
  | .acquire => msTicks p.acquirePeriod
  | .tracking => msTicks p.trackingPeriod

/-- A due time one period from a base stamp, or now when that period has already run (R117, R118). -/
def dueFrom (now base : Tick) (period : Nat) : Tick :=
  if period ≤ elapsed now base then now else later base period

/-- The heard effect on a link's entry (R59, R117). -/
def calHeard (idx : Nat) (stamp : Tick) (s : State) : State :=
  match s.calEntry idx with
  | none => s
  | some e =>
    lapseDrop idx
      (calSet
        { e with
          kind := .offer
          miss := 0
          lapsing := false
          base := stamp
          due := dueFrom s.now stamp (periodTicks (s.policy e.key.channel) e.cls) } s)

/-- The period class a change of state gives, with the reschedule of an OFFER entry (R118). -/
def calReclass (idx : Nat) (cls : PeriodClass) (s : State) : State :=
  match s.calEntry idx with
  | none => s
  | some e =>
    if e.kind = .offer then
      calSet { e with cls := cls, due := dueFrom s.now e.base (periodTicks (s.policy e.key.channel) cls) } s
    else calKeep { e with cls := cls } s

/-- The period class an operator hold write gives; the due time stands (R119). -/
def calClass (idx : Nat) (cls : PeriodClass) (s : State) : State :=
  match s.calEntry idx with
  | none => s
  | some e => calKeep { e with cls := cls } s

/-- The calendar-owned bytes supplied for a context: those of its entry when it has one (R97, R120). -/
def State.supply (s : State) (idx : Nat) (c : Context) : Context :=
  match s.calEntry idx with
  | none => c
  | some e => { c with calKind := some e.kind, miss := e.miss, due := e.due }

/-- The calendar-owned bytes an image takes when its entry is removed (R110). -/
def Context.leaveCalendar (c : Context) (e : Option CalEntry) : Context :=
  match e with
  | none => c
  | some e => { c with calKind := none, miss := e.miss, due := e.due }

/-- FORCE_DUE on one entry (R123). -/
def calForce (idx : Nat) (s : State) : State :=
  match s.calEntry idx with
  | none => s
  | some e => if e.kind = .grace then s else calSet { e with kind := .offerForced, due := s.now } s

/-- Places an entry in due order behind those not after it. -/
def dueInsert (now : Tick) (e : CalEntry) : List CalEntry → List CalEntry
  | [] => [e]
  | x :: rest => if distance now x.due ≤ distance now e.due then x :: dueInsert now e rest else e :: x :: rest

/-- The entries in due order (R109). -/
def dueOrder (now : Tick) (es : List CalEntry) : List CalEntry := es.foldl (fun acc e => dueInsert now e acc) []

/-- The START rebase from IDLE (R121). -/
def calRebase (s : State) : State :=
  { s with calendar := (dueOrder s.now s.calendar).map fun e => { e with due := s.now, base := s.now } }

/-- The channel quiet interval in ticks (R62): q times 250 ms, or 120 s when q is 0. -/
def quietInterval (q : Nat) : Nat := if q = 0 then msTicks 120000 else msTicks (250 * q)

/-- Restarts the quiet timer of a channel with the interval of the policy in force (R62). -/
def restartQuiet (ch : Nat) (s : State) : State :=
  s.setQuietTimer ch (some ⟨quietInterval (s.policy ch).quiet, s.now⟩)

/-- A claimed offer is written in the due ring (R186). -/
def claimOffer (e : CalEntry) (reason : OfferReason) (s : State) : State :=
  { s with nw := { s.nw with due := { s.nw.due with claimed := ringNext s.nw.due.claimed } } }.submit
    .notice
      (ownWrite (.offer s.nw.due.claimed e.key) (s.controlBase + 0x8000 + 8 * s.nw.due.claimed)
        (offerBytes e.key reason e.miss s.now))

/-- The due ring has room (R111, R186). -/
def State.dueRoom (s : State) : Bool := decide (s.nw.due.held < Config.ringHeldLimit)

/-- The reason of an offer (R111). -/
def offerReason (e : CalEntry) : OfferReason :=
  if e.kind = .offerForced then .forced else if 0 < e.miss then .retry else .scheduled

end Sys2Proof.Machine
end

