-- ==== Sys2Proof/Machine/CacheOps.lean ====
section
/-!
DEFINITION. The context cache (05_context_cache_and_context_window.md): entries, recency, requests, fetches and
write-backs as they are begun, reuse cancelled or passed on, and the taking of operator writes.
-/

namespace Sys2Proof.Machine

/-! ## Entries (R85, R86) -/

/-- An entry that serves its context: VALID or RETIRING. -/
def Entry.serves (x : Entry) : Bool := x.cond == .valid || x.cond == .retiring

/-- The entry that belongs to a context index, if one does (R85: at most one). -/
def State.findEntry (s : State) (idx : Nat) : Option Nat :=
  (List.range 32).find? fun e => (s.entry e).cond != .invalid && (s.entry e).index == idx

/-- The entry that serves a context index, if one does. -/
def State.servingEntry (s : State) (idx : Nat) : Option Nat :=
  match s.findEntry idx with
  | none => none
  | some e => if (s.entry e).serves then some e else none

/-- A request waits on nothing more: its requester has been given the entry, or the answer that the context is
gone, and its own step takes it. -/
def Wait.given : Wait → Bool
  | .ready => true
  | .kept => true
  | _ => false

/-- An entry becomes the most recently used; a RETIRING entry does not move (R86). -/
def touch (e : Nat) (s : State) : State :=
  if (s.entry e).cond = .valid then { s with recency := (s.recency.filter fun x => x != e) ++ [e] } else s

/-- The reads of a context hold nothing any more: its entry is gone (R98). -/
def Txn.dropHolds (idx : Nat) (t : Txn) : Txn :=
  match t.body with
  | .read len parts data =>
    { t with
      body := .read len
        (parts.map fun p =>
          match p.owner with
          | .context i k _ => if i = idx then { p with owner := .context i k false } else p
          | _ => p)
        data }
  | .write _ _ _ _ => t

/-- An entry becomes INVALID, with all its marks clear; reads hold its context no more. An INVALID entry stays as
it is. -/
def invalidate (e : Nat) (s : State) : State :=
  let x := s.entry e
  if x.cond = .invalid then s
  else
    { s.setEntry e {} with
      recency := s.recency.filter fun y => y != e
      txns := s.txns.map (Txn.dropHolds x.index) }

/-- A request for the context is ready to be given this entry: the entry is not evictable until its requesters
have been served (R89). -/
def State.owed (s : State) (x : Entry) : Bool :=
  s.reqs.any fun r => r.wait.given && r.index == x.index && r.key == x.key

/-- An evictable entry (R86, R89). -/
def State.evictable (s : State) (e : Nat) : Bool :=
  let x := s.entry e
  x.cond == .valid && !x.pinned && !x.faulted && x.holds == 0 && !s.owed x

/-- The least recently used evictable entry (R86). -/
def State.lru (s : State) : Option Nat := s.recency.find? fun e => s.evictable e

/-- The first INVALID entry. -/
def State.freeEntry (s : State) : Option Nat := (List.range 32).find? fun e => (s.entry e).cond == .invalid

/-- All 32 entries are faulted (R95). -/
def State.allFaulted (s : State) : Bool := (List.range 32).all fun e => (s.entry e).faulted

/-! ## Engine marks (R71) -/

/-- The job of an engine. -/
def Engine.job : Engine → Option Job
  | .idle => none
  | .obtaining j _ => some j
  | .computing j _ _ => some j

/-- The mark of the job in flight. -/
def Engine.mark : Engine → Option LossCause
  | .idle => none
  | .obtaining _ m => m
  | .computing _ m _ => m

/-- A job is a CAPTURE job. -/
def Job.isCapture (j : Job) : Bool :=
  match j.kind with
  | .capture _ => true
  | .trial _ _ => false

/-- A CAPTURE job in flight of the context takes a mark, unless it has one (R69, R71). A TRIAL job takes none. -/
def markJob (idx : Nat) (key : Key) (cause : LossCause) (s : State) : State :=
  match s.engine with
  | .idle => s
  | .obtaining j m =>
    if j.isCapture && j.index == idx && j.key == key && m.isNone then { s with engine := .obtaining j (some cause) }
    else s
  | .computing j m snap =>
    if j.isCapture && j.index == idx && j.key == key && m.isNone then
      { s with engine := .computing j (some cause) snap }
    else s

/-! ## Reuse (R88, R92) -/

/-- The requests that wait on the write-back of an entry choose again, ahead of every request in the waiting
list (R88). -/
def rechoose (e : Nat) (s : State) : State :=
  { s with
    reqs := ((s.reqs.filter fun r => r.wait == .writeBack e).map fun r => { r with wait := .list })
      ++ s.reqs.filter fun r => r.wait != .writeBack e }

/-- The reuse of a RETIRING entry is cancelled: it returns to VALID with its context and its place, clean if its
image is unchanged since the write-back was issued (R92). -/
def cancelReuse (e : Nat) (s : State) : State :=
  let x := s.entry e
  rechoose e (s.setEntry e { x with cond := .valid, dirty := x.retire.changed, retire := {} })

/-- An event in the time after the end of the write-back in which reads still hold the entry cancels its reuse
(R92). -/
def cancelIfEnded (e : Nat) (s : State) : State :=
  let x := s.entry e
  if x.cond = .retiring ∧ x.retire.ended = true then cancelReuse e s else s

/-- The image of an entry changes: the entry is dirty, and a RETIRING entry has changed since its write-back was
issued (R85, R92). -/
def modifyImage (e : Nat) (f : Context → Context) (s : State) : State :=
  let x := s.entry e
  cancelIfEnded e
    (s.setEntry e
      { x with
        image := f x.image
        dirty := true
        retire := if x.cond = .retiring then { x.retire with changed := true } else x.retire })

/-- The operator writes among the requests for an index, as they join the merge list of its entry (R101). -/
def mergesOf (idx : Nat) (rs : List Req) : List MergeWrite :=
  rs.filterMap fun r =>
    match r.who with
    | .write txn _ bs => if r.index = idx ∧ !r.wait.given then some ⟨txn, bs⟩ else none
    | _ => none

/-- A request that is an operator write. -/
def Requester.isWrite : Requester → Bool
  | .write _ _ _ => true
  | _ => false

/-- An entry becomes FETCHING for a context: its fetch is issued, after every passing write taken before (R90,
R170), every request for the context waits on it, and the operator writes among them join its merge list. -/
def startFetch (e idx : Nat) (key : Key) (s : State) : State :=
  let s1 := invalidate e s
  let s2 : State :=
    { s1.setEntry e { cond := .fetching, index := idx, key := key, merge := mergesOf idx s.reqs } with
      reqs := (s.reqs.filter fun r => !(r.who.isWrite && r.index == idx && !r.wait.given)).map fun r =>
        if r.index = idx ∧ !r.wait.given then { r with wait := .fetch } else r }
  s2.submit .cache ⟨.fetch idx, s.contextAddr idx, .read 256⟩ (some s.takes)

/-- The bytes of a context as the part supplies them now (R92, R97, R104): its image, with the calendar's own
values. -/
def State.contextBytes (s : State) (e : Nat) : List Byte :=
  (s.supply (s.entry e).index (s.entry e).image).toBytes

/-- A dirty entry chosen for reuse becomes RETIRING and its write-back is issued; the requests of the waiting
list for that index wait on it (R88, R92). -/
def startWriteBack (e idx : Nat) (s : State) : State :=
  let x := s.entry e
  let s1 : State :=
    { s.setEntry e { x with cond := .retiring, retire := {} } with
      reqs := s.reqs.map fun r => if r.index = idx ∧ r.wait = .list then { r with wait := .writeBack e } else r }
  s1.submit .cache (ownWrite (.writeBack x.index x.key) (s.contextAddr x.index) (s.contextBytes e))

/-- A request for a fresh entry takes an INVALID entry, or the least recently used evictable one, clean or after
its write-back; nothing when there is neither (R88, R89). -/
def place (idx : Nat) (key : Key) (s : State) : Option State :=
  match s.freeEntry with
  | some e => some (startFetch e idx key s)
  | none =>
    match s.lru with
    | none => none
    | some e => if (s.entry e).dirty then some (startWriteBack e idx s) else some (startFetch e idx key s)

/-- The oldest requests of the waiting list take entries while there are any to take (R89). -/
def pumpLoop : Nat → State → State
  | 0, s => s
  | n + 1, s =>
    match s.reqs.find? fun r => r.wait == .list with
    | none => s
    | some r =>
      match place r.index r.key s with
      | none => s
      | some s' => pumpLoop n s'

/-- The waiting list is served as far as the entries allow (R89). -/
def serveList (s : State) : State := pumpLoop s.reqs.length s

/-- The write-back of a RETIRING entry has ended with the entry reusable: it passes to the waiting allocation
(R92); where that allocation no longer waits, the entry stays with its context, clean (log 13). -/
def passOn (e : Nat) (s : State) : State :=
  match s.reqs.find? fun r => r.wait == .writeBack e with
  | some r => startFetch e r.index r.key s
  | none => s.setEntry e { s.entry e with cond := .valid, dirty := false, retire := {} }

/-- A read releases its hold (R98); the last one lets an ended write-back pass its entry on (R92). -/
def releaseHold (idx : Nat) (key : Key) (s : State) : State :=
  match s.servingEntry idx with
  | none => s
  | some e =>
    let x := s.entry e
    if x.key = key then
      let s1 := s.setEntry e { x with holds := x.holds - 1 }
      if x.cond = .retiring ∧ x.retire.ended = true ∧ x.holds ≤ 1 then passOn e s1 else s1
    else s

/-! ## Requests (R87, R88) -/

/-- Adds a request. -/
def addReq (who : Requester) (idx : Nat) (key : Key) (w : Wait) (s : State) : State :=
  { s with reqs := s.reqs ++ [⟨who, idx, key, w⟩] }

/-- A request joins those that wait for an entry for its index, or the waiting list, or takes an entry (R88,
R89). -/
def requestFresh (who : Requester) (idx : Nat) (key : Key) (s : State) : State :=
  match s.reqs.find? fun r => r.index == idx && !r.wait.given && r.wait != .fetch with
  | some r => addReq who idx key r.wait s
  | none =>
    let s1 := addReq who idx key .list s
    if s.reqs.any fun r => r.wait == .list then s1 else (place idx key s1).getD s1

/-- A request of the cache for a context (R87). -/
def request (who : Requester) (idx : Nat) (key : Key) (s : State) : State :=
  if s.present idx key then
    match s.findEntry idx with
    | none => requestFresh who idx key s
    | some e =>
      match (s.entry e).cond with
      | .fetching => addReq who idx key .fetch s
      | .retiring =>
        cancelIfEnded e
          (addReq who idx key .kept
            (s.setEntry e { s.entry e with retire := { (s.entry e).retire with given := true } }))
      | _ => addReq who idx key .ready s
  else addReq who idx key .ready s

/-- The request of a requester. -/
def State.reqOf (s : State) (who : Requester) : Option Req := s.reqs.find? fun r => r.who == who

/-- The entry a requester has been given becomes the most recently used, unless it was RETIRING when the request was
given it: then it keeps the place it had (R86, R87). -/
def touchFor (who : Requester) (e : Nat) (s0 s : State) : State :=
  match s0.reqOf who with
  | none => touch e s
  | some r => if r.wait = .kept then s else touch e s

/-- A request leaves. -/
def dropReq (who : Requester) (s : State) : State := { s with reqs := s.reqs.filter fun r => r.who != who }

/-- The request of a requester, when it is ready: the entry is there, or the context is gone. -/
def State.readyReq (s : State) (who : Requester) : Option Req :=
  match s.reqOf who with
  | none => none
  | some r => if r.wait.given then some r else none

/-! ## Operator writes (R16 to R18, R100) -/

/-- The state change the hold flag makes (R16). -/
def Context.followHold (c : Context) : Context :=
  match c.hold, c.state with
  | true, .initial => { c with state := .held }
  | true, .acquiring => { c with state := .held }
  | true, .tracking => { c with state := .held }
  | false, .held => { c with state := .acquiring, step := 0, settle := 0 }
  | _, _ => c

/-- The operator bytes of a write replace those of the image (R100, step 1): of the control byte only the hold
and freeze flags are kept. -/
def Context.putOperator (c : Context) (bs : List (Nat × Byte)) : Context :=
  let tapPart := (bs.filter fun p => isTapOffset p.1).map fun p => (p.1 - 32, p.2)
  let c1 := if tapPart.isEmpty then c else { c with taps := getTaps (putBytes (tapBytes c.taps) tapPart) 0 }
  match bs.find? fun p => p.1 == controlOffset with
  | none => c1
  | some p => { c1 with hold := p.2.toNat.testBit 0, freeze := p.2.toNat.testBit 1 }

/-- A write covers an issued-tap byte. -/
def coversTaps (bs : List (Nat × Byte)) : Bool := bs.any fun p => isTapOffset p.1

/-- The basis moves and a pending correction is discarded (R18, R100 step 2). -/
def Context.moveBasis (c : Context) : Context := { c with basis := (c.basis + 1) % 65536, pending := none }

/-- The context after an operator write (R100, steps 1 to 3). -/
def Context.operatorWrite (c : Context) (bs : List (Nat × Byte)) : Context :=
  let c1 := c.putOperator bs
  let c2 := if coversTaps bs then c1.moveBasis else c1
  if c1.hold = c.hold then c2 else c2.followHold

/-- PENDING_DISCARDED of an operator write (R18, R184). -/
def discardNotice (c : Context) (bs : List (Nat × Byte)) (now : Tick) : List Notice :=
  match c.pending with
  | some p =>
    if coversTaps bs then [⟨.pendingDiscarded, discardedByOperator, c.key, now, slotDatum noSlot p.id⟩] else []
  | none => []

/-- STATE_CHANGE of a hold write (R11, R184). -/
def holdNotice (old new : Context) (now : Tick) : List Notice :=
  if old.state = new.state then []
  else [⟨.stateChange, stateChangeDetail old.state new.state, old.key, now, LapseReason.noReason.code⟩]

/-- The period class of a state entered by a hold write (R119). -/
def holdClass (idx : Nat) (old new : Context) (s : State) : State :=
  if old.state = new.state then s
  else if new.state = .held then calClass idx .tracking s else calClass idx .acquire s

/-- An operator write is taken on the entry of its context, in one event (R100). -/
def takeOperatorWrite (e : Nat) (bs : List (Nat × Byte)) (s : State) : State :=
  let x := s.entry e
  let c := x.image
  let c' := c.operatorWrite bs
  notifyAll (discardNotice c bs s.now ++ holdNotice c c' s.now)
    (markJob x.index x.key .operator
      (holdClass x.index c c' (modifyImage e (fun _ => c') (touch e s))))

/-- The hold flag of a fetched image disagrees with its state (R91). -/
def Context.holdDisagrees (c : Context) : Bool :=
  c.state != .lapsed && c.hold != (c.state == .held)

/-- The fetched hold flag is taken as a write of that flag (R91, R100). -/
def reconcileHold (e : Nat) (s : State) : State :=
  let x := s.entry e
  let c := x.image
  if c.holdDisagrees then
    let c' := c.followHold
    notifyAll (holdNotice c c' s.now)
      (markJob x.index x.key .operator (holdClass x.index c c' (modifyImage e (fun _ => c') s)))
  else s

/-- An operator write of an admitted context: applied at once to the entry that serves it, merged into one that
is being fetched, write-allocated otherwise (R100, R101). -/
def operatorWrite (idx : Nat) (key : Key) (txn : Nat) (bs : List (Nat × Byte)) (s : State) : State :=
  match s.findEntry idx with
  | none => request (.write txn idx bs) idx key s
  | some e =>
    if (s.entry e).cond = .fetching then
      s.setEntry e { s.entry e with merge := (s.entry e).merge ++ [⟨txn, bs⟩] }
    else takeOperatorWrite e bs s

/-- The operator writes of a transaction that are not yet taken or dropped (R101). -/
def State.awaits (s : State) (txn : Nat) : Bool :=
  (s.reqs.any fun r =>
      match r.who with
      | .write t _ _ => t == txn
      | _ => false)
    || (List.range 32).any fun e => (s.entry e).merge.any fun m => m.txn == txn

end Sys2Proof.Machine
end

