-- ==== Sys2Proof/Machine/EngineOps.lean ====
section
/-!
DEFINITION. The coefficient engine's dealings with its job (04_update_queue_and_coefficient_engine.md): what it
does when the cache gives it the context, when the fetch fails, and when the computation ends.
-/

namespace Sys2Proof.Machine

/-- The snapshot of an update (R25). -/
def snapshotOf (c : Context) (p : Policy) : Snapshot :=
  { state := c.state
    offTiming := c.offTiming
    offPower := c.offPower
    offFreq := c.offFreq
    taps := c.taps
    basis := c.basis
    freeze := c.freeze
    step := c.step
    settle := c.settle
    policy := p }

/-- The supersede tally a job carries (R66). -/
def Job.tally (j : Job) : Nat :=
  match j.kind with
  | .capture t => t
  | .trial _ _ => 0

/-- The pinned entry is unpinned; when RELEASE has been taken against it, it is invalidated (R74, R93), and the
allocation that chose it, if it is RETIRING, takes it as an INVALID entry (R92, log 22). -/
def unpin (s : State) : State :=
  match (List.range 32).find? fun e => (s.entry e).pinned with
  | none => s
  | some e =>
    if (s.entry e).released then
      if (s.entry e).cond = .retiring then rechoose e (invalidate e s) else invalidate e s
    else s.setEntry e { s.entry e with pinned := false }

/-- The counters of a discarded job on a context that is present (R74). -/
def Context.countLost (c : Context) (tally : Nat) : Context :=
  { c with
    counters := { c.counters with
                  lost := sat16 (c.counters.lost + 1)
                  superseded := sat16 (c.counters.superseded + tally) } }

/-- The entry that serves a reference which finds its context present (R3). -/
def State.givenEntry (s : State) (idx : Nat) (key : Key) : Option Nat :=
  if s.present idx key then s.servingEntry idx else none

/-- UPDATE_LOST (R78). -/
def lostNotice (j : Job) (cause : LossCause) : Notice := ⟨.updateLost, cause.code, j.key, j.stamp, j.index⟩

/-- A CAPTURE job is discarded (R74): its counts on a context that is present, CE idle, UPDATE_LOST, the entry
unpinned. -/
def discardJob (j : Job) (cause : LossCause) (s : State) : State :=
  let s1 : State :=
    match s.givenEntry j.index j.key with
    | none => s
    | some e => modifyImage e (fun c => c.countLost j.tally) s
  unpin (notify (lostNotice j cause) { s1 with engine := .idle })

/-- The calendar's part of an applied job (R76, R118). -/
def handOver (idx e : Nat) (h : HandOver) (s : State) : State :=
  match h with
  | .nothing => s
  | .nowTracking => calReclass idx .tracking s
  | .nowAcquire => calReclass idx .acquire s
  | .remove => calRemove idx (modifyImage e (fun c => c.leaveCalendar (s.calEntry idx)) s)

/-- The notices of an applied update (R45, R78). -/
def updateNotices (j : Job) (ns : List (NoticeKind × Nat × Nat)) : List Notice :=
  ns.map fun n => ⟨n.1, n.2.1, j.key, j.stamp, n.2.2⟩

/-- A CAPTURE job is applied (R75, R76): its effects on the context in one event, the hand-over, the notices, the
entry unpinned, CE idle. -/
def applyJob (j : Job) (snap : Snapshot) (e : Nat) (s : State) : State :=
  let a := applyUpdate (s.entry e).image snap j.record j.stamp j.tally
  let s1 := handOver j.index e a.handOver (modifyImage e (fun _ => a.ctx) s)
  unpin { notifyAll (updateNotices j a.notices) s1 with engine := .idle }

/-- A TRIAL job completes (R81, R82): CE hands the result to CMU, which writes it into the trial area. -/
def finishTrial (j : Job) (raw : Bool) (snap : Snapshot) (s : State) : State :=
  (unpin { s with engine := .idle }).cmuSubmit
    (ownWrite .trialResult (s.controlBase + 0xA000) (trialResultBytes j.key j.stamp snap j.record raw))
    (.trialWrite j.key)

/-- The cache gives CE the job's context (R72); a mark decides before a LAPSED state, and a context that is gone
before both (log 9). -/
def giveEngine (s : State) : State :=
  match s.engine with
  | .obtaining j m =>
    let s1 := dropReq .engine s
    match s.givenEntry j.index j.key with
    | none => if j.isCapture then discardJob j (m.getD .released) s1 else answer .notFound { s1 with engine := .idle }
    | some e =>
      let s2 := touchFor .engine e s s1
      let c := (s.entry e).image
      if j.isCapture ∧ m.isSome then discardJob j (m.getD .released) s2
      else if j.isCapture ∧ c.state = .lapsed then discardJob j .lapsed s2
      else
        { s2.setEntry e { s2.entry e with pinned := true } with
          engine := .computing j none (snapshotOf c (s.policy j.key.channel)) }
  | _ => dropReq .engine s

/-- The fetch of the job's context failed (R72, R81): the job ends without a context. -/
def abandonEngine (s : State) : State :=
  match s.engine with
  | .obtaining j _ =>
    let s1 := { dropReq .engine s with engine := .idle }
    if j.isCapture then s1 else answer .memory s1
  | _ => dropReq .engine s

/-- The computation of the job in flight ends (R74, R75, R81). -/
def completeJob (s : State) : State :=
  match s.engine with
  | .computing j m snap =>
    match j.kind with
    | .trial raw _ => finishTrial j raw snap s
    | .capture _ =>
      match m with
      | some cause => discardJob j cause s
      | none =>
        match s.givenEntry j.index j.key with
        | none => discardJob j .released s
        | some e => applyJob j snap e s
  | _ => s

/-- CE takes the head job (R70): CE idle, the queue not empty, the run state RUNNING or STOPPED. -/
def takeJob (s : State) : State :=
  if s.run = .idle then s
  else
    match s.engine, s.queue with
    | .idle, j :: rest => request .engine j.index j.key { s with queue := rest, engine := .obtaining j none }
    | _, _ => s

end Sys2Proof.Machine
end

