-- ==== Sys2Proof/Machine/SlotOps.lean ====
section
/-!
DEFINITION. The response slot table (07_response_slots.md): arming and held header writes, binding, patching,
delivery, promotion.
-/

namespace Sys2Proof.Machine

/-! ## Arming (R128, R129) -/

/-- The arming of a slot by the key bytes a write carries (R128). -/
def armSlot (n : Nat) (ps : List (Nat × Byte)) (s : State) : State :=
  let x := s.slot n
  let img := putBytes x.keyImage ps
  s.setSlot n { x with state := .armed, keyImage := img, latched := getKey img 0, copy := none }

/-- A promotion of the slot is on the promotion list. -/
def State.promoting (s : State) (n : Nat) : Bool := s.promotions.any fun p => p.slot == n

/-- A binding in progress or a promotion on the list holds header writes of the slot back (R129). -/
def State.holdsBack (s : State) (n : Nat) : Bool := (s.slot n).binding || s.promoting n

/-- A header write part is taken by RST (R128, R129): in IDLE it changes nothing. -/
def takeHeader (n : Nat) (ps : List (Nat × Byte)) (s : State) : State :=
  if s.run = .idle then s
  else if s.holdsBack n then s.setSlot n { s.slot n with heldWrites := (s.slot n).heldWrites ++ [ps] }
  else armSlot n ps s

/-- The held header writes are applied in order, once neither a binding nor a promotion is in progress (R129). -/
def releaseHeld (n : Nat) (s : State) : State :=
  if s.holdsBack n then s
  else
    (s.slot n).heldWrites.foldl (fun acc ps => armSlot n ps acc)
      (s.setSlot n { s.slot n with heldWrites := [] })

/-! ## Delivery and promotion (R136 to R141) -/

/-- RST requests the context of the promotion at the head of its list, unless its request is already made
(R137). -/
def startPromotion (s : State) : State :=
  match s.reqOf .promotion with
  | some _ => s
  | none =>
    match s.promotions with
    | [] => s
    | p :: _ => request .promotion p.index p.key s

/-- The slot is delivered (R136): a copy with a source begins its promotion. -/
def deliver (n : Nat) (s : State) : State :=
  let x := s.slot n
  let s1 := s.setSlot n { x with state := .delivered }
  match x.copy with
  | some (.correction i k c) => startPromotion { s1 with promotions := s1.promotions ++ [⟨n, i, k, c⟩] }
  | _ => s1

/-- DELIVERY_STALE (R144). -/
def staleNotice (p : Promotion) (why : StaleReason) (now : Tick) : Notice :=
  ⟨.deliveryStale, why.code, p.key, now, slotDatum p.slot p.corr.id⟩

/-- The context a CONTINUE or SETTLED promotion leaves (R138), or an ABORT promotion (R139). -/
def Context.promoted (c : Context) (p : Correction) : Context :=
  let c1 := { c with
              pending := none
              counters := { c.counters with delivered := sat32 (c.counters.delivered + 1) } }
  if p.status = .abort then c1
  else
    { c1 with
      offTiming := c.offTiming + p.timing
      offPower := c.offPower + p.power
      offFreq := c.offFreq + p.freq
      taps := p.taps.getD c.taps
      basis := (c.basis + 1) % 65536 }

/-- The promotion is decided on the entry the cache gave (R138, R139). -/
def promoteOn (p : Promotion) (e : Nat) (s : State) : State :=
  let c := (s.entry e).image
  if c.basis ≠ p.corr.basis then notify (staleNotice p .basis s.now) s
  else
    match c.pending with
    | none => notify (staleNotice p .noPending s.now) s
    | some q =>
      let s1 := modifyImage e (fun x => x.promoted p.corr) s
      if q.id = p.corr.id then s1
      else notify ⟨.pendingDiscarded, supersededByDelivery, p.key, s.now, slotDatum p.slot q.id⟩ s1

/-- The promotion at the head of the list leaves it; its slot's held header writes are applied, and the next
promotion is begun (R129, R137). -/
def nextPromotion (n : Nat) (s : State) : State := startPromotion (releaseHeld n s)

/-- The cache gives RST the context of the promotion at the head of the list, or answers that it is gone. -/
def givePromotion (s : State) : State :=
  match s.promotions with
  | [] => dropReq .promotion s
  | p :: rest =>
    let s1 := { dropReq .promotion s with promotions := rest }
    nextPromotion p.slot
      (match s.givenEntry p.index p.key with
       | none => notify (staleNotice p .gone s.now) s1
       | some e => promoteOn p e (touchFor .promotion e s s1))

/-- The fetch of the promotion at the head of the list failed: the promotion is abandoned (R141). -/
def abandonPromotion (s : State) : State :=
  match s.promotions with
  | [] => dropReq .promotion s
  | p :: rest =>
    nextPromotion p.slot (notify (staleNotice p .fault s.now) { dropReq .promotion s with promotions := rest })

/-! ## Binding and reads (R131 to R135) -/

/-- The part of a read covers body bytes of its slot. -/
def ReadPart.coversBody (p : ReadPart) : Bool := decide (8 < p.off + p.len)

/-- The part of a read covers one or more of body bytes 60 to 63. -/
def ReadPart.coversLast (p : ReadPart) : Bool := decide (60 < p.off + p.len)

/-- A body read part of a BOUND or DELIVERED slot is patched from the copy, and delivers a BOUND one when it
covers the last word (R134, R136). -/
def patchSlot (n id k : Nat) (s : State) : State :=
  match s.readPart id k, (s.slot n).copy with
  | some p, some c =>
    let s1 := s.completePart id k fun o b => if 8 ≤ o then c.toBytes.getD o 0 else b
    if p.coversLast ∧ (s.slot n).state = .bound then deliver n s1 else s1
  | _, _ => s.completePart id k asReturned

/-- The slot becomes BOUND with a copy (R132, R133). -/
def bindCopy (n : Nat) (c : BoundCopy) (s : State) : State :=
  s.setSlot n { s.slot n with state := .bound, copy := some c, binding := false }

/-- The reads that waited on a binding are patched one after another (R132), then the header writes it held back
are applied if nothing holds them (R129). -/
def answerWaiting (n : Nat) (s : State) : State :=
  let x := s.slot n
  releaseHeld n
    (x.waiting.foldl (fun acc w => patchSlot n w.1 w.2 acc) (s.setSlot n { x with waiting := [] }))

/-- The latched key is one an admitted link can have (R132). -/
def Key.admissible (k : Key) : Bool := channelValid k.channel && stationValid k.station

/-- The context a binding of the slot would request, by the run state and the latched key (R132); `none` for a
binding made NOCHANGE at once. -/
def State.bindingSource (s : State) (n : Nat) : Option Nat :=
  let k := (s.slot n).latched
  if s.run = .stopped then none
  else if k.admissible then s.lookup k
  else none

/-- A body read part of a slot is handled, its data having returned (R131 to R134). -/
def readSlot (n id k : Nat) (s : State) : State :=
  match s.readPart id k with
  | none => s
  | some p =>
    let x := s.slot n
    if p.coversBody then
      match x.state with
      | .idle => s.completePart id k asReturned
      | .armed =>
        if x.binding then s.setSlot n { x with waiting := x.waiting ++ [(id, k)] }
        else
          match s.bindingSource n with
          | none => patchSlot n id k (bindCopy n .noChange s)
          | some idx =>
            request (.slot n) idx x.latched
              (s.setSlot n { x with binding := true, waiting := x.waiting ++ [(id, k)] })
      | _ => patchSlot n id k s
    else s.completePart id k asReturned

/-- The copy a binding makes from a context (R133). -/
def copyOf (idx : Nat) (key : Key) (c : Context) : BoundCopy :=
  match c.pending with
  | none => .noChange
  | some p => .correction idx key p

/-- The cache gives a binding slot its context, or answers that it is gone (R133). -/
def giveSlot (n : Nat) (s : State) : State :=
  match s.reqOf (.slot n) with
  | none => s
  | some r =>
    let s1 := dropReq (.slot n) s
    answerWaiting n
      (match s.givenEntry r.index r.key with
       | none => bindCopy n .noChange s1
       | some e => bindCopy n (copyOf r.index r.key (s.entry e).image) (touchFor (.slot n) e s s1))

/-- The fetch a binding waited on failed: the binding is made NOCHANGE (R141). -/
def abandonSlot (n : Nat) (s : State) : State := answerWaiting n (bindCopy n .noChange (dropReq (.slot n) s))

end Sys2Proof.Machine
end

