-- ==== Sys2Proof/Machine/ContextOps.lean ====
section
/-!
DEFINITION. What visits contexts one by one: the SILENT lapse (R115), RELEASE (R21, R22), REVIVE (R23) and
READ_CONTEXTS (R103 to R105).
-/

namespace Sys2Proof.Machine

/-! ## SILENT lapse -/

/-- The calendar requests the context of the link at the head of its lapse list, unless its request is already
made (R115). -/
def startLapse (s : State) : State :=
  match s.reqOf .lapse with
  | some _ => s
  | none =>
    match s.lapses with
    | [] => s
    | l :: _ => request .lapse l.index l.key s

/-- The context a SILENT lapse leaves (R15, R115). -/
def Context.lapseSilent (c : Context) (e : Option CalEntry) : Context :=
  { c.leaveCalendar e with state := .lapsed, lapse := .silent, pending := none }

/-- The lapse of a link is applied on the entry the cache gave (R115). -/
def applyLapse (l : Lapse) (e : Nat) (s : State) : State :=
  let c := (s.entry e).image
  notify ⟨.stateChange, stateChangeDetail c.state .lapsed, l.key, l.stamp, LapseReason.silent.code⟩
    (calRemove l.index
      (markJob l.index l.key .lapsed (modifyImage e (fun x => x.lapseSilent (s.calEntry l.index)) s)))

/-- The link at the head of the lapse list is the one a request was made for, and its lapse still stands. Where that
lapse was cancelled and a new one of the same link has begun, the request made for the first serves the new one
(R116 names no such case; log 39). -/
def State.lapseStands (s : State) (r : Req) : Option Lapse :=
  match s.lapses with
  | [] => none
  | l :: _ => if l.index = r.index ∧ l.key = r.key then some l else none

/-- The cache gives the calendar a context (R115, R116): the lapse is applied if it still stands, and the next
link's is begun. -/
def giveLapse (s : State) : State :=
  match s.reqOf .lapse with
  | none => s
  | some r =>
    let s1 := dropReq .lapse s
    startLapse
      (match s.givenEntry r.index r.key with
       | none => s1
       | some e =>
         match s.lapseStands r with
         | none => touchFor .lapse e s s1
         | some l => applyLapse l e (touchFor .lapse e s s1))

/-- The fetch for a lapse failed (R94, R115): the link moves to the tail of the list. -/
def abandonLapse (s : State) : State :=
  match s.reqOf .lapse with
  | none => s
  | some r =>
    let s1 := dropReq .lapse s
    match s.lapseStands r with
    | none => s1
    | some l => { s1 with lapses := s1.lapses.tail ++ [l] }

/-! ## RELEASE -/

/-- The requests that wait for an entry for a released context are answered that it is gone; an operator write
among them is dropped (R89, R101). -/
def releaseRequests (idx : Nat) (key : Key) (s : State) : State :=
  let waits : Req → Bool := fun r => r.index == idx && r.key == key && r.wait != .fetch
  { s with
    reqs := (s.reqs.filter fun r => !(r.who.isWrite && waits r)).map fun r =>
      if waits r then { r with wait := .ready } else r }

/-- What RELEASE does to the cache entry of a context (R21, R92, R93). -/
def releaseEntry (idx : Nat) (s : State) : State :=
  match s.findEntry idx with
  | none => s
  | some e =>
    let x := s.entry e
    if x.cond = .fetching ∨ x.pinned = true then s.setEntry e { x with released := true }
    else if x.cond = .retiring then rechoose e (invalidate e s)
    else invalidate e s

/-- The waiting CAPTURE job of a context leaves the queue (R68). -/
def releaseJob (idx : Nat) (s : State) : State :=
  { s with queue := s.queue.filter fun j => !(j.isCapture && j.index == idx) }

/-- The effects RELEASE makes together on a context (R21). -/
def releaseContext (key : Key) (idx : Nat) (s : State) : State :=
  releaseRequests idx key
    (releaseEntry idx (markJob idx key .released (releaseJob idx (calRemove idx (s.kdirRemove key)))))

/-- The RELEASE header write (R21). -/
def writeHeader (key : Key) (idx : Nat) (rest : List (Key × Nat)) (failed : Bool) (s : State) : State :=
  s.cmuSubmit (ownWrite .releaseHeader (s.contextAddr idx) (zeros 16)) (.releaseWrite key idx rest failed)

/-- An access is the write-back of a context. -/
def isWriteBack (idx : Nat) : Purpose → Bool
  | .writeBack i _ => i == idx
  | _ => false

/-- One visit of RELEASE, or the end of the command (R21, R22): the header write waits for an outstanding
write-back of the context (R92). -/
def releaseNext (rest : List (Key × Nat)) (failed : Bool) (s : State) : State :=
  match rest with
  | [] => answer (if failed then .memory else .done) s
  | (key, idx) :: rest =>
    let s1 := releaseContext key idx s
    if s1.inProgress (isWriteBack idx) then { s1 with cmu := { s1.cmu with phase := .releaseDrain key idx rest failed } }
    else writeHeader key idx rest failed s1

/-- A RELEASE that waited for the write-back of its context issues its header write (R92). -/
def drainRelease (idx : Nat) (s : State) : State :=
  match s.cmu.phase with
  | .releaseDrain key i rest failed => if i = idx then writeHeader key i rest failed s else s
  | _ => s

/-! ## REVIVE -/

/-- REVIVE visits the next LAPSED context of its list, passing over the others, or ends (R23). -/
def reviveNext (rest : List (Key × Nat)) (failed : Bool) (s : State) : State :=
  match rest with
  | [] => answer (if failed then .memory else .done) s
  | (key, idx) :: rest =>
    if (s.calEntry idx).isSome then reviveNext rest failed s
    else request .revive idx key { s with cmu := { s.cmu with phase := .reviving key idx rest failed } }

/-- The context REVIVE leaves (R23). -/
def Context.revived (c : Context) : Context :=
  { c with
    state := if c.hold then .held else .initial
    lapse := .noReason
    step := 0
    settle := 0
    miss := 0 }

/-- The cache gives REVIVE the context (R23, R110). -/
def giveRevive (s : State) : State :=
  match s.cmu.phase with
  | .reviving key idx rest failed =>
    let s1 := dropReq .revive s
    reviveNext rest failed
      (match s.givenEntry idx key with
       | none => s1
       | some e =>
         calMake idx key (if (s.entry e).image.hold then .tracking else .acquire)
           (modifyImage e Context.revived (touchFor .revive e s s1)))
  | _ => dropReq .revive s

/-- The fetch for REVIVE failed (R23, R94): the context stays LAPSED, and a channel-wide REVIVE goes on. -/
def abandonRevive (s : State) : State :=
  match s.cmu.phase with
  | .reviving _ _ rest _ => reviveNext rest true (dropReq .revive s)
  | _ => dropReq .revive s

/-! ## READ_CONTEXTS -/

/-- READ_CONTEXTS ends (R105): the two result fields and the status. -/
def finishCopies (w : CopyWork) (st : Status) (s : State) : State :=
  answerWith [(20, le 2 (w.count - w.made)), (24, w.last.toBytes)] st s

/-- The next copy is begun, or the command ends (R103, R105). -/
def copyNext (w : CopyWork) (s : State) : State :=
  match w.rest with
  | [] => finishCopies w .done s
  | (key, idx) :: rest =>
    request .copy idx key { s with cmu := { s.cmu with phase := .copying key idx { w with rest := rest } } }

/-- The cache gives READ_CONTEXTS a context (R104): its image is composed and written. -/
def giveCopy (s : State) : State :=
  match s.cmu.phase with
  | .copying key idx w =>
    let s1 := dropReq .copy s
    match s.givenEntry idx key with
    | none => copyNext w s1
    | some e =>
      (touchFor .copy e s s1).cmuSubmit (ownWrite .contextCopy (w.dest + 256 * w.made) (s.contextBytes e)) (.copyWrite key w)
  | _ => dropReq .copy s

/-- The fetch for a copy failed (R94, R105): the command stops with that context not copied. -/
def abandonCopy (s : State) : State :=
  match s.cmu.phase with
  | .copying _ _ w => finishCopies w .memory (dropReq .copy s)
  | _ => dropReq .copy s

end Sys2Proof.Machine
end

