-- ==== Sys2Proof/Machine/ServeOps.lean ====
section
/-!
DEFINITION. Where the cache's work meets its requesters: giving and abandoning requests, context-window reads,
the arrival of fetch data (R91, R94), the end of a write-back (R92, R95), the waiting list (R89).
-/

namespace Sys2Proof.Machine

/-! ## Giving and abandoning (R87, R94) -/

/-- A requester is given the context it asked for, or the answer that it is gone. An operator write is taken from
the merge list instead (R91). -/
def give (who : Requester) (s : State) : State :=
  match who with
  | .engine => giveEngine s
  | .slot n => giveSlot n s
  | .promotion => givePromotion s
  | .lapse => giveLapse s
  | .revive => giveRevive s
  | .copy => giveCopy s
  | .write _ _ _ => s

/-- A requester abandons its operation, its fetch having failed (R94). -/
def abandon (who : Requester) (s : State) : State :=
  match who with
  | .engine => abandonEngine s
  | .slot n => abandonSlot n s
  | .promotion => abandonPromotion s
  | .lapse => abandonLapse s
  | .revive => abandonRevive s
  | .copy => abandonCopy s
  | .write t i bs => dropReq (.write t i bs) s

/-- A requester whose request is ready is given the context; nothing where none is ready (log 5). -/
def giveIfReady (who : Requester) (s : State) : State :=
  match s.readyReq who with
  | none => s
  | some _ => give who s

/-! ## The waiting list (R89, R95) -/

/-- While all 32 entries are faulted, each request that needs a fresh one is abandoned, with a MEMORY_FAULT of its
own (R95). -/
def abandonLoop : Nat → State → State
  | 0, s => s
  | n + 1, s =>
    match s.reqs.find? fun r => r.wait == .list with
    | none => s
    | some r => abandonLoop n (abandon r.who (memoryFault .fetch r.key r.index s))

/-- The waiting list is served as far as the entries allow, or abandoned when all are faulted (R89, R95). -/
def pump (s : State) : State :=
  let s1 := serveList s
  if s1.allFaulted then abandonLoop (s1.reqs.length + s1.promotions.length + s1.kdir.length + 65) s1 else s1

/-! ## Context-window reads (R98) -/

/-- The bytes of an uncached admitted context: DRAM's, but for the calendar-owned bytes and the unused bits of the
control byte (R97, R98). -/
def uncachedByte (s : State) (idx off : Nat) (b : Byte) : Byte :=
  if isCalendarOffset off ∧ (s.calEntry idx).isSome then (s.supply idx {}).toBytes.getD off b
  else if off = controlOffset then b &&& 3
  else b

/-- A part of a read in an admitted context is completed by the condition of the entry, or waits for its fetch
(R98). -/
def completeContext (idx : Nat) (key : Key) (held : Bool) (id k : Nat) (s : State) : State :=
  let release : State → State := fun x => if held then releaseHold idx key x else x
  if s.present idx key then
    match s.findEntry idx with
    | none => s.completePart id k (uncachedByte s idx)
    | some e =>
      if (s.entry e).serves then
        release (touch e (s.completePart id k fun o b => (s.contextBytes e).getD o b))
      else s
  else release (s.completePart id k asReturned)

/-- A read waits on the entry of a context without holding it (R98). -/
def Txn.wantsHold (idx : Nat) (key : Key) (t : Txn) : Bool :=
  !t.hasData && t.result.isNone && t.readParts.any fun p => p.owner == .context idx key false

/-- A read's part of a context holds its entry. -/
def Txn.hold (idx : Nat) (key : Key) (t : Txn) : Txn :=
  match t.body with
  | .read len parts data =>
    { t with
      body := .read len
        (parts.map fun p => if p.owner = .context idx key false then { p with owner := .context idx key true } else p)
        data }
  | .write _ _ _ _ => t

/-- The reads outstanding place their holds on an entry that has become VALID (R98). -/
def placeHolds (e : Nat) (s : State) : State :=
  let x := s.entry e
  let n := (s.txns.filter (Txn.wantsHold x.index x.key)).length
  { s.setEntry e { x with holds := x.holds + n } with
    txns := s.txns.map fun t => if t.wantsHold x.index x.key then t.hold x.index x.key else t }

/-- The parts of reads whose data has returned and which wait on the entry of a context: transaction, part, key,
hold. -/
def State.waitingReads (s : State) (idx : Nat) : List (Nat × Nat × Key × Bool) :=
  s.txns.flatMap fun t =>
    if t.hasData ∧ t.result.isNone then
      t.readParts.zipIdx.filterMap fun p =>
        match p.1.owner with
        | .context i key held => if i = idx ∧ p.1.done = false then some (t.id, p.2, key, held) else none
        | _ => none
    else []

/-- The reads that wait on a fetch are patched (R91, R98). -/
def patchWaiting (idx : Nat) (s : State) : State :=
  (s.waitingReads idx).foldl (fun acc w => completeContext idx w.2.2.1 w.2.2.2 w.1 w.2.1 acc) s

/-- The reads that wait on a fetch that failed are returned with an error response (R94, R98). -/
def failWaiting (idx : Nat) (s : State) : State :=
  (s.waitingReads idx).foldl (fun acc w => acc.failTxn w.1) s

/-! ## The end of a fetch (R91, R94) -/

/-- The requests that wait on a fetch are ready. -/
def wakeFetch (idx : Nat) (s : State) : State :=
  { s with reqs := s.reqs.map fun r => if r.index = idx ∧ r.wait = .fetch then { r with wait := .ready } else r }

/-- Who waits on the fetch of a context, in the order they began to wait. -/
def State.fetchWaiters (s : State) (idx : Nat) : List Requester :=
  (s.reqs.filter fun r => r.index == idx && r.wait == .fetch).map fun r => r.who

/-- The image is loaded; a disagreeing hold flag is reconciled, the merged writes are taken, the entry is VALID
and most recently used (R91). -/
def loadEntry (e : Nat) (data : List Byte) (s : State) : State :=
  let x := s.entry e
  let s1 : State :=
    { s.setEntry e { x with cond := .valid, image := Context.ofBytes data, dirty := false, merge := [] } with
      recency := (s.recency.filter fun y => y != e) ++ [e] }
  placeHolds e (x.merge.foldl (fun acc m => takeOperatorWrite e m.bytes acc) (reconcileHold e s1))

/-- The fetch data of a context arrives (R91). -/
def fetchArrived (idx : Nat) (data : List Byte) (s : State) : State :=
  match s.findEntry idx with
  | none => s
  | some e =>
    let x := s.entry e
    if x.cond = .fetching then
      let waiters := s.fetchWaiters idx
      let s1 := wakeFetch idx (if x.released then invalidate e s else loadEntry e data s)
      patchWaiting idx (waiters.foldl (fun acc w => giveIfReady w acc) s1)
    else s

/-- The fetch of a context ends in a memory error (R94): each requester abandons its operation in the order they began
to wait, and the calendar asks again last (R115, log 43). -/
def fetchFailed (idx : Nat) (s : State) : State :=
  match s.findEntry idx with
  | none => s
  | some e =>
    let x := s.entry e
    if x.cond = .fetching then
      let waiters := s.fetchWaiters idx
      let s1 := memoryFault .fetch x.key idx (invalidate e s)
      failWaiting idx (startLapse (waiters.foldl (fun acc w => abandon w acc) s1))
    else s

/-! ## The end of a write-back (R92, R95) -/

/-- A write-back ends without error on the RETIRING entry it was issued for (R92). -/
def writeBackDone (e : Nat) (s : State) : State :=
  let x := s.entry e
  if x.retire.given ∨ x.retire.changed then cancelReuse e s
  else if 0 < x.holds then s.setEntry e { x with retire := { x.retire with ended := true } }
  else passOn e s

/-- A write-back ends in a memory error (R95): the entry returns to VALID, dirty and faulted. -/
def writeBackFault (e : Nat) (s : State) : State :=
  rechoose e (s.setEntry e { s.entry e with cond := .valid, dirty := true, faulted := true, retire := {} })

/-- The RETIRING entry a write-back was issued for. -/
def State.retiringEntry (s : State) (idx : Nat) (key : Key) : Option Nat :=
  match s.findEntry idx with
  | none => none
  | some e => if (s.entry e).cond = .retiring ∧ (s.entry e).key = key then some e else none

/-- A write-back ends (R92, R95, R96); a RELEASE that waited for it goes on (R92). -/
def writeBackEnded (idx : Nat) (key : Key) (error : Bool) (s : State) : State :=
  let s1 :=
    match s.retiringEntry idx key with
    | none => s
    | some e => if error then writeBackFault e s else writeBackDone e s
  drainRelease idx (if error then memoryFault .writeBack key idx s1 else s1)

end Sys2Proof.Machine
end

