-- ==== Sys2Proof/Machine/IntakeOps.lean ====
section
/-!
DEFINITION. Capture intake (03_capture_intake.md): assemblies, the intake stamp, tears, and the checks of taking.
-/

namespace Sys2Proof.Machine

/-- The number of bytes of an assembly that have been written. -/
def Assembly.written (a : Assembly) : Nat := (a.bytes.filter Option.isSome).length

/-- The bytes of an assembly, zero where none has been written. -/
def Assembly.record (a : Assembly) : List Byte := a.bytes.map fun b => b.getD 0

/-- The channel whose torn counter a discarded record moves (R53): byte 0 written and in 0..15. -/
def Assembly.tornChannel (a : Assembly) : Option Nat :=
  match a.bytes.getD 0 none with
  | none => none
  | some b => if b.toNat ≤ 15 then some b.toNat else none

/-- One more torn record on a channel (R64). -/
def countTorn (ch : Option Nat) (s : State) : State :=
  match ch with
  | none => s
  | some c => s.countChannel c fun k => { k with torn := sat32 (k.torn + 1) }

/-- An open assembly of a window-table entry is discarded (R53, R54, R65); an empty one raises nothing. -/
def discardAssembly (w : Nat) (why : TornDetail) (s : State) : State :=
  match s.assembly w with
  | none => s
  | some a =>
    notify ⟨.captureTorn, why.code, recKey a.record, a.stamp, a.written⟩
      (countTorn a.tornChannel (s.setAssembly w none))

/-- Every open assembly is discarded (R54), in ascending order of their window-table entries (log 37). -/
def discardAll (why : TornDetail) (s : State) : State :=
  (List.range 6).foldl (fun acc w => discardAssembly w why acc) s

/-- CAPTURE_UNKNOWN (R65). -/
def unknownNotice (why : UnknownDetail) (key : Key) (stamp : Tick) : Notice :=
  ⟨.captureUnknown, why.code, key, stamp, 0⟩

/-- A waiting CAPTURE job of a context takes a newer record (R61, R67). -/
def Job.supersede (j : Job) (record : List Byte) (stamp : Tick) : Job :=
  match j.kind with
  | .capture t => { j with kind := .capture (sat16 (t + 1)), record := record, stamp := stamp }
  | .trial _ _ => j

/-- The queue holds a waiting CAPTURE job of a context. -/
def State.waitingJob (s : State) (idx : Nat) : Bool := s.queue.any fun j => j.isCapture && j.index == idx

/-- A heard record without COLLIDED is offered to the update queue (R61, R67). -/
def offerJob (idx : Nat) (key : Key) (record : List Byte) (stamp : Tick) (s : State) : State :=
  if s.waitingJob idx then
    { s with
      queue := s.queue.map fun j => if j.isCapture && j.index == idx then j.supersede record stamp else j }
  else if s.queue.length < Config.queuePlaces then
    { s with queue := s.queue ++ [⟨.capture 0, idx, key, record, stamp⟩] }
  else
    notify ⟨.captureDropped, 0, key, stamp, idx⟩
      (s.countChannel key.channel fun k => { k with dropped := sat32 (k.dropped + 1) })

/-- A record of an admitted link that passed the fourth check is heard, and queued unless it is collided (R59 to
R61). -/
def takeHeard (idx : Nat) (key : Key) (record : List Byte) (stamp : Tick) (s : State) : State :=
  let s1 := calHeard idx stamp s
  if recCollided record then s1.countChannel key.channel fun k => { k with collided := sat32 (k.collided + 1) }
  else offerJob idx key record stamp s1

/-- A record that passed the first check is a sign of life on its channel (R56). -/
def signOfLife (key : Key) (stamp : Tick) (s : State) : State :=
  let wasQuiet := (s.channel key.channel).state = .quiet
  let s1 :=
    restartQuiet key.channel
      (s.countChannel key.channel fun k => { k with taken := sat32 (k.taken + 1) })
  if wasQuiet then
    notify ⟨.channelAlive, 0, key, stamp, 0⟩
      (s1.setChannel key.channel { s1.channel key.channel with state := .opened })
  else s1

/-- A record is taken: the checks of the taking section in their order (R52, R55 to R61). Of the two ways to fail the
first, a CLOSED channel is answered before a station out of range, as R147 has it (log 14). -/
def takeRecord (record : List Byte) (stamp : Tick) (s : State) : State :=
  let key := recKey record
  if !(channelValid key.channel) then notify (unknownNotice .badKey key stamp) s
  else if (s.channel key.channel).state = .closed then notify (unknownNotice .closed key stamp) s
  else if !(stationValid key.station) then notify (unknownNotice .badKey key stamp) s
  else
    let s1 := signOfLife key stamp s
    match s1.lookup key with
    | none =>
      notify (unknownNotice .notAdmitted key stamp)
        (s1.countChannel key.channel fun k => { k with unknown := sat32 (k.unknown + 1) })
    | some idx =>
      match s1.calEntry idx with
      | none => s1.countChannel key.channel fun k => { k with lapsedCapture := sat32 (k.lapsedCapture + 1) }
      | some _ => takeHeard idx key record stamp s1

/-- Byte `i` of a stamp, little-endian. -/
def stampByte (stamp : Tick) (i : Nat) : Byte := (le 4 stamp.toNat).getD i 0

/-- A stamp byte of a capture record carries the latched stamp (R51). -/
def stamped (stamp : Tick) (off : Nat) (b : Byte) : Byte :=
  if 12 ≤ off ∧ off < 16 then stampByte stamp (off - 12) else b

/-- The assembly a write part finds: the open one of its block, or a new one opened on it with the counter's
value latched (R50); one open on another block is torn first (R53). -/
def openAssembly (w block : Nat) (s : State) : State × Assembly :=
  let fresh : Assembly := ⟨block, List.replicate 64 none, s.now⟩
  match s.assembly w with
  | none => (s, fresh)
  | some a => if a.block = block then (s, a) else (discardAssembly w .newBlock s, fresh)

/-- The part's bytes are marked and copied, the stamp bytes as latched (R49, R51). -/
def Assembly.mark (a : Assembly) (ps : List (Nat × Byte)) : Assembly :=
  { a with bytes := ps.foldl (fun acc p => acc.set p.1 (some (stamped a.stamp p.1 p.2))) a.bytes }

/-- All 64 bytes are marked (R52). -/
def Assembly.full (a : Assembly) : Bool := a.bytes.all Option.isSome

/-- A capture write part in RUNNING (R49 to R53): the state after it, and the stamp its stamp bytes carry out. -/
def capturePart (w block : Nat) (ps : List (Nat × Byte)) (s : State) : State × Tick :=
  let r := openAssembly w block s
  let a := r.2.mark ps
  if a.full then (takeRecord a.record a.stamp (r.1.setAssembly w none), a.stamp)
  else (r.1.setAssembly w (some a), a.stamp)

end Sys2Proof.Machine
end

