-- ==== Sys2Proof/WellFormed.lean ====
section
/-!
DEFINITION. Which terms of Instr are steps that can occur at all: a transaction the ports can carry (R159), a
write that covers what its row says it covers (R128, R173), an answer as long as the access it answers.
-/

namespace Sys2Proof

/-- A run of `len` bytes from `addr` is one that a transaction at the system port can name (R159: a 40-bit
start address and a contiguous run of 1 to 4,096 bytes; log 11 for a run past the top). -/
def isPortRun (addr len : Nat) : Bool :=
  decide (1 ≤ len) && decide (len ≤ 4096) && decide (addr + len ≤ Config.addressTop)

/-- Four bytes of a write, one or more of them enabled (R128, R173: it covers one or more bytes). -/
def isWordWrite (bytes : List WByte) : Bool :=
  bytes.length == 4 && bytes.any Option.isSome

/-- An answer of DRAM to a read of `n` bytes: `n` bytes, or an error. -/
def isAnswer (n : Nat) (data : Option (List Byte)) : Bool :=
  match data with
  | none => true
  | some bs => bs.length == n

/-- The well-formed steps. -/
def Instr.wellFormed (i : Instr) : Bool :=
  match i with
  | .passingRead _ addr len => isPortRun addr len
  | .passingWrite _ addr bytes => isPortRun addr bytes.length
  | .readDataReturn _ data =>
    match data with
    | none => true
    | some bs => decide (1 ≤ bs.length) && decide (bs.length ≤ 4096)
  | .commandProducerWrite _ bytes => isWordWrite bytes
  | .noticeConsumerWrite _ bytes => isWordWrite bytes
  | .dueConsumerWrite _ bytes => isWordWrite bytes
  | .partIndexWordWrite _ _ bytes => isWordWrite bytes
  | .slotHeaderWrite _ _ bytes => isWordWrite bytes
  | .fetchDataArrival _ data => isAnswer 256 data
  | .descriptorFetchEnd data => isAnswer 32 data
  | .policyBlockReadEnd data => isAnswer 64 data
  | .trialRecordReadEnd data => isAnswer 64 data
  | .pinReset | .pinResetDeassertion _ | .writeResponseReturn _ _ | .writeBackEnd _ _
  | .jobTake | .jobContextGiven | .jobCompletion | .offerTaking | .graceExpiry
  | .silentLapseApplied | .quietTimerExpiry _ | .coalescingTimerExpiry | .slotBindingMade _
  | .promotion | .noticeWriteEnd _ | .noticeProducerWriteEnd _ | .offerWriteEnd _
  | .dueProducerWriteEnd _ | .start | .stop | .setWindow | .setPolicy | .readChannel
  | .admitLink | .release | .revive | .forceDue | .trial | .readContexts | .setNotify
  | .identify | .admitImageWriteEnd _ | .releaseHeaderWriteEnd _ | .reviveContextGiven
  | .channelRecordWriteEnd _ | .trialResultWriteEnd _ | .contextCopyComposed | .copyWriteEnd _
  | .identifyWriteEnd _ | .mirrorWriteEnd _ | .resultWriteEnd _ | .statusWriteEnd _
  | .commandIndexWriteEnd _ => true

end Sys2Proof
end

