-- ==== Sys2Proof/Machine/TrafficOps.lean ====
section
/-!
DEFINITION. The passage of traffic (09_passage_of_traffic.md): classification at the take, the parts of a write
handed to their owners, the parts of a read completed at the return of its data, the order of responses, and
what every step ends with.
-/

namespace Sys2Proof.Machine

/-! ## Classification (R159, R161) -/

/-- The owner of an offset of the control region, and the offset in the owner's unit (R161, R198). -/
def controlOwner (off : Nat) : Owner × Nat :=
  if off < 0x1C then (.word (off / 4), off % 4)
  else if 0x1000 ≤ off ∧ off < 0x2000 then (.slot ((off - 0x1000) / 64), off % 64)
  else (.plain, 0)

/-- A window covers an address. -/
def Window.covers (w : Window) (a : Nat) : Bool := decide (w.base ≤ a) && decide (a < w.base + w.size)

/-- The enabled window that covers an address, with its entry number (R162: at most one does). -/
def State.windowAt (s : State) (a : Nat) : Option (Nat × Window) :=
  (List.range 6).findSome? fun i =>
    match s.window i with
    | none => none
    | some w => if w.covers a then some (i, w) else none

/-- The owner of a byte of a transaction, and its offset in the owner's unit (R159, R49, R97, R127). -/
def State.ownerOf (s : State) (a : Nat) : Owner × Nat :=
  if s.inControl a then controlOwner (a - s.controlBase)
  else
    match s.windowAt a with
    | none => (.plain, 0)
    | some (i, w) =>
      match w.kind with
      | .capture => (.capture i (a - a % 64), a % 64)
      | .context => (.context ((a - w.base) / 256), (a - w.base) % 256)

/-- The parts of a run of `n` bytes from byte `i`: adjacent bytes with one owner are one part (R159). -/
def partsFrom (own : Nat → Owner × Nat) : Nat → Nat → List Part
  | 0, _ => []
  | n + 1, i =>
    let o := own i
    match partsFrom own n (i + 1) with
    | [] => [⟨o.1, i, 1, o.2⟩]
    | p :: rest =>
      if p.owner = o.1 then ⟨o.1, i, p.len + 1, o.2⟩ :: rest else ⟨o.1, i, 1, o.2⟩ :: p :: rest

/-- The parts of a transaction, in ascending address order (R159). -/
def State.partsOf (s : State) (addr len : Nat) : List Part := partsFrom (fun i => s.ownerOf (addr + i)) len 0

/-- What a context part of a read is (R97, R98). -/
def State.judgeContext (s : State) (idx : Nat) : ReadOwner :=
  if s.capacity ≤ idx then .plain
  else if s.heldIndex = some idx then .unjudged idx
  else
    match s.keyAt idx with
    | none => .plain
    | some key => .context idx key (s.servingEntry idx).isSome

/-- What a part of a read is at its take. -/
def State.judgePart (s : State) (p : Part) : ReadPart :=
  { owner :=
      match p.owner with
      | .plain => .plain
      | .word _ => .plain
      | .capture _ _ => .plain
      | .slot n => .slot n
      | .context idx => s.judgeContext idx
    start := p.start
    len := p.len
    off := p.off
    done := false }

/-- A part of a read places its hold on the entry it found (R98). -/
def placeHold (o : ReadOwner) (s : State) : State :=
  match o with
  | .context idx _ true =>
    match s.servingEntry idx with
    | none => s
    | some e => s.setEntry e { s.entry e with holds := (s.entry e).holds + 1 }
  | _ => s

/-! ## Index words (R173, R174, R183, R187) -/

/-- The value a write gives an index word, over the part's shadow of the word (R173). -/
def composeWord (shadow : BitVec 32) (ps : List (Nat × Byte)) : BitVec 32 :=
  BitVec.ofNat 32 (getLe (putBytes (le 4 shadow.toNat) ps) 0 4)

/-- CMU is handed a producer value by the write of this number (R174). -/
def handProducer (id : Nat) (v : BitVec 32) (s : State) : State :=
  let p := v.toNat % Config.commandPlaces
  let s1 : State := { s with cmu := { s.cmu with shadow := v, producer := p, producerTake := id } }
  if s.cmu.phase = .idle ∧ p ≠ s.cmu.consumer then fetchDescriptor s1 else s1

/-- The coalescing timer after a notice consumer write that changes the unread count (R188). -/
def timerAfter (before after : Nat) (timer : Option Nat) : Option Nat :=
  if after = 0 then none else if after < before then some 0 else if before = 0 then some 0 else timer

/-- The OVERFLOW notice (R183, R184). -/
def overflowNotice (count : Nat) (now : Tick) : Notice := ⟨.overflow, 0, {}, now, count⟩

/-- NW is handed a notice consumer value (R183, R188). -/
def handNoticeConsumer (v : BitVec 32) (s : State) : State :=
  let before := s.nw.notices.unread
  let ring := { s.nw.notices with consumer := v.toNat % Config.ringPlaces }
  let s1 : State :=
    { s with nw := { s.nw with noticeShadow := v, notices := ring, timer := timerAfter before ring.unread s.nw.timer } }
  let s2 :=
    if ring.unread < before ∧ 0 < s.nw.overflow then
      claimNotice (overflowNotice s.nw.overflow s.now) { s1 with nw := { s1.nw with overflow := 0 } }
    else s1
  { s2 with nw := s2.nw.judge }

/-- NW is handed a due consumer value (R187). -/
def handDueConsumer (v : BitVec 32) (s : State) : State :=
  { s with nw := { s.nw with dueShadow := v, due := { s.nw.due with consumer := v.toNat % Config.ringPlaces } } }

/-- A write part that covers bytes of an index word (R161, R173): the words the part writes only pass. -/
def takeWord (w id : Nat) (ps : List (Nat × Byte)) (s : State) : State :=
  match ps with
  | [] => s
  | _ =>
    match w with
    | 0 => handProducer id (composeWord s.cmu.shadow ps) s
    | 3 => handNoticeConsumer (composeWord s.nw.noticeShadow ps) s
    | 5 => handDueConsumer (composeWord s.nw.dueShadow ps) s
    | _ => s

/-! ## Writes (R160, R97, R99) -/

/-- The enabled bytes of a part of a write, each with its offset in the owner's unit. -/
def Part.carried (p : Part) (bytes : List WByte) : List (Nat × Byte) :=
  ((bytes.drop p.start).take p.len).zipIdx.filterMap fun b => b.1.map fun v => (p.off + b.2, v)

/-- The bytes of a write after its part has been handled: `f` gives, by the offset in the unit, what each enabled
byte goes out as. -/
def Part.rewrite (p : Part) (f : Nat → Byte → WByte) (bytes : List WByte) : List WByte :=
  bytes.zipIdx.map fun b =>
    if p.start ≤ b.2 ∧ b.2 < p.start + p.len then b.1.bind (f (p.off + (b.2 - p.start))) else b.1

/-- The outcome of a part of a write: the state, the bytes as they will go out, the number of dropped bytes and the
context that dropped them. -/
structure PartOutcome where
  state : State
  bytes : List WByte
  dropped : Nat := 0
  key : Option Key := none

/-- A capture part (R48 to R53), by the run state at the take of the write (R167). -/
def captureWrite (run : RunState) (w block : Nat) (p : Part) (bytes : List WByte) (s : State) : PartOutcome :=
  let ps := p.carried bytes
  if run = .running ∧ ps ≠ [] then
    let r := capturePart w block ps s
    ⟨r.1, p.rewrite (fun off b => some (stamped r.2 off b)) bytes, 0, none⟩
  else ⟨s, bytes, 0, none⟩

/-- A part of a write in an admitted context (R99 to R101). -/
def contextWrite (idx : Nat) (key : Key) (id : Nat) (p : Part) (bytes : List WByte) (s : State) : PartOutcome :=
  let ps := p.carried bytes
  let operator := ps.filter fun x => isOperatorOffset x.1
  let dropped := (ps.filter fun x => !isOperatorOffset x.1).length
  ⟨if operator.isEmpty then s else operatorWrite idx key id operator s,
    p.rewrite (fun off b => if isOperatorOffset off then some b else none) bytes,
    dropped, if dropped = 0 then none else some key⟩

/-- Two owners are one piece of state: a slot, a context, a window's assembly, an index word (R169). -/
def Owner.shares : Owner → Owner → Bool
  | .slot n, .slot m => n == m
  | .context i, .context j => i == j
  | .capture w _, .capture v _ => w == v
  | .word a, .word b => a == b
  | _, _ => false

/-- What writes taken before a transaction have still to have handled: the owners of their parts. -/
def State.ahead (s : State) (id : Nat) : List Owner :=
  s.txns.flatMap fun t =>
    match t.body with
    | .write todo _ _ _ => if t.id < id ∧ t.handled = false then todo.map fun p => p.owner else []
    | .read _ _ _ => []

/-- A part has to wait for one of a write taken before its own that reaches the same state: the order of the takes
decides (R169, log 45). -/
def State.behind (s : State) (id : Nat) (o : Owner) : Bool := (s.ahead id).any o.shares

/-- A word the part reads from the writes it is handed (R161, R173). -/
def isHandedWord (w : Nat) : Bool := w == 0 || w == 3 || w == 5

/-- A write of the transaction's initiator taken before it waits at the memory port (R161). -/
def State.unissued (s : State) (id : Nat) : Bool :=
  match s.txn id with
  | none => false
  | some t => s.mem.passing.any fun q => q.init == some t.init && q.access.isWrite

/-- A part of a write is handled by its owner; `none` while it has to wait: for a part of an earlier write that reaches
the same state (R169), for the issue of its initiator's earlier writes where it is handed to a block (R161), or while
an ADMIT or RELEASE write of its context is outstanding (R97). -/
def handlePart (run : RunState) (id : Nat) (p : Part) (bytes : List WByte) (s : State) : Option PartOutcome :=
  if s.behind id p.owner then none
  else
  match p.owner with
  | .plain => some ⟨s, bytes, 0, none⟩
  | .word w =>
    if isHandedWord w && s.unissued id then none else some ⟨takeWord w id (p.carried bytes) s, bytes, 0, none⟩
  | .slot n =>
    let ks := (p.carried bytes).filter fun x => decide (x.1 < 4)
    some ⟨if ks.isEmpty then s else takeHeader n ks s, bytes, 0, none⟩
  | .capture w block => some (captureWrite run w block p bytes s)
  | .context idx =>
    if s.capacity ≤ idx then some ⟨s, bytes, 0, none⟩
    else if s.heldIndex = some idx then none
    else
      match s.keyAt idx with
      | none => some ⟨s, bytes, 0, none⟩
      | some key => some (contextWrite idx key id p bytes s)

/-- How far the parts of a write have been handled: what is still to do, the bytes, the number dropped and the
first context that dropped one. -/
structure WriteWork where
  todo : List Part
  bytes : List WByte
  dropped : Nat
  firstKey : Option Key

/-- The parts of a write are handled in ascending address order, each an event of its own, after which the cache's
waiting list is served, up to one that has to wait (R97, R159). The parts behind it are handled when the wait ends: a
capture part among them is gathered and stamped then (log 38). -/
def handleParts (run : RunState) (id : Nat) : List Part → WriteWork → State → WriteWork × State
  | [], w, s => ({ w with todo := [] }, s)
  | p :: rest, w, s =>
    match handlePart run id p w.bytes s with
    | none => ({ w with todo := p :: rest }, s)
    | some o =>
      handleParts run id rest
        { todo := rest, bytes := o.bytes, dropped := w.dropped + o.dropped, firstKey := w.firstKey.or o.key } (pump o.state)

/-- The GUARDED_WRITE notice of a transaction (R99, R184). -/
def guardedNotice (w : WriteWork) (now : Tick) : Notice :=
  ⟨.guardedWrite, 0, w.firstKey.getD {}, now, w.dropped⟩

/-- Every part of a write has been handled (R99, R160): GUARDED_WRITE when bytes were dropped, and the write goes
to the memory port, or is completed by the part when every enabled byte was dropped. -/
def finishWrite (id : Nat) (init : Initiator) (addr : Nat) (w : WriteWork) (s : State) : State :=
  let s1 := if 0 < w.dropped then notify (guardedNotice w s.now) s else s
  let body : TxnBody := .write [] w.bytes w.dropped w.firstKey
  if 0 < w.dropped ∧ w.bytes.all Option.isNone then
    wakePort (s1.modifyTxn id fun t => { t with body := body, handled := true, result := some (.normal []) })
  else
    (s1.modifyTxn id fun t => { t with body := body, handled := true }).pass id init addr (.write w.bytes)

/-- What a part of a read reaches. -/
def ReadOwner.owner : ReadOwner → Owner
  | .plain => .plain
  | .slot n => .slot n
  | .context idx _ _ => .context idx
  | .unjudged idx => .context idx

/-- A transaction that has not been handled yet goes on: a read is handed to the memory port once no write taken before
it has still to make its effect on what the read reaches (R169), a write's parts are handled. -/
def handleTxn (t : Txn) (s : State) : State :=
  match t.body with
  | .read len parts _ =>
    if parts.any fun p => s.behind t.id p.owner.owner then s
    else (s.modifyTxn t.id fun x => { x with handled := true }).pass t.id t.init t.addr (.read len)
  | .write todo bytes dropped key =>
    match handleParts t.run t.id todo ⟨todo, bytes, dropped, key⟩ s with
    | (⟨[], bytes', dropped', key'⟩, s1) => finishWrite t.id t.init t.addr ⟨[], bytes', dropped', key'⟩ s1
    | (w, s1) => s1.modifyTxn t.id fun x => { x with body := .write w.todo w.bytes w.dropped w.firstKey }

/-- The transaction of a number has been handled. -/
def State.handled (s : State) (id : Nat) : Bool :=
  match s.txn id with
  | none => true
  | some t => t.handled

/-- One open transaction in the order of takes: it goes on unless an earlier one of its initiator waits (R168), and
the memory port grants what is ready, so that a later one finds it issued (R161). -/
def advanceOne (acc : State × List Initiator) (id : Nat) : State × List Initiator :=
  match acc.1.txn id with
  | none => acc
  | some t =>
    if t.handled ∨ t.init ∈ acc.2 then acc
    else
      let s1 := grantAll (handleTxn t acc.1)
      if s1.handled id then (s1, acc.2) else (s1, t.init :: acc.2)

/-- The open transactions go on, in the order of their takes. -/
def advance (s : State) : State := ((s.txns.map fun t => t.id).foldl advanceOne (s, [])).1

/-! ## The take (R159) -/

/-- TCL takes a transaction: it is numbered, classified and put on the open list. -/
def takeTxn (p : PortTxn) (s : State) : State :=
  match p with
  | .read init addr len =>
    let parts := (s.partsOf addr len).map s.judgePart
    parts.foldl (fun acc q => placeHold q.owner acc)
      { s with
        takes := s.takes + 1
        txns := s.txns ++ [⟨s.takes, init, addr, s.run, .read len parts none, false, none, false⟩] }
  | .write init addr bytes =>
    { s with
      takes := s.takes + 1
      txns := s.txns
        ++ [⟨s.takes, init, addr, s.run, .write (s.partsOf addr bytes.length) bytes 0 none, false, none, false⟩] }

/-! ## Returns (R160, R168) -/

/-- A part of a read whose data has returned is completed by its owner, or waits (R160). -/
def completeReadPart (id k : Nat) (s : State) : State :=
  match s.readPart id k with
  | none => s
  | some p =>
    match p.owner with
    | .plain => s.completePart id k asReturned
    | .slot n => readSlot n id k s
    | .context idx key held => completeContext idx key held id k s
    | .unjudged _ => s

/-- The number of parts of a read. -/
def State.partCount (s : State) (id : Nat) : Nat :=
  match s.txn id with
  | none => 0
  | some t => t.readParts.length

/-- The data of a read has returned without error: its parts are completed in ascending address order, each an event of
its own (R97). -/
def readArrived (id : Nat) (data : List Byte) (s : State) : State :=
  (List.range (s.partCount id)).foldl (fun acc k => pump (completeReadPart id k acc))
    (s.modifyTxn id fun t =>
      match t.body with
      | .read len parts _ => { t with body := .read len parts (some data) }
      | .write _ _ _ _ => t)

/-- A part of a read that ended in an error releases its hold (R98). -/
def releasePart (o : ReadOwner) (s : State) : State :=
  match o with
  | .context idx key true => releaseHold idx key s
  | _ => s

/-- The data of a read has returned with a memory error: the error is the initiator's, no part is handled, the
holds are released (R98, R142, R160). -/
def readFailed (id : Nat) (s : State) : State :=
  match s.txn id with
  | none => s
  | some t => t.readParts.foldl (fun acc p => pump (releasePart p.owner acc)) (s.failTxn id)

/-- The response of DRAM completes a passing write, error included (R160). -/
def writeCompleted (id : Nat) (error : Bool) (s : State) : State :=
  s.modifyTxn id fun t => { t with result := some (if error then .error else .normal []) }

/-- An open read part that waited for an ADMIT or RELEASE write is judged again (R97), and completed when the
read's data is back. -/
def rejudgePart (id k : Nat) (s : State) : State :=
  match s.txn id, s.readPart id k with
  | some t, some p =>
    match p.owner with
    | .unjudged idx =>
      if s.heldIndex = some idx then s
      else
        let o := s.judgeContext idx
        let s1 := placeHold o (s.modifyTxn id (Txn.mapPart k fun q => { q with owner := o }))
        if t.hasData ∧ t.result.isNone then pump (completeReadPart id k s1) else s1
    | _ => s
  | _, _ => s

/-- One open transaction in the order of takes, once an ADMIT or RELEASE write has ended: its waiting parts are judged
again, and it goes on (R97, R169). -/
def resumeOne (acc : State × List Initiator) (id : Nat) : State × List Initiator :=
  advanceOne ((List.range (acc.1.partCount id)).foldl (fun s k => rejudgePart id k s) acc.1, acc.2) id

/-- What waited for an ADMIT or RELEASE write goes on, in the order of the takes (R97, R169). -/
def resume (s : State) : State := ((s.txns.map fun t => t.id).foldl resumeOne (pump s, [])).1

/-- What the return of responses has done so far: the initiators with an earlier transaction still open, the
transactions kept, the responses returned. -/
structure Flushing where
  blocked : List Initiator := []
  kept : List Txn := []
  out : List Returned := []

/-- One open transaction in the order of takes: it is returned when it is complete and none of its initiator's is
open before it (R168); a write-allocated write stays until it is taken (R101). -/
def flushOne (s : State) (acc : Flushing) (t : Txn) : Flushing :=
  if t.responded then if s.awaits t.id then { acc with kept := acc.kept ++ [t] } else acc
  else if t.init ∈ acc.blocked then { acc with kept := acc.kept ++ [t] }
  else
    match t.result with
    | none => { acc with blocked := t.init :: acc.blocked, kept := acc.kept ++ [t] }
    | some r =>
      { acc with
        kept := if s.awaits t.id then acc.kept ++ [{ t with responded := true }] else acc.kept
        out := acc.out ++ [⟨t.init, t.id, r⟩] }

/-- Responses are returned as far as each initiator's order allows (R168). -/
def flush (s : State) : State :=
  let r := s.txns.foldl (flushOne s) {}
  { s with txns := r.kept, returned := s.returned ++ r.out }

/-! ## The port (R159) and the end of a step -/

/-- The cache's waiting list is served and responses are returned. -/
def settle (s : State) : State := flush (pump s)

/-- Transactions that wait at the port are taken while fewer than 32 are open (R159), first in, first out whoever
their initiators are (log 40). -/
def drainLoop : Nat → State → State
  | 0, s => s
  | n + 1, s =>
    match s.atPort with
    | [] => s
    | p :: rest =>
      if s.txns.length < Config.openLimit then
        drainLoop n (settle (advance (takeTxn p { s with atPort := rest })))
      else s

/-- The system port takes what waits at it, as far as there is room. -/
def drainPort (s : State) : State := drainLoop s.atPort.length s

/-- A transaction arrives at the system port. -/
def arrive (p : PortTxn) (s : State) : State := { s with atPort := s.atPort ++ [p] }

/-- What a step of the part answers: nothing happens while RESET_N is asserted (R172); otherwise its effect, after
which the memory port grants what is ready. -/
def event (s : State) (f : State → State) : Host.Outcome State Fault Refusal :=
  if s.inReset then .next s else .next (grantAll (f s))

/-- What a step that can free a cache entry, complete a transaction or bring one answers. -/
def cacheEvent (s : State) (f : State → State) : Host.Outcome State Fault Refusal :=
  event s fun x => drainPort (settle (f x))

/-- What a transaction brought by an initiator answers: while RESET_N is asserted it waits at the port (R172). -/
def arrival (p : PortTxn) (s : State) : Host.Outcome State Fault Refusal :=
  if s.inReset then .next (arrive p s) else cacheEvent s (arrive p)

/-- What a write of a place in the control region answers: while RESET_N is asserted the region has no place
(R172), and there is no such write. -/
def controlWrite (init : Initiator) (off : Nat) (bytes : List WByte) (s : State) : Host.Outcome State Fault Refusal :=
  if isWordWrite bytes then cacheEvent s fun x => arrive (.write init (x.controlBase + off) bytes) x
  else .refused .illFormed

end Sys2Proof.Machine
end

