-- ==== Sys2Proof/Machine/Cache.lean ====
section
/-!
DEFINITION. The ends of the context cache's own accesses: FETCH_DATA_ARRIVAL (R91, R94), WRITE_BACK_END (R92,
R95).
-/

namespace Sys2Proof.Machine

/-- An access is the fetch of a context. -/
def isFetch (idx : Nat) : Purpose → Bool
  | .fetch i => i == idx
  | _ => false

/-- The key a write-back was issued for. -/
def Access.writeBackKey (a : Access) : Key :=
  match a.purpose with
  | .writeBack _ k => k
  | _ => {}

/-- FETCH_DATA_ARRIVAL (R91, R94). -/
def execFetchDataArrival (index : Nat) (data : Option (List Byte)) (s : State) : Host.Outcome State Fault Refusal :=
  if isAnswer 256 data then
    cacheEvent s fun x => x.ending (isFetch index) fun _ y =>
      match data with
      | none => fetchFailed index y
      | some bs => fetchArrived index bs y
  else .refused .illFormed

/-- WRITE_BACK_END (R92, R95). -/
def execWriteBackEnd (index : Nat) (error : Bool) (s : State) : Host.Outcome State Fault Refusal :=
  cacheEvent s fun x => x.ending (isWriteBack index) fun a y => writeBackEnded index a.writeBackKey error y

end Sys2Proof.Machine
end

