-- ==== Sys2Proof/Machine/Calendar.lean ====
section
/-!
DEFINITION. The steps of time: OFFER_TAKING (R111, R112), GRACE_EXPIRY (R113, R114), SILENT_LAPSE_APPLIED (R115),
QUIET_TIMER_EXPIRY (R63), COALESCING_TIMER_EXPIRY (R188). Where the step's condition does not hold, nothing changes
(log 5).
-/

namespace Sys2Proof.Machine

/-- An OFFER or OFFER_FORCED entry is taken: the offer is placed and the entry becomes GRACE (R111), or the due
ring is full and the entry is deferred by 1 ms (R112). -/
def takeOffer (e : CalEntry) (s : State) : State :=
  if s.dueRoom then
    calSet { e with kind := .grace, due := later s.now (msTicks (s.policy e.key.channel).grace) }
      (claimOffer e (offerReason e) s)
  else calSet { e with due := later s.now (msTicks 1) } s

/-- A GRACE entry is taken (R113, R114): offered again without a miss, offered again after one, or lapsing. -/
def takeGrace (e : CalEntry) (s : State) : State :=
  if s.run = .running ∧ (s.channel e.key.channel).state = .opened then
    let e1 := { e with miss := e.miss + 1 }
    if e1.miss < (s.policy e.key.channel).missLimit then calSet { e1 with kind := .offer, due := s.now } s
    else
      startLapse
        { calKeep { e1 with lapsing := true } s with lapses := s.lapses ++ [⟨e.index, e.key, s.now⟩] }
  else calSet { e with kind := .offer, due := s.now } s

/-- OFFER_TAKING. -/
def execOfferTaking (s : State) : Host.Outcome State Fault Refusal :=
  event s fun x =>
    match x.calTaken with
    | none => x
    | some e => if e.kind = .grace then x else takeOffer e x

/-- GRACE_EXPIRY. -/
def execGraceExpiry (s : State) : Host.Outcome State Fault Refusal :=
  cacheEvent s fun x =>
    match x.calTaken with
    | none => x
    | some e => if e.kind = .grace then takeGrace e x else x

/-- SILENT_LAPSE_APPLIED: the cache gives the context of the lapse in progress; where no request is outstanding,
the calendar requests that of the head of its list again (R115, log 17). -/
def execSilentLapseApplied (s : State) : Host.Outcome State Fault Refusal :=
  cacheEvent s fun x =>
    match x.readyReq .lapse with
    | some _ => giveLapse x
    | none => startLapse x

/-- CHANNEL_QUIET (R65). -/
def quietNotice (ch detail interval : Nat) (now : Tick) : Notice :=
  ⟨.channelQuiet, detail, ⟨ch, 0⟩, now, interval / Config.ticksPerMs⟩

/-- CHANNEL_QUIET detail codes (R194). -/
def quietFirst : Nat := 1

/-- CHANNEL_QUIET detail codes (R194). -/
def stillQuiet : Nat := 2

/-- The expiry of a channel's quiet timer (R63). -/
def expireQuiet (ch : Nat) (t : QuietTimer) (s : State) : State :=
  let s1 := s.setQuietTimer ch none
  match (s.channel ch).state with
  | .closed => s
  | .opened =>
    notify (quietNotice ch quietFirst t.interval s.now) (s1.setChannel ch { s.channel ch with state := .quiet })
  | .quiet => notify (quietNotice ch stillQuiet t.interval s.now) s1

/-- QUIET_TIMER_EXPIRY. -/
def execQuietTimerExpiry (channel : Fin 16) (s : State) : Host.Outcome State Fault Refusal :=
  event s fun x =>
    match x.quietTimer channel.val with
    | none => x
    | some t => if t.interval ≤ elapsed x.now t.since then expireQuiet channel.val t x else x

/-- The coalescing timer's count has reached T (R188). -/
def Nw.timeReached (w : Nw) : Bool :=
  decide (w.coalesceT ≠ 0)
    && match w.timer with
       | none => false
       | some n => decide (msTicks w.coalesceT ≤ n)

/-- COALESCING_TIMER_EXPIRY. -/
def execCoalescingTimerExpiry (s : State) : Host.Outcome State Fault Refusal :=
  event s fun x => if x.nw.timeReached then { x with nw := x.nw.judge } else x

end Sys2Proof.Machine
end

