-- ==== Sys2Proof/Machine/Commands.lean ====
section
/-!
DEFINITION. The thirteen commands as CMU begins them, from its copy of the descriptor (R175, R176): each makes its
checks in order, and answers or begins its work. Where CMU holds no such command nothing changes (log 5).
-/

namespace Sys2Proof.Machine

/-! ## START and STOP (R165, R166) -/

/-- CMU writes the run state into the mirror word (R165, R198). -/
def writeMirror (s : State) : State :=
  s.cmuSubmit (ownWrite .mirror (s.controlBase + 0x18) (le 4 s.run.code)) .mirrorWrite

/-- The quiet timer of every channel that is OPEN or QUIET is restarted (R62, R165). -/
def restartQuietAll (s : State) : State :=
  (List.range 16).foldl (fun acc ch => if (acc.channel ch).state = .closed then acc else restartQuiet ch acc) s

/-- START passes its checks (R165). -/
def State.mayStart (s : State) : Bool := s.run != .running && s.contextWindow.isSome

/-- The event of a START (R165, R121). -/
def startRun (s : State) : State :=
  restartQuietAll { (if s.run = .idle then calRebase s else s) with run := .running }

/-- START. -/
def execStart (s : State) : Host.Outcome State Fault Refusal :=
  event s (onCommand codeStart fun _ x => if x.mayStart then writeMirror (startRun x) else answer .state x)

/-- The event of a STOP (R166, R54, R62). -/
def stopRun (s : State) : State :=
  { discardAll .stopped { s with run := .stopped } with quietTimers := Vector.replicate 16 none }

/-- STOP. -/
def execStop (s : State) : Host.Outcome State Fault Refusal :=
  event s (onCommand codeStop fun _ x => if x.run = .running then writeMirror (stopRun x) else answer .state x)

/-! ## SET_WINDOW (R163, R164) -/

/-- The window kind a SET_WINDOW names (R193). -/
def windowKind : Nat → Option WindowKind
  | 1 => some .capture
  | 2 => some .context
  | _ => none

/-- A power of two from 4 KiB to 1 GiB (R162). -/
def windowSize (n : Nat) : Bool := (List.range 19).any fun k => n == 4096 * 2 ^ k

/-- Two runs of bytes share one. -/
def overlaps (a n b m : Nat) : Bool := decide (a < b + m) && decide (b < a + n)

/-- A window shares a byte with an enabled window of another entry (R163). -/
def State.windowOverlaps (s : State) (entry : Nat) (w : Window) : Bool :=
  (List.range 6).any fun i =>
    i != entry
      && match s.window i with
         | none => false
         | some x => overlaps w.base w.size x.base x.size

/-- A run of bytes shares one with the control region. -/
def State.overlapsControl (s : State) (a n : Nat) : Bool := overlaps a n s.controlBase 0x10000

/-- The other entries that are enabled windows of a kind. -/
def State.otherWindows (s : State) (entry : Nat) (k : WindowKind) : Nat :=
  ((s.windowsOf k).filter fun p => p.1 != entry).length

/-- The context window is in use (R163, fifth check): a key is admitted, or a cache entry is not INVALID. -/
def State.contextInUse (s : State) : Bool :=
  !s.kdir.isEmpty || (List.range 32).any fun e => (s.entry e).cond != .invalid

/-- An entry is the enabled CONTEXT window. -/
def State.isContextEntry (s : State) (entry : Nat) : Bool :=
  match s.window entry with
  | some w => w.kind == .context
  | none => false

/-- The fourth check of SET_WINDOW (R163). -/
def State.windowCrowded (s : State) (entry : Nat) : WindowKind → Bool
  | .context => decide (1 ≤ s.otherWindows entry .context)
  | .capture => decide (5 ≤ s.otherWindows entry .capture)

/-- The checks of SET_WINDOW in order (R163): a refusal, or the value the entry takes. -/
def State.checkWindow (s : State) (entry kind base size : Nat) : Except Status (Option Window) :=
  if 5 < entry then .error .range
  else if size = 0 then
    if s.isContextEntry entry ∧ s.contextInUse then .error .inUse else .ok none
  else
    match windowKind kind with
    | none => .error .range
    | some k =>
      let w : Window := ⟨k, base, size⟩
      if !(windowSize size) || base % size != 0 then .error .range
      else if s.windowOverlaps entry w || s.overlapsControl base size then .error .overlap
      else if s.windowCrowded entry k then .error .inUse
      else if s.isContextEntry entry ∧ s.window entry ≠ some w ∧ s.contextInUse then .error .inUse
      else .ok (some w)

/-- Replaces a window-table entry. -/
def State.setWindow (s : State) (entry : Nat) (w : Option Window) : State :=
  { s with windows := s.windows.setIfInBounds entry w }

/-- The event of a SET_WINDOW (R164, R54): an entry given what it holds is left as it stands; one that changes
loses its assembly. -/
def applyWindow (entry : Nat) (w : Option Window) (s : State) : State :=
  if s.window entry = w then s else (discardAssembly entry .windowChanged s).setWindow entry w

/-- SET_WINDOW. -/
def execSetWindow (s : State) : Host.Outcome State Fault Refusal :=
  event s (onCommand codeSetWindow fun d x =>
    match x.checkWindow (byteAt d 8) (byteAt d 9) (getAddress d 12) (getLe d 20 4) with
    | .error st => answer st x
    | .ok w => answer .done (applyWindow (byteAt d 8) w x))

/-! ## SET_POLICY and READ_CHANNEL (R153, R155) -/

/-- SET_POLICY up to its block read (R153, R170). -/
def execSetPolicy (s : State) : Host.Outcome State Fault Refusal :=
  event s (onCommand codeSetPolicy fun d x =>
    if !(channelValid (cmdChannel d)) then answer .keyInvalid x
    else if getAddress d 8 % 64 ≠ 0 then answer .range x
    else x.cmuSubmit ⟨.policyBlock, getAddress d 8, .read 64⟩ (.policyRead (cmdChannel d)) (some x.takes))

/-- READ_CHANNEL up to the write of the record it composes (R155). -/
def execReadChannel (s : State) : Host.Outcome State Fault Refusal :=
  event s (onCommand codeReadChannel fun d x =>
    let ch := cmdChannel d
    if !(channelValid ch) then answer .keyInvalid x
    else
      x.cmuSubmit
        (ownWrite .channelRecord (x.controlBase + 0xA000)
          (channelRecordBytes ch (x.channel ch) (x.keysOf ch).length))
        (.channelWrite ch (bitAt d 8 0) (x.channel ch).counters))

/-! ## ADMIT (R19, R20) -/

/-- The first number from `i`, among `n`, that satisfies a test. -/
def firstFrom (p : Nat → Bool) : Nat → Nat → Option Nat
  | 0, _ => none
  | n + 1, i => if p i then some i else firstFrom p n (i + 1)

/-- A job in flight is marked for discard against an index (R4). -/
def State.markedAgainst (s : State) (idx : Nat) : Bool :=
  match s.engine.job with
  | none => false
  | some j => j.index == idx && s.engine.mark.isSome

/-- An index is free (R4). -/
def State.indexFree (s : State) (idx : Nat) : Bool :=
  (s.keyAt idx).isNone && !s.markedAgainst idx
    && match s.findEntry idx with
       | none => true
       | some e => (s.entry e).cond != .fetching

/-- The lowest free index (R4). -/
def State.freeIndex (s : State) : Option Nat := firstFrom s.indexFree s.capacity 0

/-- The context ADMIT builds (R20). -/
def admittedContext (key : Key) (p : Policy) (timing power freq : Int) (now : Tick) : Context :=
  { key := key
    state := .initial
    timingAtLimit := decide (clampSym p.timingRange timing ≠ timing)
    powerAtLimit := decide (clampSym p.powerRange power ≠ power)
    freqAtLimit := decide (clampSym p.freqRange freq ≠ freq)
    calKind := some .offer
    due := now
    offTiming := clampSym p.timingRange timing
    offPower := clampSym p.powerRange power
    offFreq := clampSym p.freqRange freq
    taps := identityTaps p.mainTap }

/-- An offset of the new context was clamped (R20). -/
def Context.anyAtLimit (c : Context) : Bool := c.timingAtLimit || c.powerAtLimit || c.freqAtLimit

/-- The checks of ADMIT in order (R19): a refusal, or the index it allocates. -/
def State.checkAdmit (s : State) (key : Key) : Except Status Nat :=
  if !(channelValid key.channel) || !(stationValid key.station) then .error .keyInvalid
  else if s.contextWindow.isNone then .error .state
  else if (s.channel key.channel).state = .closed then .error .closed
  else if (s.lookup key).isSome then .error .duplicate
  else
    match s.freeIndex with
    | none => .error .full
    | some idx => .ok idx

/-- The context an ADMIT descriptor builds now (R20, R193). -/
def State.contextFor (s : State) (d : List Byte) : Context :=
  admittedContext (cmdKey d) (s.policy (cmdChannel d)) (getInt d 8 4) (getInt d 14 1) (getInt d 12 2) s.now

/-- ADMIT up to its image write. -/
def execAdmitLink (s : State) : Host.Outcome State Fault Refusal :=
  event s (onCommand codeAdmit fun d x =>
    match x.checkAdmit (cmdKey d) with
    | .error st => answer st x
    | .ok idx =>
      x.cmuSubmit (ownWrite .admitImage (x.contextAddr idx) (x.contextFor d).toBytes)
        (.admitWrite (cmdKey d) idx (x.contextFor d).anyAtLimit))

/-! ## RELEASE and REVIVE (R21 to R23) -/

/-- A key in a descriptor is valid: channel 0..15, station 0..16383 (R1). -/
def Key.valid (k : Key) : Bool := channelValid k.channel && decide (k.station ≤ 16383)

/-- RELEASE: the checks of R21 and R22, and the first visit. -/
def execRelease (s : State) : Host.Outcome State Fault Refusal :=
  cacheEvent s (onCommand codeRelease fun d x =>
    let key := cmdKey d
    if !key.valid then answer .keyInvalid x
    else if key.station = 0 then releaseNext (x.keysOf key.channel) false x
    else
      match x.lookup key with
      | none => answer .notFound x
      | some idx => releaseNext [(key, idx)] false x)

/-- REVIVE: the checks of R23, and the first visit. A context is LAPSED when it has no calendar entry (R108). -/
def execRevive (s : State) : Host.Outcome State Fault Refusal :=
  cacheEvent s (onCommand codeRevive fun d x =>
    let key := cmdKey d
    if !key.valid then answer .keyInvalid x
    else if key.station = 0 then reviveNext (x.keysOf key.channel) false x
    else
      match x.lookup key with
      | none => answer .notFound x
      | some idx => if (x.calEntry idx).isSome then answer .state x else reviveNext [(key, idx)] false x)

/-! ## FORCE_DUE (R122 to R124) -/

/-- The channels a mask names, in ascending order. -/
def maskChannels (mask : Nat) : List Nat := (List.range 16).filter fun c => mask.testBit c

/-- FORCE_DUE with station 0 visits the next link of its list, or ends after the last (R123, R124). -/
def forceNext (rest : List (Key × Nat)) (s : State) : State :=
  match rest with
  | [] => answer .done s
  | p :: more => { calForce p.2 s with cmu := { s.cmu with phase := .forcing more } }

/-- FORCE_DUE as it begins: its checks in order (R122), and the visit of its one link, or the first of its visits
(R123, R124). -/
def forceDue (mask station : Nat) (s : State) : State :=
  if 16383 < station then answer .keyInvalid s
  else if mask = 0 ∨ 65536 ≤ mask then answer .range s
  else if station = 0 then
    forceNext ((maskChannels mask).flatMap s.keysOf) s
  else
    match maskChannels mask with
    | [c] =>
      match s.lookup ⟨c, station⟩ with
      | none => answer .notFound s
      | some idx => if (s.calEntry idx).isNone then answer .state s else answer .done (calForce idx s)
    | _ => answer .range s

/-- FORCE_DUE: a command held and not begun is begun; one between its visits makes the next, or ends (log 18). -/
def execForceDue (s : State) : Host.Outcome State Fault Refusal :=
  event s fun x =>
    match x.cmu.phase with
    | .forcing rest => forceNext rest x
    | _ => onCommand codeForceDue (fun d y => forceDue (cmdMask d) (getLe d 8 2) y) x

/-! ## TRIAL (R79) -/

/-- TRIAL up to its record read (R79, R170). -/
def execTrial (s : State) : Host.Outcome State Fault Refusal :=
  event s (onCommand codeTrial fun d x =>
    let key := cmdKey d
    if !(channelValid key.channel) || !(stationValid key.station) then answer .keyInvalid x
    else if x.run = .idle then answer .state x
    else if getAddress d 8 % 64 ≠ 0 then answer .range x
    else
      match x.lookup key with
      | none => answer .notFound x
      | some idx =>
        x.cmuSubmit ⟨.trialRecord, getAddress d 8, .read 64⟩ (.trialRead key idx (bitAt d 13 0)) (some x.takes))

/-! ## READ_CONTEXTS (R102, R103) -/

/-- The count a READ_CONTEXTS names: 0 stands for 256 (R102). -/
def copyCount (n : Nat) : Nat := if n = 0 then 256 else n

/-- A run of bytes shares one with the enabled context window. -/
def State.overlapsContexts (s : State) (a n : Nat) : Bool :=
  match s.contextWindow with
  | none => false
  | some w => overlaps a n w.base w.size

/-- The keys a READ_CONTEXTS visits (R103). -/
def State.keysFrom (s : State) (start : Key) (count : Nat) : List (Key × Nat) :=
  (s.kdir.filter fun p => !(p.1.lt start)).take count

/-- The work of a READ_CONTEXTS as it begins (R103, R105). -/
def State.copyWork (s : State) (start : Key) (count dest : Nat) : CopyWork :=
  ⟨s.keysFrom start count, dest, count, 0, {}⟩

/-- READ_CONTEXTS: its checks in order (R102), and the first copy. -/
def execReadContexts (s : State) : Host.Outcome State Fault Refusal :=
  cacheEvent s (onCommand codeReadContexts fun d x =>
    let key := cmdKey d
    let count := copyCount (byteAt d 8)
    let dest := getAddress d 12
    if !key.valid then answer .keyInvalid x
    else if dest % 256 ≠ 0 ∨ Config.addressTop < dest + 256 * count then answer .range x
    else if x.overlapsContexts dest (256 * count) || x.overlapsControl dest (256 * count) then answer .range x
    else copyNext (x.copyWork key count dest) x)

/-! ## SET_NOTIFY and IDENTIFY (R179, R180) -/

/-- The coalescing count a SET_NOTIFY gives (R179). -/
def notifyCount (n : Nat) : Nat := clampTo 1 64 n

/-- The coalescing time a SET_NOTIFY gives (R179). -/
def notifyTime (t : Nat) : Nat := clampTo 0 1000 t

/-- SET_NOTIFY. -/
def execSetNotify (s : State) : Host.Outcome State Fault Refusal :=
  event s (onCommand codeSetNotify fun d x =>
    let n := byteAt d 8
    let t := getLe d 10 2
    answer (if notifyCount n = n ∧ notifyTime t = t then .done else .doneClamped)
      { x with nw := { x.nw with coalesceN := notifyCount n, coalesceT := notifyTime t }.judge })

/-- IDENTIFY up to its write (R180, R197). -/
def execIdentify (s : State) : Host.Outcome State Fault Refusal :=
  event s (onCommand codeIdentify fun _ x =>
    x.cmuSubmit
      (ownWrite .identify (x.controlBase + 0xB000) (capabilityBytes x.capacity x.strapBase.toNat x.run))
      .identifyWrite)

end Sys2Proof.Machine
end

