-- ==== Sys2Proof/Machine/CommandEnds.lean ====
section
/-!
DEFINITION. What the command unit's own accesses and requests end in (10_command_ring_and_notices.md, and the rules
of each command): each end goes on with the command, and at last with its answer (R177).
-/

namespace Sys2Proof.Machine

/-- A purpose is this one, for the purposes that carry nothing. -/
def isPurpose (p q : Purpose) : Bool := q == p

/-- The key that names no link. -/
def zeroKey : Key := {}

/-! ## The descriptor fetch (R175, R176) -/

/-- A descriptor's 32 bytes are CMU's copy; a code that names no command is answered at once (R175, R176). -/
def descriptorArrived (data : List Byte) (s : State) : State :=
  if cmdCode data ∈ commandCodes then { s with cmu := { s.cmu with phase := .executing data } }
  else answer .badOpcode s

/-- A descriptor fetch ended in a memory error (R175; log 4 for the datum). -/
def descriptorFailed (s : State) : State :=
  answer .memory (memoryFault .descriptorRead zeroKey (Config.descriptorReadDatum s.cmu.consumer) s)

/-- DESCRIPTOR_FETCH_END. -/
def execDescriptorFetchEnd (data : Option (List Byte)) (s : State) : Host.Outcome State Fault Refusal :=
  if isAnswer 32 data then
    event s fun x => x.ending (isPurpose .descriptor) fun _ y =>
      match data with
      | none => descriptorFailed y
      | some bs => descriptorArrived bs y
  else .refused .illFormed

/-! ## ADMIT, RELEASE, REVIVE -/

/-- The image write of an ADMIT ended (R20): ADMIT takes effect, or the status is MEMORY. -/
def admitEnded (error : Bool) (s : State) : State :=
  match s.cmu.phase with
  | .admitWrite key idx clamped =>
    if error then memoryFault .admitWrite key 0 (answer .memory s)
    else
      answerWith [(16, le 2 idx)] (if clamped then .doneClamped else .done)
        (calMake idx key .acquire { s with kdir := kdirInsert key idx s.kdir })
  | _ => s

/-- ADMIT_IMAGE_WRITE_END (R20); what waited for the write goes on (R97). -/
def execAdmitImageWriteEnd (error : Bool) (s : State) : Host.Outcome State Fault Refusal :=
  cacheEvent s fun x => x.ending (isPurpose .admitImage) fun _ y => resume (admitEnded error y)

/-- The header write of a RELEASE ended (R21, R22): the next visit, or the answer. -/
def releaseEnded (error : Bool) (s : State) : State :=
  match s.cmu.phase with
  | .releaseWrite key idx rest failed =>
    releaseNext rest (failed || error) (if error then memoryFault .releaseWrite key idx s else s)
  | _ => s

/-- RELEASE_HEADER_WRITE_END (R21, R22): the next visit begins, or the answer, and then what waited for the write goes on
(R97, log 44). -/
def execReleaseHeaderWriteEnd (error : Bool) (s : State) : Host.Outcome State Fault Refusal :=
  cacheEvent s fun x => x.ending (isPurpose .releaseHeader) fun _ y => resume (releaseEnded error y)

/-- REVIVE_CONTEXT_GIVEN (R23). -/
def execReviveContextGiven (s : State) : Host.Outcome State Fault Refusal := cacheEvent s (giveIfReady .revive)

/-! ## SET_POLICY and READ_CHANNEL -/

/-- A policy that R151 bars on a channel with admitted contexts. -/
def Policy.bars (old new : Policy) : Bool :=
  decide (new.mainTap ≠ old.mainTap)
    || decide (new.timingStep < old.timingStep) || decide (new.powerStep < old.powerStep)
    || decide (new.freqStep < old.freqStep)
    || decide (new.timingRange < old.timingRange) || decide (new.powerRange < old.powerRange)
    || decide (new.freqRange < old.freqRange)

/-- The event of a SET_POLICY (R154): every field is replaced; a CLOSED channel opens, in RUNNING with its timer
restarted. -/
def applyPolicy (ch : Nat) (p : Policy) (s : State) : State :=
  let c := s.channel ch
  if c.state = .closed then
    let s1 := s.setChannel ch { c with policy := p, state := .opened }
    if s.run = .running then restartQuiet ch s1 else s1
  else s.setChannel ch { c with policy := p }

/-- The policy block is read (R153, R154, R151). -/
def policyArrived (ch : Nat) (data : List Byte) (s : State) : State :=
  let raw := Policy.read data
  if !(s.keysOf ch).isEmpty ∧ (s.policy ch).bars raw.clamp then answer .inUse s
  else answer (if raw.clamp = raw then .done else .doneClamped) (applyPolicy ch raw.clamp s)

/-- The read of the policy block ended. -/
def policyReadEnded (data : Option (List Byte)) (s : State) : State :=
  match s.cmu.phase with
  | .policyRead ch =>
    match data with
    | none => memoryFault .policyRead ⟨ch, 0⟩ ch (answer .memory s)
    | some bs => policyArrived ch bs s
  | _ => s

/-- POLICY_BLOCK_READ_END (R153, R154). -/
def execPolicyBlockReadEnd (data : Option (List Byte)) (s : State) : Host.Outcome State Fault Refusal :=
  if isAnswer 64 data then event s fun x => x.ending (isPurpose .policyBlock) fun _ y => policyReadEnded data y
  else .refused .illFormed

/-- The counters less what was reported (R156). -/
def ChanCounters.minus (a b : ChanCounters) : ChanCounters :=
  ⟨a.taken - b.taken, a.unknown - b.unknown, a.lapsedCapture - b.lapsedCapture, a.collided - b.collided,
    a.dropped - b.dropped, a.torn - b.torn⟩

/-- The write of the channel record ended (R156, R157). -/
def channelWriteEnded (error : Bool) (s : State) : State :=
  match s.cmu.phase with
  | .channelWrite ch clear reported =>
    if error then memoryFault .channelWrite ⟨ch, 0⟩ ch (answer .memory s)
    else answer .done (if clear then s.countChannel ch fun k => k.minus reported else s)
  | _ => s

/-- CHANNEL_RECORD_WRITE_END (R155 to R157). -/
def execChannelRecordWriteEnd (error : Bool) (s : State) : Host.Outcome State Fault Refusal :=
  event s fun x => x.ending (isPurpose .channelRecord) fun _ y => channelWriteEnded error y

/-! ## TRIAL -/

/-- The TRIAL job of a record that has been read (R66, R79). -/
def trialJob (key : Key) (idx : Nat) (raw : Bool) (position : Nat) (record : List Byte) : Job :=
  ⟨.trial raw position, idx, key, record, recStamp record⟩

/-- The record read of a TRIAL ended (R79, R80). -/
def trialReadEnded (data : Option (List Byte)) (s : State) : State :=
  match s.cmu.phase with
  | .trialRead key idx raw =>
    match data with
    | none => memoryFault .trialRead key 0 (answer .memory s)
    | some bs =>
      if s.queue.length < Config.queuePlaces then
        { s with
          queue := s.queue ++ [trialJob key idx raw s.cmu.consumer bs]
          cmu := { s.cmu with phase := .trialWait } }
      else answer .full s
  | _ => s

/-- TRIAL_RECORD_READ_END (R79, R80). -/
def execTrialRecordReadEnd (data : Option (List Byte)) (s : State) : Host.Outcome State Fault Refusal :=
  if isAnswer 64 data then event s fun x => x.ending (isPurpose .trialRecord) fun _ y => trialReadEnded data y
  else .refused .illFormed

/-- The write of the trial result ended (R82). -/
def trialWriteEnded (error : Bool) (s : State) : State :=
  match s.cmu.phase with
  | .trialWrite key => if error then memoryFault .trialWrite key 0 (answer .memory s) else answer .done s
  | _ => s

/-- TRIAL_RESULT_WRITE_END (R82). -/
def execTrialResultWriteEnd (error : Bool) (s : State) : Host.Outcome State Fault Refusal :=
  event s fun x => x.ending (isPurpose .trialResult) fun _ y => trialWriteEnded error y

/-! ## READ_CONTEXTS -/

/-- CONTEXT_COPY_COMPOSED (R104). -/
def execContextCopyComposed (s : State) : Host.Outcome State Fault Refusal := cacheEvent s (giveIfReady .copy)

/-- The write of a copy ended (R105). -/
def copyWriteEnded (error : Bool) (s : State) : State :=
  match s.cmu.phase with
  | .copyWrite key w =>
    if error then memoryFault .copyWrite key w.made (finishCopies w .memory s)
    else copyNext { w with made := w.made + 1, last := key } s
  | _ => s

/-- COPY_WRITE_END (R103, R105). -/
def execCopyWriteEnd (error : Bool) (s : State) : Host.Outcome State Fault Refusal :=
  cacheEvent s fun x => x.ending (isPurpose .contextCopy) fun _ y => copyWriteEnded error y

/-! ## IDENTIFY, START and STOP -/

/-- The write of the capability record ended (R180). -/
def identifyWriteEnded (error : Bool) (s : State) : State :=
  match s.cmu.phase with
  | .identifyWrite => if error then memoryFault .identifyWrite zeroKey 0 (answer .memory s) else answer .done s
  | _ => s

/-- IDENTIFY_WRITE_END (R180). -/
def execIdentifyWriteEnd (error : Bool) (s : State) : Host.Outcome State Fault Refusal :=
  event s fun x => x.ending (isPurpose .identify) fun _ y => identifyWriteEnded error y

/-- The write of the run-state mirror ended (R165, R166). -/
def mirrorWriteEnded (error : Bool) (s : State) : State :=
  match s.cmu.phase with
  | .mirrorWrite =>
    if error then memoryFault .mirrorWrite zeroKey s.run.code (answer .memory s) else answer .done s
  | _ => s

/-- MIRROR_WRITE_END (R165, R166). -/
def execMirrorWriteEnd (error : Bool) (s : State) : Host.Outcome State Fault Refusal :=
  event s fun x => x.ending (isPurpose .mirror) fun _ y => mirrorWriteEnded error y

/-! ## The answer (R177) -/

/-- The write of a result field ended (R177): after the last, the status is written. -/
def resultWriteEnded (error : Bool) (s : State) : State :=
  match s.cmu.phase with
  | .resultWrite left st =>
    let s1 := if error then memoryFault .resultWrite zeroKey s.cmu.consumer s else s
    if left ≤ 1 then writeStatus st s1 else { s1 with cmu := { s1.cmu with phase := .resultWrite (left - 1) st } }
  | _ => s

/-- RESULT_WRITE_END (R177). -/
def execResultWriteEnd (error : Bool) (s : State) : Host.Outcome State Fault Refusal :=
  event s fun x => x.ending (isPurpose .resultField) fun _ y => resultWriteEnded error y

/-- The consumer advances and its word is written (R177). -/
def advanceConsumer (s : State) : State :=
  let c := (s.cmu.consumer + 1) % Config.commandPlaces
  { s with cmu := { s.cmu with consumer := c } }.cmuSubmit
    (ownWrite .consumerWord (s.controlBase + 0x04) (le 4 c)) .indexWrite

/-- The write of the status byte ended (R177): the consumer is advanced and written, error or not. -/
def statusWriteEnded (error : Bool) (s : State) : State :=
  match s.cmu.phase with
  | .statusWrite =>
    advanceConsumer (if error then memoryFault .statusWrite zeroKey s.cmu.consumer s else s)
  | _ => s

/-- STATUS_WRITE_END (R177). -/
def execStatusWriteEnd (error : Bool) (s : State) : Host.Outcome State Fault Refusal :=
  event s fun x => x.ending (isPurpose .status) fun _ y => statusWriteEnded error y

/-- The write of the consumer word ended (R177): CMU judges its producer. -/
def indexWriteEnded (error : Bool) (s : State) : State :=
  match s.cmu.phase with
  | .indexWrite =>
    let s1 := if error then memoryFault .commandIndexWrite zeroKey s.cmu.consumer s else s
    if s.cmu.producer = s.cmu.consumer then { s1 with cmu := { s1.cmu with phase := .idle } }
    else fetchDescriptor s1
  | _ => s

/-- COMMAND_INDEX_WRITE_END (R177, R174). -/
def execCommandIndexWriteEnd (error : Bool) (s : State) : Host.Outcome State Fault Refusal :=
  event s fun x => x.ending (isPurpose .consumerWord) fun _ y => indexWriteEnded error y

end Sys2Proof.Machine
end

