-- ==== Sys2Proof/Machine/Engine.lean ====
section
/-!
DEFINITION. The coefficient engine's steps (R70 to R76, R81): JOB_TAKE, JOB_CONTEXT_GIVEN, JOB_COMPLETION.
-/

namespace Sys2Proof.Machine

/-- JOB_TAKE (R70). -/
def execJobTake (s : State) : Host.Outcome State Fault Refusal := cacheEvent s takeJob

/-- JOB_CONTEXT_GIVEN (R72, R81). -/
def execJobContextGiven (s : State) : Host.Outcome State Fault Refusal := cacheEvent s (giveIfReady .engine)

/-- JOB_COMPLETION (R74 to R76, R81). -/
def execJobCompletion (s : State) : Host.Outcome State Fault Refusal := cacheEvent s completeJob

end Sys2Proof.Machine
end

