-- ==== Sys2Proof/Machine/Reset.lean ====
section
/-!
DEFINITION. Pin reset (R172, R178): PIN_RESET and PIN_RESET_DEASSERTION.
-/

namespace Sys2Proof.Machine

/-- The error responses that end the open transactions at the assertion of reset (R172): a transaction already
completed to its initiator gets none. -/
def State.resetResponses (s : State) : List Returned :=
  (s.txns.filter fun t => !t.responded).map fun t => ⟨t.init, t.id, .error⟩

/-- PIN_RESET: every block's state takes its pin-reset value (R172, R178); the open transactions end in error
responses; what waits at the port stays there, the part taking nothing. -/
def execPinReset (s : State) : Host.Outcome State Fault Refusal :=
  .next
    { State.reset with
      takes := s.takes
      atPort := s.atPort
      returned := s.returned ++ s.resetResponses
      pending := s.pending }

/-- PIN_RESET_DEASSERTION: the strap base is latched, the reference counter begins from 0 and the system port
begins to take transactions (R172, R106, R158). Nothing where RESET_N is not asserted (log 5). -/
def execPinResetDeassertion (strap : BitVec 16) (s : State) : Host.Outcome State Fault Refusal :=
  if s.inReset then .next (grantAll (drainPort { s with inReset := false, strapBase := strap, now := 0 }))
  else .next s

end Sys2Proof.Machine
end

