-- ==== Sys2Proof/Machine/Rings.lean ====
section
/-!
DEFINITION. The ends of the notice writer's own writes (R181, R182, R185, R186).
-/

namespace Sys2Proof.Machine

/-- A purpose is a notice write. -/
def isNotice : Purpose → Bool
  | .notice => true
  | _ => false

/-- A purpose is a notice producer-word write. -/
def isNoticeProducer : Purpose → Bool
  | .noticeProducer => true
  | _ => false

/-- A purpose is an offer write. -/
def isOffer : Purpose → Bool
  | .offer _ _ => true
  | _ => false

/-- A purpose is a due producer-word write. -/
def isDueProducer : Purpose → Bool
  | .dueProducer _ => true
  | _ => false

/-- The published index passes a notice (R181, R188): the timer starts when the unread count rises from 0, the
producer word is written, the line is judged. -/
def publishNotice (s : State) : State :=
  let ring := { s.nw.notices with published := ringNext s.nw.notices.published }
  let w := { s.nw with
             notices := ring
             timer := if s.nw.notices.unread = 0 then some 0 else s.nw.timer }
  { s with nw := w.judge }.submit .notice (ownWrite .noticeProducer (s.controlBase + 0x08) (le 4 ring.published))

/-- NOTICE_WRITE_END (R181, R182). -/
def execNoticeWriteEnd (error : Bool) (s : State) : Host.Outcome State Fault Refusal :=
  event s fun x => x.ending isNotice fun _ y =>
    publishNotice (if error then { y with nw := y.nw.countOverflow } else y)

/-- NOTICE_PRODUCER_WRITE_END (R182): an error leaves the published index as it is and raises nothing. -/
def execNoticeProducerWriteEnd (_error : Bool) (s : State) : Host.Outcome State Fault Refusal :=
  event s fun x => x.ending isNoticeProducer fun _ y => y

/-- The published index of the due ring passes an offer (R186). -/
def publishOffer (s : State) : State :=
  let ring := { s.nw.due with published := ringNext s.nw.due.published }
  { s with nw := { s.nw with due := ring } }.submit .notice
    (ownWrite (.dueProducer ring.published) (s.controlBase + 0x10) (le 4 ring.published))

/-- The MEMORY_FAULT of a failed offer write (R185). -/
def offerFault (a : Access) (s : State) : State :=
  match a.purpose with
  | .offer position key => memoryFault .offerWrite key position s
  | _ => s

/-- OFFER_WRITE_END (R186, R185). -/
def execOfferWriteEnd (error : Bool) (s : State) : Host.Outcome State Fault Refusal :=
  event s fun x => x.ending isOffer fun a y => if error then offerFault a (publishOffer y) else publishOffer y

/-- The MEMORY_FAULT of a failed due producer-word write (R185). -/
def dueFault (a : Access) (s : State) : State :=
  match a.purpose with
  | .dueProducer value => memoryFault .dueIndexWrite {} value s
  | _ => s

/-- DUE_PRODUCER_WRITE_END (R185). -/
def execDueProducerWriteEnd (error : Bool) (s : State) : Host.Outcome State Fault Refusal :=
  event s fun x => x.ending isDueProducer fun a y => if error then dueFault a y else y

end Sys2Proof.Machine
end

