-- ==== Sys2Proof/Machine/Slots.lean ====
section
/-!
DEFINITION. The slot table's steps on the context cache: SLOT_BINDING_MADE (R133), PROMOTION (R137 to R139).
-/

namespace Sys2Proof.Machine

/-- SLOT_BINDING_MADE (R133). -/
def execSlotBindingMade (slot : Fin 64) (s : State) : Host.Outcome State Fault Refusal :=
  cacheEvent s (giveIfReady (.slot slot.val))

/-- PROMOTION (R138, R139). -/
def execPromotion (s : State) : Host.Outcome State Fault Refusal := cacheEvent s (giveIfReady .promotion)

end Sys2Proof.Machine
end

