-- ==== Sys2Proof/Machine/Traffic.lean ====
section
/-!
DEFINITION. The passing transactions (R159 to R161, R127 to R130): reads, writes, what DRAM answers them, and the
writes of a word or a slot header of the control region, each of which is a whole passing write (log 16).
-/

namespace Sys2Proof.Machine

/-- PASSING_READ (R159). -/
def execPassingRead (init : Initiator) (addr len : Nat) (s : State) : Host.Outcome State Fault Refusal :=
  if isPortRun addr len then arrival (.read init addr len) s else .refused .illFormed

/-- PASSING_WRITE (R159). -/
def execPassingWrite (init : Initiator) (addr : Nat) (bytes : List WByte) (s : State) :
    Host.Outcome State Fault Refusal :=
  if isPortRun addr bytes.length then arrival (.write init addr bytes) s else .refused .illFormed

/-- An outstanding passing read of this number asks for `n` bytes. -/
def isReadOf (txn : Nat) (n : Nat → Bool) (a : Access) : Bool :=
  match a.purpose, a.body with
  | .passing t, .read len => t == txn && n len
  | _, _ => false

/-- A passing write of this number is outstanding. -/
def isWriteOf (txn : Nat) (a : Access) : Bool :=
  match a.purpose, a.body with
  | .passing t, .write _ => t == txn
  | _, _ => false

/-- A purpose is the passing transaction of a number. -/
def isPassing (txn : Nat) : Purpose → Bool
  | .passing t => t == txn
  | _ => false

/-- READ_DATA_RETURN (R160): the data of a passing read returns, or a memory error. Data of another length than an
outstanding read of that number asks for is no answer to it; where no such read is outstanding, what arrives is
discarded (log 6). -/
def execReadDataReturn (txn : Nat) (data : Option (List Byte)) (s : State) : Host.Outcome State Fault Refusal :=
  if s.mem.outstanding.any (isReadOf txn fun _ => true) then
    match data with
    | none => cacheEvent s fun x => x.ending (isPassing txn) fun _ y => readFailed txn y
    | some bs =>
      if s.mem.outstanding.any (isReadOf txn fun len => bs.length == len) then
        cacheEvent s fun x => x.ending (isPassing txn) fun _ y => readArrived txn bs y
      else .refused .illFormed
  else .next s

/-- WRITE_RESPONSE_RETURN (R160): DRAM's response completes a passing write. -/
def execWriteResponseReturn (txn : Nat) (error : Bool) (s : State) : Host.Outcome State Fault Refusal :=
  if s.mem.outstanding.any (isWriteOf txn) then
    cacheEvent s fun x => x.ending (isPassing txn) fun _ y => writeCompleted txn error y
  else .next s

/-- COMMAND_PRODUCER_WRITE (R173, R174): a write of the command producer word. -/
def execCommandProducerWrite (init : Initiator) (bytes : List WByte) (s : State) : Host.Outcome State Fault Refusal :=
  controlWrite init 0x00 bytes s

/-- NOTICE_CONSUMER_WRITE (R173, R183): a write of the notice consumer word. -/
def execNoticeConsumerWrite (init : Initiator) (bytes : List WByte) (s : State) : Host.Outcome State Fault Refusal :=
  controlWrite init 0x0C bytes s

/-- DUE_CONSUMER_WRITE (R173, R187): a write of the due consumer word. -/
def execDueConsumerWrite (init : Initiator) (bytes : List WByte) (s : State) : Host.Outcome State Fault Refusal :=
  controlWrite init 0x14 bytes s

/-- The offset of a word the part writes (R198). -/
def partWordOffset : PartWord → Nat
  | .commandConsumer => 0x04
  | .noticeProducer => 0x08
  | .dueProducer => 0x10
  | .runStateMirror => 0x18

/-- PART_INDEX_WORD_WRITE (R161): a write of a word the part writes passes and changes nothing in the part. -/
def execPartIndexWordWrite (init : Initiator) (word : PartWord) (bytes : List WByte) (s : State) :
    Host.Outcome State Fault Refusal :=
  controlWrite init (partWordOffset word) bytes s

/-- SLOT_HEADER_WRITE (R127 to R129): a write of the key bytes of a response slot. -/
def execSlotHeaderWrite (init : Initiator) (slot : Fin 64) (bytes : List WByte) (s : State) :
    Host.Outcome State Fault Refusal :=
  controlWrite init (0x1000 + 64 * slot.val) bytes s

end Sys2Proof.Machine
end

