-- ==== Sys2Proof/Machine/Dispatch.lean ====
section
/-!
DEFINITION. One arm per step of the part, each a direct call of its meaning.
-/

namespace Sys2Proof.Machine

def exec (i : Instr) (s : State) : Host.Outcome State Fault Refusal :=
  match i with
  | .pinReset => Sys2Proof.Machine.execPinReset s
  | .pinResetDeassertion strap => Sys2Proof.Machine.execPinResetDeassertion strap s
  | .passingRead init addr len => Sys2Proof.Machine.execPassingRead init addr len s
  | .passingWrite init addr bytes => Sys2Proof.Machine.execPassingWrite init addr bytes s
  | .readDataReturn txn data => Sys2Proof.Machine.execReadDataReturn txn data s
  | .writeResponseReturn txn error => Sys2Proof.Machine.execWriteResponseReturn txn error s
  | .commandProducerWrite init bytes => Sys2Proof.Machine.execCommandProducerWrite init bytes s
  | .noticeConsumerWrite init bytes => Sys2Proof.Machine.execNoticeConsumerWrite init bytes s
  | .dueConsumerWrite init bytes => Sys2Proof.Machine.execDueConsumerWrite init bytes s
  | .partIndexWordWrite init word bytes => Sys2Proof.Machine.execPartIndexWordWrite init word bytes s
  | .slotHeaderWrite init slot bytes => Sys2Proof.Machine.execSlotHeaderWrite init slot bytes s
  | .fetchDataArrival index data => Sys2Proof.Machine.execFetchDataArrival index data s
  | .writeBackEnd index error => Sys2Proof.Machine.execWriteBackEnd index error s
  | .jobTake => Sys2Proof.Machine.execJobTake s
  | .jobContextGiven => Sys2Proof.Machine.execJobContextGiven s
  | .jobCompletion => Sys2Proof.Machine.execJobCompletion s
  | .offerTaking => Sys2Proof.Machine.execOfferTaking s
  | .graceExpiry => Sys2Proof.Machine.execGraceExpiry s
  | .silentLapseApplied => Sys2Proof.Machine.execSilentLapseApplied s
  | .quietTimerExpiry channel => Sys2Proof.Machine.execQuietTimerExpiry channel s
  | .coalescingTimerExpiry => Sys2Proof.Machine.execCoalescingTimerExpiry s
  | .slotBindingMade slot => Sys2Proof.Machine.execSlotBindingMade slot s
  | .promotion => Sys2Proof.Machine.execPromotion s
  | .noticeWriteEnd error => Sys2Proof.Machine.execNoticeWriteEnd error s
  | .noticeProducerWriteEnd error => Sys2Proof.Machine.execNoticeProducerWriteEnd error s
  | .offerWriteEnd error => Sys2Proof.Machine.execOfferWriteEnd error s
  | .dueProducerWriteEnd error => Sys2Proof.Machine.execDueProducerWriteEnd error s
  | .descriptorFetchEnd data => Sys2Proof.Machine.execDescriptorFetchEnd data s
  | .start => Sys2Proof.Machine.execStart s
  | .stop => Sys2Proof.Machine.execStop s
  | .setWindow => Sys2Proof.Machine.execSetWindow s
  | .setPolicy => Sys2Proof.Machine.execSetPolicy s
  | .readChannel => Sys2Proof.Machine.execReadChannel s
  | .admitLink => Sys2Proof.Machine.execAdmitLink s
  | .release => Sys2Proof.Machine.execRelease s
  | .revive => Sys2Proof.Machine.execRevive s
  | .forceDue => Sys2Proof.Machine.execForceDue s
  | .trial => Sys2Proof.Machine.execTrial s
  | .readContexts => Sys2Proof.Machine.execReadContexts s
  | .setNotify => Sys2Proof.Machine.execSetNotify s
  | .identify => Sys2Proof.Machine.execIdentify s
  | .admitImageWriteEnd error => Sys2Proof.Machine.execAdmitImageWriteEnd error s
  | .releaseHeaderWriteEnd error => Sys2Proof.Machine.execReleaseHeaderWriteEnd error s
  | .reviveContextGiven => Sys2Proof.Machine.execReviveContextGiven s
  | .policyBlockReadEnd data => Sys2Proof.Machine.execPolicyBlockReadEnd data s
  | .channelRecordWriteEnd error => Sys2Proof.Machine.execChannelRecordWriteEnd error s
  | .trialRecordReadEnd data => Sys2Proof.Machine.execTrialRecordReadEnd data s
  | .trialResultWriteEnd error => Sys2Proof.Machine.execTrialResultWriteEnd error s
  | .contextCopyComposed => Sys2Proof.Machine.execContextCopyComposed s
  | .copyWriteEnd error => Sys2Proof.Machine.execCopyWriteEnd error s
  | .identifyWriteEnd error => Sys2Proof.Machine.execIdentifyWriteEnd error s
  | .mirrorWriteEnd error => Sys2Proof.Machine.execMirrorWriteEnd error s
  | .resultWriteEnd error => Sys2Proof.Machine.execResultWriteEnd error s
  | .statusWriteEnd error => Sys2Proof.Machine.execStatusWriteEnd error s
  | .commandIndexWriteEnd error => Sys2Proof.Machine.execCommandIndexWriteEnd error s

end Sys2Proof.Machine
end

