-- ==== Sys2Proof/Machine/Step.lean ====
section
/-!
DEFINITION. The step of the model: the step of the part at the front of the queue, or, on an empty queue, one
period of REFCLK (log 8).
-/

namespace Sys2Proof.Machine

/-- One step: the front of the queue is taken and made with the queue's rest; an empty queue is a tick of the
reference clock (R106, R188; log 8). -/
def step (s : State) : Host.Outcome State Fault Refusal :=
  match s.pending with
  | [] => .next (tick s)
  | i :: rest => exec i { s with pending := rest }

/-- The command a word spells, put at the front of the queue; the state unchanged where it spells none. -/
def State.withFetchWord (s : State) (nbits w : Nat) : State :=
  match decodeTableWord nbits w with
  | none => s
  | some i => { s with pending := i :: s.pending }

end Sys2Proof.Machine
end

