-- ==== Sys2Proof/Safety.lean ====
section
/-!
DEFINITION. What claims about the part speak of: the accesses at the memory port, a part with nothing waiting at
its port or in its cache, and the invariants of its tables.
-/

namespace Sys2Proof.Machine

/-! ## The memory port -/

/-- Every access the port knows: outstanding, or waiting for its grant. -/
def MemPort.accesses (m : MemPort) : List Access :=
  m.outstanding ++ (m.passing ++ m.cache ++ m.command ++ m.notice).map fun q => q.access

/-- From `old` to `new` the port has gained exactly these accesses and lost none. -/
def MemPort.gains (old new : MemPort) (as : List Access) : Prop := new.accesses.Perm (old.accesses ++ as)

/-- The oldest outstanding access of a purpose, and the others. -/
abbrev State.oldest (s : State) (p : Purpose → Bool) (a : Access) (rest : List Access) : Prop :=
  extract (fun x => p x.purpose) s.mem.outstanding = some (a, rest)

/-- The port once an outstanding access has ended. -/
def State.portWithout (s : State) (rest : List Access) : MemPort := { s.mem with outstanding := rest }

/-! ## A part at rest -/

/-- Out of reset; nothing waits at the system port; no request waits for an entry, and one entry at least is not
faulted; every open transaction is at the memory port and unanswered. In such a state a step has its own effect
and nothing that had waited goes on behind it. -/
structure State.Steady (s : State) : Prop where
  running : s.inReset = false
  port : s.atPort = []
  requests : ∀ r ∈ s.reqs, r.wait ≠ .list
  sound : ∃ e, e < 32 ∧ (s.entry e).faulted = false
  handled : ∀ t ∈ s.txns, t.handled = true
  unanswered : ∀ t ∈ s.txns, t.result = none ∧ t.responded = false
  numbered : ∀ t ∈ s.txns, t.id < s.takes

/-- CMU holds this descriptor's copy and has not begun it (R175). -/
abbrev State.Executing (s : State) (code : Nat) (d : List Byte) : Prop :=
  s.inReset = false ∧ s.cmu.phase = .executing d ∧ cmdCode d = code

/-- The bytes a write carries, each with its offset. -/
def carriedBytes (bytes : List WByte) : List (Nat × Byte) :=
  bytes.zipIdx.filterMap fun b => b.1.map fun v => (b.2, v)

/-- A write of the whole of these bytes as it stands on the open list once its parts have been handled. -/
def State.openedWrite (s : State) (init : Initiator) (addr : Nat) (bytes : List WByte) : Txn :=
  ⟨s.takes, init, addr, s.run, .write [] bytes 0 none, true, none, false⟩

/-- A byte no block acts on: plain, or of an index word the part writes (R159, R161). -/
def State.passesThrough (s : State) (a : Nat) : Prop :=
  (s.ownerOf a).1 = .plain ∨ ∃ w, (s.ownerOf a).1 = .word w ∧ w ∈ [1, 2, 4, 6]

/-- The bytes a write carries into a unit that it enters at this offset. -/
def carriedAt (off : Nat) (bytes : List WByte) : List (Nat × Byte) :=
  (carriedBytes bytes).map fun b => (off + b.1, b.2)

/-- One open transaction among others: its number is its own, and it is the first of its initiator. -/
structure State.Opens (s : State) (pre : List Txn) (t : Txn) (post : List Txn) : Prop where
  place : s.txns = pre ++ t :: post
  alone : ∀ x ∈ pre ++ post, x.id ≠ t.id
  first : ∀ x ∈ pre, x.init ≠ t.init
  taken : s.awaits t.id = false

/-- The responses returned so far with one more. -/
def State.returns (s : State) (t : Txn) (r : Response) : List Returned := s.returned ++ [⟨t.init, t.id, r⟩]

/-- The bytes of a read from this offset of a unit on, each made from what DRAM returned. -/
def patchedFrom (off : Nat) (f : Nat → Byte → Byte) (data : List Byte) : List Byte :=
  data.zipIdx.map fun b => f (off + b.2) b.1

/-- The recency order with this entry most recently used (R86). -/
def State.recencyWith (s : State) (e : Nat) : List Nat := (s.recency.filter fun x => x != e) ++ [e]

/-- The cache entries with one replaced. -/
def State.entriesWith (s : State) (e : Nat) (x : Entry) : Vector Entry 32 := s.entries.setIfInBounds e x

/-- The slot records with one replaced. -/
def State.slotsWith (s : State) (n : Nat) (x : Slot) : Vector Slot 64 := s.slots.setIfInBounds n x

/-- The requests of every requester but one. -/
def State.reqsWithout (s : State) (who : Requester) : List Req := s.reqs.filter fun r => r.who != who

/-- The cache serves a reference from this entry, which is VALID (R3, R87). -/
abbrev State.ServedBy (s : State) (idx : Nat) (key : Key) (e : Nat) : Prop :=
  s.present idx key = true ∧ s.findEntry idx = some e ∧ (s.entry e).cond = .valid

/-- The one pinned entry, against which no RELEASE has been taken (R69). -/
abbrev State.PinnedOnly (s : State) (e : Nat) : Prop :=
  (s.entry e).pinned = true ∧ (s.entry e).released = false ∧ ∀ x, x < 32 → (s.entry x).pinned = true → x = e

/-- The calendar entries with the one of an index replaced, behind every other (R109). -/
def State.calendarWith (s : State) (e : CalEntry) : List CalEntry :=
  (s.calendar.filter fun x => x.index != e.index) ++ [e]

/-- The access of a passing write at the memory port. -/
def State.passingAccess (s : State) (addr : Nat) (bytes : List WByte) : Access :=
  ⟨.passing s.takes, addr, .write bytes⟩

/-- CMU in another phase. -/
def State.cmuIn (s : State) (p : CmuPhase) : Cmu := { s.cmu with phase := p }

/-- The access of an answer's status byte (R177). -/
def State.statusAccess (s : State) (st : Status) : Access :=
  ownWrite .status (s.descriptorAddr + 1) (le 1 st.code)

/-! ## What a step answers -/

/-- A step answers a next state: this one, but for the memory port, which has gained exactly these accesses (granted
or still waiting) and lost none. -/
def NextIs (o : Host.Outcome State Fault Refusal) (t : State) (as : List Access) : Prop :=
  ∃ m, o = .next { t with mem := m } ∧ t.mem.gains m as

/-- A step answers a next state: this one, but that CMU answers its descriptor with this status, whose byte it has
begun to write (R177). -/
def Answers (o : Host.Outcome State Fault Refusal) (t : State) (st : Status) : Prop :=
  NextIs o { t with cmu := t.cmuIn .statusWrite } [t.statusAccess st]

/-- The state once an outstanding access has ended. -/
def State.ended (s : State) (rest : List Access) : State := { s with mem := s.portWithout rest }

/-- The state in which one more notice has been handed to NW where something went wrong. -/
def noticeIf (b : Bool) (n : Notice) (s : State) : State := if b then notify n s else s

/-- The state in which the entry of a context has become INVALID and no read holds the context (R85, R98). -/
def State.withoutEntry (s : State) (e idx : Nat) : State :=
  { s with
    entries := s.entriesWith e {}
    recency := s.recency.filter fun y => y != e
    txns := s.txns.map (Txn.dropHolds idx) }

/-- No request waits for a place in the cache for this context: each one for it has been answered. -/
abbrev State.noneWaits (s : State) (idx : Nat) : Prop := ∀ r ∈ s.reqs, r.index = idx → r.wait = .ready

/-- No cache entry is pinned. -/
abbrev State.Unpinned (s : State) : Prop := ∀ x, x < 32 → (s.entry x).pinned = false

/-- No open read waits for an ADMIT or RELEASE write (R97). -/
def State.Judged (s : State) : Prop := ∀ t ∈ s.txns, ∀ p ∈ t.readParts, ∀ i, p.owner ≠ .unjudged i

/-- The one request of a requester, and it is ready to be given its context. -/
abbrev State.Ready (s : State) (who : Requester) (idx : Nat) (key : Key) : Prop :=
  s.reqOf who = some ⟨who, idx, key, .ready⟩

/-- The engine once an event has marked a CAPTURE job in flight of the context with this cause, unless the job has a
mark (R69, R71). -/
def State.engineMarked (s : State) (idx : Nat) (key : Key) (cause : LossCause) : Engine :=
  let mark := fun (j : Job) (m : Option LossCause) =>
    if j.isCapture = true ∧ j.index = idx ∧ j.key = key then m.or (some cause) else m
  match s.engine with
  | .idle => .idle
  | .obtaining j m => .obtaining j (mark j m)
  | .computing j m snap => .computing j (mark j m) snap

/-- The calendar with the entry of an index, if it has one, in a period class, its due time standing (R119). -/
def State.calendarClassed (s : State) (idx : Nat) (cls : PeriodClass) : List CalEntry :=
  match s.calEntry idx with
  | none => s.calendar
  | some c => s.calendar.map fun y => if y.index = idx then { c with cls := cls } else y

/-- The calendar with the entry of an index, if it has one that is not GRACE, forced: OFFER_FORCED, due now, behind
every other (R123, R109). -/
def State.calendarForced (s : State) (idx : Nat) : List CalEntry :=
  match s.calEntry idx with
  | none => s.calendar
  | some c => if c.kind = .grace then s.calendar else s.calendarWith { c with kind := .offerForced, due := s.now }

/-- The state in which the open assembly of a window-table entry, if it has one, has been discarded: CAPTURE_TORN
with this detail and the number of bytes written, and one more torn record on the channel byte 0 names, where it
was written and is 0 to 15 (R53, R54, R65). -/
def State.torn (s : State) (w detail : Nat) : State :=
  match s.assembly w with
  | none => s
  | some a =>
    notify ⟨.captureTorn, detail, recKey a.record, a.stamp, (a.bytes.filter Option.isSome).length⟩
      { s with
        assemblies := s.assemblies.setIfInBounds w none
        channels :=
          match a.bytes.getD 0 none with
          | none => s.channels
          | some b =>
            if b.toNat ≤ 15 then
              let c := s.channel b.toNat
              s.channels.setIfInBounds b.toNat
                { c with counters := { c.counters with torn := min 4294967295 (c.counters.torn + 1) } }
            else s.channels }

/-- The requests once a context is released: those that waited for an entry for it are answered, and an operator
write among them is dropped (R89, R101). -/
def State.reqsReleased (s : State) (idx : Nat) (key : Key) : List Req :=
  let waits := fun (r : Req) => r.index == idx && r.key == key && r.wait != .fetch
  (s.reqs.filter fun r => !(r.who.isWrite && waits r)).map fun r => if waits r then { r with wait := .ready } else r

/-- What a release does outside the cache (R21, R68, R71, R116): the key leaves the directory, its entry the calendar
and the lapse list, its waiting CAPTURE job the queue, a CAPTURE job in flight is marked RELEASED, and the requests
that wait for the context are answered. -/
def State.leaving (s : State) (key : Key) (idx : Nat) : State :=
  { s with
    kdir := s.kdir.filter fun p => p.1 != key
    calendar := s.calendar.filter fun x => x.index != idx
    lapses := s.lapses.filter fun l => l.index != idx
    queue := s.queue.filter fun j => !(j.isCapture && j.index == idx)
    engine := s.engineMarked idx key .released
    reqs := s.reqsReleased idx key }

/-- A number brought into a range: itself inside it, the bound on its side outside it (R149). -/
def broughtInto (lo hi v w : Nat) : Prop := (lo ≤ v ∧ v ≤ hi → w = v) ∧ (v < lo → w = lo) ∧ (hi < v → w = hi)

/-- No passing write of an initiator waits at the memory port: the bytes of each have been issued (R161). -/
abbrev State.issuedAll (s : State) (init : Initiator) : Prop :=
  ∀ q ∈ s.mem.passing, q.init = some init → q.access.isWrite = false

/-- An entry is evictable: VALID, not pinned, not faulted, held by no read, and owed to no request that has been given
it (R86, R89). -/
abbrev State.reusable (s : State) (e : Nat) : Prop :=
  let x := s.entry e
  x.cond = .valid ∧ x.pinned = false ∧ x.faulted = false ∧ x.holds = 0
    ∧ ∀ r ∈ s.reqs, r.wait = .ready ∨ r.wait = .kept → ¬ (r.index = x.index ∧ r.key = x.key)

/-- `n` bytes of a record from an offset on. -/
def field (bs : List Byte) (off n : Nat) : List Byte := (bs.drop off).take n

/-- The policy of the channel a key names. -/
def State.policyOf (s : State) (key : Key) : Policy := s.policy key.channel

/-! ## Invariants -/

/-- R66: the update queue holds at most 64 jobs and at most one CAPTURE job for a context index. -/
def State.QueueOk (s : State) : Prop :=
  s.queue.length ≤ Config.queuePlaces ∧ ((s.queue.filter Job.isCapture).map fun j => j.index).Nodup

/-- R158: at most 32 transactions are open. -/
def State.OpenOk (s : State) : Prop := s.txns.length ≤ 32

/-- R108: the calendar holds at most one entry for a context index. -/
def State.CalendarOk (s : State) : Prop := (s.calendar.map fun e => e.index).Nodup

/-- R85, R88: at most one entry that is not INVALID names a context index, and none names the index of a request that
waits for an entry. -/
structure State.CacheOk (s : State) : Prop where
  single : ∀ d e, (s.entry d).cond ≠ .invalid → (s.entry e).cond ≠ .invalid →
    (s.entry d).index = (s.entry e).index → d = e
  awaited : ∀ r ∈ s.reqs, r.wait = .list ∨ (∃ e, r.wait = .writeBack e) →
    ∀ e, (s.entry e).cond ≠ .invalid → (s.entry e).index ≠ r.index

/-- R162: an enabled window is a power of two from 4 KiB to 1 GiB, aligned to its size. -/
def Window.legal (w : Window) : Prop := windowSize w.size = true ∧ w.base % w.size = 0

/-- R162: the window table. While RESET_N is asserted it is empty. -/
structure State.WindowsOk (s : State) : Prop where
  reset : s.inReset = true → ∀ i, s.window i = none
  legal : ∀ i w, s.window i = some w → w.legal
  apart : ∀ i j w x, s.window i = some w → s.window j = some x → i ≠ j →
    overlaps w.base w.size x.base x.size = false
  control : ∀ i w, s.window i = some w → s.overlapsControl w.base w.size = false
  oneContext : (s.windowsOf .context).length ≤ 1
  fiveCapture : (s.windowsOf .capture).length ≤ 5

/-- R2, R4: the key directory is in ascending key order, so a key stands in it once; an index stands in it once, and
below the pool capacity. An outstanding ADMIT write is of a key and an index that are not yet in it (R19, R20). -/
structure State.DirectoryOk (s : State) : Prop where
  ordered : s.kdir.Pairwise fun a b => a.1.lt b.1 = true
  indices : (s.kdir.map Prod.snd).Nodup
  within : ∀ p ∈ s.kdir, p.2 < s.capacity
  admitting : ∀ key idx clamped, s.cmu.phase = .admitWrite key idx clamped →
    idx < s.capacity ∧ ∀ p ∈ s.kdir, p.1 ≠ key ∧ p.2 ≠ idx

/-- A number that `n` bytes hold unsigned. -/
def fits (n v : Nat) : Prop := v < 2 ^ (8 * n)

/-- A number that `n` bytes hold in two's complement. -/
def fitsInt (n : Nat) (v : Int) : Prop := -(2 ^ (8 * n - 1) : Int) ≤ v ∧ v < 2 ^ (8 * n - 1)

/-- A tap set of twelve taps in Q2.13. -/
def TapsFit (ts : List Tap) : Prop := ts.length = 12 ∧ ∀ t ∈ ts, fitsInt 2 t.re ∧ fitsInt 2 t.im

/-- A correction whose fields fit the pending correction block (R192). -/
structure Correction.Fits (c : Correction) : Prop where
  timing : fitsInt 4 c.timing
  power : fitsInt 1 c.power
  freq : fitsInt 2 c.freq
  basis : fits 2 c.basis
  id : fits 2 c.id
  taps : ∀ ts, c.taps = some ts → TapsFit ts

/-- A context whose fields fit its record (R192). -/
structure Context.Fits (c : Context) : Prop where
  key : fits 1 c.key.channel ∧ fits 2 c.key.station
  counts : fits 1 c.step ∧ fits 1 c.settle ∧ fits 1 c.miss
  offsets : fitsInt 4 c.offTiming ∧ fitsInt 2 c.offFreq ∧ fitsInt 1 c.offPower
  sequences : fits 2 c.basis ∧ fits 2 c.corrSeq
  taps : TapsFit c.taps
  pending : ∀ p, c.pending = some p → p.Fits
  measured : fitsInt 4 c.meas.timing ∧ fitsInt 2 c.meas.power ∧ fitsInt 2 c.meas.freq ∧ fits 1 c.meas.snr
    ∧ fits 1 c.meas.health
  counters : fits 4 c.counters.captures ∧ fits 4 c.counters.delivered ∧ fits 2 c.counters.superseded
    ∧ fits 2 c.counters.replaced ∧ fits 2 c.counters.lost ∧ fits 2 c.counters.rejected ∧ fits 2 c.counters.clipped

end Sys2Proof.Machine
end

