-- ==== Sys2Proof/Certificates/Slice0/Obligations.lean ====
section
/-!
DEFINITION. The statements about the part, for the provers. Most say of a step that `exec` answers a next state, and
which: every field the statement does not name is the field of the state before, and the memory port has gained
exactly the accesses listed (granted or still waiting: R169, log 7) and lost none but the one that ended.
-/

open Sys2Proof Sys2Proof.Machine

/-! ## The machine -/

/-- The step of the model takes the front of the queue and makes it with the queue's rest; an empty queue is one tick
of REFCLK (log 8), at which the reference counter counts (R106) and a running coalescing timer counts up to its stop
(R188). -/
def Obligations.StepTakesFront : Prop :=
  ∀ s : State,
    (∀ c rest, s.pending = c :: rest → step s = exec c { s with pending := rest })
    ∧ (s.pending = [] → s.inReset = true → step s = .next s)
    ∧ (s.pending = [] → s.inReset = false →
        step s = .next { s with
          now := s.now + 1
          nw := { s.nw with timer := s.nw.timer.map fun n => min 16384000 (n + 1) } })

/-- What pin reset leaves (R2, R47, R62, R66, R69, R85, R106, R108, R126, R145, R158, R174, R181 to R188). -/
def Obligations.ResetValues : Prop :=
  let s := State.reset
  s.inReset = true ∧ s.now = 0 ∧ s.run = .idle ∧ (∀ i, s.window i = none) ∧ (∀ w, s.assembly w = none)
    ∧ (∀ ch, s.quietTimer ch = none) ∧ s.kdir = [] ∧ s.queue = [] ∧ s.engine = .idle
    ∧ (∀ e, (s.entry e).cond = .invalid ∧ (s.entry e).dirty = false ∧ (s.entry e).pinned = false
        ∧ (s.entry e).faulted = false ∧ (s.entry e).holds = 0 ∧ (s.entry e).merge = [])
    ∧ s.reqs = [] ∧ s.calendar = [] ∧ s.lapses = [] ∧ s.promotions = []
    ∧ (∀ n, (s.slot n).state = .idle ∧ (s.slot n).keyImage = [0, 0, 0, 0] ∧ (s.slot n).latched = ⟨0, 0⟩
        ∧ (s.slot n).copy = none ∧ (s.slot n).binding = false ∧ (s.slot n).waiting = []
        ∧ (s.slot n).heldWrites = [])
    ∧ s.cmu.phase = .idle ∧ s.cmu.producer = 0 ∧ s.cmu.consumer = 0 ∧ s.cmu.shadow = 0
    ∧ s.nw.notices = ⟨0, 0, 0⟩ ∧ s.nw.due = ⟨0, 0, 0⟩ ∧ s.nw.noticeShadow = 0 ∧ s.nw.dueShadow = 0
    ∧ s.nw.overflow = 0 ∧ s.nw.coalesceN = 1 ∧ s.nw.coalesceT = 0 ∧ s.nw.timer = none ∧ s.nw.attn = false
    ∧ s.txns = [] ∧ s.mem.accesses = []
    ∧ (∀ ch, (s.channel ch).state = .closed ∧ (s.channel ch).counters = ⟨0, 0, 0, 0, 0, 0⟩
        ∧ (s.channel ch).policy =
          { mainTap := 4, acq := ⟨0, 0, 0, 1⟩, trk := ⟨2, 1, 2, 3⟩
            timingStep := 16384, timingRange := 16777216, powerStep := 24, powerRange := 96
            freqStep := 2000, freqRange := 20000
            settleTiming := 64, settlePower := 8, settleFreq := 50, settleHealth := 230
            relapseTiming := 2048, relapsePower := 48, impaired := 200, snrMin := 80
            settleTarget := 2, acquireLimit := 16, acquirePeriod := 200, trackingPeriod := 15000
            grace := 500, missLimit := 8, quiet := 0 })

/-- PIN_RESET leaves every block at its pin-reset value and ends each open transaction not yet completed in an error
response (R172, R178); PIN_RESET_DEASSERTION latches the strap base and starts the counter from 0 (R172, R106, R158).
What waits at the system port, the responses already returned, the number of the next take and the queue of steps are
the model's own and are kept (log 15); a deassertion with RESET_N not asserted changes nothing (log 5). -/
def Obligations.ResetEndsAndStarts : Prop :=
  ∀ s : State,
    exec .pinReset s = .next { State.reset with
      takes := s.takes
      atPort := s.atPort
      returned := s.returned ++ (s.txns.filter fun t => !t.responded).map fun t => ⟨t.init, t.id, .error⟩
      pending := s.pending }
    ∧ ∀ strap : BitVec 16,
      (s.inReset = true → s.atPort = [] →
        ∃ m, exec (.pinResetDeassertion strap) s
            = .next { s with inReset := false, strapBase := strap, now := 0, mem := m }
          ∧ s.mem.gains m [])
      ∧ (s.inReset = false → exec (.pinResetDeassertion strap) s = .next s)

/-- While RESET_N is asserted the part takes no transaction and issues none, and no step changes a block (R172): a
read or write an initiator brings waits at the system port, and every other step changes nothing at all. That such a
transaction waits and is not lost is the model's choice (log 15), and that the rows of the control region change
nothing there, the region having no place yet, is another (log 16). -/
def Obligations.NothingWhileInReset : Prop :=
  ∀ (c : Instr) (s : State), s.inReset = true → s.mem.outstanding = [] → c.wellFormed = true →
    c ≠ .pinReset → (∀ strap, c ≠ .pinResetDeassertion strap) →
    (∃ init addr len, c = .passingRead init addr len
      ∧ exec c s = .next { s with atPort := s.atPort ++ [.read init addr len] })
    ∨ (∃ init addr bytes, c = .passingWrite init addr bytes
      ∧ exec c s = .next { s with atPort := s.atPort ++ [.write init addr bytes] })
    ∨ (∀ init addr len, c ≠ .passingRead init addr len) ∧ (∀ init addr bytes, c ≠ .passingWrite init addr bytes)
      ∧ exec c s = .next s

/-- No step of the part stops it: every well-formed step has a next state from every state, but for data returned to
an outstanding read whose every access asked for another number of bytes, which is no answer to it and is refused, as
it must be (log 11). -/
def Obligations.StepsComplete : Prop :=
  (∀ (c : Instr) (s : State),
    (∃ t, exec c s = .next t)
    ∨ exec c s = .refused .illFormed
      ∧ (c.wellFormed = false
        ∨ ∃ txn bs, c = .readDataReturn txn (some bs)
          ∧ (∃ a ∈ s.mem.outstanding, ∃ len, a.purpose = .passing txn ∧ a.body = .read len ∧ len ≠ bs.length)
          ∧ ∀ a ∈ s.mem.outstanding, ∀ len, a.purpose = .passing txn → a.body = .read len → len ≠ bs.length))
  ∧ ∀ (s : State) (txn : Nat) (bs : List Byte),
    (∃ a ∈ s.mem.outstanding, ∃ len, a.purpose = .passing txn ∧ a.body = .read len) →
    (∀ a ∈ s.mem.outstanding, ∀ len, a.purpose = .passing txn → a.body = .read len → len ≠ bs.length) →
    exec (.readDataReturn txn (some bs)) s = .refused .illFormed

/-! ## Passing traffic -/

/-- A read an initiator issues is taken when fewer than 32 transactions are open: it is classified, holds the cache
entries of the contexts it covers (R98), joins the open list and goes out unchanged (R159, R160). With 32 open it
waits at the port. The classification (R159, R161): a byte of the control region is of an index word, of a slot, or
plain; one of an enabled window is of its 64-byte block or of its 256-byte context; any other is plain; and the parts
of a transaction are its longest runs of bytes of one owner, in ascending order. A context part is plain above the
pool and where the index is VACANT, and waits while an ADMIT or RELEASE write of it is outstanding (R97). -/
def Obligations.PassingReadTaken : Prop :=
  (∀ (s : State) (init : Initiator) (addr len : Nat), s.Steady → isPortRun addr len = true →
    (s.txns.length < 32 →
      ∃ m, exec (.passingRead init addr len) s = .next { s with
            entries := (((s.partsOf addr len).map s.judgePart).foldl (fun acc q => placeHold q.owner acc) s).entries
            takes := s.takes + 1
            txns := s.txns ++ [⟨s.takes, init, addr, s.run,
              .read len ((s.partsOf addr len).map s.judgePart) none, true, none, false⟩]
            mem := m }
        ∧ s.mem.gains m [⟨.passing s.takes, addr, .read len⟩])
    ∧ (32 ≤ s.txns.length →
      ∃ m, exec (.passingRead init addr len) s = .next { s with atPort := [.read init addr len], mem := m }
        ∧ s.mem.gains m []))
  ∧ (∀ (s : State) (a : Nat), s.WindowsOk →
    let off := a - s.controlBase
    (s.controlBase ≤ a → a < s.controlBase + 0x10000 →
      (off < 0x1C → s.ownerOf a = (.word (off / 4), off % 4))
      ∧ (0x1000 ≤ off → off < 0x2000 → s.ownerOf a = (.slot (off / 64 - 64), off % 64))
      ∧ (0x1C ≤ off → off < 0x1000 ∨ 0x2000 ≤ off → s.ownerOf a = (.plain, 0)))
    ∧ (∀ i w, s.window i = some w → w.base ≤ a → a < w.base + w.size →
      (w.kind = .capture → s.ownerOf a = (.capture i (a / 64 * 64), a % 64))
      ∧ (w.kind = .context → s.ownerOf a = (.context ((a - w.base) / 256), (a - w.base) % 256)))
    ∧ (a < s.controlBase ∨ s.controlBase + 0x10000 ≤ a →
      (∀ i w, s.window i = some w → a < w.base ∨ w.base + w.size ≤ a) → s.ownerOf a = (.plain, 0)))
  ∧ (∀ (s : State) (addr len : Nat),
    let parts := s.partsOf addr len
    (parts.flatMap fun p => List.replicate p.len p.owner) = (List.range len).map (fun i => (s.ownerOf (addr + i)).1)
    ∧ (∀ pre p post, parts = pre ++ p :: post →
      0 < p.len ∧ p.start = (pre.map fun q => q.len).sum ∧ p.off = (s.ownerOf (addr + p.start)).2)
    ∧ ∀ pre p q post, parts = pre ++ p :: q :: post → p.owner ≠ q.owner)
  ∧ ∀ (s : State) (idx : Nat),
    (s.capacity ≤ idx → s.judgeContext idx = .plain)
    ∧ (idx < s.capacity → s.heldIndex = some idx → s.judgeContext idx = .unjudged idx)
    ∧ (idx < s.capacity → s.heldIndex ≠ some idx →
      (s.keyAt idx = none → s.judgeContext idx = .plain)
      ∧ ∀ key, s.keyAt idx = some key →
        s.judgeContext idx = .context idx key (match s.servingEntry idx with | none => false | some _ => true))

/-- A write no byte of which any block acts on goes out as it came and changes nothing else (R160, R161): plain bytes,
and the four index words that the part writes. -/
def Obligations.PlainWritesPass : Prop :=
  ∀ (s : State) (init : Initiator) (bytes : List WByte), s.Steady → s.txns.length < 32 →
    (∀ addr, isPortRun addr bytes.length = true → (∀ i, i < bytes.length → s.passesThrough (addr + i)) →
      ∃ m, exec (.passingWrite init addr bytes) s = .next { s with
            takes := s.takes + 1, txns := s.txns ++ [s.openedWrite init addr bytes], mem := m }
        ∧ s.mem.gains m [s.passingAccess addr bytes])
    ∧ (∀ word, isWordWrite bytes = true →
      ∃ m, exec (.partIndexWordWrite init word bytes) s = .next { s with
            takes := s.takes + 1
            txns := s.txns ++ [s.openedWrite init (s.controlBase + partWordOffset word) bytes]
            mem := m }
        ∧ s.mem.gains m [s.passingAccess (s.controlBase + partWordOffset word) bytes])

/-- A write of an admitted context that carries guarded bytes alone is dropped whole (R99, R160): nothing goes out,
GUARDED_WRITE counts the bytes, and the part completes the write with a normal response. That the datum counts the
bytes whose enables are set, and no others, is the model's reading (log 29). -/
def Obligations.GuardedBytesDropped : Prop :=
  ∀ (s : State) (init : Initiator) (addr idx off : Nat) (key : Key) (bytes : List WByte),
    s.Steady → s.txns.length < 32 → isPortRun addr bytes.length = true → bytes.any Option.isSome = true →
    (∀ i, i < bytes.length → s.ownerOf (addr + i) = (.context idx, off + i)) →
    idx < s.capacity → s.heldIndex ≠ some idx → s.keyAt idx = some key →
    (∀ b ∈ carriedAt off bytes, isOperatorOffset b.1 = false) →
    (∀ t ∈ s.txns, t.init ≠ init) → s.awaits s.takes = false →
    ∃ m, exec (.passingWrite init addr bytes) s = .next
        { notify ⟨.guardedWrite, 0, key, s.now, (carriedBytes bytes).length⟩ s with
          takes := s.takes + 1
          returned := s.returned ++ [⟨init, s.takes, .normal []⟩]
          mem := m }
      ∧ (notify ⟨.guardedWrite, 0, key, s.now, (carriedBytes bytes).length⟩ s).mem.gains m []

/-- A write of operator bytes of an admitted context goes out as it came and is taken (R99, R100): at once on an entry
that serves the context; into the merge list of one that is FETCHING; and for a context that is not cached, into the
merge list of the entry its fetch is issued for (R101). Guarded bytes it mixes with the operator bytes go out disabled
and are counted by GUARDED_WRITE after it is taken (R99; log 29). Taken, it replaces the operator bytes it carries,
keeping of the control byte the hold and freeze flags; one that covers issued taps moves the basis and discards the
pending correction (R18); one that changes the hold flag makes the state follow it (R16), and the entry's period class
with the state (R119); nothing else of the context changes. The entry is dirty and, where VALID, most recently used
(R86); a job in flight is marked OPERATOR (R71); PENDING_DISCARDED comes before STATE_CHANGE. A RETIRING entry has
changed, and after the end of its write-back its reuse is cancelled and it keeps its place (R92, R86). -/
def Obligations.OperatorWriteTaken : Prop :=
  (∀ (s : State) (init : Initiator) (addr idx off : Nat) (key : Key) (bytes : List WByte),
    s.Steady → s.txns.length < 32 → isPortRun addr bytes.length = true → bytes.any Option.isSome = true →
    (∀ i, i < bytes.length → s.ownerOf (addr + i) = (.context idx, off + i)) →
    idx < s.capacity → s.heldIndex ≠ some idx → s.keyAt idx = some key →
    let all := (carriedAt off bytes).filter fun b => isOperatorOffset b.1
    let guarded := (carriedAt off bytes).filter fun b => !isOperatorOffset b.1
    let takes := { s with takes := s.takes + 1, txns := s.txns ++ [s.openedWrite init addr bytes] }
    (guarded = [] →
      (∀ e, s.findEntry idx = some e → (s.entry e).serves = true →
        ((s.entry e).cond = .retiring → (s.entry e).retire.ended = false) →
        ∃ m, exec (.passingWrite init addr bytes) s = .next { takeOperatorWrite e all s with
              takes := s.takes + 1, txns := s.txns ++ [s.openedWrite init addr bytes], mem := m }
          ∧ (takeOperatorWrite e all s).mem.gains m [s.passingAccess addr bytes])
      ∧ (∀ e, s.findEntry idx = some e → (s.entry e).cond = .fetching →
        let x := s.entry e
        NextIs (exec (.passingWrite init addr bytes) s)
          { takes with entries := s.entriesWith e { x with merge := x.merge ++ [⟨s.takes, all⟩] } }
          [s.passingAccess addr bytes])
      ∧ (∀ e, s.findEntry idx = none → s.noneWaits idx → s.freeEntry = some e →
        NextIs (exec (.passingWrite init addr bytes) s)
          { takes with
            entries := s.entriesWith e { cond := .fetching, index := idx, key := key, merge := [⟨s.takes, all⟩] } }
          [s.passingAccess addr bytes, ⟨.fetch idx, s.contextAddr idx, .read 256⟩]))
    ∧ (guarded ≠ [] → all ≠ [] →
      ∀ e, s.findEntry idx = some e → (s.entry e).serves = true →
        ((s.entry e).cond = .retiring → (s.entry e).retire.ended = false) →
        let out := bytes.zipIdx.map fun b => if isOperatorOffset (off + b.2) then b.1 else none
        let t := notify ⟨.guardedWrite, 0, key, s.now, guarded.length⟩ (takeOperatorWrite e all s)
        ∃ m, exec (.passingWrite init addr bytes) s = .next { t with
              takes := s.takes + 1
              txns := s.txns
                ++ [⟨s.takes, init, addr, s.run, .write [] out guarded.length (some key), true, none, false⟩]
              mem := m }
          ∧ t.mem.gains m [s.passingAccess addr out]))
  ∧ (∀ (s : State) (e : Nat) (bs : List (Nat × Byte)), e < 32 →
    let x := s.entry e
    let c := x.image
    let c' := c.operatorWrite bs
    let discarded := match c.pending with
      | none => []
      | some p => if coversTaps bs then
          [(⟨.pendingDiscarded, 1, c.key, s.now, p.id % 65536 + 65536 * 255⟩ : Notice)] else []
    let changed := if c.state = c'.state then [] else
      [(⟨.stateChange, c.state.code + 16 * c'.state.code, c.key, s.now, 0⟩ : Notice)]
    let taken := { s with
      calendar := if c.state = c'.state then s.calendar
        else s.calendarClassed x.index (if c'.state = CtxState.held then .tracking else .acquire)
      engine := s.engineMarked x.index x.key .operator }
    let said := fun (t : State) => (discarded ++ changed).foldl (fun y n => notify n y) t
    (x.cond = .valid →
      takeOperatorWrite e bs s = said { taken with
        entries := s.entriesWith e { x with image := c', dirty := true }, recency := s.recencyWith e })
    ∧ (x.cond = .retiring →
      let y := { x with image := c', dirty := true }
      (x.retire.ended = false →
        takeOperatorWrite e bs s = said { taken with
          entries := s.entriesWith e { y with retire := { x.retire with changed := true } } })
      ∧ (x.retire.ended = true → (∀ r ∈ s.reqs, r.wait ≠ .writeBack e) →
        takeOperatorWrite e bs s = said { taken with
          entries := s.entriesWith e { y with cond := .valid, retire := {} } })))
  ∧ ∀ (c : Context) (bs : List (Nat × Byte)),
    let control := bs.find? fun b => b.1 == 23
    let hold := match control with | none => c.hold | some b => b.2.toNat.testBit 0
    let freeze := match control with | none => c.freeze | some b => b.2.toNat.testBit 1
    let holds := !c.hold && hold && decide (c.state ∈ [CtxState.initial, .acquiring, .tracking])
    let frees := c.hold && !hold && decide (c.state = .held)
    c.operatorWrite bs = { c with
      hold := hold
      freeze := freeze
      state := if holds then .held else if frees then .acquiring else c.state
      step := if frees then 0 else c.step
      settle := if frees then 0 else c.settle
      taps := if coversTaps bs then
          getTaps (putBytes (tapBytes c.taps) ((bs.filter fun b => isTapOffset b.1).map fun b => (b.1 - 32, b.2))) 0
        else c.taps
      basis := if coversTaps bs then (c.basis + 1) % 65536 else c.basis
      pending := if coversTaps bs then none else c.pending }

/-- In RUNNING a write part of one block of a capture window is marked into the window's assembly, and its stamp
bytes, 12 to 15 of the block, go out as the latched stamp (R49 to R51). The part opens an assembly on its block where
none is open, latching the counter; goes on with the one open on its block; tears one open on another block first,
which the torn counter of the channel it names counts (R53); and takes the record when it leaves all 64 bytes marked
(R52). -/
def Obligations.CaptureWriteGathered : Prop :=
  let stamped := fun (stamp : Tick) (off : Nat) (b : Byte) =>
    if 12 ≤ off ∧ off < 16 then BitVec.ofNat 8 (stamp.toNat / 2 ^ (8 * (off - 12))) else b
  (∀ (s : State) (init : Initiator) (addr w block off : Nat) (bytes : List WByte),
    s.Steady → s.txns.length < 32 → isPortRun addr bytes.length = true → bytes.any Option.isSome = true →
    (∀ i, i < bytes.length → s.ownerOf (addr + i) = (.capture w block, off + i)) → s.run = .running →
    let r := capturePart w block (carriedAt off bytes) s
    let out := bytes.zipIdx.map fun b => b.1.map (stamped r.2 (off + b.2))
    ∃ m, exec (.passingWrite init addr bytes) s = .next { r.1 with
          takes := s.takes + 1, txns := s.txns ++ [s.openedWrite init addr out], mem := m }
      ∧ r.1.mem.gains m [s.passingAccess addr out])
  ∧ ∀ (s : State) (w block : Nat) (ps : List (Nat × Byte)),
    let go := fun (x : State) (a : Assembly) =>
      let b := ps.foldl (fun acc p => acc.set p.1 (some (stamped a.stamp p.1 p.2))) a.bytes
      (if b.all Option.isSome then takeRecord (b.map fun v => v.getD 0) a.stamp (x.setAssembly w none)
        else x.setAssembly w (some { a with bytes := b }), a.stamp)
    let fresh : Assembly := ⟨block, List.replicate 64 none, s.now⟩
    (s.assembly w = none → capturePart w block ps s = go s fresh)
    ∧ (∀ a, s.assembly w = some a →
      (a.block = block → capturePart w block ps s = go s a)
      ∧ (a.block ≠ block → capturePart w block ps s = go (s.torn w 1) fresh))

/-- The checks of taking a record, in order (R55 to R58, R60, R61): a channel above 15, a CLOSED channel, a station
out of range, a key not admitted, a LAPSED context, a collision, and the three ways the queue settles an offer. That a
CLOSED channel is answered before a station out of range is read from R147 (log 14). Past the first check the record
is a sign of life: the taken counter counts, the quiet timer starts again, and a QUIET channel is OPEN with
CHANNEL_ALIVE (R56). A heard record makes the link's calendar entry an OFFER one period from its stamp, or due now
where that has run, without misses or a lapse (R59, R117). -/
def Obligations.RecordChecks : Prop :=
  ∀ (s : State) (r : List Byte) (stamp : Tick),
    let key := recKey r
    let count := fun (x : State) (f : ChanCounters → ChanCounters) =>
      { x with
        channels := x.channels.setIfInBounds key.channel
          { x.channel key.channel with counters := f (x.channel key.channel).counters } }
    let ranged := 1 ≤ key.station ∧ key.station ≤ 16383
    let state := (s.channel key.channel).state
    let sign := { s with
      channels := s.channels.setIfInBounds key.channel { s.channel key.channel with
        state := .opened
        counters := { (s.channel key.channel).counters with
          taken := min 4294967295 ((s.channel key.channel).counters.taken + 1) } }
      quietTimers := s.quietTimers.setIfInBounds key.channel
        (some ⟨quietInterval (s.policy key.channel).quiet, s.now⟩) }
    let alive := if state = .quiet then notify ⟨.channelAlive, 0, key, stamp, 0⟩ sign else sign
    (15 < key.channel → takeRecord r stamp s = notify ⟨.captureUnknown, 1, key, stamp, 0⟩ s)
    ∧ (key.channel ≤ 15 →
      (state = .closed → takeRecord r stamp s = notify ⟨.captureUnknown, 2, key, stamp, 0⟩ s)
      ∧ (state ≠ .closed → ¬ ranged → takeRecord r stamp s = notify ⟨.captureUnknown, 1, key, stamp, 0⟩ s)
      ∧ (state ≠ .closed → ranged →
        (s.lookup key = none →
          takeRecord r stamp s = notify ⟨.captureUnknown, 3, key, stamp, 0⟩
            (count alive fun k => { k with unknown := min 4294967295 (k.unknown + 1) }))
        ∧ (∀ idx, s.lookup key = some idx → s.calEntry idx = none →
          takeRecord r stamp s = count alive fun k => { k with lapsedCapture := min 4294967295 (k.lapsedCapture + 1) })
        ∧ (∀ idx x, s.lookup key = some idx → s.calEntry idx = some x →
          let p := s.policyOf x.key
          let period := 16384 * (match x.cls with | .acquire => p.acquirePeriod | .tracking => p.trackingPeriod)
          let heard := { alive with
            calendar := s.calendarWith { x with
              kind := .offer
              miss := 0
              lapsing := false
              base := stamp
              due := if period ≤ (s.now - stamp).toNat then s.now else stamp + BitVec.ofNat 32 period }
            lapses := s.lapses.filter fun l => l.index != idx }
          (recCollided r = true →
            takeRecord r stamp s = count heard fun k => { k with collided := min 4294967295 (k.collided + 1) })
          ∧ (recCollided r = false →
            (s.waitingJob idx = true →
              takeRecord r stamp s = { heard with
                queue := s.queue.map fun j =>
                  if j.isCapture && j.index == idx then j.supersede r stamp else j })
            ∧ (s.waitingJob idx = false → s.queue.length < 64 →
              takeRecord r stamp s = { heard with queue := s.queue ++ [⟨.capture 0, idx, key, r, stamp⟩] })
            ∧ (s.waitingJob idx = false → 64 ≤ s.queue.length →
              takeRecord r stamp s = notify ⟨.captureDropped, 0, key, stamp, idx⟩
                (count heard fun k => { k with dropped := min 4294967295 (k.dropped + 1) }))))))

/-- A plain read is returned with the bytes DRAM returned, or with DRAM's error; DRAM's response completes a passing
write, error included; a completed transaction with none of its initiator's open before it is returned and leaves the
open list (R160, R168). -/
def Obligations.ResponsesReturned : Prop :=
  ∀ (s : State) (pre post : List Txn) (t : Txn) (a : Access) (rest : List Access),
    s.Steady → s.Opens pre t post → s.oldest (isPassing t.id) a rest →
    (∀ len parts, t.body = .read len parts none → parts ≠ [] →
      (∀ p ∈ parts, p.owner = .plain ∧ p.done = false) →
      (∀ data, a.body = .read data.length →
        ∃ m, exec (.readDataReturn t.id (some data)) s
            = .next { s with txns := pre ++ post, returned := s.returns t (.normal data), mem := m }
          ∧ (s.portWithout rest).gains m [])
      ∧ (a.body = .read len →
        ∃ m, exec (.readDataReturn t.id none) s
            = .next { s with txns := pre ++ post, returned := s.returns t .error, mem := m }
          ∧ (s.portWithout rest).gains m []))
    ∧ (∀ todo bytes dropped key bs error, t.body = .write todo bytes dropped key → a.body = .write bs →
      ∃ m, exec (.writeResponseReturn t.id error) s = .next { s with
            txns := pre ++ post
            returned := s.returns t (if error then .error else .normal [])
            mem := m }
        ∧ (s.portWithout rest).gains m [])

/-- A read of one admitted context is completed by the condition of its entry when its data returns (R98): with a
VALID entry every byte is the part's, the hold is released and the entry becomes most recently used; a RETIRING entry
patches it too and keeps its place; a FETCHING one has it wait; with no entry the calendar-owned bytes are the
calendar's and the control byte's unused bits are zero (the model's reading of R97 and R98 together: log 30); with the
context gone the bytes stay as DRAM returned them. An error releases the hold and is the initiator's. -/
def Obligations.ContextReadPatched : Prop :=
  ∀ (s : State) (pre post : List Txn) (t : Txn) (a : Access) (rest : List Access) (data : List Byte)
    (idx off : Nat) (key : Key) (held : Bool),
    s.Steady → s.Opens pre t post → s.oldest (isPassing t.id) a rest → a.body = .read data.length →
    t.body = .read data.length [⟨.context idx key held, 0, data.length, off, false⟩] none →
    let patched := fun (e : Nat) => patchedFrom off (fun o b => (s.contextBytes e).getD o b) data
    let freed := fun (e : Nat) => s.entriesWith e { s.entry e with holds := (s.entry e).holds - 1 }
    (∀ e, s.ServedBy idx key e → (s.entry e).key = key → held = true →
      (∃ m, exec (.readDataReturn t.id (some data)) s = .next { s with
            entries := freed e
            recency := s.recencyWith e
            txns := pre ++ post
            returned := s.returns t (.normal (patched e))
            mem := m }
        ∧ (s.portWithout rest).gains m [])
      ∧ ∃ m, exec (.readDataReturn t.id none) s = .next { s with
            entries := freed e, txns := pre ++ post, returned := s.returns t .error, mem := m }
        ∧ (s.portWithout rest).gains m [])
    ∧ (∀ e, s.present idx key = true → s.findEntry idx = some e → (s.entry e).cond = .retiring →
      (s.entry e).retire.ended = false → (s.entry e).key = key → held = true →
      ∃ m, exec (.readDataReturn t.id (some data)) s = .next { s with
            entries := freed e
            txns := pre ++ post
            returned := s.returns t (.normal (patched e))
            mem := m }
        ∧ (s.portWithout rest).gains m [])
    ∧ (∀ e, s.present idx key = true → s.findEntry idx = some e → (s.entry e).cond = .fetching → held = false →
      ∃ m, exec (.readDataReturn t.id (some data)) s = .next { s with
            txns := pre
              ++ { t with
                body := .read data.length [⟨.context idx key held, 0, data.length, off, false⟩] (some data) } :: post
            mem := m }
        ∧ (s.portWithout rest).gains m [])
    ∧ (s.present idx key = true → s.findEntry idx = none → held = false →
      ∃ m, exec (.readDataReturn t.id (some data)) s = .next { s with
            txns := pre ++ post
            returned := s.returns t (.normal (patchedFrom off
              (fun o b =>
                if isCalendarOffset o ∧ (s.calEntry idx).isSome then (s.supply idx {}).toBytes.getD o b
                else if o = 23 then b &&& 3 else b) data))
            mem := m }
        ∧ (s.portWithout rest).gains m [])
    ∧ (s.present idx key = false → s.servingEntry idx = none →
      ∃ m, exec (.readDataReturn t.id (some data)) s = .next { s with
            txns := pre ++ post, returned := s.returns t (.normal data), mem := m }
        ∧ (s.portWithout rest).gains m [])

/-- A read of one response slot, when its data returns (R131, R132, R134 to R136). Header bytes alone, and any read of
an IDLE slot, pass unchanged. A body read of a BOUND or DELIVERED slot is patched from the copy, and one that covers
byte 60 or beyond delivers a BOUND slot: a NOCHANGE copy begins no promotion, a correction goes on the promotion list,
behind one in progress, or begins its promotion by asking for its context. An ARMED slot binds NOCHANGE at once in
STOPPED, with a key no admitted link can have, and with a key that is not admitted; otherwise it binds from the
context of its key, which it asks for, and the read waits. -/
def Obligations.SlotReads : Prop :=
  ∀ (s : State) (pre post : List Txn) (t : Txn) (a : Access) (rest : List Access) (data : List Byte) (n off : Nat),
    s.Steady → s.Opens pre t post → s.oldest (isPassing t.id) a rest → a.body = .read data.length → n < 64 →
    t.body = .read data.length [⟨.slot n, 0, data.length, off, false⟩] none →
    let body := fun (c : BoundCopy) => patchedFrom off (fun o b => if 8 ≤ o then c.toBytes.getD o 0 else b) data
    (off + data.length ≤ 8 ∨ (s.slot n).state = .idle →
      ∃ m, exec (.readDataReturn t.id (some data)) s
          = .next { s with txns := pre ++ post, returned := s.returns t (.normal data), mem := m }
        ∧ (s.portWithout rest).gains m [])
    ∧ (∀ c, (s.slot n).copy = some c → 8 < off + data.length →
      ((s.slot n).state = .delivered ∨ (s.slot n).state = .bound ∧ off + data.length ≤ 60 →
        ∃ m, exec (.readDataReturn t.id (some data)) s
            = .next { s with txns := pre ++ post, returned := s.returns t (.normal (body c)), mem := m }
          ∧ (s.portWithout rest).gains m [])
      ∧ ((s.slot n).state = .bound → 60 < off + data.length →
        (c = .noChange →
          ∃ m, exec (.readDataReturn t.id (some data)) s = .next { s with
                slots := s.slotsWith n { s.slot n with state := .delivered }
                txns := pre ++ post
                returned := s.returns t (.normal (body c))
                mem := m }
            ∧ (s.portWithout rest).gains m [])
        ∧ (∀ i k q, c = .correction i k q → (s.reqOf .promotion).isSome = true →
          ∃ m, exec (.readDataReturn t.id (some data)) s = .next { s with
                slots := s.slotsWith n { s.slot n with state := .delivered }
                promotions := s.promotions ++ [⟨n, i, k, q⟩]
                txns := pre ++ post
                returned := s.returns t (.normal (body c))
                mem := m }
            ∧ (s.portWithout rest).gains m [])
        ∧ (∀ i k q, c = .correction i k q → s.reqOf .promotion = none → s.promotions = [] →
          (∃ e, s.ServedBy i k e) ∨ s.present i k = false →
          ∃ m, exec (.readDataReturn t.id (some data)) s = .next { s with
                slots := s.slotsWith n { s.slot n with state := .delivered }
                promotions := [⟨n, i, k, q⟩]
                reqs := s.reqs ++ [⟨.promotion, i, k, .ready⟩]
                txns := pre ++ post
                returned := s.returns t (.normal (body c))
                mem := m }
            ∧ (s.portWithout rest).gains m [])))
    ∧ (∀ idx, s.bindingSource n = some idx ↔ s.run ≠ .stopped ∧ (s.slot n).latched.channel ≤ 15
      ∧ 1 ≤ (s.slot n).latched.station ∧ (s.slot n).latched.station ≤ 16383
      ∧ s.lookup (s.slot n).latched = some idx)
    ∧ ((s.slot n).state = .armed → (s.slot n).binding = false → 8 < off + data.length →
      (s.bindingSource n = none →
        ∃ m, exec (.readDataReturn t.id (some data)) s = .next { s with
              slots := s.slotsWith n { s.slot n with
                state := if 60 < off + data.length then .delivered else .bound
                copy := some .noChange }
              txns := pre ++ post
              returned := s.returns t (.normal (patchedFrom off (fun o b => if 8 ≤ o then 0 else b) data))
              mem := m }
          ∧ (s.portWithout rest).gains m [])
      ∧ (∀ idx e, s.bindingSource n = some idx → s.ServedBy idx (s.slot n).latched e →
        ∃ m, exec (.readDataReturn t.id (some data)) s = .next { s with
              slots := s.slotsWith n { s.slot n with
                binding := true, waiting := (s.slot n).waiting ++ [(t.id, 0)] }
              reqs := s.reqs ++ [⟨.slot n, idx, (s.slot n).latched, .ready⟩]
              txns := pre
                ++ { t with body := .read data.length [⟨.slot n, 0, data.length, off, false⟩] (some data) } :: post
              mem := m }
          ∧ (s.portWithout rest).gains m []))

/-! ## Index words and slot headers -/

/-- A write of the command producer word goes out and hands CMU the value it composes over the shadow (R173, R174): in
IDLE with a producer that differs from the consumer CMU fetches the descriptor at its consumer position; otherwise
only the producer changes. While a write its initiator made before it waits at the memory port, the write is taken but
not handed yet (R161). -/
def Obligations.ProducerWriteWakes : Prop :=
  ∀ (s : State) (init : Initiator) (bytes : List WByte), s.Steady → s.txns.length < 32 → isWordWrite bytes = true →
    let v := composeWord s.cmu.shadow (carriedBytes bytes)
    let cmu := { s.cmu with shadow := v, producer := v.toNat % 256, producerTake := s.takes }
    let txns := s.txns ++ [s.openedWrite init s.controlBase bytes]
    (s.issuedAll init → s.cmu.phase = .idle → v.toNat % 256 ≠ s.cmu.consumer →
      ∃ m, exec (.commandProducerWrite init bytes) s = .next { s with
            cmu := { cmu with phase := .fetching }, takes := s.takes + 1, txns := txns, mem := m }
        ∧ s.mem.gains m [s.passingAccess s.controlBase bytes,
            ⟨.descriptor, s.controlBase + 0x2000 + 32 * s.cmu.consumer, .read 32⟩])
    ∧ (s.issuedAll init → s.cmu.phase ≠ .idle ∨ v.toNat % 256 = s.cmu.consumer →
      ∃ m, exec (.commandProducerWrite init bytes) s = .next { s with
            cmu := cmu, takes := s.takes + 1, txns := txns, mem := m }
        ∧ s.mem.gains m [s.passingAccess s.controlBase bytes])
    ∧ (¬ s.issuedAll init →
      ∃ m, exec (.commandProducerWrite init bytes) s = .next { s with
            takes := s.takes + 1
            txns := s.txns
              ++ [⟨s.takes, init, s.controlBase, s.run, .write [⟨.word 0, 0, 4, 0⟩] bytes 0 none, false, none, false⟩]
            mem := m }
        ∧ s.mem.gains m [])

/-- A write of the notice consumer word goes out and hands NW its consumer (R173, R183, R188): the coalescing timer
starts, starts again or stops by the unread counts; where places are freed and the overflow count is above 0 an
OVERFLOW notice takes the next place and the count becomes 0; the line is judged. While a write its initiator made
before it waits at the memory port, the write is taken but not handed yet (R161). -/
def Obligations.NoticeConsumerTaken : Prop :=
  ∀ (s : State) (init : Initiator) (bytes : List WByte), s.Steady → s.txns.length < 32 → isWordWrite bytes = true →
    let v := composeWord s.nw.noticeShadow (carriedBytes bytes)
    let before := ringDiff s.nw.notices.published s.nw.notices.consumer
    let after := ringDiff s.nw.notices.published (v.toNat % 1024)
    let nw := { s.nw with
      noticeShadow := v
      notices := { s.nw.notices with consumer := v.toNat % 1024 }
      timer := if after = 0 then none else if after < before then some 0
        else if before = 0 then some 0 else s.nw.timer }
    let txns := s.txns ++ [s.openedWrite init (s.controlBase + 0x0C) bytes]
    (s.issuedAll init → ¬ (after < before ∧ 0 < s.nw.overflow) →
      ∃ m, exec (.noticeConsumerWrite init bytes) s = .next { s with
            nw := nw.judge, takes := s.takes + 1, txns := txns, mem := m }
        ∧ s.mem.gains m [s.passingAccess (s.controlBase + 0x0C) bytes])
    ∧ (s.issuedAll init → after < before → 0 < s.nw.overflow →
      ∃ m, exec (.noticeConsumerWrite init bytes) s = .next { s with
            nw := { nw with
              overflow := 0
              notices := { nw.notices with claimed := (s.nw.notices.claimed + 1) % 1024 } }.judge
            takes := s.takes + 1
            txns := txns
            mem := m }
        ∧ s.mem.gains m [s.passingAccess (s.controlBase + 0x0C) bytes,
            ownWrite .notice (s.controlBase + 0x4000 + 16 * s.nw.notices.claimed)
              (Notice.toBytes ⟨.overflow, 0, ⟨0, 0⟩, s.now, s.nw.overflow⟩)])
    ∧ (¬ s.issuedAll init →
      ∃ m, exec (.noticeConsumerWrite init bytes) s = .next { s with
            takes := s.takes + 1
            txns := s.txns
              ++ [⟨s.takes, init, s.controlBase + 0x0C, s.run, .write [⟨.word 3, 0, 4, 0⟩] bytes 0 none, false, none, false⟩]
            mem := m }
        ∧ s.mem.gains m [])

/-- A due consumer write makes the handed value, taken modulo 1024, the due consumer, and has no other effect (R187).
While a write its initiator made before it waits at the memory port, the write is taken but not handed yet (R161). -/
def Obligations.DueConsumerTaken : Prop :=
  ∀ (s : State) (init : Initiator) (bytes : List WByte), s.Steady → s.txns.length < 32 → isWordWrite bytes = true →
    let v := composeWord s.nw.dueShadow (carriedBytes bytes)
    (s.issuedAll init →
      ∃ m, exec (.dueConsumerWrite init bytes) s = .next { s with
            nw := { s.nw with dueShadow := v, due := { s.nw.due with consumer := v.toNat % 1024 } }
            takes := s.takes + 1
            txns := s.txns ++ [s.openedWrite init (s.controlBase + 0x14) bytes]
            mem := m }
        ∧ s.mem.gains m [s.passingAccess (s.controlBase + 0x14) bytes])
    ∧ (¬ s.issuedAll init →
      ∃ m, exec (.dueConsumerWrite init bytes) s = .next { s with
            takes := s.takes + 1
            txns := s.txns
              ++ [⟨s.takes, init, s.controlBase + 0x14, s.run, .write [⟨.word 5, 0, 4, 0⟩] bytes 0 none, false, none, false⟩]
            mem := m }
        ∧ s.mem.gains m [])

/-- A write of the key bytes of a slot goes out and, in RUNNING and STOPPED, arms the slot with the key of its key
image, dropping the copy (R128); while a binding or a promotion of the slot holds it back it is kept (R129); in IDLE
it changes nothing (R128). -/
def Obligations.SlotHeaderArms : Prop :=
  ∀ (s : State) (init : Initiator) (n : Fin 64) (bytes : List WByte),
    s.Steady → s.txns.length < 32 → isWordWrite bytes = true →
    let x := s.slot n.val
    let addr := s.controlBase + 0x1000 + 64 * n.val
    let image := putBytes x.keyImage (carriedBytes bytes)
    ∃ m, exec (.slotHeaderWrite init n bytes) s = .next { s with
          slots :=
            if s.run = .idle then s.slots
            else if s.holdsBack n.val then
              s.slotsWith n.val { x with heldWrites := x.heldWrites ++ [carriedBytes bytes] }
            else s.slotsWith n.val { x with state := .armed, keyImage := image, latched := getKey image 0, copy := none }
          takes := s.takes + 1
          txns := s.txns ++ [s.openedWrite init addr bytes]
          mem := m }
      ∧ s.mem.gains m [s.passingAccess addr bytes]

/-! ## The context cache -/

/-- The fetch of a context ends (R91, R94). Data without error becomes the image of the entry, which is VALID and most
recently used; a hold flag that disagrees with the state is taken as a write of that flag, making the entry dirty (log
21); the merged operator writes are taken in their order; the reads outstanding place their holds; then the requester
that waits is given the entry, and a read that waits is patched and returned. An entry released meanwhile is
invalidated. An error invalidates the entry and raises MEMORY_FAULT, and each requester abandons its operation: a
CAPTURE job ends without a context (R72) and a TRIAL is answered MEMORY (R81), a read that waited is returned with an
error, a binding is made NOCHANGE and a promotion is DELIVERY_STALE FAULT (R141), REVIVE and READ_CONTEXTS are
answered MEMORY (R23, R105), and a link whose lapse waited goes to the tail of the lapse list, whose head is asked for
(R115). -/
def Obligations.FetchEnds : Prop :=
  ∀ (s : State) (idx e : Nat) (data : List Byte) (a : Access) (rest : List Access),
    s.Steady → s.oldest (isFetch idx) a rest → s.findEntry idx = some e → (s.entry e).cond = .fetching →
    data.length = 256 →
    let x := s.entry e
    let y := s.ended rest
    let image := Context.ofBytes data
    let fault : Notice := ⟨.memoryFault, 1, x.key, s.now, idx⟩
    let agrees := image.state = .lapsed ∨ (image.hold = true ↔ image.state = .held)
    let loaded := { y with
      entries := y.entriesWith e { x with cond := .valid, image := image, dirty := false, merge := [] }
      recency := y.recencyWith e }
    let reconciled := fun (c : Context) (k : PeriodClass) =>
      notify ⟨.stateChange, image.state.code + 16 * c.state.code, image.key, s.now, 0⟩ { loaded with
        entries := y.entriesWith e { x with cond := .valid, image := c, dirty := true, merge := [] }
        calendar := s.calendarClassed idx k
        engine := s.engineMarked idx x.key .operator }
    let arrives := fun (z : State) =>
      let merged := x.merge.foldl (fun acc w => takeOperatorWrite e w.bytes acc) z
      let wants := (s.txns.filter (Txn.wantsHold idx x.key)).length
      NextIs (exec (.fetchDataArrival idx (some data)) s)
        { merged with
          entries := merged.entriesWith e { merged.entry e with holds := (merged.entry e).holds + wants }
          txns := s.txns.map fun t => if t.wantsHold idx x.key then t.hold idx x.key else t } []
    (s.waitingReads idx = [] → s.fetchWaiters idx = [] →
      (x.released = false →
        (agrees → arrives loaded)
        ∧ (image.hold = true → image.state ∈ [CtxState.initial, .acquiring, .tracking] →
          arrives (reconciled { image with state := .held } .tracking))
        ∧ (image.hold = false → image.state = .held →
          arrives (reconciled { image with state := .acquiring, step := 0, settle := 0 } .acquire)))
      ∧ (x.released = true →
        NextIs (exec (.fetchDataArrival idx (some data)) s) (y.withoutEntry e idx) [])
      ∧ (s.lapses = [] →
        NextIs (exec (.fetchDataArrival idx none) s) (notify fault (y.withoutEntry e idx)) []))
    ∧ (∀ j mark, s.waitingReads idx = [] → s.fetchWaiters idx = [.engine] → s.engine = .obtaining j mark →
      j.isCapture = true →
      (s.lapses = [] →
        NextIs (exec (.fetchDataArrival idx none) s)
          (notify fault { y.withoutEntry e idx with engine := .idle, reqs := s.reqsWithout .engine }) [])
      ∧ (x.released = false → agrees → x.merge = [] → (∀ t ∈ s.txns, t.wantsHold idx x.key = false) →
        s.reqOf .engine = some ⟨.engine, idx, x.key, .fetch⟩ → j.index = idx → j.key = x.key →
        s.present idx x.key = true → mark = none → image.state ≠ .lapsed →
        NextIs (exec (.fetchDataArrival idx (some data)) s)
          { loaded with
            entries := y.entriesWith e { x with cond := .valid, image := image, dirty := false, merge := [], pinned := true }
            reqs := s.reqsWithout .engine
            engine := .computing j none (snapshotOf image (s.policyOf j.key)) } []))
    ∧ (∀ pre post t off got key, s.Opens pre t post → s.fetchWaiters idx = [] →
      t.body = .read got.length [⟨.context idx key false, 0, got.length, off, false⟩] (some got) →
      s.waitingReads idx = [(t.id, 0, key, false)] → (∀ u ∈ s.txns, u.wantsHold idx x.key = false) →
      (x.released = false → agrees → x.merge = [] → s.present idx key = true →
        NextIs (exec (.fetchDataArrival idx (some data)) s)
          { loaded with
            txns := pre ++ post
            returned := s.returns t
              (.normal (patchedFrom off (fun o b => (s.supply idx image).toBytes.getD o b) got)) } [])
      ∧ (s.lapses = [] →
        NextIs (exec (.fetchDataArrival idx none) s)
          (notify fault { y.withoutEntry e idx with
            txns := (pre ++ post).map (Txn.dropHolds idx), returned := s.returns t .error }) []))
    ∧ (s.waitingReads idx = [] →
      let failed := exec (.fetchDataArrival idx none) s
      let gone := fun (who : Requester) => { y.withoutEntry e idx with reqs := s.reqsWithout who }
      (s.lapses = [] →
        (∀ j mark, s.fetchWaiters idx = [.engine] → s.engine = .obtaining j mark → j.isCapture = false →
          Answers failed (notify fault { gone .engine with engine := .idle }) .memory)
        ∧ (∀ (n : Fin 64) pre post t off got, s.fetchWaiters idx = [.slot n.val] → s.Opens pre t post →
          t.body = .read got.length [⟨.slot n.val, 0, got.length, off, false⟩] (some got) → 8 < off + got.length →
          (s.slot n.val).waiting = [(t.id, 0)] → (s.slot n.val).heldWrites = [] →
          NextIs failed
            (notify fault { gone (.slot n.val) with
              slots := s.slotsWith n.val { s.slot n.val with
                state := if 60 < off + got.length then .delivered else .bound
                copy := some .noChange
                binding := false
                waiting := [] }
              txns := (pre ++ post).map (Txn.dropHolds idx)
              returned := s.returns t (.normal (patchedFrom off (fun o b => if 8 ≤ o then 0 else b) got)) }) [])
        ∧ (∀ p, s.fetchWaiters idx = [.promotion] → s.promotions = [p] → (s.slot p.slot).heldWrites = [] →
          NextIs failed
            (notify ⟨.deliveryStale, 4, p.key, s.now, p.corr.id % 65536 + 65536 * p.slot⟩
              (notify fault { gone .promotion with promotions := [] })) [])
        ∧ (∀ k i more, s.fetchWaiters idx = [.revive] → s.cmu.phase = .reviving k i [] more →
          Answers failed (notify fault (gone .revive)) .memory)
        ∧ (∀ k i w, s.fetchWaiters idx = [.copy] → s.cmu.phase = .copying k i w →
          let result := s.controlBase + 0x2000 + 32 * s.cmu.consumer
          NextIs failed
            { notify fault (gone .copy) with cmu := s.cmuIn (.resultWrite 2 .memory) }
            [ownWrite .resultField (result + 20) (le 2 (w.count - w.made)),
              ownWrite .resultField (result + 24) w.last.toBytes]))
      ∧ (∀ l next d, s.fetchWaiters idx = [.lapse] → s.lapses = [l, next] → l.index = idx → l.key = x.key →
        s.reqOf .lapse = some ⟨.lapse, idx, x.key, .fetch⟩ → s.ServedBy next.index next.key d →
        NextIs failed
          (notify fault { gone .lapse with
            lapses := [next, l], reqs := s.reqsWithout .lapse ++ [⟨.lapse, next.index, next.key, .ready⟩] }) []))

/-- The write-back of a RETIRING entry ends (R92, R95). An entry given out or changed since it was issued returns to
VALID with its context, dirty if it changed; one that reads still hold waits for them; otherwise it passes to the
allocation that waits, whose fetch is issued, and with none waiting it stays, clean (log 13). An error returns it to
VALID, dirty and faulted, with MEMORY_FAULT. -/
def Obligations.WriteBackEnds : Prop :=
  ∀ (s : State) (idx e : Nat) (a : Access) (rest : List Access),
    s.Steady → s.oldest (isWriteBack idx) a rest → s.findEntry idx = some e → (s.entry e).cond = .retiring →
    a.writeBackKey = (s.entry e).key → (∀ k r f, s.cmu.phase ≠ .releaseDrain k idx r f) →
    let x := s.entry e
    let y := s.ended rest
    let back := fun (z : Entry) => { y with entries := y.entriesWith e z }
    ((∀ r ∈ s.reqs, r.wait ≠ .writeBack e) →
      (x.retire.given = true ∨ x.retire.changed = true →
        NextIs (exec (.writeBackEnd idx false) s)
          (back { x with cond := .valid, dirty := x.retire.changed, retire := {} }) [])
      ∧ (x.retire.given = false → x.retire.changed = false → x.holds = 0 →
        NextIs (exec (.writeBackEnd idx false) s) (back { x with cond := .valid, dirty := false, retire := {} }) [])
      ∧ ((∃ d, d < 32 ∧ d ≠ e ∧ (s.entry d).faulted = false) →
        NextIs (exec (.writeBackEnd idx true) s)
          (notify ⟨.memoryFault, 2, x.key, s.now, idx⟩
            (back { x with cond := .valid, dirty := true, faulted := true, retire := {} })) []))
    ∧ (x.retire.given = false → x.retire.changed = false → 0 < x.holds →
      NextIs (exec (.writeBackEnd idx false) s) (back { x with retire := { x.retire with ended := true } }) [])
    ∧ (∀ pre post who i key, s.reqs = pre ++ ⟨who, i, key, .writeBack e⟩ :: post → who.isWrite = false →
      (∀ r ∈ pre ++ post, r.index ≠ i ∧ r.wait ≠ .writeBack e) →
      x.retire.given = false → x.retire.changed = false → x.holds = 0 →
      NextIs (exec (.writeBackEnd idx false) s)
        { y.withoutEntry e idx with
          entries := y.entriesWith e { cond := .fetching, index := i, key := key }
          reqs := pre ++ ⟨who, i, key, .fetch⟩ :: post }
        [⟨.fetch i, s.contextAddr i, .read 256⟩])

/-! ## The coefficient engine -/

/-- CE takes the head job in RUNNING and STOPPED when it is idle and asks the cache for its context (R70, R87): one
that is VALID, or gone, is given at once; one that is not cached is fetched into an INVALID entry (R88, R90), or where
there is none into the least recently used evictable one, which is reused at once when clean and becomes RETIRING when
dirty, its image written back with the calendar's own values at its context's place (R88, R92); with none evictable
the request joins the waiting list (R89). The oldest request of that list takes an entry that is to be had, and the
others wait on (R89). Given its context, CE pins the entry and reads its snapshot (R72, R25). With no job to take
nothing changes, which is the model's choice (log 5). -/
def Obligations.JobTakenAndGiven : Prop :=
  (∀ (s : State) (j : Job) (rest : List Job),
    s.Steady → s.run ≠ .idle → s.engine = .idle → s.queue = j :: rest →
    let asked := fun (w : Wait) => { s with
      queue := rest, engine := .obtaining j none, reqs := s.reqs ++ [⟨.engine, j.index, j.key, w⟩] }
    ((∃ e, s.ServedBy j.index j.key e) ∨ s.present j.index j.key = false →
      NextIs (exec .jobTake s) (asked .ready) [])
    ∧ (∀ e, s.present j.index j.key = true → s.findEntry j.index = none → s.noneWaits j.index →
      s.freeEntry = some e →
      NextIs (exec .jobTake s)
        { asked .fetch with entries := s.entriesWith e { cond := .fetching, index := j.index, key := j.key } }
        [⟨.fetch j.index, s.contextAddr j.index, .read 256⟩])
    ∧ (s.present j.index j.key = true → s.findEntry j.index = none → s.noneWaits j.index → s.freeEntry = none →
      (∀ pre e post, s.recency = pre ++ e :: post → (∀ d ∈ pre, ¬ s.reusable d) → s.reusable e →
        let x := s.entry e
        (x.dirty = false →
          NextIs (exec .jobTake s)
            { asked .fetch with
              entries := s.entriesWith e { cond := .fetching, index := j.index, key := j.key }
              recency := s.recency.filter fun d => d != e
              txns := s.txns.map (Txn.dropHolds x.index) }
            [⟨.fetch j.index, s.contextAddr j.index, .read 256⟩])
        ∧ (x.dirty = true →
          let image := match s.calEntry x.index with
            | none => x.image
            | some c => { x.image with calKind := some c.kind, miss := c.miss, due := c.due }
          NextIs (exec .jobTake s)
            { asked (.writeBack e) with entries := s.entriesWith e { x with cond := .retiring, retire := {} } }
            [ownWrite (.writeBack x.index x.key) (s.contextAddr x.index) image.toBytes]))
      ∧ ((∀ e ∈ s.recency, ¬ s.reusable e) → NextIs (exec .jobTake s) (asked .list) [])))
  ∧ (∀ s : State,
    (s.freeEntry = none → (∀ e ∈ s.recency, ¬ s.reusable e) → serveList s = s)
    ∧ ∀ pre r post e, s.reqs = pre ++ r :: post → (∀ q ∈ pre, q.wait ≠ .list) → r.wait = .list →
      r.who.isWrite = false → (∀ q ∈ pre ++ post, q.index ≠ r.index) → s.freeEntry = some e →
      (∀ d, d < 32 → d ≠ e → (s.entry d).cond ≠ .invalid ∧ ¬ s.reusable d) →
      ∃ m, serveList s = { s with
            entries := s.entriesWith e { cond := .fetching, index := r.index, key := r.key }
            reqs := pre ++ { r with wait := .fetch } :: post
            mem := m }
        ∧ s.mem.gains m [⟨.fetch r.index, s.contextAddr r.index, .read 256⟩])
  ∧ (∀ s : State, s.Steady → s.run = .idle ∨ s.engine ≠ .idle ∨ s.queue = [] → NextIs (exec .jobTake s) s [])
  ∧ ∀ (s : State) (j : Job) (mark : Option LossCause) (e : Nat),
    s.Steady → s.engine = .obtaining j mark → s.Ready .engine j.index j.key → s.ServedBy j.index j.key e →
    (j.isCapture = true → mark = none ∧ (s.entry e).image.state ≠ .lapsed) →
    let x := s.entry e
    NextIs (exec .jobContextGiven s) { s with
      entries := s.entriesWith e { x with pinned := true }
      recency := s.recencyWith e
      reqs := s.reqsWithout .engine
      engine := .computing j none
        { state := x.image.state
          offTiming := x.image.offTiming
          offPower := x.image.offPower
          offFreq := x.image.offFreq
          taps := x.image.taps
          basis := x.image.basis
          freeze := x.image.freeze
          step := x.image.step
          settle := x.image.settle
          policy := s.policyOf j.key } } []

/-- A CAPTURE job that completes unmarked is applied in one event (R75, R76): the entry takes the context the update
leaves, dirty and unpinned, CE is idle, the calendar takes its part and the update's notices follow. An OFFER entry
that changes its period class is due one period from its base stamp, or now when that has run; an entry of another
kind changes class alone; a lapsing link loses its entry, whose values the image keeps (R118, R110). -/
def Obligations.JobApplied : Prop :=
  (∀ (s : State) (j : Job) (snap : Snapshot) (e : Nat),
    s.Steady → s.engine = .computing j none snap → j.isCapture = true → s.ServedBy j.index j.key e →
    s.PinnedOnly e →
    let x := s.entry e
    let r := applyUpdate x.image snap j.record j.stamp j.tally
    let t := notifyAll (r.notices.map fun n => ⟨n.1, n.2.1, j.key, j.stamp, n.2.2⟩)
      (handOver j.index e r.handOver { s with
        engine := .idle, entries := s.entriesWith e { x with image := r.ctx, dirty := true, pinned := false } })
    NextIs (exec .jobCompletion s) t [])
  ∧ ∀ (s : State) (idx e : Nat) (c : CalEntry), s.calEntry idx = some c → e < 32 → (s.entry e).cond = .valid →
    let due := fun (k : PeriodClass) => dueFrom s.now c.base (periodTicks (s.policyOf c.key) k)
    (∀ k h, (k, h) ∈ [(PeriodClass.tracking, HandOver.nowTracking), (.acquire, .nowAcquire)] →
      (c.kind = .offer → handOver idx e h s = { s with calendar := s.calendarWith { c with cls := k, due := due k } })
      ∧ (c.kind ≠ .offer → handOver idx e h s = { s with
          calendar := s.calendar.map fun y => if y.index = idx then { c with cls := k } else y }))
    ∧ handOver idx e .nothing s = s
    ∧ handOver idx e .remove s = { s with
        entries := s.entriesWith e { s.entry e with
          image := { (s.entry e).image with calKind := none, miss := c.miss, due := c.due }, dirty := true }
        calendar := s.calendar.filter fun y => y.index != idx
        lapses := s.lapses.filter fun l => l.index != idx }

/-- A CAPTURE job is lost (R72, R74, R78): on a context that is present its lost counter and superseded counter count,
UPDATE_LOST carries the cause, CE is idle and the entry unpinned; on one that is gone nothing counts and an entry a
RELEASE was taken against is invalidated; if it is RETIRING still, the allocation that chose it takes it then (R88,
R92; log 22). A job given its context is lost where it is marked, or the context is LAPSED, or gone. That one on a
gone context carries the cause of its mark, and that a mark decides before the LAPSED state, is the model's reading
(log 9). -/
def Obligations.JobLost : Prop :=
  ∀ (s : State) (j : Job) (mark : Option LossCause) (e : Nat), s.Steady → j.isCapture = true →
    let lost := fun (k : LossCause) => (⟨.updateLost, k.code, j.key, j.stamp, j.index⟩ : Notice)
    let x := s.entry e
    let counted := { x.image with
      counters := { x.image.counters with
        lost := min 65535 (x.image.counters.lost + 1)
        superseded := min 65535 (x.image.counters.superseded + j.tally) } }
    (∀ cause snap, s.engine = .computing j (some cause) snap → s.ServedBy j.index j.key e → s.PinnedOnly e →
      NextIs (exec .jobCompletion s) (notify (lost cause) { s with
        engine := .idle, entries := s.entriesWith e { x with image := counted, dirty := true, pinned := false } }) [])
    ∧ (∀ snap, s.engine = .computing j mark snap → s.present j.index j.key = false → e < 32 → x.pinned = true →
      x.released = true → x.cond ≠ .invalid → (∀ d, d < 32 → (s.entry d).pinned = true → d = e) →
      ((x.cond = .retiring → ∀ r ∈ s.reqs, r.wait ≠ .writeBack e) →
        NextIs (exec .jobCompletion s)
          (notify (lost (mark.getD .released)) { s.withoutEntry e x.index with engine := .idle }) [])
      ∧ (∀ pre post who i key, x.cond = .retiring → s.reqs = pre ++ ⟨who, i, key, .writeBack e⟩ :: post →
        who.isWrite = false → (∀ r ∈ pre ++ post, r.index ≠ i ∧ r.wait ≠ .writeBack e) →
        (∀ d, d < e → (s.entry d).cond ≠ .invalid) →
        NextIs (exec .jobCompletion s)
          (notify (lost (mark.getD .released)) { s.withoutEntry e x.index with
            engine := .idle
            entries := s.entriesWith e { cond := .fetching, index := i, key := key }
            reqs := ⟨who, i, key, .fetch⟩ :: (pre ++ post) })
          [⟨.fetch i, s.contextAddr i, .read 256⟩]))
    ∧ (s.engine = .obtaining j mark → s.Ready .engine j.index j.key → s.Unpinned →
      (s.present j.index j.key = false →
        NextIs (exec .jobContextGiven s)
          (notify (lost (mark.getD .released)) { s with engine := .idle, reqs := s.reqsWithout .engine }) [])
      ∧ (s.ServedBy j.index j.key e → mark.isSome = true ∨ x.image.state = .lapsed →
        NextIs (exec .jobContextGiven s) (notify (lost (mark.getD .lapsed)) { s with
          engine := .idle
          entries := s.entriesWith e { x with image := counted, dirty := true }
          recency := s.recencyWith e
          reqs := s.reqsWithout .engine }) []))

/-- A TRIAL job that completes leaves its context alone, unpinned; CMU writes the result into the trial area (R81,
R82). The end of that write answers DONE, or MEMORY with MEMORY_FAULT. The result (R196) holds the figures of the
update on the job's record and snapshot with the tracking gains in TRACKING and the acquisition gains in every other
state (R81): its status by the settle test and the counts as R12 advances them, or REJECTED where the tap stage is
DEGENERATE, with no adjustments and no taps; an ABORT has none either (R44). With RAW it ends in r and the taps of Q.
-/
def Obligations.TrialReports : Prop :=
  (∀ (s : State) (j : Job) (snap : Snapshot) (raw : Bool) (pos e : Nat),
    s.Steady → s.engine = .computing j none snap → j.kind = .trial raw pos → s.PinnedOnly e → e < 32 →
    NextIs (exec .jobCompletion s)
      { s with
        engine := .idle
        entries := s.entriesWith e { s.entry e with pinned := false }
        cmu := s.cmuIn (.trialWrite j.key) }
      [ownWrite .trialResult (s.controlBase + 0xA000) (trialResultBytes j.key j.stamp snap j.record raw)])
  ∧ (∀ (s : State) (key : Key) (a : Access) (rest : List Access),
    s.inReset = false → s.cmu.phase = .trialWrite key → s.oldest (isPurpose .trialResult) a rest →
    Answers (exec (.trialResultWriteEnd false) s) (s.ended rest) .done
    ∧ Answers (exec (.trialResultWriteEnd true) s) (notify ⟨.memoryFault, 6, key, s.now, 0⟩ (s.ended rest)) .memory)
  ∧ ∀ (key : Key) (stamp : Tick) (s : Snapshot) (r : List Byte) (raw : Bool),
    let b := trialResultBytes key stamp s r raw
    let f := figures s r (if s.state = .tracking then s.policy.trk else s.policy.acq)
    let bit := fun (n : Nat) (v : Bool) => if v then 2 ^ n else 0
    let settle := if f.settles then s.settle + 1 else 0
    let status : Nat :=
      if f.degenerate then 4
      else if s.state = .tracking then (if f.settles then 2 else 1)
      else if s.policy.settleTarget ≤ settle then 2
      else if s.policy.acquireLimit ≤ s.step + 1 then 3
      else 1
    let moves := status = 1 ∨ status = 2
    b.length = (if raw then 228 else 128)
    ∧ field b 0 1 = le 1 1 ∧ field b 1 1 = le 1 status
    ∧ field b 2 1 = le 1 (if s.state = .tracking then 2 else 1)
    ∧ (moves → field b 3 1 = le 1 (bit 0 f.newTaps.isSome + bit 1 f.clipped + bit 2 f.tapsSkipped
        + bit 3 f.timing.clamped + bit 4 f.power.clamped + bit 5 f.freq.clamped))
    ∧ (status = 3 → field b 3 1 = le 1 0)
    ∧ (status = 4 → field b 3 1 = le 1 (bit 3 f.timing.clamped + bit 4 f.power.clamped + bit 5 f.freq.clamped))
    ∧ field b 4 4 = key.toBytes
    ∧ (moves → field b 8 4 = leInt 4 f.timing.adjust ∧ field b 12 2 = leInt 2 f.freq.adjust
      ∧ field b 14 1 = leInt 1 f.power.adjust)
    ∧ (¬ moves → field b 8 7 = List.replicate 7 0)
    ∧ field b 15 1 = le 1 f.health ∧ field b 16 1 = le 1 (bit 0 (f.settles && !f.degenerate))
    ∧ field b 17 1 = le 1 (bit 0 f.timing.ranged + bit 1 f.power.ranged + bit 2 f.freq.ranged)
    ∧ field b 18 2 = le 2 s.basis ∧ field b 20 4 = le 4 stamp.toNat ∧ field b 24 8 = List.replicate 8 0
    ∧ (∀ ts, moves → f.newTaps = some ts → field b 32 48 = tapBytes ts)
    ∧ (¬ moves ∨ f.newTaps = none → field b 32 48 = List.replicate 48 0)
    ∧ field b 80 48 = List.replicate 48 0
    ∧ (raw = true →
      (f.tapStage = none → field b 128 100 = List.replicate 100 0)
      ∧ ∀ q, f.tapStage = some q → field b 128 4 = leInt 4 q.r
        ∧ ∀ k, k < 12 → field b (132 + 8 * k) 8 = leInt 4 (tapAt q.q k).re ++ leInt 4 (tapAt q.q k).im)

/-! ## The maintenance calendar and the timers -/

/-- The entry the calendar takes is one without the lapsing mark at the least signed distance of its due time from the
counter, and none is taken in IDLE or before that due time is reached (R109, R107). Out of IDLE the entry at the least
distance is taken once its due time is reached, and of several at that distance the one whose due time was set first
(R109): entries stand in the calendar in that order, for setting a due time puts the entry behind every other. -/
def Obligations.DueHead : Prop :=
  (∀ (s : State) (e : CalEntry), s.calTaken = some e →
    s.run ≠ .idle ∧ e ∈ s.calendar ∧ e.lapsing = false ∧ (s.now - e.due).toNat < 2 ^ 31
    ∧ ∀ x ∈ s.calendar, x.lapsing = false → (e.due - s.now).toInt ≤ (x.due - s.now).toInt)
  ∧ (∀ (s : State) (pre post : List CalEntry) (e : CalEntry), s.run ≠ .idle → s.calendar = pre ++ e :: post →
    e.lapsing = false → (s.now - e.due).toNat < 2 ^ 31 →
    (∀ x ∈ pre, x.lapsing = false → (e.due - s.now).toInt < (x.due - s.now).toInt) →
    (∀ x ∈ post, x.lapsing = false → (e.due - s.now).toInt ≤ (x.due - s.now).toInt) →
    s.calTaken = some e)
  ∧ ∀ (s : State) (e : CalEntry), calSet e s = { s with calendar := s.calendarWith e }

/-- An OFFER or OFFER_FORCED entry is taken with room in the due ring (R111): the offer is written at the claimed
place with its reason, and the entry becomes GRACE, due when the channel's grace has run. -/
def Obligations.OfferPlaced : Prop :=
  ∀ (s : State) (e : CalEntry), s.inReset = false → s.calTaken = some e → e.kind ≠ .grace →
    (s.nw.due.claimed + 1024 - s.nw.due.consumer) % 1024 < 1023 →
    let reason := if e.kind = .offerForced then OfferReason.forced else if 0 < e.miss then .retry else .scheduled
    NextIs (exec .offerTaking s)
      { s with
        calendar := s.calendarWith
          { e with kind := .grace, due := s.now + BitVec.ofNat 32 (16384 * (s.policyOf e.key).grace) }
        nw := { s.nw with due := { s.nw.due with claimed := (s.nw.due.claimed + 1) % 1024 } } }
      [ownWrite (.offer s.nw.due.claimed e.key) (s.controlBase + 0x8000 + 8 * s.nw.due.claimed)
        (e.key.toBytes ++ [BitVec.ofNat 8 reason.code, BitVec.ofNat 8 e.miss] ++ le 2 (s.now.toNat % 65536))]

/-- An OFFER or OFFER_FORCED entry is taken against a full due ring (R112): no offer is made, the entry keeps its kind
and miss count, and its due time becomes 16,384 ticks from now, behind the others. -/
def Obligations.OfferDeferred : Prop :=
  ∀ (s : State) (e : CalEntry), s.inReset = false → s.calTaken = some e → e.kind ≠ .grace →
    1023 ≤ (s.nw.due.claimed + 1024 - s.nw.due.consumer) % 1024 →
    NextIs (exec .offerTaking s) { s with calendar := s.calendarWith { e with due := s.now + 16384 } } []

/-- A GRACE entry taken in RUNNING on an OPEN channel is a miss (R114): below the miss limit the entry becomes OFFER,
due now; at the limit it lapses, joins the lapse list with the counter value of the taking, and its context is asked
for unless the calendar's request is outstanding (R115). -/
def Obligations.GraceMissed : Prop :=
  ∀ (s : State) (e : CalEntry),
    s.Steady → s.calTaken = some e → e.kind = .grace → s.run = .running →
    (s.channel e.key.channel).state = .opened →
    let limit := (s.policyOf e.key).missLimit
    let lapse : Lapse := ⟨e.index, e.key, s.now⟩
    let lapsing := s.calendar.map fun x =>
      if x.index = e.index then { e with miss := e.miss + 1, lapsing := true } else x
    (e.miss + 1 < limit →
      NextIs (exec .graceExpiry s)
        { s with calendar := s.calendarWith { e with kind := .offer, miss := e.miss + 1, due := s.now } } [])
    ∧ (limit ≤ e.miss + 1 →
      ((s.reqOf .lapse).isSome = true →
        NextIs (exec .graceExpiry s) { s with calendar := lapsing, lapses := s.lapses ++ [lapse] } [])
      ∧ (∀ d, s.reqOf .lapse = none → s.lapses = [] → s.ServedBy e.index e.key d →
        NextIs (exec .graceExpiry s)
          { s with
            calendar := lapsing
            lapses := [lapse]
            reqs := s.reqs ++ [⟨.lapse, e.index, e.key, .ready⟩] } []))

/-- A GRACE entry taken in STOPPED, or whose channel is QUIET, is no miss (R113): it becomes OFFER, due now, behind
the others, with its miss count and base stamp unchanged. -/
def Obligations.GraceSuspended : Prop :=
  ∀ (s : State) (e : CalEntry), s.Steady → s.calTaken = some e → e.kind = .grace →
    s.run = .stopped ∨ (s.channel e.key.channel).state = .quiet →
    NextIs (exec .graceExpiry s) { s with calendar := s.calendarWith { e with kind := .offer, due := s.now } } []

/-- The context of the lapse in progress is given (R115, R15): the link becomes LAPSED with reason SILENT, without a
pending correction, its image keeping the values its calendar entry had; the entry and the link of the lapse list go,
a CAPTURE job in flight of the link is marked LAPSED, and STATE_CHANGE carries the stamp of the taking. A lapse
cancelled meanwhile changes nothing of the context (R116). -/
def Obligations.SilentLapse : Prop :=
  ∀ (s : State) (idx e : Nat) (key : Key), s.Steady → s.Ready .lapse idx key → s.ServedBy idx key e →
    let x := s.entry e
    (∀ c stamp, s.lapses = [⟨idx, key, stamp⟩] → s.calEntry idx = some c →
      NextIs (exec .silentLapseApplied s)
        (notify ⟨.stateChange, x.image.state.code + 16 * 5, key, stamp, 1⟩ { s with
          entries := s.entriesWith e { x with
            image := { x.image with
              state := .lapsed, lapse := .silent, pending := none, calKind := none, miss := c.miss, due := c.due }
            dirty := true }
          recency := s.recencyWith e
          engine := (markJob idx key .lapsed s).engine
          calendar := s.calendar.filter fun y => y.index != idx
          lapses := []
          reqs := s.reqsWithout .lapse }) [])
    ∧ (s.lapses = [] →
      NextIs (exec .silentLapseApplied s) { s with recency := s.recencyWith e, reqs := s.reqsWithout .lapse } [])

/-- A running quiet timer that has run its interval expires (R63): it stops; an OPEN channel becomes QUIET with
CHANNEL_QUIET, detail FIRST, a QUIET one raises it with detail STILL_QUIET; the datum is the interval in milliseconds
(R65). One that has not run its interval changes nothing, which is the model's choice (log 5). -/
def Obligations.QuietExpiry : Prop :=
  ∀ (s : State) (ch : Fin 16) (t : QuietTimer), s.inReset = false → s.quietTimer ch.val = some t →
    let stopped := { s with quietTimers := s.quietTimers.setIfInBounds ch.val none }
    let said := fun (d : Nat) => (⟨.channelQuiet, d, ⟨ch.val, 0⟩, s.now, t.interval / 16384⟩ : Notice)
    (t.interval ≤ (s.now - t.since).toNat →
      ((s.channel ch.val).state = .opened →
        NextIs (exec (.quietTimerExpiry ch) s)
          (notify (said 1) { stopped with
            channels := s.channels.setIfInBounds ch.val { s.channel ch.val with state := .quiet } }) [])
      ∧ ((s.channel ch.val).state = .quiet →
        NextIs (exec (.quietTimerExpiry ch) s) (notify (said 2) stopped) []))
    ∧ ((s.now - t.since).toNat < t.interval → NextIs (exec (.quietTimerExpiry ch) s) s [])

/-- The coalescing timer's expiry judges the line (R188): with T running out the line is asserted where a notice is
unread or the unread count has reached N; before T has run out the step changes nothing, which is the model's choice
(log 5). The line stands exactly where the unread count has reached N, or one or more are unread and the timer, T not
being 0, has reached T. -/
def Obligations.CoalescingExpiry : Prop :=
  (∀ (s : State) (n : Nat), s.inReset = false → s.nw.coalesceT ≠ 0 → s.nw.timer = some n →
    let unread := (s.nw.notices.published + 1024 - s.nw.notices.consumer) % 1024
    (16384 * s.nw.coalesceT ≤ n →
      NextIs (exec .coalescingTimerExpiry s)
        { s with nw := { s.nw with attn := decide (s.nw.coalesceN ≤ unread ∨ 1 ≤ unread) } } [])
    ∧ (n < 16384 * s.nw.coalesceT → NextIs (exec .coalescingTimerExpiry s) s []))
  ∧ ∀ w : Nw,
    let unread := (w.notices.published + 1024 - w.notices.consumer) % 1024
    (w.judge.attn = true ↔
      w.coalesceN ≤ unread ∨ 1 ≤ unread ∧ w.coalesceT ≠ 0 ∧ ∃ n, w.timer = some n ∧ 16384 * w.coalesceT ≤ n)

/-! ## Response slots -/

/-- The cache gives a binding slot its context (R133): the slot is BOUND with the pending correction, or NOCHANGE
where there is none or the context is gone; the read that waited is patched and returned (R134), delivering the slot
where it covers the last word (R136); key bytes held back meanwhile then arm the slot anew (R129). A correction
delivered so goes on the promotion list, behind one in progress or beginning its promotion (R136, R137), which holds
key bytes back. -/
def Obligations.SlotBound : Prop :=
  ∀ (s : State) (n : Fin 64) (pre post : List Txn) (t : Txn) (data : List Byte) (off idx : Nat) (key : Key)
    (c : BoundCopy),
    s.Steady → s.Opens pre t post → s.Ready (.slot n.val) idx key →
    t.body = .read data.length [⟨.slot n.val, 0, data.length, off, false⟩] (some data) → 8 < off + data.length →
    (s.slot n.val).waiting = [(t.id, 0)] → (s.slot n.val).binding = true →
    let x := s.slot n.val
    let bound := { x with
      state := if 60 < off + data.length then .delivered else .bound, copy := some c, binding := false, waiting := [] }
    let ended := fun (y : Slot) => { s with
      slots := s.slotsWith n.val y
      reqs := s.reqsWithout (.slot n.val)
      txns := pre ++ post
      returned := s.returns t (.normal (patchedFrom off (fun o b => if 8 ≤ o then c.toBytes.getD o 0 else b) data)) }
    let armed := fun (ps : List (Nat × Byte)) => { bound with
      state := .armed
      keyImage := putBytes x.keyImage ps
      latched := getKey (putBytes x.keyImage ps) 0
      copy := none
      heldWrites := [] }
    (s.present idx key = false → c = .noChange →
      (x.heldWrites = [] → NextIs (exec (.slotBindingMade n) s) (ended bound) [])
      ∧ (∀ ps, x.heldWrites = [ps] → s.promoting n.val = false →
        NextIs (exec (.slotBindingMade n) s) (ended (armed ps)) []))
    ∧ (∀ e, s.ServedBy idx key e →
      c = (match (s.entry e).image.pending with | none => .noChange | some p => .correction idx key p) →
      (off + data.length ≤ 60 ∨ c = .noChange →
        (x.heldWrites = [] →
          NextIs (exec (.slotBindingMade n) s) { ended bound with recency := s.recencyWith e } [])
        ∧ (∀ ps, x.heldWrites = [ps] → s.promoting n.val = false →
          NextIs (exec (.slotBindingMade n) s) { ended (armed ps) with recency := s.recencyWith e } []))
      ∧ (∀ q, c = .correction idx key q → 60 < off + data.length →
        let listed := s.promotions ++ [⟨n.val, idx, key, q⟩]
        ((s.reqOf .promotion).isSome = true →
          NextIs (exec (.slotBindingMade n) s)
            { ended bound with recency := s.recencyWith e, promotions := listed } [])
        ∧ (s.reqOf .promotion = none → s.promotions = [] →
          NextIs (exec (.slotBindingMade n) s)
            { ended bound with
              recency := s.recencyWith e
              promotions := listed
              reqs := s.reqsWithout (.slot n.val) ++ [⟨.promotion, idx, key, .ready⟩] } [])))

/-- The promotion at the head of the list is decided and leaves it (R138, R139): DELIVERY_STALE GONE where the context
is gone, BASIS where the basis has moved, NO_PENDING where nothing is pending; else the correction takes effect: it is
no longer pending, delivered counts, and but for an ABORT the offsets move, delivered taps become the issued taps and
the basis moves. A pending correction of another id is discarded with PENDING_DISCARDED. -/
def Obligations.PromotionDecided : Prop :=
  ∀ (s : State) (p : Promotion), s.Steady → s.promotions = [p] → s.Ready .promotion p.index p.key →
    (s.slot p.slot).heldWrites = [] →
    let y := { s with reqs := s.reqsWithout .promotion, promotions := [] }
    let stale := fun (d : Nat) =>
      (⟨.deliveryStale, d, p.key, s.now, p.corr.id % 65536 + 65536 * p.slot⟩ : Notice)
    (s.present p.index p.key = false → NextIs (exec .promotion s) (notify (stale 1) y) [])
    ∧ (∀ e, s.ServedBy p.index p.key e →
      let x := s.entry e
      let c := x.image
      let z := { y with recency := s.recencyWith e }
      let gone := { c with
        pending := none, counters := { c.counters with delivered := min 4294967295 (c.counters.delivered + 1) } }
      let done := if p.corr.status = .abort then gone else { gone with
        offTiming := c.offTiming + p.corr.timing
        offPower := c.offPower + p.corr.power
        offFreq := c.offFreq + p.corr.freq
        taps := match p.corr.taps with | none => c.taps | some ts => ts
        basis := (c.basis + 1) % 65536 }
      let applied := { z with entries := s.entriesWith e { x with image := done, dirty := true } }
      (c.basis ≠ p.corr.basis → NextIs (exec .promotion s) (notify (stale 2) z) [])
      ∧ (c.basis = p.corr.basis → c.pending = none → NextIs (exec .promotion s) (notify (stale 3) z) [])
      ∧ (∀ q, c.basis = p.corr.basis → c.pending = some q →
        (q.id = p.corr.id → NextIs (exec .promotion s) applied [])
        ∧ (q.id ≠ p.corr.id →
          NextIs (exec .promotion s)
            (notify ⟨.pendingDiscarded, 2, p.key, s.now, q.id % 65536 + 65536 * p.slot⟩ applied) [])))

/-! ## The notice writer -/

/-- A notice handed to NW takes the next place while fewer than 1023 are held, and its 16 bytes are written there;
otherwise overflow counts it (R181, R182). The end of a notice write publishes the notice, its producer word is
written, the coalescing timer starts where none was unread, and the line is judged; an error counts as one more
overflow (R188). The end of a producer-word write changes nothing, error or not. -/
def Obligations.Notices : Prop :=
  (∀ (s : State) (n : Notice),
    let held := (s.nw.notices.claimed + 1024 - s.nw.notices.consumer) % 1024
    (held < 1023 →
      notify n s = { s with
        nw := { s.nw with notices := { s.nw.notices with claimed := (s.nw.notices.claimed + 1) % 1024 } }
        mem := (notify n s).mem }
      ∧ s.mem.gains (notify n s).mem
          [ownWrite .notice (s.controlBase + 0x4000 + 16 * s.nw.notices.claimed)
            ([BitVec.ofNat 8 n.kind.code, BitVec.ofNat 8 n.detail, 0, 0] ++ n.key.toBytes
              ++ le 4 n.stamp.toNat ++ le 4 n.datum)])
    ∧ (1023 ≤ held →
      notify n s = { s with nw := { s.nw with overflow := min 65535 (s.nw.overflow + 1) } }))
  ∧ ∀ (s : State) (error : Bool) (a : Access) (rest : List Access), s.inReset = false →
    (s.oldest isNotice a rest →
      let w := s.nw
      let published := (w.notices.published + 1) % 1024
      NextIs (exec (.noticeWriteEnd error) s)
        { s.ended rest with
          nw := Nw.judge { w with
            overflow := if error then min 65535 (w.overflow + 1) else w.overflow
            notices := { w.notices with published := published }
            timer := if (w.notices.published + 1024 - w.notices.consumer) % 1024 = 0 then some 0 else w.timer } }
        [ownWrite .noticeProducer (s.controlBase + 0x08) (le 4 published)])
    ∧ (s.oldest isNoticeProducer a rest → NextIs (exec (.noticeProducerWriteEnd error) s) (s.ended rest) [])

/-- The end of an offer write publishes the offer, error or not, and its producer word is written (R186); an error
raises MEMORY_FAULT with the ring position (R185). The end of a due producer-word write raises MEMORY_FAULT with the
index it carried where it is an error (R185). -/
def Obligations.OffersPublished : Prop :=
  ∀ (s : State) (error : Bool) (rest : List Access) (addr : Nat) (body : Body), s.inReset = false →
    (∀ pos key, s.oldest isOffer ⟨.offer pos key, addr, body⟩ rest →
      let published := (s.nw.due.published + 1) % 1024
      NextIs (exec (.offerWriteEnd error) s)
        (noticeIf error ⟨.memoryFault, 16, key, s.now, pos⟩
          { s.ended rest with nw := { s.nw with due := { s.nw.due with published := published } } })
        [ownWrite (.dueProducer published) (s.controlBase + 0x10) (le 4 published)])
    ∧ (∀ value, s.oldest isDueProducer ⟨.dueProducer value, addr, body⟩ rest →
      NextIs (exec (.dueProducerWriteEnd error) s)
        (noticeIf error ⟨.memoryFault, 17, ⟨0, 0⟩, s.now, value⟩ (s.ended rest)) [])

/-! ## The command unit -/

/-- The descriptor fetch ends (R175, R176): a copy whose code names a command is held to be executed, one whose code
names none is answered BAD_OPCODE, and an error is answered MEMORY with MEMORY_FAULT (its datum is log 4). -/
def Obligations.DescriptorFetched : Prop :=
  ∀ (s : State) (d : List Byte) (a : Access) (rest : List Access),
    s.inReset = false → s.oldest (isPurpose .descriptor) a rest → d.length = 32 →
    let known := cmdCode d ∈ [0x01, 0x02, 0x03, 0x04, 0x05, 0x10, 0x11, 0x12, 0x13, 0x14, 0x15, 0x20, 0x21]
    (known →
      NextIs (exec (.descriptorFetchEnd (some d)) s) { s.ended rest with cmu := s.cmuIn (.executing d) } [])
    ∧ (¬ known → Answers (exec (.descriptorFetchEnd (some d)) s) (s.ended rest) .badOpcode)
    ∧ Answers (exec (.descriptorFetchEnd none) s)
        (notify ⟨.memoryFault, 11, ⟨0, 0⟩, s.now, Config.descriptorReadDatum s.cmu.consumer⟩ (s.ended rest)) .memory

/-- The answer of a descriptor (R177): after the last result field the status byte is written, after it the consumer
advances modulo 256 and its word is written, and after that CMU fetches the next descriptor where its producer differs
from its consumer and is IDLE otherwise (R174). An error at any of these raises MEMORY_FAULT with the ring position or
index and nothing else changes; that its key is zero is the model's reading (log 25). -/
def Obligations.AnswerWritten : Prop :=
  ∀ (s : State) (error : Bool) (a : Access) (rest : List Access), s.inReset = false →
    let fault := fun (d n : Nat) => noticeIf error ⟨.memoryFault, d, ⟨0, 0⟩, s.now, n⟩ (s.ended rest)
    let position := s.cmu.consumer
    (∀ left st, s.cmu.phase = .resultWrite left st → s.oldest (isPurpose .resultField) a rest →
      (left ≤ 1 → Answers (exec (.resultWriteEnd error) s) (fault 12 position) st)
      ∧ (1 < left →
        NextIs (exec (.resultWriteEnd error) s)
          { fault 12 position with cmu := s.cmuIn (.resultWrite (left - 1) st) } []))
    ∧ (s.cmu.phase = .statusWrite → s.oldest (isPurpose .status) a rest →
      let next := (position + 1) % 256
      NextIs (exec (.statusWriteEnd error) s)
        { fault 13 position with cmu := { s.cmu with consumer := next, phase := .indexWrite } }
        [ownWrite .consumerWord (s.controlBase + 0x04) (le 4 next)])
    ∧ (s.cmu.phase = .indexWrite → s.oldest (isPurpose .consumerWord) a rest →
      (s.cmu.producer = position →
        NextIs (exec (.commandIndexWriteEnd error) s) { fault 14 position with cmu := s.cmuIn .idle } [])
      ∧ (s.cmu.producer ≠ position →
        NextIs (exec (.commandIndexWriteEnd error) s) { fault 14 position with cmu := s.cmuIn .fetching }
          [⟨.descriptor, s.controlBase + 0x2000 + 32 * position, .read 32⟩]))

/-- START is answered STATE in RUNNING and without a context window; otherwise the part is RUNNING, the quiet timer of
every channel not CLOSED starts again, from IDLE every calendar entry is due now with its base stamp now, the entries
keeping their due order, and the mirror word is written (R165, R121, R62). Due order is by ascending signed distance
of the due time from the counter, equal ones in the order they were set (R109). A quiet interval is 250 ms for each
unit of the policy's field, and 120 s where that is 0 (R62). -/
def Obligations.StartRuns : Prop :=
  (∀ (s : State) (d : List Byte), s.Executing 0x01 d →
    (s.run = .running ∨ s.contextWindow = none → Answers (exec .start s) s .state)
    ∧ (s.run ≠ .running → s.contextWindow ≠ none →
      ∃ timers : Vector (Option QuietTimer) 16,
        (∀ ch, ch < 16 → timers.getD ch none =
          if (s.channel ch).state = .closed then s.quietTimer ch
          else some ⟨quietInterval (s.policy ch).quiet, s.now⟩)
        ∧ NextIs (exec .start s)
            { s with
              run := .running
              quietTimers := timers
              calendar :=
                if s.run = .idle then (dueOrder s.now s.calendar).map fun e => { e with due := s.now, base := s.now }
                else s.calendar
              cmu := s.cmuIn .mirrorWrite }
            [ownWrite .mirror (s.controlBase + 0x18) (le 4 2)]))
  ∧ (∀ (now : Tick) (es : List CalEntry),
    let due := dueOrder now es
    due.Pairwise (fun a b => (a.due - now).toInt ≤ (b.due - now).toInt)
    ∧ ∀ d : Int, due.filter (fun e => (e.due - now).toInt == d) = es.filter fun e => (e.due - now).toInt == d)
  ∧ ∀ q : Nat, quietInterval q = 16384 * (if q = 0 then 120000 else 250 * q)

/-- STOP is answered STATE out of RUNNING; in RUNNING the part is STOPPED, every quiet timer stops, every open
assembly is discarded with CAPTURE_TORN STOPPED and counts on the torn counter of the channel it names, and the mirror
word is written (R166, R54, R62). That several are discarded in ascending order of their window-table entries is the
model's choice (log 37). The end of that write, for START and STOP, answers DONE, or MEMORY with MEMORY_FAULT and the
run state's code (R165). -/
def Obligations.StopStops : Prop :=
  (∀ (s : State) (d : List Byte), s.Executing 0x02 d →
    let stopped := { s with run := .stopped, quietTimers := Vector.replicate 16 none, cmu := s.cmuIn .mirrorWrite }
    let mirror := [ownWrite .mirror (s.controlBase + 0x18) (le 4 3)]
    (s.run ≠ .running → Answers (exec .stop s) s .state)
    ∧ (s.run = .running →
      NextIs (exec .stop s) ([0, 1, 2, 3, 4, 5].foldl (fun x w => x.torn w 3) stopped) mirror
      ∧ ((∀ w, w < 6 → s.assembly w = none) → NextIs (exec .stop s) stopped mirror)))
  ∧ ∀ (s : State) (a : Access) (rest : List Access),
    s.inReset = false → s.cmu.phase = .mirrorWrite → s.oldest (isPurpose .mirror) a rest →
    Answers (exec (.mirrorWriteEnd false) s) (s.ended rest) .done
    ∧ Answers (exec (.mirrorWriteEnd true) s)
        (notify ⟨.memoryFault, 10, ⟨0, 0⟩, s.now, s.run.code⟩ (s.ended rest)) .memory

/-- SET_WINDOW makes its checks in order (R163): RANGE for an entry above 5 and, unless it disables, for a kind, size
or base that is none; OVERLAP for a byte shared with another window or the control region; IN_USE where it would make
a second CONTEXT or a sixth CAPTURE window, or change the context window in use. Past them the entry takes its value
(R164): one that already holds it is left as it stands, and one that changes loses its assembly with CAPTURE_TORN and
the torn counter of the channel it names (R54). -/
def Obligations.WindowSet : Prop :=
  ∀ (s : State) (d : List Byte), s.Executing 0x03 d →
    let n := byteAt d 8
    let kind := byteAt d 9
    let base := getAddress d 12
    let size := getLe d 20 4
    let named : Option Window := if size = 0 then none else some ⟨if kind = 1 then .capture else .context, base, size⟩
    let others := fun (k : WindowKind) (i : Nat) => i ≠ n ∧ ∃ w, s.window i = some w ∧ w.kind = k
    let wrong := 5 < n ∨ size ≠ 0 ∧
      (¬ (kind = 1 ∨ kind = 2) ∨ ¬ (∃ k, k < 19 ∧ size = 4096 * 2 ^ k) ∨ base % size ≠ 0)
    let shares := (∃ i w, i ≠ n ∧ s.window i = some w ∧ base < w.base + w.size ∧ w.base < base + size)
      ∨ base < s.controlBase + 0x10000 ∧ s.controlBase < base + size
    let crowds := kind = 2 ∧ (∃ i, others .context i) ∨ kind = 1 ∧ (∀ i, i < 6 → i ≠ n → others .capture i)
    let barred := (∃ w, s.window n = some w ∧ w.kind = .context) ∧ s.window n ≠ named
      ∧ (s.kdir ≠ [] ∨ ∃ e, e < 32 ∧ (s.entry e).cond ≠ .invalid)
    (wrong → Answers (exec .setWindow s) s .range)
    ∧ (¬ wrong → size ≠ 0 → shares → Answers (exec .setWindow s) s .overlap)
    ∧ (¬ wrong → size ≠ 0 → ¬ shares → crowds ∨ barred → Answers (exec .setWindow s) s .inUse)
    ∧ (¬ wrong → size = 0 → barred → Answers (exec .setWindow s) s .inUse)
    ∧ (¬ wrong → (size ≠ 0 → ¬ shares ∧ ¬ crowds) → ¬ barred →
      (s.window n = named → Answers (exec .setWindow s) s .done)
      ∧ (s.window n ≠ named →
        let set := { s with windows := s.windows.setIfInBounds n named }
        (s.assembly n = none → Answers (exec .setWindow s) set .done)
        ∧ Answers (exec .setWindow s) (set.torn n 2) .done))

/-- SET_POLICY is answered KEY for a channel above 15 and RANGE for a block off a 64-byte boundary; otherwise the
block is read (R153). Read, its fields are clamped (R149) and replace the policy in one event, a CLOSED channel
opening, in RUNNING with its quiet timer started; the answer says whether a field was clamped (R154). On a channel
with admitted contexts a moved main tap or a lowered step limit or range is answered IN_USE (R151). An error answers
MEMORY. A field is clamped into its range of R148. -/
def Obligations.PolicySet : Prop :=
  (∀ (s : State) (d : List Byte), s.Executing 0x04 d →
    let ch := byteAt d 4
    let addr := getAddress d 8
    (15 < ch → Answers (exec .setPolicy s) s .keyInvalid)
    ∧ (ch ≤ 15 → addr % 64 ≠ 0 → Answers (exec .setPolicy s) s .range)
    ∧ (ch ≤ 15 → addr % 64 = 0 →
      NextIs (exec .setPolicy s) { s with cmu := s.cmuIn (.policyRead ch) } [⟨.policyBlock, addr, .read 64⟩]))
  ∧ (∀ p : Policy,
    let c := p.clamp
    let shifts := fun (g h : Gains) => broughtInto 0 3 g.timing h.timing ∧ broughtInto 0 3 g.power h.power
      ∧ broughtInto 0 3 g.freq h.freq ∧ broughtInto 0 3 g.taps h.taps
    broughtInto 0 11 p.mainTap c.mainTap ∧ shifts p.acq c.acq ∧ shifts p.trk c.trk
    ∧ broughtInto 1 1048576 p.timingStep c.timingStep ∧ broughtInto 1 134217727 p.timingRange c.timingRange
    ∧ broughtInto 1 64 p.powerStep c.powerStep ∧ broughtInto 1 127 p.powerRange c.powerRange
    ∧ broughtInto 1 32767 p.freqStep c.freqStep ∧ broughtInto 1 32767 p.freqRange c.freqRange
    ∧ broughtInto 0 8388607 p.settleTiming c.settleTiming ∧ broughtInto 0 32767 p.settlePower c.settlePower
    ∧ broughtInto 0 32767 p.settleFreq c.settleFreq ∧ broughtInto 0 255 p.settleHealth c.settleHealth
    ∧ broughtInto 0 8388607 p.relapseTiming c.relapseTiming ∧ broughtInto 0 32767 p.relapsePower c.relapsePower
    ∧ broughtInto 0 255 p.impaired c.impaired ∧ broughtInto 0 255 p.snrMin c.snrMin
    ∧ broughtInto 1 8 p.settleTarget c.settleTarget ∧ broughtInto 1 64 p.acquireLimit c.acquireLimit
    ∧ broughtInto 10 65535 p.acquirePeriod c.acquirePeriod ∧ broughtInto 10 65535 p.trackingPeriod c.trackingPeriod
    ∧ broughtInto 10 65535 p.grace c.grace ∧ broughtInto 1 15 p.missLimit c.missLimit
    ∧ broughtInto 0 255 p.quiet c.quiet)
  ∧ ∀ (s : State) (ch : Nat) (block : List Byte) (a : Access) (rest : List Access),
    s.inReset = false → s.cmu.phase = .policyRead ch → s.oldest (isPurpose .policyBlock) a rest → block.length = 64 →
    let old := s.policy ch
    let p := (Policy.read block).clamp
    let barred := (∃ k ∈ s.kdir, k.1.channel = ch) ∧
      (p.mainTap ≠ old.mainTap ∨ p.timingStep < old.timingStep ∨ p.powerStep < old.powerStep
        ∨ p.freqStep < old.freqStep ∨ p.timingRange < old.timingRange ∨ p.powerRange < old.powerRange
        ∨ p.freqRange < old.freqRange)
    let st := if p = Policy.read block then Status.done else .doneClamped
    let y := s.ended rest
    let opens := { y with
      channels := s.channels.setIfInBounds ch { s.channel ch with policy := p, state := .opened } }
    (barred → Answers (exec (.policyBlockReadEnd (some block)) s) y .inUse)
    ∧ (¬ barred →
      ((s.channel ch).state ≠ .closed →
        Answers (exec (.policyBlockReadEnd (some block)) s)
          { y with channels := s.channels.setIfInBounds ch { s.channel ch with policy := p } } st)
      ∧ ((s.channel ch).state = .closed → s.run ≠ .running →
        Answers (exec (.policyBlockReadEnd (some block)) s) opens st)
      ∧ ((s.channel ch).state = .closed → s.run = .running → ch < 16 →
        Answers (exec (.policyBlockReadEnd (some block)) s)
          { opens with quietTimers := s.quietTimers.setIfInBounds ch (some ⟨quietInterval p.quiet, s.now⟩) } st))
    ∧ Answers (exec (.policyBlockReadEnd none) s) (notify ⟨.memoryFault, 8, ⟨ch, 0⟩, s.now, ch⟩ y) .memory

/-- READ_CHANNEL and IDENTIFY write what they report into the trial area and the capability record (R155, R180); the
end of the write answers DONE, READ_CHANNEL with CLEAR taking from each counter what it reported (R156), or MEMORY
with MEMORY_FAULT (R157), whose key, for IDENTIFY, is zero by the model's reading (log 25). The channel record and the
capability record are laid out as R196 and R197 have them. -/
def Obligations.RecordsReported : Prop :=
  (∀ (s : State) (d : List Byte), s.Executing 0x05 d →
    let ch := byteAt d 4
    (15 < ch → Answers (exec .readChannel s) s .keyInvalid)
    ∧ (ch ≤ 15 →
      NextIs (exec .readChannel s)
        { s with cmu := s.cmuIn (.channelWrite ch ((byteAt d 8).testBit 0) (s.channel ch).counters) }
        [ownWrite .channelRecord (s.controlBase + 0xA000)
          (channelRecordBytes ch (s.channel ch) (s.kdir.filter fun p => p.1.channel == ch).length)]))
  ∧ (∀ (s : State) (ch : Nat) (clear : Bool) (r : ChanCounters) (a : Access) (rest : List Access),
    s.inReset = false → s.cmu.phase = .channelWrite ch clear r → s.oldest (isPurpose .channelRecord) a rest →
    let k := (s.channel ch).counters
    Answers (exec (.channelRecordWriteEnd false) s)
      { s.ended rest with
        channels := if clear then s.channels.setIfInBounds ch
            { s.channel ch with
              counters := ⟨k.taken - r.taken, k.unknown - r.unknown, k.lapsedCapture - r.lapsedCapture,
                k.collided - r.collided, k.dropped - r.dropped, k.torn - r.torn⟩ }
          else s.channels } .done
    ∧ Answers (exec (.channelRecordWriteEnd true) s)
        (notify ⟨.memoryFault, 9, ⟨ch, 0⟩, s.now, ch⟩ (s.ended rest)) .memory)
  ∧ (∀ (s : State) (d : List Byte), s.Executing 0x21 d →
    NextIs (exec .identify s) { s with cmu := s.cmuIn .identifyWrite }
      [ownWrite .identify (s.controlBase + 0xB000) (capabilityBytes s.capacity s.strapBase.toNat s.run)])
  ∧ (∀ (s : State) (a : Access) (rest : List Access),
    s.inReset = false → s.cmu.phase = .identifyWrite → s.oldest (isPurpose .identify) a rest →
    Answers (exec (.identifyWriteEnd false) s) (s.ended rest) .done
    ∧ Answers (exec (.identifyWriteEnd true) s) (notify ⟨.memoryFault, 15, ⟨0, 0⟩, s.now, 0⟩ (s.ended rest)) .memory)
  ∧ (∀ (ch : Nat) (c : Channel) (admitted : Nat),
    let b := channelRecordBytes ch c admitted
    b.length = 128 ∧ field b 0 1 = le 1 2 ∧ field b 1 1 = le 1 ch ∧ field b 2 1 = le 1 c.state.code
    ∧ field b 4 2 = le 2 admitted ∧ field b 8 4 = le 4 c.counters.taken ∧ field b 12 4 = le 4 c.counters.unknown
    ∧ field b 16 4 = le 4 c.counters.lapsedCapture ∧ field b 20 4 = le 4 c.counters.collided
    ∧ field b 24 4 = le 4 c.counters.dropped ∧ field b 28 4 = le 4 c.counters.torn
    ∧ field b 3 1 = [0] ∧ field b 6 2 = [0, 0] ∧ field b 32 32 = List.replicate 32 0
    ∧ field b 64 64 = c.policy.toBytes)
  ∧ ∀ (capacity strap : Nat) (run : RunState),
    let b := capabilityBytes capacity strap run
    b.length = 32 ∧ field b 0 4 = le 4 0x2640 ∧ field b 4 4 = [16, 32, 64, 64] ∧ field b 8 2 = le 2 8192
    ∧ field b 10 2 = le 2 capacity ∧ field b 12 2 = le 2 256 ∧ field b 14 2 = le 2 1024 ∧ field b 16 2 = le 2 1024
    ∧ field b 18 2 = [6, 5] ∧ field b 20 2 = le 2 strap ∧ field b 22 1 = le 1 run.code
    ∧ field b 23 9 = List.replicate 9 0

/-- ADMIT makes its checks in order (R19) and writes the new context's image at the lowest free index (R4, R20):
INITIAL, with its initial offsets clamped to the ranges of the channel's policy and the AT_LIMIT flag of each axis
clamped, the identity taps of its main tap, and everything else zero. When that write ends without error the key
enters the directory and the calendar, due now, and the index is reported (R20, R110); an error answers MEMORY and the
context stays VACANT. -/
def Obligations.Admitted : Prop :=
  (∀ (s : State) (d : List Byte), s.Executing 0x10 d →
    let key := getKey d 4
    let bad := 15 < key.channel ∨ key.station = 0 ∨ 16383 < key.station
    let free := fun (i : Nat) => (∀ p ∈ s.kdir, p.2 ≠ i)
      ∧ (∀ j, s.engine.job = some j → s.engine.mark.isSome = true → j.index ≠ i)
      ∧ (∀ e, s.findEntry i = some e → (s.entry e).cond ≠ .fetching)
    (bad → Answers (exec .admitLink s) s .keyInvalid)
    ∧ (¬ bad →
      (s.contextWindow = none → Answers (exec .admitLink s) s .state)
      ∧ (s.contextWindow ≠ none →
        ((s.channel key.channel).state = .closed → Answers (exec .admitLink s) s .closed)
        ∧ ((s.channel key.channel).state ≠ .closed →
          ((∃ p ∈ s.kdir, p.1 = key) → Answers (exec .admitLink s) s .duplicate)
          ∧ ((∀ p ∈ s.kdir, p.1 ≠ key) →
            ((∀ i, i < s.capacity → ¬ free i) → Answers (exec .admitLink s) s .full)
            ∧ (∀ i, i < s.capacity → free i → (∀ k, k < i → ¬ free k) →
              let p := s.policyOf key
              let limit := fun (r : Nat) (v : Int) => if (r : Int) < v then (r : Int) else if v < -r then -r else v
              let beyond := fun (r : Nat) (v : Int) => decide ((r : Int) < v ∨ v < -r)
              let timing := getInt d 8 4
              let freq := getInt d 12 2
              let power := getInt d 14 1
              let c : Context :=
                { key := key
                  state := .initial
                  lapse := .noReason
                  step := 0
                  settle := 0
                  impaired := false
                  timingAtLimit := beyond p.timingRange timing
                  powerAtLimit := beyond p.powerRange power
                  freqAtLimit := beyond p.freqRange freq
                  calKind := some .offer
                  miss := 0
                  due := s.now
                  offTiming := limit p.timingRange timing
                  offFreq := limit p.freqRange freq
                  offPower := limit p.powerRange power
                  hold := false
                  freeze := false
                  basis := 0
                  corrSeq := 0
                  taps := (List.range 12).map fun k => if k = p.mainTap then ⟨8192, 0⟩ else ⟨0, 0⟩
                  pending := none
                  meas := ⟨0, 0, 0, 0, 0, 0⟩
                  counters := ⟨0, 0, 0, 0, 0, 0, 0⟩ }
              NextIs (exec .admitLink s)
                { s with
                  cmu := s.cmuIn (.admitWrite key i (c.timingAtLimit || c.powerAtLimit || c.freqAtLimit)) }
                [ownWrite .admitImage (s.contextAddr i) c.toBytes]))))))
  ∧ ∀ (s : State) (key : Key) (idx : Nat) (clamped : Bool) (a : Access) (rest : List Access),
    s.Steady → s.Judged → s.cmu.phase = .admitWrite key idx clamped → s.oldest (isPurpose .admitImage) a rest →
    NextIs (exec (.admitImageWriteEnd false) s)
      { s.ended rest with
        kdir := kdirInsert key idx s.kdir
        calendar := s.calendarWith ⟨idx, key, .offer, s.now, 0, .acquire, s.now, false⟩
        cmu := s.cmuIn (.resultWrite 1 (if clamped then .doneClamped else .done)) }
      [ownWrite .resultField (s.controlBase + 0x2000 + 32 * s.cmu.consumer + 16) (le 2 idx)]
    ∧ Answers (exec (.admitImageWriteEnd true) s) (notify ⟨.memoryFault, 3, key, s.now, 0⟩ (s.ended rest)) .memory

/-- RELEASE of a context (R21, R22): its key leaves the directory, its entry the calendar and the lapse list, its
waiting CAPTURE job the queue, a CAPTURE job in flight is marked RELEASED, the requests that wait for it are answered,
and its header is written with zeros. A VALID entry, or a RETIRING one whose write-back has ended, is invalidated
without write-back; a pinned or FETCHING one is marked; the write-back outstanding of a RETIRING one is awaited first,
while the allocation that chose it takes the entry as an INVALID one (R92); a RETIRING one that is pinned is left to
the job (log 22). The end of the header write goes to the next context of the channel, which is visited in the same
way, or after the last to the answer: DONE, or MEMORY where a header write failed. -/
def Obligations.Released : Prop :=
  let header := fun (x : State) (idx : Nat) => [ownWrite .releaseHeader (x.contextAddr idx) (List.replicate 16 0)]
  let visits := fun (o : Host.Outcome State Fault Refusal) (x : State) (k : Key) (idx : Nat)
      (more : List (Key × Nat)) (failed : Bool) =>
    let y := x.leaving k idx
    let writes := { y with cmu := x.cmuIn (.releaseWrite k idx more failed) }
    let drains := { y with cmu := x.cmuIn (.releaseDrain k idx more failed) }
    let gone := fun (z : State) (e : Nat) => { z with
      entries := x.entriesWith e {}
      recency := x.recency.filter fun d => d != e
      txns := x.txns.map (Txn.dropHolds idx) }
    let marked := fun (e : Nat) => x.entriesWith e { x.entry e with released := true }
    (x.inProgress (isWriteBack idx) = false →
      (x.findEntry idx = none → NextIs o writes (header x idx))
      ∧ (∀ e, x.findEntry idx = some e →
        ((x.entry e).cond = .fetching ∨ (x.entry e).pinned = true →
          NextIs o { writes with entries := marked e } (header x idx))
        ∧ ((x.entry e).cond ≠ .fetching → (x.entry e).pinned = false →
          ((x.entry e).cond = .retiring → ∀ r ∈ x.reqs, r.wait ≠ .writeBack e) →
          NextIs o (gone writes e) (header x idx))))
    ∧ (x.inProgress (isWriteBack idx) = true → x.findEntry idx = none → NextIs o drains [])
    ∧ (x.inProgress (isWriteBack idx) = true → ∀ e, x.findEntry idx = some e → (x.entry e).cond = .retiring →
      ((x.entry e).pinned = true → NextIs o { drains with entries := marked e } [])
      ∧ ((x.entry e).pinned = false →
        ((∀ r ∈ x.reqs, r.wait ≠ .writeBack e) → NextIs o (gone drains e) [])
        ∧ (∀ pre post who i key, x.reqs = pre ++ ⟨who, i, key, .writeBack e⟩ :: post → who.isWrite = false →
          i ≠ idx → (∀ r ∈ pre ++ post, r.index ≠ i ∧ r.index ≠ idx ∧ r.wait ≠ .writeBack e) →
          (∀ d, d < e → (x.entry d).cond ≠ .invalid) →
          NextIs o
            { gone drains e with
              entries := x.entriesWith e { cond := .fetching, index := i, key := key }
              reqs := ⟨who, i, key, .fetch⟩ :: (pre ++ post) }
            [⟨.fetch i, x.contextAddr i, .read 256⟩])))
  (∀ (s : State) (d : List Byte), s.Steady → s.Executing 0x11 d →
    let key := getKey d 4
    let valid := key.channel ≤ 15 ∧ key.station ≤ 16383
    (¬ valid → Answers (exec .release s) s .keyInvalid)
    ∧ (valid → key.station ≠ 0 → s.lookup key = none → Answers (exec .release s) s .notFound)
    ∧ (valid → key.station = 0 → (∀ p ∈ s.kdir, p.1.channel ≠ key.channel) → Answers (exec .release s) s .done)
    ∧ (∀ idx, valid → key.station ≠ 0 → s.lookup key = some idx → visits (exec .release s) s key idx [] false)
    ∧ (∀ k idx more, valid → key.station = 0 →
      (s.kdir.filter fun p => p.1.channel == key.channel) = (k, idx) :: more →
      visits (exec .release s) s k idx more false))
  ∧ ∀ (s : State) (key : Key) (idx : Nat) (failed error : Bool) (a : Access) (rest : List Access), s.Steady →
    let ended := noticeIf error ⟨.memoryFault, 4, key, s.now, idx⟩ (s.ended rest)
    (s.Judged → s.oldest (isPurpose .releaseHeader) a rest →
      (s.cmu.phase = .releaseWrite key idx [] failed →
        Answers (exec (.releaseHeaderWriteEnd error) s) ended (if failed || error then .memory else .done))
      ∧ (∀ k i more, s.cmu.phase = .releaseWrite key idx ((k, i) :: more) failed →
        visits (exec (.releaseHeaderWriteEnd error) s) ended k i more (failed || error)))
    ∧ (∀ more, s.cmu.phase = .releaseDrain key idx more failed → s.oldest (isWriteBack idx) a rest →
      s.findEntry idx = none →
      NextIs (exec (.writeBackEnd idx error) s)
        { noticeIf error ⟨.memoryFault, 2, a.writeBackKey, s.now, idx⟩ (s.ended rest) with
          cmu := s.cmuIn (.releaseWrite key idx more failed) } (header s idx))

/-- REVIVE of a link (R23): KEY, NOT_FOUND, and STATE for one that is not LAPSED; otherwise the cache is asked for its
context. Given it, the context is INITIAL, or HELD with the hold flag set, with no lapse reason and its counts zero,
and it has a calendar entry due now. With station 0 the links of the channel are visited in key order, those that are
not LAPSED passed over; each is asked for when the one before has been given. After the last the answer is DONE, or
MEMORY where a fetch failed; a channel with no LAPSED context is answered DONE. -/
def Obligations.Revived : Prop :=
  let walks := fun (o : Host.Outcome State Fault Refusal) (x : State) (keys : List (Key × Nat)) (failed : Bool) =>
    ((∀ p ∈ keys, x.calEntry p.2 ≠ none) → Answers o x (if failed then .memory else .done))
    ∧ ∀ pre k i more, keys = pre ++ (k, i) :: more → (∀ p ∈ pre, x.calEntry p.2 ≠ none) → x.calEntry i = none →
      let asks := fun (w : Wait) => { x with
        cmu := x.cmuIn (.reviving k i more failed), reqs := x.reqs ++ [⟨.revive, i, k, w⟩] }
      ((∃ e, x.ServedBy i k e) ∨ x.present i k = false → NextIs o (asks .ready) [])
      ∧ ∀ e, x.present i k = true → x.findEntry i = none → x.noneWaits i → x.freeEntry = some e →
        NextIs o { asks .fetch with entries := x.entriesWith e { cond := .fetching, index := i, key := k } }
          [⟨.fetch i, x.contextAddr i, .read 256⟩]
  (∀ (s : State) (d : List Byte), s.Steady → s.Executing 0x12 d →
    let key := getKey d 4
    let valid := key.channel ≤ 15 ∧ key.station ≤ 16383
    (¬ valid → Answers (exec .revive s) s .keyInvalid)
    ∧ (valid → key.station ≠ 0 →
      (s.lookup key = none → Answers (exec .revive s) s .notFound)
      ∧ (∀ idx, s.lookup key = some idx →
        (s.calEntry idx ≠ none → Answers (exec .revive s) s .state)
        ∧ (s.calEntry idx = none → walks (exec .revive s) s [(key, idx)] false)))
    ∧ (valid → key.station = 0 →
      walks (exec .revive s) s (s.kdir.filter fun p => p.1.channel == key.channel) false))
  ∧ ∀ (s : State) (key : Key) (idx e : Nat) (rest : List (Key × Nat)) (failed : Bool),
    s.Steady → s.cmu.phase = .reviving key idx rest failed → s.Ready .revive idx key →
    let x := s.entry e
    let c := x.image
    let y := { s with reqs := s.reqsWithout .revive }
    (s.ServedBy idx key e →
      walks (exec .reviveContextGiven s)
        { y with
          entries := s.entriesWith e { x with
            image := { c with
              state := if c.hold then .held else .initial, lapse := .noReason, step := 0, settle := 0, miss := 0 }
            dirty := true }
          recency := s.recencyWith e
          calendar := s.calendarWith
            ⟨idx, key, .offer, s.now, 0, if c.hold then .tracking else .acquire, s.now, false⟩ } rest failed)
    ∧ (s.present idx key = false → walks (exec .reviveContextGiven s) y rest failed)

/-- FORCE_DUE makes its checks in order (R122). On a link, an OFFER or OFFER_FORCED entry becomes OFFER_FORCED, due
now, its miss count kept, and a GRACE entry is left as it is (R123). With station 0 the command takes the keys of the
channels the mask names when it starts and visits their links one after another, the lowest channel first, a LAPSED
one passed over, other steps falling between the visits; after the last it answers DONE (R124). That a step of the row
makes one visit, and the one after the last visit the answer, is the model's choice (log 18). -/
def Obligations.ForcedDue : Prop :=
  let visits := fun (o : Host.Outcome State Fault Refusal) (s : State) (keys : List (Key × Nat)) =>
    (keys = [] → Answers o s .done)
    ∧ ∀ p more, keys = p :: more →
      NextIs o { s with calendar := s.calendarForced p.2, cmu := s.cmuIn (.forcing more) } []
  (∀ (s : State) (d : List Byte), s.Executing 0x13 d →
    let mask := getLe d 4 4
    let station := getLe d 8 2
    let wide := mask = 0 ∨ 65536 ≤ mask
    (16383 < station → Answers (exec .forceDue s) s .keyInvalid)
    ∧ (station ≤ 16383 →
      (wide → Answers (exec .forceDue s) s .range)
      ∧ (¬ wide → station ≠ 0 →
        ((∀ c, c < 16 → mask ≠ 2 ^ c) → Answers (exec .forceDue s) s .range)
        ∧ (∀ c, c < 16 → mask = 2 ^ c →
          (s.lookup ⟨c, station⟩ = none → Answers (exec .forceDue s) s .notFound)
          ∧ (∀ idx, s.lookup ⟨c, station⟩ = some idx →
            (s.calEntry idx = none → Answers (exec .forceDue s) s .state)
            ∧ (s.calEntry idx ≠ none →
              Answers (exec .forceDue s) { s with calendar := s.calendarForced idx } .done))))
      ∧ (¬ wide → station = 0 →
        visits (exec .forceDue s) s
          (((List.range 16).filter fun c => mask.testBit c).flatMap fun c => s.kdir.filter fun p => p.1.channel == c))))
  ∧ ∀ (s : State) (keys : List (Key × Nat)), s.inReset = false → s.cmu.phase = .forcing keys →
    visits (exec .forceDue s) s keys

/-- TRIAL makes its checks in order and reads its record (R79); with the record read, a TRIAL job joins the queue and
CMU waits for its result, FULL answering where the queue has no place (R80, R66). An error answers MEMORY. -/
def Obligations.TrialQueued : Prop :=
  (∀ (s : State) (d : List Byte), s.Executing 0x14 d →
    let key := getKey d 4
    let addr := getAddress d 8
    let bad := 15 < key.channel ∨ key.station = 0 ∨ 16383 < key.station
    (bad → Answers (exec .trial s) s .keyInvalid)
    ∧ (¬ bad → s.run = .idle → Answers (exec .trial s) s .state)
    ∧ (¬ bad → s.run ≠ .idle → addr % 64 ≠ 0 → Answers (exec .trial s) s .range)
    ∧ (¬ bad → s.run ≠ .idle → addr % 64 = 0 →
      (s.lookup key = none → Answers (exec .trial s) s .notFound)
      ∧ (∀ idx, s.lookup key = some idx →
        NextIs (exec .trial s)
          { s with cmu := s.cmuIn (.trialRead key idx ((byteAt d 13).testBit 0)) } [⟨.trialRecord, addr, .read 64⟩])))
  ∧ ∀ (s : State) (key : Key) (idx : Nat) (raw : Bool) (r : List Byte) (a : Access) (rest : List Access),
    s.inReset = false → s.cmu.phase = .trialRead key idx raw → s.oldest (isPurpose .trialRecord) a rest →
    r.length = 64 →
    (s.queue.length < 64 →
      NextIs (exec (.trialRecordReadEnd (some r)) s)
        { s.ended rest with
          queue := s.queue ++ [⟨.trial raw s.cmu.consumer, idx, key, r, BitVec.ofNat 32 (getLe r 12 4)⟩]
          cmu := s.cmuIn .trialWait } [])
    ∧ (64 ≤ s.queue.length → Answers (exec (.trialRecordReadEnd (some r)) s) (s.ended rest) .full)
    ∧ Answers (exec (.trialRecordReadEnd none) s) (notify ⟨.memoryFault, 5, key, s.now, 0⟩ (s.ended rest)) .memory

/-- READ_CONTEXTS makes its checks (R102) and visits the keys from the named one on in key order, as many as the count
(R103): each context is asked of the cache, composed as the part would supply it and written at the next 256 bytes
(R104). The end of the last write, or of one in error, writes the result fields: how many of the count were not
copied, and the last key copied (R105). -/
def Obligations.ContextsRead : Prop :=
  (∀ (s : State) (d : List Byte), s.Steady → s.Executing 0x15 d →
    let key := getKey d 4
    let count := if byteAt d 8 = 0 then 256 else byteAt d 8
    let dest := getAddress d 12
    let len := 256 * count
    let keys := (s.kdir.filter fun p => !(p.1.lt key)).take count
    let valid := key.channel ≤ 15 ∧ key.station ≤ 16383
    let clear := dest % 256 = 0 ∧ dest + len ≤ 2 ^ 40
      ∧ (∀ w, s.contextWindow = some w → ¬ (dest < w.base + w.size ∧ w.base < dest + len))
      ∧ ¬ (dest < s.controlBase + 0x10000 ∧ s.controlBase < dest + len)
    let result := s.controlBase + 0x2000 + 32 * s.cmu.consumer
    (¬ valid → Answers (exec .readContexts s) s .keyInvalid)
    ∧ (valid → ¬ clear → Answers (exec .readContexts s) s .range)
    ∧ (valid → clear →
      (keys = [] →
        NextIs (exec .readContexts s) { s with cmu := s.cmuIn (.resultWrite 2 .done) }
          [ownWrite .resultField (result + 20) (le 2 count),
            ownWrite .resultField (result + 24) [0, 0, 0, 0]])
      ∧ (∀ k idx more e, keys = (k, idx) :: more → s.ServedBy idx k e →
        NextIs (exec .readContexts s)
          { s with
            cmu := s.cmuIn (.copying k idx ⟨more, dest, count, 0, ⟨0, 0⟩⟩)
            reqs := s.reqs ++ [⟨.copy, idx, k, .ready⟩] } [])))
  ∧ (∀ (s : State) (key : Key) (idx e : Nat) (w : CopyWork),
    s.Steady → s.cmu.phase = .copying key idx w → s.Ready .copy idx key → s.ServedBy idx key e →
    NextIs (exec .contextCopyComposed s)
      { s with
        cmu := s.cmuIn (.copyWrite key w)
        reqs := s.reqsWithout .copy
        recency := s.recencyWith e }
      [ownWrite .contextCopy (w.dest + 256 * w.made) (s.supply idx (s.entry e).image).toBytes])
  ∧ ∀ (s : State) (key : Key) (w : CopyWork) (a : Access) (rest : List Access),
    s.Steady → s.cmu.phase = .copyWrite key w → s.oldest (isPurpose .contextCopy) a rest →
    let result := s.controlBase + 0x2000 + 32 * s.cmu.consumer
    let fields := fun (made : Nat) (k : Key) =>
      [ownWrite .resultField (result + 20) (le 2 (w.count - made)), ownWrite .resultField (result + 24) k.toBytes]
    (w.rest = [] →
      NextIs (exec (.copyWriteEnd false) s) { s.ended rest with cmu := s.cmuIn (.resultWrite 2 .done) }
        (fields (w.made + 1) key))
    ∧ (∀ k idx more e, w.rest = (k, idx) :: more → s.ServedBy idx k e →
      NextIs (exec (.copyWriteEnd false) s)
        { s.ended rest with
          cmu := s.cmuIn (.copying k idx ⟨more, w.dest, w.count, w.made + 1, key⟩)
          reqs := s.reqs ++ [⟨.copy, idx, k, .ready⟩] } [])
    ∧ NextIs (exec (.copyWriteEnd true) s)
        { notify ⟨.memoryFault, 7, key, s.now, w.made⟩ (s.ended rest) with cmu := s.cmuIn (.resultWrite 2 .memory) }
        (fields w.made w.last)

/-- SET_NOTIFY takes N of 0 as 1 and above 64 as 64 and T above 1000 as 1000, replaces both in one event, at which the
line is judged while the coalescing timer keeps its count, and answers DONE_CLAMPED where a value was clamped and DONE
otherwise, with no access beyond its answer (R179). With T of 0 the unread count alone decides the line. After pin
reset N is 1 and T is 0, so the line stands while a notice is unread. -/
def Obligations.NotifySet : Prop :=
  (∀ (s : State) (d : List Byte), s.Executing 0x20 d →
    let n := byteAt d 8
    let t := getLe d 10 2
    let n' := if n = 0 then 1 else if 64 < n then 64 else n
    let t' := if 1000 < t then 1000 else t
    let nw := { s.nw with coalesceN := n', coalesceT := t' }
    Answers (exec .setNotify s) { s with nw := { nw with attn := nw.judge.attn } }
      (if n' = n ∧ t' = t then .done else .doneClamped))
  ∧ (∀ w : Nw, w.coalesceT = 0 → (w.judge.attn = true ↔ w.coalesceN ≤ w.notices.unread))
  ∧ State.reset.nw.coalesceN = 1 ∧ State.reset.nw.coalesceT = 0
  ∧ ∀ w : Nw, w.coalesceN = 1 → w.coalesceT = 0 → (w.judge.attn = true ↔ 0 < w.notices.unread)

/-! ## The correction arithmetic -/

/-- R26: the rounded quotient is the integer nearest the exact one, and of two equally near the one of larger
magnitude. -/
def Obligations.RoundsHalfAway : Prop :=
  ∀ (n : Int) (d : Nat), 0 < d →
    2 * (n - roundDiv n d * d).natAbs ≤ d
    ∧ (2 * (n - roundDiv n d * d).natAbs = d → n.natAbs < (roundDiv n d).natAbs * d)

/-- The scalar stages (R29, R30, R31): each delivers its limited step where the offset stays in range, and what brings
the offset to the bound on its side where it would not; the clamp flag is set exactly where the step or the range
clamp acted, and the range clamp is recorded exactly where it acted. -/
def Obligations.AxisStages : Prop :=
  let delivers := fun (a : Axis) (step : Int) (limit range : Nat) (offset : Int) =>
    let limited := if (limit : Int) < step then (limit : Int) else if step < -limit then -(limit : Int) else step
    (|offset + limited| ≤ range → a.adjust = limited ∧ a.ranged = false)
    ∧ ((range : Int) < offset + limited → a.adjust = range - offset ∧ a.ranged = true)
    ∧ (offset + limited < -(range : Int) → a.adjust = -(range : Int) - offset ∧ a.ranged = true)
    ∧ (a.clamped = true ↔ (limit : Int) < |step| ∨ a.ranged = true)
  ∀ (p : Policy) (e offset : Int) (shift : Nat),
    delivers (stageT e shift p offset) (roundDiv e (2 ^ shift)) p.timingStep p.timingRange offset
    ∧ delivers (stageP e shift p offset) (roundDiv (-e) (4 * 2 ^ shift)) p.powerStep p.powerRange offset
    ∧ delivers (stageF e shift p offset) (roundDiv (-e) (2 ^ shift)) p.freqStep p.freqRange offset

/-- The tap stage and the health (R34 to R37, R39). The blend moves the captured taps towards the identity set by the
shift; the convolution sums the products of the issued taps and the blend, the main tap's index aligned, and divides
by 8192. The normalisation: with the real part of the main tap below 1024 or above 262,143 there is no tap set;
otherwise the set has twelve taps, the real part of the main tap is 8192, every other component is its scaled value
where that fits 16 bits and the bound on its side where it does not, and CLIPPED says that one did not. The health is
256 times the main tap's share of the energy, rounded down, at most 255, and 0 for taps of all zeros. -/
def Obligations.TapsNormalised : Prop :=
  (∀ (captured issued : List Tap) (m shift : Nat), m < 12 →
    let r := stageQ captured issued m shift
    let d := fun (k : Nat) =>
      let main : Int := if k = m then 8192 else 0
      let c := tapAt captured k
      (⟨main + roundDiv (c.re - main) (2 ^ shift), roundDiv c.im (2 ^ shift)⟩ : Tap)
    let terms := fun (n : Nat) (f : Tap → Tap → Int) =>
      ((List.range 12).map fun k => if k ≤ n + m ∧ n + m - k < 12 then f (tapAt issued k) (d (n + m - k)) else 0).sum
    let f := roundDiv 67108864 r.r.toNat
    let scaled := fun (x : Int) => roundDiv (x * f) 8192
    let outside := fun (x : Int) => scaled x < -32768 ∨ 32767 < scaled x
    let part := fun (x v : Int) =>
      (¬ outside x ∧ v = scaled x) ∨ (scaled x < -32768 ∧ v = -32768) ∨ (32767 < scaled x ∧ v = 32767)
    (∀ n, n < 12 →
      (tapAt r.q n).re = roundDiv (terms n fun i e => i.re * e.re - i.im * e.im) 8192
      ∧ (tapAt r.q n).im = roundDiv (terms n fun i e => i.re * e.im + i.im * e.re) 8192)
    ∧ r.r = (tapAt r.q m).re
    ∧ (r.taps = none ↔ r.r < 1024 ∨ 262143 < r.r)
    ∧ ∀ ts, r.taps = some ts →
      ts.length = 12 ∧ 256 ≤ f ∧ f ≤ 65536 ∧ (tapAt ts m).re = 8192
      ∧ (∀ n, n < 12 → (n ≠ m → part (tapAt r.q n).re (tapAt ts n).re) ∧ part (tapAt r.q n).im (tapAt ts n).im)
      ∧ (r.clipped = true ↔ ∃ n, n < 12 ∧ (outside (tapAt r.q n).re ∨ outside (tapAt r.q n).im)))
  ∧ ∀ (ts : List Tap) (m : Nat),
    let energy := fun (k : Nat) => (tapAt ts k).re ^ 2 + (tapAt ts k).im ^ 2
    let total := ((List.range 12).map energy).sum
    (total = 0 → healthOf ts m = 0)
    ∧ (0 < total → (healthOf ts m : Int) = min 255 (energy m * 256 / total))

/-- What an applied update makes of its context (R9, R10, R12, R13, R14, R38 to R45). Its figures (R27, R28, R33): the
tracking gains in TRACKING without a relapse and the acquisition gains otherwise; the scalar stages on the record's
errors and the snapshot's offsets; the tap stage on the record's taps unless they are absent, frozen, or, with
TAPS_SKIPPED, below the SNR minimum; HELD uses none of them. The last measurement, with the health of the set the update
leaves to issue; in HELD no correction and no change of state; rejected none either, with rejected counted and UPDATE_REJECTED alone; else
a correction of the next id becomes the pending one, replacing one still present, and the state, the lapse reason, the
counts and the correction's status follow the settle and relapse tests. IMPAIRED follows the health but for a rejected
update, the AT_LIMIT flags the range clamps of one that formed a correction. The notices stand in the order
STATE_CHANGE, ADJUST_CLAMPED, IMPAIRED or RESTORED. The calendar is handed the change of period class, or the removal,
that the change of state makes (R76). -/
def Obligations.UpdateVerdicts : Prop :=
  ∀ (c : Context) (s : Snapshot) (r : List Byte) (stamp : Tick) (tally : Nat),
    let u := applyUpdate c s r stamp tally
    let a := u.ctx
    let f := figures s r (captureGains s r)
    let settle := if f.settles then c.settle + 1 else 0
    let relapse := s.policy.relapseTiming < (recTiming r).natAbs ∨ s.policy.relapsePower < (recPower r).natAbs
    let forms := s.state ≠ .held ∧ f.degenerate = false
    let issued := healthOf s.taps s.policy.mainTap
    let measured := fun (health : Nat) =>
      a.meas = ⟨recTiming r, recPower r, recFreq r, recSnr r, health, stamp⟩
    let flagged := fun (health : Nat) => a.impaired = decide (health < s.policy.impaired)
    let moved := fun (health : Nat) =>
      if c.impaired = a.impaired then ([] : List (NoticeKind × Nat × Nat))
      else [(if a.impaired then .impaired else .restored, 0, health)]
    let limits := fun (t p q : Bool) => a.timingAtLimit = t ∧ a.powerAtLimit = p ∧ a.freqAtLimit = q
    let verdict := fun (st : CtxState) (why : LapseReason) (step settle : Nat) (status : CorrStatus) =>
      a.state = st ∧ a.lapse = why ∧ a.step = step ∧ a.settle = settle ∧ a.corrSeq = (c.corrSeq + 1) % 65536
      ∧ ∃ k, a.pending = some k ∧ k.status = status ∧ k.id = (c.corrSeq + 1) % 65536 ∧ k.basis = s.basis
        ∧ (status = .abort → k.taps = none ∧ k.timing = 0 ∧ k.power = 0 ∧ k.freq = 0 ∧ k.clipped = false
          ∧ k.tapsSkipped = false ∧ k.timingClamped = false ∧ k.powerClamped = false ∧ k.freqClamped = false)
        ∧ (status ≠ .abort → k.taps = f.newTaps ∧ k.timing = f.timing.adjust ∧ k.power = f.power.adjust
          ∧ k.freq = f.freq.adjust ∧ k.clipped = f.clipped ∧ k.tapsSkipped = f.tapsSkipped
          ∧ k.timingClamped = f.timing.clamped ∧ k.powerClamped = f.power.clamped ∧ k.freqClamped = f.freq.clamped)
    let wants := recTapsPresent r = true ∧ s.freeze = false
    (s.state = .tracking → ¬ relapse → f = figures s r s.policy.trk)
    ∧ (s.state ≠ .tracking ∨ relapse → f = figures s r s.policy.acq)
    ∧ (∀ g : Gains, let h := figures s r g
      h.timing = stageT (recTiming r) g.timing s.policy s.offTiming
      ∧ h.power = stageP (recPower r) g.power s.policy s.offPower
      ∧ h.freq = stageF (recFreq r) g.freq s.policy s.offFreq
      ∧ (wants → s.policy.snrMin ≤ recSnr r → h.tapsSkipped = false
        ∧ h.tapStage = some (stageQ (recTaps r) s.taps s.policy.mainTap g.taps))
      ∧ (wants → recSnr r < s.policy.snrMin → h.tapsSkipped = true ∧ h.tapStage = none)
      ∧ (¬ wants → h.tapsSkipped = false ∧ h.tapStage = none)
      ∧ (h.tapStage = none → h.newTaps = none ∧ h.degenerate = false ∧ h.clipped = false)
      ∧ ∀ q, h.tapStage = some q → h.newTaps = q.taps ∧ (h.degenerate = true ↔ q.taps = none) ∧ h.clipped = q.clipped)
    ∧ (c.state = a.state → u.handOver = .nothing)
    ∧ (c.state ≠ a.state →
      (a.state = .tracking → u.handOver = .nowTracking) ∧ (a.state = .lapsed → u.handOver = .remove)
      ∧ (a.state = .acquiring → u.handOver = if c.state = .tracking then .nowAcquire else .nothing))
    ∧ a.counters.captures = min 4294967295 (c.counters.captures + 1)
    ∧ a.counters.superseded = min 65535 (c.counters.superseded + tally)
    ∧ a.counters.delivered = c.counters.delivered ∧ a.counters.lost = c.counters.lost
    ∧ a.hold = c.hold ∧ a.freeze = c.freeze ∧ a.taps = c.taps ∧ a.basis = c.basis
    ∧ a.offTiming = c.offTiming ∧ a.offPower = c.offPower ∧ a.offFreq = c.offFreq
    ∧ f.health = healthOf (match f.newTaps with | none => s.taps | some ts => ts) s.policy.mainTap
    ∧ (f.settles = true ↔ (recTiming r).natAbs ≤ s.policy.settleTiming ∧ (recPower r).natAbs ≤ s.policy.settlePower
      ∧ (recFreq r).natAbs ≤ s.policy.settleFreq
      ∧ (s.freeze = true ∨ recTapsPresent r = false ∨ s.policy.settleHealth ≤ f.health))
    ∧ (s.state = .held ∨ f.degenerate = true →
      a.state = c.state ∧ a.pending = c.pending ∧ a.corrSeq = c.corrSeq ∧ a.step = c.step ∧ a.settle = c.settle
      ∧ a.counters.replaced = c.counters.replaced ∧ a.counters.clipped = c.counters.clipped
      ∧ measured issued ∧ limits c.timingAtLimit c.powerAtLimit c.freqAtLimit)
    ∧ (s.state = .held → a.counters.rejected = c.counters.rejected ∧ flagged issued ∧ u.notices = moved issued)
    ∧ (s.state ≠ .held → f.degenerate = true →
      a.counters.rejected = min 65535 (c.counters.rejected + 1) ∧ a.impaired = c.impaired
      ∧ ∀ q, f.tapStage = some q → u.notices = [(.updateRejected, 1, (q.r % 4294967296).toNat)])
    ∧ (forms →
      a.counters.rejected = c.counters.rejected
      ∧ a.counters.replaced =
        (match c.pending with
          | none => c.counters.replaced
          | some _ => min 65535 (c.counters.replaced + 1))
      ∧ a.counters.clipped = (if f.clipped then min 65535 (c.counters.clipped + 1) else c.counters.clipped)
      ∧ measured f.health ∧ flagged f.health ∧ limits f.timing.ranged f.power.ranged f.freq.ranged
      ∧ ∀ k, a.pending = some k → u.notices =
        (if c.state = a.state then [] else [(.stateChange, c.state.code + 16 * a.state.code, a.lapse.code)])
        ++ (if k.timingClamped || k.powerClamped || k.freqClamped then
            [(.adjustClamped, (if k.timingClamped then 1 else 0) + (if k.powerClamped then 2 else 0)
              + (if k.freqClamped then 4 else 0), k.id)]
          else [])
        ++ moved f.health)
    ∧ (s.state = .tracking → f.degenerate = false →
      (relapse → verdict .acquiring .noReason 0 0 .continuing)
      ∧ (¬ relapse → verdict .tracking .noReason c.step c.settle (if f.settles then .settled else .continuing)))
    ∧ (s.state ≠ .tracking → s.state ≠ .held → f.degenerate = false →
      (s.policy.settleTarget ≤ settle → verdict .tracking .noReason c.step settle .settled)
      ∧ (settle < s.policy.settleTarget → s.policy.acquireLimit ≤ c.step + 1 →
        verdict .lapsed .noSettle (c.step + 1) settle .abort)
      ∧ (settle < s.policy.settleTarget → c.step + 1 < s.policy.acquireLimit →
        verdict .acquiring .noReason (c.step + 1) settle .continuing))

/-! ## Records and invariants -/

/-- A policy with every field in its range is read back from its 64 bytes as it was written (R148, R149, R195). -/
def Obligations.PolicyRoundTrip : Prop :=
  ∀ p : Policy, p.clamp = p → p.toBytes.length = 64 ∧ Policy.read p.toBytes = p

/-- A context whose fields fit its record is read back from its 256 bytes as it was written (R192). -/
def Obligations.ContextRoundTrip : Prop :=
  ∀ c : Context, c.Fits → c.toBytes.length = 256 ∧ Context.ofBytes c.toBytes = c

/-- Every step keeps the update queue within its 64 places and with at most one CAPTURE job for a context (R66, R67),
the calendar with at most one entry for a context (R108), and the open list within its 32 transactions (R158). -/
def Obligations.StepKeepsQueue : Prop :=
  ∀ s t : State, step s = .next t →
    (s.QueueOk → t.QueueOk) ∧ (s.CalendarOk → t.CalendarOk) ∧ (s.OpenOk → t.OpenOk)

/-- Every step keeps the window table as R162 and R163 have it, and the run state moves by START, STOP and pin reset
alone (R158, R165, R166). Every step keeps the cache with at most one entry that is not INVALID for a context, and
with none for the context of a request that waits for an entry (R85, R88). -/
def Obligations.StepKeepsWindows : Prop :=
  ∀ s t : State, step s = .next t →
    (s.WindowsOk → t.WindowsOk)
    ∧ (t.run = s.run ∨ ∃ rest, s.pending = .pinReset :: rest ∨ s.pending = .start :: rest ∧ t.run = .running
      ∨ s.pending = .stop :: rest ∧ s.run = .running ∧ t.run = .stopped)
    ∧ (s.CacheOk → t.CacheOk)

/-- Every step keeps the key directory in ascending key order, one index for a key and one key for an index, each
index within the pool, and the key and index of an outstanding ADMIT write out of it (R2, R4, R19). -/
def Obligations.StepKeepsDirectory : Prop := ∀ s t : State, step s = .next t → s.DirectoryOk → t.DirectoryOk

/-- The state after pin reset meets the invariants. -/
def Obligations.InvariantsAtReset : Prop :=
  State.reset.QueueOk ∧ State.reset.WindowsOk ∧ State.reset.DirectoryOk ∧ State.reset.CacheOk ∧ State.reset.CalendarOk
    ∧ State.reset.OpenOk
end

