-- ==== Sys2Proof/Laws/State.lean ====
section
/-!
SUPPORT. One lemma per field per update: what an update of State leaves every other field at, so that no later
proof unfolds a record update. Then what a table reads after one of its records was replaced.
-/

namespace Sys2Proof.Machine

/-! ### setChannel -/

@[simp] theorem setChannel_inReset (s : State) (ch : Nat) (c : Channel) : (s.setChannel ch c).inReset = s.inReset := rfl
@[simp] theorem setChannel_now (s : State) (ch : Nat) (c : Channel) : (s.setChannel ch c).now = s.now := rfl
@[simp] theorem setChannel_strapBase (s : State) (ch : Nat) (c : Channel) : (s.setChannel ch c).strapBase = s.strapBase := rfl
@[simp] theorem setChannel_run (s : State) (ch : Nat) (c : Channel) : (s.setChannel ch c).run = s.run := rfl
@[simp] theorem setChannel_windows (s : State) (ch : Nat) (c : Channel) : (s.setChannel ch c).windows = s.windows := rfl
@[simp] theorem setChannel_assemblies (s : State) (ch : Nat) (c : Channel) : (s.setChannel ch c).assemblies = s.assemblies := rfl
@[simp] theorem setChannel_quietTimers (s : State) (ch : Nat) (c : Channel) : (s.setChannel ch c).quietTimers = s.quietTimers := rfl
@[simp] theorem setChannel_kdir (s : State) (ch : Nat) (c : Channel) : (s.setChannel ch c).kdir = s.kdir := rfl
@[simp] theorem setChannel_queue (s : State) (ch : Nat) (c : Channel) : (s.setChannel ch c).queue = s.queue := rfl
@[simp] theorem setChannel_engine (s : State) (ch : Nat) (c : Channel) : (s.setChannel ch c).engine = s.engine := rfl
@[simp] theorem setChannel_entries (s : State) (ch : Nat) (c : Channel) : (s.setChannel ch c).entries = s.entries := rfl
@[simp] theorem setChannel_recency (s : State) (ch : Nat) (c : Channel) : (s.setChannel ch c).recency = s.recency := rfl
@[simp] theorem setChannel_reqs (s : State) (ch : Nat) (c : Channel) : (s.setChannel ch c).reqs = s.reqs := rfl
@[simp] theorem setChannel_calendar (s : State) (ch : Nat) (c : Channel) : (s.setChannel ch c).calendar = s.calendar := rfl
@[simp] theorem setChannel_lapses (s : State) (ch : Nat) (c : Channel) : (s.setChannel ch c).lapses = s.lapses := rfl
@[simp] theorem setChannel_slots (s : State) (ch : Nat) (c : Channel) : (s.setChannel ch c).slots = s.slots := rfl
@[simp] theorem setChannel_promotions (s : State) (ch : Nat) (c : Channel) : (s.setChannel ch c).promotions = s.promotions := rfl
@[simp] theorem setChannel_cmu (s : State) (ch : Nat) (c : Channel) : (s.setChannel ch c).cmu = s.cmu := rfl
@[simp] theorem setChannel_nw (s : State) (ch : Nat) (c : Channel) : (s.setChannel ch c).nw = s.nw := rfl
@[simp] theorem setChannel_txns (s : State) (ch : Nat) (c : Channel) : (s.setChannel ch c).txns = s.txns := rfl
@[simp] theorem setChannel_takes (s : State) (ch : Nat) (c : Channel) : (s.setChannel ch c).takes = s.takes := rfl
@[simp] theorem setChannel_atPort (s : State) (ch : Nat) (c : Channel) : (s.setChannel ch c).atPort = s.atPort := rfl
@[simp] theorem setChannel_returned (s : State) (ch : Nat) (c : Channel) : (s.setChannel ch c).returned = s.returned := rfl
@[simp] theorem setChannel_mem (s : State) (ch : Nat) (c : Channel) : (s.setChannel ch c).mem = s.mem := rfl
@[simp] theorem setChannel_pending (s : State) (ch : Nat) (c : Channel) : (s.setChannel ch c).pending = s.pending := rfl

/-! ### setSlot -/

@[simp] theorem setSlot_inReset (s : State) (n : Nat) (x : Slot) : (s.setSlot n x).inReset = s.inReset := rfl
@[simp] theorem setSlot_now (s : State) (n : Nat) (x : Slot) : (s.setSlot n x).now = s.now := rfl
@[simp] theorem setSlot_strapBase (s : State) (n : Nat) (x : Slot) : (s.setSlot n x).strapBase = s.strapBase := rfl
@[simp] theorem setSlot_run (s : State) (n : Nat) (x : Slot) : (s.setSlot n x).run = s.run := rfl
@[simp] theorem setSlot_windows (s : State) (n : Nat) (x : Slot) : (s.setSlot n x).windows = s.windows := rfl
@[simp] theorem setSlot_assemblies (s : State) (n : Nat) (x : Slot) : (s.setSlot n x).assemblies = s.assemblies := rfl
@[simp] theorem setSlot_quietTimers (s : State) (n : Nat) (x : Slot) : (s.setSlot n x).quietTimers = s.quietTimers := rfl
@[simp] theorem setSlot_channels (s : State) (n : Nat) (x : Slot) : (s.setSlot n x).channels = s.channels := rfl
@[simp] theorem setSlot_kdir (s : State) (n : Nat) (x : Slot) : (s.setSlot n x).kdir = s.kdir := rfl
@[simp] theorem setSlot_queue (s : State) (n : Nat) (x : Slot) : (s.setSlot n x).queue = s.queue := rfl
@[simp] theorem setSlot_engine (s : State) (n : Nat) (x : Slot) : (s.setSlot n x).engine = s.engine := rfl
@[simp] theorem setSlot_entries (s : State) (n : Nat) (x : Slot) : (s.setSlot n x).entries = s.entries := rfl
@[simp] theorem setSlot_recency (s : State) (n : Nat) (x : Slot) : (s.setSlot n x).recency = s.recency := rfl
@[simp] theorem setSlot_reqs (s : State) (n : Nat) (x : Slot) : (s.setSlot n x).reqs = s.reqs := rfl
@[simp] theorem setSlot_calendar (s : State) (n : Nat) (x : Slot) : (s.setSlot n x).calendar = s.calendar := rfl
@[simp] theorem setSlot_lapses (s : State) (n : Nat) (x : Slot) : (s.setSlot n x).lapses = s.lapses := rfl
@[simp] theorem setSlot_promotions (s : State) (n : Nat) (x : Slot) : (s.setSlot n x).promotions = s.promotions := rfl
@[simp] theorem setSlot_cmu (s : State) (n : Nat) (x : Slot) : (s.setSlot n x).cmu = s.cmu := rfl
@[simp] theorem setSlot_nw (s : State) (n : Nat) (x : Slot) : (s.setSlot n x).nw = s.nw := rfl
@[simp] theorem setSlot_txns (s : State) (n : Nat) (x : Slot) : (s.setSlot n x).txns = s.txns := rfl
@[simp] theorem setSlot_takes (s : State) (n : Nat) (x : Slot) : (s.setSlot n x).takes = s.takes := rfl
@[simp] theorem setSlot_atPort (s : State) (n : Nat) (x : Slot) : (s.setSlot n x).atPort = s.atPort := rfl
@[simp] theorem setSlot_returned (s : State) (n : Nat) (x : Slot) : (s.setSlot n x).returned = s.returned := rfl
@[simp] theorem setSlot_mem (s : State) (n : Nat) (x : Slot) : (s.setSlot n x).mem = s.mem := rfl
@[simp] theorem setSlot_pending (s : State) (n : Nat) (x : Slot) : (s.setSlot n x).pending = s.pending := rfl

/-! ### setEntry -/

@[simp] theorem setEntry_inReset (s : State) (e : Nat) (x : Entry) : (s.setEntry e x).inReset = s.inReset := rfl
@[simp] theorem setEntry_now (s : State) (e : Nat) (x : Entry) : (s.setEntry e x).now = s.now := rfl
@[simp] theorem setEntry_strapBase (s : State) (e : Nat) (x : Entry) : (s.setEntry e x).strapBase = s.strapBase := rfl
@[simp] theorem setEntry_run (s : State) (e : Nat) (x : Entry) : (s.setEntry e x).run = s.run := rfl
@[simp] theorem setEntry_windows (s : State) (e : Nat) (x : Entry) : (s.setEntry e x).windows = s.windows := rfl
@[simp] theorem setEntry_assemblies (s : State) (e : Nat) (x : Entry) : (s.setEntry e x).assemblies = s.assemblies := rfl
@[simp] theorem setEntry_quietTimers (s : State) (e : Nat) (x : Entry) : (s.setEntry e x).quietTimers = s.quietTimers := rfl
@[simp] theorem setEntry_channels (s : State) (e : Nat) (x : Entry) : (s.setEntry e x).channels = s.channels := rfl
@[simp] theorem setEntry_kdir (s : State) (e : Nat) (x : Entry) : (s.setEntry e x).kdir = s.kdir := rfl
@[simp] theorem setEntry_queue (s : State) (e : Nat) (x : Entry) : (s.setEntry e x).queue = s.queue := rfl
@[simp] theorem setEntry_engine (s : State) (e : Nat) (x : Entry) : (s.setEntry e x).engine = s.engine := rfl
@[simp] theorem setEntry_recency (s : State) (e : Nat) (x : Entry) : (s.setEntry e x).recency = s.recency := rfl
@[simp] theorem setEntry_reqs (s : State) (e : Nat) (x : Entry) : (s.setEntry e x).reqs = s.reqs := rfl
@[simp] theorem setEntry_calendar (s : State) (e : Nat) (x : Entry) : (s.setEntry e x).calendar = s.calendar := rfl
@[simp] theorem setEntry_lapses (s : State) (e : Nat) (x : Entry) : (s.setEntry e x).lapses = s.lapses := rfl
@[simp] theorem setEntry_slots (s : State) (e : Nat) (x : Entry) : (s.setEntry e x).slots = s.slots := rfl
@[simp] theorem setEntry_promotions (s : State) (e : Nat) (x : Entry) : (s.setEntry e x).promotions = s.promotions := rfl
@[simp] theorem setEntry_cmu (s : State) (e : Nat) (x : Entry) : (s.setEntry e x).cmu = s.cmu := rfl
@[simp] theorem setEntry_nw (s : State) (e : Nat) (x : Entry) : (s.setEntry e x).nw = s.nw := rfl
@[simp] theorem setEntry_txns (s : State) (e : Nat) (x : Entry) : (s.setEntry e x).txns = s.txns := rfl
@[simp] theorem setEntry_takes (s : State) (e : Nat) (x : Entry) : (s.setEntry e x).takes = s.takes := rfl
@[simp] theorem setEntry_atPort (s : State) (e : Nat) (x : Entry) : (s.setEntry e x).atPort = s.atPort := rfl
@[simp] theorem setEntry_returned (s : State) (e : Nat) (x : Entry) : (s.setEntry e x).returned = s.returned := rfl
@[simp] theorem setEntry_mem (s : State) (e : Nat) (x : Entry) : (s.setEntry e x).mem = s.mem := rfl
@[simp] theorem setEntry_pending (s : State) (e : Nat) (x : Entry) : (s.setEntry e x).pending = s.pending := rfl

/-! ### setAssembly -/

@[simp] theorem setAssembly_inReset (s : State) (w : Nat) (a : Option Assembly) : (s.setAssembly w a).inReset = s.inReset := rfl
@[simp] theorem setAssembly_now (s : State) (w : Nat) (a : Option Assembly) : (s.setAssembly w a).now = s.now := rfl
@[simp] theorem setAssembly_strapBase (s : State) (w : Nat) (a : Option Assembly) : (s.setAssembly w a).strapBase = s.strapBase := rfl
@[simp] theorem setAssembly_run (s : State) (w : Nat) (a : Option Assembly) : (s.setAssembly w a).run = s.run := rfl
@[simp] theorem setAssembly_windows (s : State) (w : Nat) (a : Option Assembly) : (s.setAssembly w a).windows = s.windows := rfl
@[simp] theorem setAssembly_quietTimers (s : State) (w : Nat) (a : Option Assembly) : (s.setAssembly w a).quietTimers = s.quietTimers := rfl
@[simp] theorem setAssembly_channels (s : State) (w : Nat) (a : Option Assembly) : (s.setAssembly w a).channels = s.channels := rfl
@[simp] theorem setAssembly_kdir (s : State) (w : Nat) (a : Option Assembly) : (s.setAssembly w a).kdir = s.kdir := rfl
@[simp] theorem setAssembly_queue (s : State) (w : Nat) (a : Option Assembly) : (s.setAssembly w a).queue = s.queue := rfl
@[simp] theorem setAssembly_engine (s : State) (w : Nat) (a : Option Assembly) : (s.setAssembly w a).engine = s.engine := rfl
@[simp] theorem setAssembly_entries (s : State) (w : Nat) (a : Option Assembly) : (s.setAssembly w a).entries = s.entries := rfl
@[simp] theorem setAssembly_recency (s : State) (w : Nat) (a : Option Assembly) : (s.setAssembly w a).recency = s.recency := rfl
@[simp] theorem setAssembly_reqs (s : State) (w : Nat) (a : Option Assembly) : (s.setAssembly w a).reqs = s.reqs := rfl
@[simp] theorem setAssembly_calendar (s : State) (w : Nat) (a : Option Assembly) : (s.setAssembly w a).calendar = s.calendar := rfl
@[simp] theorem setAssembly_lapses (s : State) (w : Nat) (a : Option Assembly) : (s.setAssembly w a).lapses = s.lapses := rfl
@[simp] theorem setAssembly_slots (s : State) (w : Nat) (a : Option Assembly) : (s.setAssembly w a).slots = s.slots := rfl
@[simp] theorem setAssembly_promotions (s : State) (w : Nat) (a : Option Assembly) : (s.setAssembly w a).promotions = s.promotions := rfl
@[simp] theorem setAssembly_cmu (s : State) (w : Nat) (a : Option Assembly) : (s.setAssembly w a).cmu = s.cmu := rfl
@[simp] theorem setAssembly_nw (s : State) (w : Nat) (a : Option Assembly) : (s.setAssembly w a).nw = s.nw := rfl
@[simp] theorem setAssembly_txns (s : State) (w : Nat) (a : Option Assembly) : (s.setAssembly w a).txns = s.txns := rfl
@[simp] theorem setAssembly_takes (s : State) (w : Nat) (a : Option Assembly) : (s.setAssembly w a).takes = s.takes := rfl
@[simp] theorem setAssembly_atPort (s : State) (w : Nat) (a : Option Assembly) : (s.setAssembly w a).atPort = s.atPort := rfl
@[simp] theorem setAssembly_returned (s : State) (w : Nat) (a : Option Assembly) : (s.setAssembly w a).returned = s.returned := rfl
@[simp] theorem setAssembly_mem (s : State) (w : Nat) (a : Option Assembly) : (s.setAssembly w a).mem = s.mem := rfl
@[simp] theorem setAssembly_pending (s : State) (w : Nat) (a : Option Assembly) : (s.setAssembly w a).pending = s.pending := rfl

/-! ### setQuietTimer -/

@[simp] theorem setQuietTimer_inReset (s : State) (ch : Nat) (t : Option QuietTimer) : (s.setQuietTimer ch t).inReset = s.inReset := rfl
@[simp] theorem setQuietTimer_now (s : State) (ch : Nat) (t : Option QuietTimer) : (s.setQuietTimer ch t).now = s.now := rfl
@[simp] theorem setQuietTimer_strapBase (s : State) (ch : Nat) (t : Option QuietTimer) : (s.setQuietTimer ch t).strapBase = s.strapBase := rfl
@[simp] theorem setQuietTimer_run (s : State) (ch : Nat) (t : Option QuietTimer) : (s.setQuietTimer ch t).run = s.run := rfl
@[simp] theorem setQuietTimer_windows (s : State) (ch : Nat) (t : Option QuietTimer) : (s.setQuietTimer ch t).windows = s.windows := rfl
@[simp] theorem setQuietTimer_assemblies (s : State) (ch : Nat) (t : Option QuietTimer) : (s.setQuietTimer ch t).assemblies = s.assemblies := rfl
@[simp] theorem setQuietTimer_channels (s : State) (ch : Nat) (t : Option QuietTimer) : (s.setQuietTimer ch t).channels = s.channels := rfl
@[simp] theorem setQuietTimer_kdir (s : State) (ch : Nat) (t : Option QuietTimer) : (s.setQuietTimer ch t).kdir = s.kdir := rfl
@[simp] theorem setQuietTimer_queue (s : State) (ch : Nat) (t : Option QuietTimer) : (s.setQuietTimer ch t).queue = s.queue := rfl
@[simp] theorem setQuietTimer_engine (s : State) (ch : Nat) (t : Option QuietTimer) : (s.setQuietTimer ch t).engine = s.engine := rfl
@[simp] theorem setQuietTimer_entries (s : State) (ch : Nat) (t : Option QuietTimer) : (s.setQuietTimer ch t).entries = s.entries := rfl
@[simp] theorem setQuietTimer_recency (s : State) (ch : Nat) (t : Option QuietTimer) : (s.setQuietTimer ch t).recency = s.recency := rfl
@[simp] theorem setQuietTimer_reqs (s : State) (ch : Nat) (t : Option QuietTimer) : (s.setQuietTimer ch t).reqs = s.reqs := rfl
@[simp] theorem setQuietTimer_calendar (s : State) (ch : Nat) (t : Option QuietTimer) : (s.setQuietTimer ch t).calendar = s.calendar := rfl
@[simp] theorem setQuietTimer_lapses (s : State) (ch : Nat) (t : Option QuietTimer) : (s.setQuietTimer ch t).lapses = s.lapses := rfl
@[simp] theorem setQuietTimer_slots (s : State) (ch : Nat) (t : Option QuietTimer) : (s.setQuietTimer ch t).slots = s.slots := rfl
@[simp] theorem setQuietTimer_promotions (s : State) (ch : Nat) (t : Option QuietTimer) : (s.setQuietTimer ch t).promotions = s.promotions := rfl
@[simp] theorem setQuietTimer_cmu (s : State) (ch : Nat) (t : Option QuietTimer) : (s.setQuietTimer ch t).cmu = s.cmu := rfl
@[simp] theorem setQuietTimer_nw (s : State) (ch : Nat) (t : Option QuietTimer) : (s.setQuietTimer ch t).nw = s.nw := rfl
@[simp] theorem setQuietTimer_txns (s : State) (ch : Nat) (t : Option QuietTimer) : (s.setQuietTimer ch t).txns = s.txns := rfl
@[simp] theorem setQuietTimer_takes (s : State) (ch : Nat) (t : Option QuietTimer) : (s.setQuietTimer ch t).takes = s.takes := rfl
@[simp] theorem setQuietTimer_atPort (s : State) (ch : Nat) (t : Option QuietTimer) : (s.setQuietTimer ch t).atPort = s.atPort := rfl
@[simp] theorem setQuietTimer_returned (s : State) (ch : Nat) (t : Option QuietTimer) : (s.setQuietTimer ch t).returned = s.returned := rfl
@[simp] theorem setQuietTimer_mem (s : State) (ch : Nat) (t : Option QuietTimer) : (s.setQuietTimer ch t).mem = s.mem := rfl
@[simp] theorem setQuietTimer_pending (s : State) (ch : Nat) (t : Option QuietTimer) : (s.setQuietTimer ch t).pending = s.pending := rfl

/-! ### setWindow -/

@[simp] theorem setWindow_inReset (s : State) (e : Nat) (w : Option Window) : (s.setWindow e w).inReset = s.inReset := rfl
@[simp] theorem setWindow_now (s : State) (e : Nat) (w : Option Window) : (s.setWindow e w).now = s.now := rfl
@[simp] theorem setWindow_strapBase (s : State) (e : Nat) (w : Option Window) : (s.setWindow e w).strapBase = s.strapBase := rfl
@[simp] theorem setWindow_run (s : State) (e : Nat) (w : Option Window) : (s.setWindow e w).run = s.run := rfl
@[simp] theorem setWindow_assemblies (s : State) (e : Nat) (w : Option Window) : (s.setWindow e w).assemblies = s.assemblies := rfl
@[simp] theorem setWindow_quietTimers (s : State) (e : Nat) (w : Option Window) : (s.setWindow e w).quietTimers = s.quietTimers := rfl
@[simp] theorem setWindow_channels (s : State) (e : Nat) (w : Option Window) : (s.setWindow e w).channels = s.channels := rfl
@[simp] theorem setWindow_kdir (s : State) (e : Nat) (w : Option Window) : (s.setWindow e w).kdir = s.kdir := rfl
@[simp] theorem setWindow_queue (s : State) (e : Nat) (w : Option Window) : (s.setWindow e w).queue = s.queue := rfl
@[simp] theorem setWindow_engine (s : State) (e : Nat) (w : Option Window) : (s.setWindow e w).engine = s.engine := rfl
@[simp] theorem setWindow_entries (s : State) (e : Nat) (w : Option Window) : (s.setWindow e w).entries = s.entries := rfl
@[simp] theorem setWindow_recency (s : State) (e : Nat) (w : Option Window) : (s.setWindow e w).recency = s.recency := rfl
@[simp] theorem setWindow_reqs (s : State) (e : Nat) (w : Option Window) : (s.setWindow e w).reqs = s.reqs := rfl
@[simp] theorem setWindow_calendar (s : State) (e : Nat) (w : Option Window) : (s.setWindow e w).calendar = s.calendar := rfl
@[simp] theorem setWindow_lapses (s : State) (e : Nat) (w : Option Window) : (s.setWindow e w).lapses = s.lapses := rfl
@[simp] theorem setWindow_slots (s : State) (e : Nat) (w : Option Window) : (s.setWindow e w).slots = s.slots := rfl
@[simp] theorem setWindow_promotions (s : State) (e : Nat) (w : Option Window) : (s.setWindow e w).promotions = s.promotions := rfl
@[simp] theorem setWindow_cmu (s : State) (e : Nat) (w : Option Window) : (s.setWindow e w).cmu = s.cmu := rfl
@[simp] theorem setWindow_nw (s : State) (e : Nat) (w : Option Window) : (s.setWindow e w).nw = s.nw := rfl
@[simp] theorem setWindow_txns (s : State) (e : Nat) (w : Option Window) : (s.setWindow e w).txns = s.txns := rfl
@[simp] theorem setWindow_takes (s : State) (e : Nat) (w : Option Window) : (s.setWindow e w).takes = s.takes := rfl
@[simp] theorem setWindow_atPort (s : State) (e : Nat) (w : Option Window) : (s.setWindow e w).atPort = s.atPort := rfl
@[simp] theorem setWindow_returned (s : State) (e : Nat) (w : Option Window) : (s.setWindow e w).returned = s.returned := rfl
@[simp] theorem setWindow_mem (s : State) (e : Nat) (w : Option Window) : (s.setWindow e w).mem = s.mem := rfl
@[simp] theorem setWindow_pending (s : State) (e : Nat) (w : Option Window) : (s.setWindow e w).pending = s.pending := rfl

/-! ### pass -/

@[simp] theorem pass_inReset (s : State) (id : Nat) (i : Initiator) (a : Nat) (b : Body) : (s.pass id i a b).inReset = s.inReset := rfl
@[simp] theorem pass_now (s : State) (id : Nat) (i : Initiator) (a : Nat) (b : Body) : (s.pass id i a b).now = s.now := rfl
@[simp] theorem pass_strapBase (s : State) (id : Nat) (i : Initiator) (a : Nat) (b : Body) : (s.pass id i a b).strapBase = s.strapBase := rfl
@[simp] theorem pass_run (s : State) (id : Nat) (i : Initiator) (a : Nat) (b : Body) : (s.pass id i a b).run = s.run := rfl
@[simp] theorem pass_windows (s : State) (id : Nat) (i : Initiator) (a : Nat) (b : Body) : (s.pass id i a b).windows = s.windows := rfl
@[simp] theorem pass_assemblies (s : State) (id : Nat) (i : Initiator) (a : Nat) (b : Body) : (s.pass id i a b).assemblies = s.assemblies := rfl
@[simp] theorem pass_quietTimers (s : State) (id : Nat) (i : Initiator) (a : Nat) (b : Body) : (s.pass id i a b).quietTimers = s.quietTimers := rfl
@[simp] theorem pass_channels (s : State) (id : Nat) (i : Initiator) (a : Nat) (b : Body) : (s.pass id i a b).channels = s.channels := rfl
@[simp] theorem pass_kdir (s : State) (id : Nat) (i : Initiator) (a : Nat) (b : Body) : (s.pass id i a b).kdir = s.kdir := rfl
@[simp] theorem pass_queue (s : State) (id : Nat) (i : Initiator) (a : Nat) (b : Body) : (s.pass id i a b).queue = s.queue := rfl
@[simp] theorem pass_engine (s : State) (id : Nat) (i : Initiator) (a : Nat) (b : Body) : (s.pass id i a b).engine = s.engine := rfl
@[simp] theorem pass_entries (s : State) (id : Nat) (i : Initiator) (a : Nat) (b : Body) : (s.pass id i a b).entries = s.entries := rfl
@[simp] theorem pass_recency (s : State) (id : Nat) (i : Initiator) (a : Nat) (b : Body) : (s.pass id i a b).recency = s.recency := rfl
@[simp] theorem pass_reqs (s : State) (id : Nat) (i : Initiator) (a : Nat) (b : Body) : (s.pass id i a b).reqs = s.reqs := rfl
@[simp] theorem pass_calendar (s : State) (id : Nat) (i : Initiator) (a : Nat) (b : Body) : (s.pass id i a b).calendar = s.calendar := rfl
@[simp] theorem pass_lapses (s : State) (id : Nat) (i : Initiator) (a : Nat) (b : Body) : (s.pass id i a b).lapses = s.lapses := rfl
@[simp] theorem pass_slots (s : State) (id : Nat) (i : Initiator) (a : Nat) (b : Body) : (s.pass id i a b).slots = s.slots := rfl
@[simp] theorem pass_promotions (s : State) (id : Nat) (i : Initiator) (a : Nat) (b : Body) : (s.pass id i a b).promotions = s.promotions := rfl
@[simp] theorem pass_cmu (s : State) (id : Nat) (i : Initiator) (a : Nat) (b : Body) : (s.pass id i a b).cmu = s.cmu := rfl
@[simp] theorem pass_nw (s : State) (id : Nat) (i : Initiator) (a : Nat) (b : Body) : (s.pass id i a b).nw = s.nw := rfl
@[simp] theorem pass_txns (s : State) (id : Nat) (i : Initiator) (a : Nat) (b : Body) : (s.pass id i a b).txns = s.txns := rfl
@[simp] theorem pass_takes (s : State) (id : Nat) (i : Initiator) (a : Nat) (b : Body) : (s.pass id i a b).takes = s.takes := rfl
@[simp] theorem pass_atPort (s : State) (id : Nat) (i : Initiator) (a : Nat) (b : Body) : (s.pass id i a b).atPort = s.atPort := rfl
@[simp] theorem pass_returned (s : State) (id : Nat) (i : Initiator) (a : Nat) (b : Body) : (s.pass id i a b).returned = s.returned := rfl
@[simp] theorem pass_pending (s : State) (id : Nat) (i : Initiator) (a : Nat) (b : Body) : (s.pass id i a b).pending = s.pending := rfl

/-! ### wakePort -/

@[simp] theorem wakePort_inReset (s : State) : (wakePort s).inReset = s.inReset := rfl
@[simp] theorem wakePort_now (s : State) : (wakePort s).now = s.now := rfl
@[simp] theorem wakePort_strapBase (s : State) : (wakePort s).strapBase = s.strapBase := rfl
@[simp] theorem wakePort_run (s : State) : (wakePort s).run = s.run := rfl
@[simp] theorem wakePort_windows (s : State) : (wakePort s).windows = s.windows := rfl
@[simp] theorem wakePort_assemblies (s : State) : (wakePort s).assemblies = s.assemblies := rfl
@[simp] theorem wakePort_quietTimers (s : State) : (wakePort s).quietTimers = s.quietTimers := rfl
@[simp] theorem wakePort_channels (s : State) : (wakePort s).channels = s.channels := rfl
@[simp] theorem wakePort_kdir (s : State) : (wakePort s).kdir = s.kdir := rfl
@[simp] theorem wakePort_queue (s : State) : (wakePort s).queue = s.queue := rfl
@[simp] theorem wakePort_engine (s : State) : (wakePort s).engine = s.engine := rfl
@[simp] theorem wakePort_entries (s : State) : (wakePort s).entries = s.entries := rfl
@[simp] theorem wakePort_recency (s : State) : (wakePort s).recency = s.recency := rfl
@[simp] theorem wakePort_reqs (s : State) : (wakePort s).reqs = s.reqs := rfl
@[simp] theorem wakePort_calendar (s : State) : (wakePort s).calendar = s.calendar := rfl
@[simp] theorem wakePort_lapses (s : State) : (wakePort s).lapses = s.lapses := rfl
@[simp] theorem wakePort_slots (s : State) : (wakePort s).slots = s.slots := rfl
@[simp] theorem wakePort_promotions (s : State) : (wakePort s).promotions = s.promotions := rfl
@[simp] theorem wakePort_cmu (s : State) : (wakePort s).cmu = s.cmu := rfl
@[simp] theorem wakePort_nw (s : State) : (wakePort s).nw = s.nw := rfl
@[simp] theorem wakePort_txns (s : State) : (wakePort s).txns = s.txns := rfl
@[simp] theorem wakePort_takes (s : State) : (wakePort s).takes = s.takes := rfl
@[simp] theorem wakePort_atPort (s : State) : (wakePort s).atPort = s.atPort := rfl
@[simp] theorem wakePort_returned (s : State) : (wakePort s).returned = s.returned := rfl
@[simp] theorem wakePort_pending (s : State) : (wakePort s).pending = s.pending := rfl

/-! ### submit -/

@[simp] theorem submit_inReset (s : State) (src : Source) (a : Access) (o : Option Nat) : (s.submit src a o).inReset = s.inReset := rfl
@[simp] theorem submit_now (s : State) (src : Source) (a : Access) (o : Option Nat) : (s.submit src a o).now = s.now := rfl
@[simp] theorem submit_strapBase (s : State) (src : Source) (a : Access) (o : Option Nat) : (s.submit src a o).strapBase = s.strapBase := rfl
@[simp] theorem submit_run (s : State) (src : Source) (a : Access) (o : Option Nat) : (s.submit src a o).run = s.run := rfl
@[simp] theorem submit_windows (s : State) (src : Source) (a : Access) (o : Option Nat) : (s.submit src a o).windows = s.windows := rfl
@[simp] theorem submit_assemblies (s : State) (src : Source) (a : Access) (o : Option Nat) : (s.submit src a o).assemblies = s.assemblies := rfl
@[simp] theorem submit_quietTimers (s : State) (src : Source) (a : Access) (o : Option Nat) : (s.submit src a o).quietTimers = s.quietTimers := rfl
@[simp] theorem submit_channels (s : State) (src : Source) (a : Access) (o : Option Nat) : (s.submit src a o).channels = s.channels := rfl
@[simp] theorem submit_kdir (s : State) (src : Source) (a : Access) (o : Option Nat) : (s.submit src a o).kdir = s.kdir := rfl
@[simp] theorem submit_queue (s : State) (src : Source) (a : Access) (o : Option Nat) : (s.submit src a o).queue = s.queue := rfl
@[simp] theorem submit_engine (s : State) (src : Source) (a : Access) (o : Option Nat) : (s.submit src a o).engine = s.engine := rfl
@[simp] theorem submit_entries (s : State) (src : Source) (a : Access) (o : Option Nat) : (s.submit src a o).entries = s.entries := rfl
@[simp] theorem submit_recency (s : State) (src : Source) (a : Access) (o : Option Nat) : (s.submit src a o).recency = s.recency := rfl
@[simp] theorem submit_reqs (s : State) (src : Source) (a : Access) (o : Option Nat) : (s.submit src a o).reqs = s.reqs := rfl
@[simp] theorem submit_calendar (s : State) (src : Source) (a : Access) (o : Option Nat) : (s.submit src a o).calendar = s.calendar := rfl
@[simp] theorem submit_lapses (s : State) (src : Source) (a : Access) (o : Option Nat) : (s.submit src a o).lapses = s.lapses := rfl
@[simp] theorem submit_slots (s : State) (src : Source) (a : Access) (o : Option Nat) : (s.submit src a o).slots = s.slots := rfl
@[simp] theorem submit_promotions (s : State) (src : Source) (a : Access) (o : Option Nat) : (s.submit src a o).promotions = s.promotions := rfl
@[simp] theorem submit_cmu (s : State) (src : Source) (a : Access) (o : Option Nat) : (s.submit src a o).cmu = s.cmu := rfl
@[simp] theorem submit_nw (s : State) (src : Source) (a : Access) (o : Option Nat) : (s.submit src a o).nw = s.nw := rfl
@[simp] theorem submit_txns (s : State) (src : Source) (a : Access) (o : Option Nat) : (s.submit src a o).txns = s.txns := rfl
@[simp] theorem submit_takes (s : State) (src : Source) (a : Access) (o : Option Nat) : (s.submit src a o).takes = s.takes := rfl
@[simp] theorem submit_atPort (s : State) (src : Source) (a : Access) (o : Option Nat) : (s.submit src a o).atPort = s.atPort := rfl
@[simp] theorem submit_returned (s : State) (src : Source) (a : Access) (o : Option Nat) : (s.submit src a o).returned = s.returned := rfl
@[simp] theorem submit_pending (s : State) (src : Source) (a : Access) (o : Option Nat) : (s.submit src a o).pending = s.pending := rfl

/-! ### modifyTxn -/

@[simp] theorem modifyTxn_inReset (s : State) (id : Nat) (f : Txn → Txn) : (s.modifyTxn id f).inReset = s.inReset := rfl
@[simp] theorem modifyTxn_now (s : State) (id : Nat) (f : Txn → Txn) : (s.modifyTxn id f).now = s.now := rfl
@[simp] theorem modifyTxn_strapBase (s : State) (id : Nat) (f : Txn → Txn) : (s.modifyTxn id f).strapBase = s.strapBase := rfl
@[simp] theorem modifyTxn_run (s : State) (id : Nat) (f : Txn → Txn) : (s.modifyTxn id f).run = s.run := rfl
@[simp] theorem modifyTxn_windows (s : State) (id : Nat) (f : Txn → Txn) : (s.modifyTxn id f).windows = s.windows := rfl
@[simp] theorem modifyTxn_assemblies (s : State) (id : Nat) (f : Txn → Txn) : (s.modifyTxn id f).assemblies = s.assemblies := rfl
@[simp] theorem modifyTxn_quietTimers (s : State) (id : Nat) (f : Txn → Txn) : (s.modifyTxn id f).quietTimers = s.quietTimers := rfl
@[simp] theorem modifyTxn_channels (s : State) (id : Nat) (f : Txn → Txn) : (s.modifyTxn id f).channels = s.channels := rfl
@[simp] theorem modifyTxn_kdir (s : State) (id : Nat) (f : Txn → Txn) : (s.modifyTxn id f).kdir = s.kdir := rfl
@[simp] theorem modifyTxn_queue (s : State) (id : Nat) (f : Txn → Txn) : (s.modifyTxn id f).queue = s.queue := rfl
@[simp] theorem modifyTxn_engine (s : State) (id : Nat) (f : Txn → Txn) : (s.modifyTxn id f).engine = s.engine := rfl
@[simp] theorem modifyTxn_entries (s : State) (id : Nat) (f : Txn → Txn) : (s.modifyTxn id f).entries = s.entries := rfl
@[simp] theorem modifyTxn_recency (s : State) (id : Nat) (f : Txn → Txn) : (s.modifyTxn id f).recency = s.recency := rfl
@[simp] theorem modifyTxn_reqs (s : State) (id : Nat) (f : Txn → Txn) : (s.modifyTxn id f).reqs = s.reqs := rfl
@[simp] theorem modifyTxn_calendar (s : State) (id : Nat) (f : Txn → Txn) : (s.modifyTxn id f).calendar = s.calendar := rfl
@[simp] theorem modifyTxn_lapses (s : State) (id : Nat) (f : Txn → Txn) : (s.modifyTxn id f).lapses = s.lapses := rfl
@[simp] theorem modifyTxn_slots (s : State) (id : Nat) (f : Txn → Txn) : (s.modifyTxn id f).slots = s.slots := rfl
@[simp] theorem modifyTxn_promotions (s : State) (id : Nat) (f : Txn → Txn) : (s.modifyTxn id f).promotions = s.promotions := rfl
@[simp] theorem modifyTxn_cmu (s : State) (id : Nat) (f : Txn → Txn) : (s.modifyTxn id f).cmu = s.cmu := rfl
@[simp] theorem modifyTxn_nw (s : State) (id : Nat) (f : Txn → Txn) : (s.modifyTxn id f).nw = s.nw := rfl
@[simp] theorem modifyTxn_takes (s : State) (id : Nat) (f : Txn → Txn) : (s.modifyTxn id f).takes = s.takes := rfl
@[simp] theorem modifyTxn_atPort (s : State) (id : Nat) (f : Txn → Txn) : (s.modifyTxn id f).atPort = s.atPort := rfl
@[simp] theorem modifyTxn_returned (s : State) (id : Nat) (f : Txn → Txn) : (s.modifyTxn id f).returned = s.returned := rfl
@[simp] theorem modifyTxn_mem (s : State) (id : Nat) (f : Txn → Txn) : (s.modifyTxn id f).mem = s.mem := rfl
@[simp] theorem modifyTxn_pending (s : State) (id : Nat) (f : Txn → Txn) : (s.modifyTxn id f).pending = s.pending := rfl

/-! ### failTxn -/

@[simp] theorem failTxn_inReset (s : State) (id : Nat) : (s.failTxn id).inReset = s.inReset := rfl
@[simp] theorem failTxn_now (s : State) (id : Nat) : (s.failTxn id).now = s.now := rfl
@[simp] theorem failTxn_strapBase (s : State) (id : Nat) : (s.failTxn id).strapBase = s.strapBase := rfl
@[simp] theorem failTxn_run (s : State) (id : Nat) : (s.failTxn id).run = s.run := rfl
@[simp] theorem failTxn_windows (s : State) (id : Nat) : (s.failTxn id).windows = s.windows := rfl
@[simp] theorem failTxn_assemblies (s : State) (id : Nat) : (s.failTxn id).assemblies = s.assemblies := rfl
@[simp] theorem failTxn_quietTimers (s : State) (id : Nat) : (s.failTxn id).quietTimers = s.quietTimers := rfl
@[simp] theorem failTxn_channels (s : State) (id : Nat) : (s.failTxn id).channels = s.channels := rfl
@[simp] theorem failTxn_kdir (s : State) (id : Nat) : (s.failTxn id).kdir = s.kdir := rfl
@[simp] theorem failTxn_queue (s : State) (id : Nat) : (s.failTxn id).queue = s.queue := rfl
@[simp] theorem failTxn_engine (s : State) (id : Nat) : (s.failTxn id).engine = s.engine := rfl
@[simp] theorem failTxn_entries (s : State) (id : Nat) : (s.failTxn id).entries = s.entries := rfl
@[simp] theorem failTxn_recency (s : State) (id : Nat) : (s.failTxn id).recency = s.recency := rfl
@[simp] theorem failTxn_reqs (s : State) (id : Nat) : (s.failTxn id).reqs = s.reqs := rfl
@[simp] theorem failTxn_calendar (s : State) (id : Nat) : (s.failTxn id).calendar = s.calendar := rfl
@[simp] theorem failTxn_lapses (s : State) (id : Nat) : (s.failTxn id).lapses = s.lapses := rfl
@[simp] theorem failTxn_slots (s : State) (id : Nat) : (s.failTxn id).slots = s.slots := rfl
@[simp] theorem failTxn_promotions (s : State) (id : Nat) : (s.failTxn id).promotions = s.promotions := rfl
@[simp] theorem failTxn_cmu (s : State) (id : Nat) : (s.failTxn id).cmu = s.cmu := rfl
@[simp] theorem failTxn_nw (s : State) (id : Nat) : (s.failTxn id).nw = s.nw := rfl
@[simp] theorem failTxn_takes (s : State) (id : Nat) : (s.failTxn id).takes = s.takes := rfl
@[simp] theorem failTxn_atPort (s : State) (id : Nat) : (s.failTxn id).atPort = s.atPort := rfl
@[simp] theorem failTxn_returned (s : State) (id : Nat) : (s.failTxn id).returned = s.returned := rfl
@[simp] theorem failTxn_mem (s : State) (id : Nat) : (s.failTxn id).mem = s.mem := rfl
@[simp] theorem failTxn_pending (s : State) (id : Nat) : (s.failTxn id).pending = s.pending := rfl

/-! ### kdirRemove -/

@[simp] theorem kdirRemove_inReset (s : State) (k : Key) : (s.kdirRemove k).inReset = s.inReset := rfl
@[simp] theorem kdirRemove_now (s : State) (k : Key) : (s.kdirRemove k).now = s.now := rfl
@[simp] theorem kdirRemove_strapBase (s : State) (k : Key) : (s.kdirRemove k).strapBase = s.strapBase := rfl
@[simp] theorem kdirRemove_run (s : State) (k : Key) : (s.kdirRemove k).run = s.run := rfl
@[simp] theorem kdirRemove_windows (s : State) (k : Key) : (s.kdirRemove k).windows = s.windows := rfl
@[simp] theorem kdirRemove_assemblies (s : State) (k : Key) : (s.kdirRemove k).assemblies = s.assemblies := rfl
@[simp] theorem kdirRemove_quietTimers (s : State) (k : Key) : (s.kdirRemove k).quietTimers = s.quietTimers := rfl
@[simp] theorem kdirRemove_channels (s : State) (k : Key) : (s.kdirRemove k).channels = s.channels := rfl
@[simp] theorem kdirRemove_queue (s : State) (k : Key) : (s.kdirRemove k).queue = s.queue := rfl
@[simp] theorem kdirRemove_engine (s : State) (k : Key) : (s.kdirRemove k).engine = s.engine := rfl
@[simp] theorem kdirRemove_entries (s : State) (k : Key) : (s.kdirRemove k).entries = s.entries := rfl
@[simp] theorem kdirRemove_recency (s : State) (k : Key) : (s.kdirRemove k).recency = s.recency := rfl
@[simp] theorem kdirRemove_reqs (s : State) (k : Key) : (s.kdirRemove k).reqs = s.reqs := rfl
@[simp] theorem kdirRemove_calendar (s : State) (k : Key) : (s.kdirRemove k).calendar = s.calendar := rfl
@[simp] theorem kdirRemove_lapses (s : State) (k : Key) : (s.kdirRemove k).lapses = s.lapses := rfl
@[simp] theorem kdirRemove_slots (s : State) (k : Key) : (s.kdirRemove k).slots = s.slots := rfl
@[simp] theorem kdirRemove_promotions (s : State) (k : Key) : (s.kdirRemove k).promotions = s.promotions := rfl
@[simp] theorem kdirRemove_cmu (s : State) (k : Key) : (s.kdirRemove k).cmu = s.cmu := rfl
@[simp] theorem kdirRemove_nw (s : State) (k : Key) : (s.kdirRemove k).nw = s.nw := rfl
@[simp] theorem kdirRemove_txns (s : State) (k : Key) : (s.kdirRemove k).txns = s.txns := rfl
@[simp] theorem kdirRemove_takes (s : State) (k : Key) : (s.kdirRemove k).takes = s.takes := rfl
@[simp] theorem kdirRemove_atPort (s : State) (k : Key) : (s.kdirRemove k).atPort = s.atPort := rfl
@[simp] theorem kdirRemove_returned (s : State) (k : Key) : (s.kdirRemove k).returned = s.returned := rfl
@[simp] theorem kdirRemove_mem (s : State) (k : Key) : (s.kdirRemove k).mem = s.mem := rfl
@[simp] theorem kdirRemove_pending (s : State) (k : Key) : (s.kdirRemove k).pending = s.pending := rfl

/-! ### cmuSubmit -/

@[simp] theorem cmuSubmit_inReset (s : State) (a : Access) (p : CmuPhase) (o : Option Nat) : (s.cmuSubmit a p o).inReset = s.inReset := rfl
@[simp] theorem cmuSubmit_now (s : State) (a : Access) (p : CmuPhase) (o : Option Nat) : (s.cmuSubmit a p o).now = s.now := rfl
@[simp] theorem cmuSubmit_strapBase (s : State) (a : Access) (p : CmuPhase) (o : Option Nat) : (s.cmuSubmit a p o).strapBase = s.strapBase := rfl
@[simp] theorem cmuSubmit_run (s : State) (a : Access) (p : CmuPhase) (o : Option Nat) : (s.cmuSubmit a p o).run = s.run := rfl
@[simp] theorem cmuSubmit_windows (s : State) (a : Access) (p : CmuPhase) (o : Option Nat) : (s.cmuSubmit a p o).windows = s.windows := rfl
@[simp] theorem cmuSubmit_assemblies (s : State) (a : Access) (p : CmuPhase) (o : Option Nat) : (s.cmuSubmit a p o).assemblies = s.assemblies := rfl
@[simp] theorem cmuSubmit_quietTimers (s : State) (a : Access) (p : CmuPhase) (o : Option Nat) : (s.cmuSubmit a p o).quietTimers = s.quietTimers := rfl
@[simp] theorem cmuSubmit_channels (s : State) (a : Access) (p : CmuPhase) (o : Option Nat) : (s.cmuSubmit a p o).channels = s.channels := rfl
@[simp] theorem cmuSubmit_kdir (s : State) (a : Access) (p : CmuPhase) (o : Option Nat) : (s.cmuSubmit a p o).kdir = s.kdir := rfl
@[simp] theorem cmuSubmit_queue (s : State) (a : Access) (p : CmuPhase) (o : Option Nat) : (s.cmuSubmit a p o).queue = s.queue := rfl
@[simp] theorem cmuSubmit_engine (s : State) (a : Access) (p : CmuPhase) (o : Option Nat) : (s.cmuSubmit a p o).engine = s.engine := rfl
@[simp] theorem cmuSubmit_entries (s : State) (a : Access) (p : CmuPhase) (o : Option Nat) : (s.cmuSubmit a p o).entries = s.entries := rfl
@[simp] theorem cmuSubmit_recency (s : State) (a : Access) (p : CmuPhase) (o : Option Nat) : (s.cmuSubmit a p o).recency = s.recency := rfl
@[simp] theorem cmuSubmit_reqs (s : State) (a : Access) (p : CmuPhase) (o : Option Nat) : (s.cmuSubmit a p o).reqs = s.reqs := rfl
@[simp] theorem cmuSubmit_calendar (s : State) (a : Access) (p : CmuPhase) (o : Option Nat) : (s.cmuSubmit a p o).calendar = s.calendar := rfl
@[simp] theorem cmuSubmit_lapses (s : State) (a : Access) (p : CmuPhase) (o : Option Nat) : (s.cmuSubmit a p o).lapses = s.lapses := rfl
@[simp] theorem cmuSubmit_slots (s : State) (a : Access) (p : CmuPhase) (o : Option Nat) : (s.cmuSubmit a p o).slots = s.slots := rfl
@[simp] theorem cmuSubmit_promotions (s : State) (a : Access) (p : CmuPhase) (o : Option Nat) : (s.cmuSubmit a p o).promotions = s.promotions := rfl
@[simp] theorem cmuSubmit_nw (s : State) (a : Access) (p : CmuPhase) (o : Option Nat) : (s.cmuSubmit a p o).nw = s.nw := rfl
@[simp] theorem cmuSubmit_txns (s : State) (a : Access) (p : CmuPhase) (o : Option Nat) : (s.cmuSubmit a p o).txns = s.txns := rfl
@[simp] theorem cmuSubmit_takes (s : State) (a : Access) (p : CmuPhase) (o : Option Nat) : (s.cmuSubmit a p o).takes = s.takes := rfl
@[simp] theorem cmuSubmit_atPort (s : State) (a : Access) (p : CmuPhase) (o : Option Nat) : (s.cmuSubmit a p o).atPort = s.atPort := rfl
@[simp] theorem cmuSubmit_returned (s : State) (a : Access) (p : CmuPhase) (o : Option Nat) : (s.cmuSubmit a p o).returned = s.returned := rfl
@[simp] theorem cmuSubmit_pending (s : State) (a : Access) (p : CmuPhase) (o : Option Nat) : (s.cmuSubmit a p o).pending = s.pending := rfl

/-! ### countChannel -/

@[simp] theorem countChannel_inReset (s : State) (ch : Nat) (f : ChanCounters → ChanCounters) : (s.countChannel ch f).inReset = s.inReset := rfl
@[simp] theorem countChannel_now (s : State) (ch : Nat) (f : ChanCounters → ChanCounters) : (s.countChannel ch f).now = s.now := rfl
@[simp] theorem countChannel_strapBase (s : State) (ch : Nat) (f : ChanCounters → ChanCounters) : (s.countChannel ch f).strapBase = s.strapBase := rfl
@[simp] theorem countChannel_run (s : State) (ch : Nat) (f : ChanCounters → ChanCounters) : (s.countChannel ch f).run = s.run := rfl
@[simp] theorem countChannel_windows (s : State) (ch : Nat) (f : ChanCounters → ChanCounters) : (s.countChannel ch f).windows = s.windows := rfl
@[simp] theorem countChannel_assemblies (s : State) (ch : Nat) (f : ChanCounters → ChanCounters) : (s.countChannel ch f).assemblies = s.assemblies := rfl
@[simp] theorem countChannel_quietTimers (s : State) (ch : Nat) (f : ChanCounters → ChanCounters) : (s.countChannel ch f).quietTimers = s.quietTimers := rfl
@[simp] theorem countChannel_kdir (s : State) (ch : Nat) (f : ChanCounters → ChanCounters) : (s.countChannel ch f).kdir = s.kdir := rfl
@[simp] theorem countChannel_queue (s : State) (ch : Nat) (f : ChanCounters → ChanCounters) : (s.countChannel ch f).queue = s.queue := rfl
@[simp] theorem countChannel_engine (s : State) (ch : Nat) (f : ChanCounters → ChanCounters) : (s.countChannel ch f).engine = s.engine := rfl
@[simp] theorem countChannel_entries (s : State) (ch : Nat) (f : ChanCounters → ChanCounters) : (s.countChannel ch f).entries = s.entries := rfl
@[simp] theorem countChannel_recency (s : State) (ch : Nat) (f : ChanCounters → ChanCounters) : (s.countChannel ch f).recency = s.recency := rfl
@[simp] theorem countChannel_reqs (s : State) (ch : Nat) (f : ChanCounters → ChanCounters) : (s.countChannel ch f).reqs = s.reqs := rfl
@[simp] theorem countChannel_calendar (s : State) (ch : Nat) (f : ChanCounters → ChanCounters) : (s.countChannel ch f).calendar = s.calendar := rfl
@[simp] theorem countChannel_lapses (s : State) (ch : Nat) (f : ChanCounters → ChanCounters) : (s.countChannel ch f).lapses = s.lapses := rfl
@[simp] theorem countChannel_slots (s : State) (ch : Nat) (f : ChanCounters → ChanCounters) : (s.countChannel ch f).slots = s.slots := rfl
@[simp] theorem countChannel_promotions (s : State) (ch : Nat) (f : ChanCounters → ChanCounters) : (s.countChannel ch f).promotions = s.promotions := rfl
@[simp] theorem countChannel_cmu (s : State) (ch : Nat) (f : ChanCounters → ChanCounters) : (s.countChannel ch f).cmu = s.cmu := rfl
@[simp] theorem countChannel_nw (s : State) (ch : Nat) (f : ChanCounters → ChanCounters) : (s.countChannel ch f).nw = s.nw := rfl
@[simp] theorem countChannel_txns (s : State) (ch : Nat) (f : ChanCounters → ChanCounters) : (s.countChannel ch f).txns = s.txns := rfl
@[simp] theorem countChannel_takes (s : State) (ch : Nat) (f : ChanCounters → ChanCounters) : (s.countChannel ch f).takes = s.takes := rfl
@[simp] theorem countChannel_atPort (s : State) (ch : Nat) (f : ChanCounters → ChanCounters) : (s.countChannel ch f).atPort = s.atPort := rfl
@[simp] theorem countChannel_returned (s : State) (ch : Nat) (f : ChanCounters → ChanCounters) : (s.countChannel ch f).returned = s.returned := rfl
@[simp] theorem countChannel_mem (s : State) (ch : Nat) (f : ChanCounters → ChanCounters) : (s.countChannel ch f).mem = s.mem := rfl
@[simp] theorem countChannel_pending (s : State) (ch : Nat) (f : ChanCounters → ChanCounters) : (s.countChannel ch f).pending = s.pending := rfl

/-! ### grantAll -/

@[simp] theorem grantAll_inReset (s : State) : (grantAll s).inReset = s.inReset := rfl
@[simp] theorem grantAll_now (s : State) : (grantAll s).now = s.now := rfl
@[simp] theorem grantAll_strapBase (s : State) : (grantAll s).strapBase = s.strapBase := rfl
@[simp] theorem grantAll_run (s : State) : (grantAll s).run = s.run := rfl
@[simp] theorem grantAll_windows (s : State) : (grantAll s).windows = s.windows := rfl
@[simp] theorem grantAll_assemblies (s : State) : (grantAll s).assemblies = s.assemblies := rfl
@[simp] theorem grantAll_quietTimers (s : State) : (grantAll s).quietTimers = s.quietTimers := rfl
@[simp] theorem grantAll_channels (s : State) : (grantAll s).channels = s.channels := rfl
@[simp] theorem grantAll_kdir (s : State) : (grantAll s).kdir = s.kdir := rfl
@[simp] theorem grantAll_queue (s : State) : (grantAll s).queue = s.queue := rfl
@[simp] theorem grantAll_engine (s : State) : (grantAll s).engine = s.engine := rfl
@[simp] theorem grantAll_entries (s : State) : (grantAll s).entries = s.entries := rfl
@[simp] theorem grantAll_recency (s : State) : (grantAll s).recency = s.recency := rfl
@[simp] theorem grantAll_reqs (s : State) : (grantAll s).reqs = s.reqs := rfl
@[simp] theorem grantAll_calendar (s : State) : (grantAll s).calendar = s.calendar := rfl
@[simp] theorem grantAll_lapses (s : State) : (grantAll s).lapses = s.lapses := rfl
@[simp] theorem grantAll_slots (s : State) : (grantAll s).slots = s.slots := rfl
@[simp] theorem grantAll_promotions (s : State) : (grantAll s).promotions = s.promotions := rfl
@[simp] theorem grantAll_cmu (s : State) : (grantAll s).cmu = s.cmu := rfl
@[simp] theorem grantAll_nw (s : State) : (grantAll s).nw = s.nw := rfl
@[simp] theorem grantAll_txns (s : State) : (grantAll s).txns = s.txns := rfl
@[simp] theorem grantAll_takes (s : State) : (grantAll s).takes = s.takes := rfl
@[simp] theorem grantAll_atPort (s : State) : (grantAll s).atPort = s.atPort := rfl
@[simp] theorem grantAll_returned (s : State) : (grantAll s).returned = s.returned := rfl
@[simp] theorem grantAll_pending (s : State) : (grantAll s).pending = s.pending := rfl

/-! ### claimNotice -/

@[simp] theorem claimNotice_inReset (n : Notice) (s : State) : (claimNotice n s).inReset = s.inReset := rfl
@[simp] theorem claimNotice_now (n : Notice) (s : State) : (claimNotice n s).now = s.now := rfl
@[simp] theorem claimNotice_strapBase (n : Notice) (s : State) : (claimNotice n s).strapBase = s.strapBase := rfl
@[simp] theorem claimNotice_run (n : Notice) (s : State) : (claimNotice n s).run = s.run := rfl
@[simp] theorem claimNotice_windows (n : Notice) (s : State) : (claimNotice n s).windows = s.windows := rfl
@[simp] theorem claimNotice_assemblies (n : Notice) (s : State) : (claimNotice n s).assemblies = s.assemblies := rfl
@[simp] theorem claimNotice_quietTimers (n : Notice) (s : State) : (claimNotice n s).quietTimers = s.quietTimers := rfl
@[simp] theorem claimNotice_channels (n : Notice) (s : State) : (claimNotice n s).channels = s.channels := rfl
@[simp] theorem claimNotice_kdir (n : Notice) (s : State) : (claimNotice n s).kdir = s.kdir := rfl
@[simp] theorem claimNotice_queue (n : Notice) (s : State) : (claimNotice n s).queue = s.queue := rfl
@[simp] theorem claimNotice_engine (n : Notice) (s : State) : (claimNotice n s).engine = s.engine := rfl
@[simp] theorem claimNotice_entries (n : Notice) (s : State) : (claimNotice n s).entries = s.entries := rfl
@[simp] theorem claimNotice_recency (n : Notice) (s : State) : (claimNotice n s).recency = s.recency := rfl
@[simp] theorem claimNotice_reqs (n : Notice) (s : State) : (claimNotice n s).reqs = s.reqs := rfl
@[simp] theorem claimNotice_calendar (n : Notice) (s : State) : (claimNotice n s).calendar = s.calendar := rfl
@[simp] theorem claimNotice_lapses (n : Notice) (s : State) : (claimNotice n s).lapses = s.lapses := rfl
@[simp] theorem claimNotice_slots (n : Notice) (s : State) : (claimNotice n s).slots = s.slots := rfl
@[simp] theorem claimNotice_promotions (n : Notice) (s : State) : (claimNotice n s).promotions = s.promotions := rfl
@[simp] theorem claimNotice_cmu (n : Notice) (s : State) : (claimNotice n s).cmu = s.cmu := rfl
@[simp] theorem claimNotice_txns (n : Notice) (s : State) : (claimNotice n s).txns = s.txns := rfl
@[simp] theorem claimNotice_takes (n : Notice) (s : State) : (claimNotice n s).takes = s.takes := rfl
@[simp] theorem claimNotice_atPort (n : Notice) (s : State) : (claimNotice n s).atPort = s.atPort := rfl
@[simp] theorem claimNotice_returned (n : Notice) (s : State) : (claimNotice n s).returned = s.returned := rfl
@[simp] theorem claimNotice_pending (n : Notice) (s : State) : (claimNotice n s).pending = s.pending := rfl

/-! ### claimOffer -/

@[simp] theorem claimOffer_inReset (e : CalEntry) (r : OfferReason) (s : State) : (claimOffer e r s).inReset = s.inReset := rfl
@[simp] theorem claimOffer_now (e : CalEntry) (r : OfferReason) (s : State) : (claimOffer e r s).now = s.now := rfl
@[simp] theorem claimOffer_strapBase (e : CalEntry) (r : OfferReason) (s : State) : (claimOffer e r s).strapBase = s.strapBase := rfl
@[simp] theorem claimOffer_run (e : CalEntry) (r : OfferReason) (s : State) : (claimOffer e r s).run = s.run := rfl
@[simp] theorem claimOffer_windows (e : CalEntry) (r : OfferReason) (s : State) : (claimOffer e r s).windows = s.windows := rfl
@[simp] theorem claimOffer_assemblies (e : CalEntry) (r : OfferReason) (s : State) : (claimOffer e r s).assemblies = s.assemblies := rfl
@[simp] theorem claimOffer_quietTimers (e : CalEntry) (r : OfferReason) (s : State) : (claimOffer e r s).quietTimers = s.quietTimers := rfl
@[simp] theorem claimOffer_channels (e : CalEntry) (r : OfferReason) (s : State) : (claimOffer e r s).channels = s.channels := rfl
@[simp] theorem claimOffer_kdir (e : CalEntry) (r : OfferReason) (s : State) : (claimOffer e r s).kdir = s.kdir := rfl
@[simp] theorem claimOffer_queue (e : CalEntry) (r : OfferReason) (s : State) : (claimOffer e r s).queue = s.queue := rfl
@[simp] theorem claimOffer_engine (e : CalEntry) (r : OfferReason) (s : State) : (claimOffer e r s).engine = s.engine := rfl
@[simp] theorem claimOffer_entries (e : CalEntry) (r : OfferReason) (s : State) : (claimOffer e r s).entries = s.entries := rfl
@[simp] theorem claimOffer_recency (e : CalEntry) (r : OfferReason) (s : State) : (claimOffer e r s).recency = s.recency := rfl
@[simp] theorem claimOffer_reqs (e : CalEntry) (r : OfferReason) (s : State) : (claimOffer e r s).reqs = s.reqs := rfl
@[simp] theorem claimOffer_calendar (e : CalEntry) (r : OfferReason) (s : State) : (claimOffer e r s).calendar = s.calendar := rfl
@[simp] theorem claimOffer_lapses (e : CalEntry) (r : OfferReason) (s : State) : (claimOffer e r s).lapses = s.lapses := rfl
@[simp] theorem claimOffer_slots (e : CalEntry) (r : OfferReason) (s : State) : (claimOffer e r s).slots = s.slots := rfl
@[simp] theorem claimOffer_promotions (e : CalEntry) (r : OfferReason) (s : State) : (claimOffer e r s).promotions = s.promotions := rfl
@[simp] theorem claimOffer_cmu (e : CalEntry) (r : OfferReason) (s : State) : (claimOffer e r s).cmu = s.cmu := rfl
@[simp] theorem claimOffer_txns (e : CalEntry) (r : OfferReason) (s : State) : (claimOffer e r s).txns = s.txns := rfl
@[simp] theorem claimOffer_takes (e : CalEntry) (r : OfferReason) (s : State) : (claimOffer e r s).takes = s.takes := rfl
@[simp] theorem claimOffer_atPort (e : CalEntry) (r : OfferReason) (s : State) : (claimOffer e r s).atPort = s.atPort := rfl
@[simp] theorem claimOffer_returned (e : CalEntry) (r : OfferReason) (s : State) : (claimOffer e r s).returned = s.returned := rfl
@[simp] theorem claimOffer_pending (e : CalEntry) (r : OfferReason) (s : State) : (claimOffer e r s).pending = s.pending := rfl

/-! ### lapseDrop -/

@[simp] theorem lapseDrop_inReset (i : Nat) (s : State) : (lapseDrop i s).inReset = s.inReset := rfl
@[simp] theorem lapseDrop_now (i : Nat) (s : State) : (lapseDrop i s).now = s.now := rfl
@[simp] theorem lapseDrop_strapBase (i : Nat) (s : State) : (lapseDrop i s).strapBase = s.strapBase := rfl
@[simp] theorem lapseDrop_run (i : Nat) (s : State) : (lapseDrop i s).run = s.run := rfl
@[simp] theorem lapseDrop_windows (i : Nat) (s : State) : (lapseDrop i s).windows = s.windows := rfl
@[simp] theorem lapseDrop_assemblies (i : Nat) (s : State) : (lapseDrop i s).assemblies = s.assemblies := rfl
@[simp] theorem lapseDrop_quietTimers (i : Nat) (s : State) : (lapseDrop i s).quietTimers = s.quietTimers := rfl
@[simp] theorem lapseDrop_channels (i : Nat) (s : State) : (lapseDrop i s).channels = s.channels := rfl
@[simp] theorem lapseDrop_kdir (i : Nat) (s : State) : (lapseDrop i s).kdir = s.kdir := rfl
@[simp] theorem lapseDrop_queue (i : Nat) (s : State) : (lapseDrop i s).queue = s.queue := rfl
@[simp] theorem lapseDrop_engine (i : Nat) (s : State) : (lapseDrop i s).engine = s.engine := rfl
@[simp] theorem lapseDrop_entries (i : Nat) (s : State) : (lapseDrop i s).entries = s.entries := rfl
@[simp] theorem lapseDrop_recency (i : Nat) (s : State) : (lapseDrop i s).recency = s.recency := rfl
@[simp] theorem lapseDrop_reqs (i : Nat) (s : State) : (lapseDrop i s).reqs = s.reqs := rfl
@[simp] theorem lapseDrop_calendar (i : Nat) (s : State) : (lapseDrop i s).calendar = s.calendar := rfl
@[simp] theorem lapseDrop_slots (i : Nat) (s : State) : (lapseDrop i s).slots = s.slots := rfl
@[simp] theorem lapseDrop_promotions (i : Nat) (s : State) : (lapseDrop i s).promotions = s.promotions := rfl
@[simp] theorem lapseDrop_cmu (i : Nat) (s : State) : (lapseDrop i s).cmu = s.cmu := rfl
@[simp] theorem lapseDrop_nw (i : Nat) (s : State) : (lapseDrop i s).nw = s.nw := rfl
@[simp] theorem lapseDrop_txns (i : Nat) (s : State) : (lapseDrop i s).txns = s.txns := rfl
@[simp] theorem lapseDrop_takes (i : Nat) (s : State) : (lapseDrop i s).takes = s.takes := rfl
@[simp] theorem lapseDrop_atPort (i : Nat) (s : State) : (lapseDrop i s).atPort = s.atPort := rfl
@[simp] theorem lapseDrop_returned (i : Nat) (s : State) : (lapseDrop i s).returned = s.returned := rfl
@[simp] theorem lapseDrop_mem (i : Nat) (s : State) : (lapseDrop i s).mem = s.mem := rfl
@[simp] theorem lapseDrop_pending (i : Nat) (s : State) : (lapseDrop i s).pending = s.pending := rfl

/-! ### calKeep -/

@[simp] theorem calKeep_inReset (e : CalEntry) (s : State) : (calKeep e s).inReset = s.inReset := rfl
@[simp] theorem calKeep_now (e : CalEntry) (s : State) : (calKeep e s).now = s.now := rfl
@[simp] theorem calKeep_strapBase (e : CalEntry) (s : State) : (calKeep e s).strapBase = s.strapBase := rfl
@[simp] theorem calKeep_run (e : CalEntry) (s : State) : (calKeep e s).run = s.run := rfl
@[simp] theorem calKeep_windows (e : CalEntry) (s : State) : (calKeep e s).windows = s.windows := rfl
@[simp] theorem calKeep_assemblies (e : CalEntry) (s : State) : (calKeep e s).assemblies = s.assemblies := rfl
@[simp] theorem calKeep_quietTimers (e : CalEntry) (s : State) : (calKeep e s).quietTimers = s.quietTimers := rfl
@[simp] theorem calKeep_channels (e : CalEntry) (s : State) : (calKeep e s).channels = s.channels := rfl
@[simp] theorem calKeep_kdir (e : CalEntry) (s : State) : (calKeep e s).kdir = s.kdir := rfl
@[simp] theorem calKeep_queue (e : CalEntry) (s : State) : (calKeep e s).queue = s.queue := rfl
@[simp] theorem calKeep_engine (e : CalEntry) (s : State) : (calKeep e s).engine = s.engine := rfl
@[simp] theorem calKeep_entries (e : CalEntry) (s : State) : (calKeep e s).entries = s.entries := rfl
@[simp] theorem calKeep_recency (e : CalEntry) (s : State) : (calKeep e s).recency = s.recency := rfl
@[simp] theorem calKeep_reqs (e : CalEntry) (s : State) : (calKeep e s).reqs = s.reqs := rfl
@[simp] theorem calKeep_lapses (e : CalEntry) (s : State) : (calKeep e s).lapses = s.lapses := rfl
@[simp] theorem calKeep_slots (e : CalEntry) (s : State) : (calKeep e s).slots = s.slots := rfl
@[simp] theorem calKeep_promotions (e : CalEntry) (s : State) : (calKeep e s).promotions = s.promotions := rfl
@[simp] theorem calKeep_cmu (e : CalEntry) (s : State) : (calKeep e s).cmu = s.cmu := rfl
@[simp] theorem calKeep_nw (e : CalEntry) (s : State) : (calKeep e s).nw = s.nw := rfl
@[simp] theorem calKeep_txns (e : CalEntry) (s : State) : (calKeep e s).txns = s.txns := rfl
@[simp] theorem calKeep_takes (e : CalEntry) (s : State) : (calKeep e s).takes = s.takes := rfl
@[simp] theorem calKeep_atPort (e : CalEntry) (s : State) : (calKeep e s).atPort = s.atPort := rfl
@[simp] theorem calKeep_returned (e : CalEntry) (s : State) : (calKeep e s).returned = s.returned := rfl
@[simp] theorem calKeep_mem (e : CalEntry) (s : State) : (calKeep e s).mem = s.mem := rfl
@[simp] theorem calKeep_pending (e : CalEntry) (s : State) : (calKeep e s).pending = s.pending := rfl

/-! ### calSet -/

@[simp] theorem calSet_inReset (e : CalEntry) (s : State) : (calSet e s).inReset = s.inReset := rfl
@[simp] theorem calSet_now (e : CalEntry) (s : State) : (calSet e s).now = s.now := rfl
@[simp] theorem calSet_strapBase (e : CalEntry) (s : State) : (calSet e s).strapBase = s.strapBase := rfl
@[simp] theorem calSet_run (e : CalEntry) (s : State) : (calSet e s).run = s.run := rfl
@[simp] theorem calSet_windows (e : CalEntry) (s : State) : (calSet e s).windows = s.windows := rfl
@[simp] theorem calSet_assemblies (e : CalEntry) (s : State) : (calSet e s).assemblies = s.assemblies := rfl
@[simp] theorem calSet_quietTimers (e : CalEntry) (s : State) : (calSet e s).quietTimers = s.quietTimers := rfl
@[simp] theorem calSet_channels (e : CalEntry) (s : State) : (calSet e s).channels = s.channels := rfl
@[simp] theorem calSet_kdir (e : CalEntry) (s : State) : (calSet e s).kdir = s.kdir := rfl
@[simp] theorem calSet_queue (e : CalEntry) (s : State) : (calSet e s).queue = s.queue := rfl
@[simp] theorem calSet_engine (e : CalEntry) (s : State) : (calSet e s).engine = s.engine := rfl
@[simp] theorem calSet_entries (e : CalEntry) (s : State) : (calSet e s).entries = s.entries := rfl
@[simp] theorem calSet_recency (e : CalEntry) (s : State) : (calSet e s).recency = s.recency := rfl
@[simp] theorem calSet_reqs (e : CalEntry) (s : State) : (calSet e s).reqs = s.reqs := rfl
@[simp] theorem calSet_lapses (e : CalEntry) (s : State) : (calSet e s).lapses = s.lapses := rfl
@[simp] theorem calSet_slots (e : CalEntry) (s : State) : (calSet e s).slots = s.slots := rfl
@[simp] theorem calSet_promotions (e : CalEntry) (s : State) : (calSet e s).promotions = s.promotions := rfl
@[simp] theorem calSet_cmu (e : CalEntry) (s : State) : (calSet e s).cmu = s.cmu := rfl
@[simp] theorem calSet_nw (e : CalEntry) (s : State) : (calSet e s).nw = s.nw := rfl
@[simp] theorem calSet_txns (e : CalEntry) (s : State) : (calSet e s).txns = s.txns := rfl
@[simp] theorem calSet_takes (e : CalEntry) (s : State) : (calSet e s).takes = s.takes := rfl
@[simp] theorem calSet_atPort (e : CalEntry) (s : State) : (calSet e s).atPort = s.atPort := rfl
@[simp] theorem calSet_returned (e : CalEntry) (s : State) : (calSet e s).returned = s.returned := rfl
@[simp] theorem calSet_mem (e : CalEntry) (s : State) : (calSet e s).mem = s.mem := rfl
@[simp] theorem calSet_pending (e : CalEntry) (s : State) : (calSet e s).pending = s.pending := rfl

/-! ### calRemove -/

@[simp] theorem calRemove_inReset (i : Nat) (s : State) : (calRemove i s).inReset = s.inReset := rfl
@[simp] theorem calRemove_now (i : Nat) (s : State) : (calRemove i s).now = s.now := rfl
@[simp] theorem calRemove_strapBase (i : Nat) (s : State) : (calRemove i s).strapBase = s.strapBase := rfl
@[simp] theorem calRemove_run (i : Nat) (s : State) : (calRemove i s).run = s.run := rfl
@[simp] theorem calRemove_windows (i : Nat) (s : State) : (calRemove i s).windows = s.windows := rfl
@[simp] theorem calRemove_assemblies (i : Nat) (s : State) : (calRemove i s).assemblies = s.assemblies := rfl
@[simp] theorem calRemove_quietTimers (i : Nat) (s : State) : (calRemove i s).quietTimers = s.quietTimers := rfl
@[simp] theorem calRemove_channels (i : Nat) (s : State) : (calRemove i s).channels = s.channels := rfl
@[simp] theorem calRemove_kdir (i : Nat) (s : State) : (calRemove i s).kdir = s.kdir := rfl
@[simp] theorem calRemove_queue (i : Nat) (s : State) : (calRemove i s).queue = s.queue := rfl
@[simp] theorem calRemove_engine (i : Nat) (s : State) : (calRemove i s).engine = s.engine := rfl
@[simp] theorem calRemove_entries (i : Nat) (s : State) : (calRemove i s).entries = s.entries := rfl
@[simp] theorem calRemove_recency (i : Nat) (s : State) : (calRemove i s).recency = s.recency := rfl
@[simp] theorem calRemove_reqs (i : Nat) (s : State) : (calRemove i s).reqs = s.reqs := rfl
@[simp] theorem calRemove_slots (i : Nat) (s : State) : (calRemove i s).slots = s.slots := rfl
@[simp] theorem calRemove_promotions (i : Nat) (s : State) : (calRemove i s).promotions = s.promotions := rfl
@[simp] theorem calRemove_cmu (i : Nat) (s : State) : (calRemove i s).cmu = s.cmu := rfl
@[simp] theorem calRemove_nw (i : Nat) (s : State) : (calRemove i s).nw = s.nw := rfl
@[simp] theorem calRemove_txns (i : Nat) (s : State) : (calRemove i s).txns = s.txns := rfl
@[simp] theorem calRemove_takes (i : Nat) (s : State) : (calRemove i s).takes = s.takes := rfl
@[simp] theorem calRemove_atPort (i : Nat) (s : State) : (calRemove i s).atPort = s.atPort := rfl
@[simp] theorem calRemove_returned (i : Nat) (s : State) : (calRemove i s).returned = s.returned := rfl
@[simp] theorem calRemove_mem (i : Nat) (s : State) : (calRemove i s).mem = s.mem := rfl
@[simp] theorem calRemove_pending (i : Nat) (s : State) : (calRemove i s).pending = s.pending := rfl

/-! ### calMake -/

@[simp] theorem calMake_inReset (i : Nat) (k : Key) (c : PeriodClass) (s : State) : (calMake i k c s).inReset = s.inReset := rfl
@[simp] theorem calMake_now (i : Nat) (k : Key) (c : PeriodClass) (s : State) : (calMake i k c s).now = s.now := rfl
@[simp] theorem calMake_strapBase (i : Nat) (k : Key) (c : PeriodClass) (s : State) : (calMake i k c s).strapBase = s.strapBase := rfl
@[simp] theorem calMake_run (i : Nat) (k : Key) (c : PeriodClass) (s : State) : (calMake i k c s).run = s.run := rfl
@[simp] theorem calMake_windows (i : Nat) (k : Key) (c : PeriodClass) (s : State) : (calMake i k c s).windows = s.windows := rfl
@[simp] theorem calMake_assemblies (i : Nat) (k : Key) (c : PeriodClass) (s : State) : (calMake i k c s).assemblies = s.assemblies := rfl
@[simp] theorem calMake_quietTimers (i : Nat) (k : Key) (c : PeriodClass) (s : State) : (calMake i k c s).quietTimers = s.quietTimers := rfl
@[simp] theorem calMake_channels (i : Nat) (k : Key) (c : PeriodClass) (s : State) : (calMake i k c s).channels = s.channels := rfl
@[simp] theorem calMake_kdir (i : Nat) (k : Key) (c : PeriodClass) (s : State) : (calMake i k c s).kdir = s.kdir := rfl
@[simp] theorem calMake_queue (i : Nat) (k : Key) (c : PeriodClass) (s : State) : (calMake i k c s).queue = s.queue := rfl
@[simp] theorem calMake_engine (i : Nat) (k : Key) (c : PeriodClass) (s : State) : (calMake i k c s).engine = s.engine := rfl
@[simp] theorem calMake_entries (i : Nat) (k : Key) (c : PeriodClass) (s : State) : (calMake i k c s).entries = s.entries := rfl
@[simp] theorem calMake_recency (i : Nat) (k : Key) (c : PeriodClass) (s : State) : (calMake i k c s).recency = s.recency := rfl
@[simp] theorem calMake_reqs (i : Nat) (k : Key) (c : PeriodClass) (s : State) : (calMake i k c s).reqs = s.reqs := rfl
@[simp] theorem calMake_lapses (i : Nat) (k : Key) (c : PeriodClass) (s : State) : (calMake i k c s).lapses = s.lapses := rfl
@[simp] theorem calMake_slots (i : Nat) (k : Key) (c : PeriodClass) (s : State) : (calMake i k c s).slots = s.slots := rfl
@[simp] theorem calMake_promotions (i : Nat) (k : Key) (c : PeriodClass) (s : State) : (calMake i k c s).promotions = s.promotions := rfl
@[simp] theorem calMake_cmu (i : Nat) (k : Key) (c : PeriodClass) (s : State) : (calMake i k c s).cmu = s.cmu := rfl
@[simp] theorem calMake_nw (i : Nat) (k : Key) (c : PeriodClass) (s : State) : (calMake i k c s).nw = s.nw := rfl
@[simp] theorem calMake_txns (i : Nat) (k : Key) (c : PeriodClass) (s : State) : (calMake i k c s).txns = s.txns := rfl
@[simp] theorem calMake_takes (i : Nat) (k : Key) (c : PeriodClass) (s : State) : (calMake i k c s).takes = s.takes := rfl
@[simp] theorem calMake_atPort (i : Nat) (k : Key) (c : PeriodClass) (s : State) : (calMake i k c s).atPort = s.atPort := rfl
@[simp] theorem calMake_returned (i : Nat) (k : Key) (c : PeriodClass) (s : State) : (calMake i k c s).returned = s.returned := rfl
@[simp] theorem calMake_mem (i : Nat) (k : Key) (c : PeriodClass) (s : State) : (calMake i k c s).mem = s.mem := rfl
@[simp] theorem calMake_pending (i : Nat) (k : Key) (c : PeriodClass) (s : State) : (calMake i k c s).pending = s.pending := rfl

/-! ### restartQuiet -/

@[simp] theorem restartQuiet_inReset (ch : Nat) (s : State) : (restartQuiet ch s).inReset = s.inReset := rfl
@[simp] theorem restartQuiet_now (ch : Nat) (s : State) : (restartQuiet ch s).now = s.now := rfl
@[simp] theorem restartQuiet_strapBase (ch : Nat) (s : State) : (restartQuiet ch s).strapBase = s.strapBase := rfl
@[simp] theorem restartQuiet_run (ch : Nat) (s : State) : (restartQuiet ch s).run = s.run := rfl
@[simp] theorem restartQuiet_windows (ch : Nat) (s : State) : (restartQuiet ch s).windows = s.windows := rfl
@[simp] theorem restartQuiet_assemblies (ch : Nat) (s : State) : (restartQuiet ch s).assemblies = s.assemblies := rfl
@[simp] theorem restartQuiet_channels (ch : Nat) (s : State) : (restartQuiet ch s).channels = s.channels := rfl
@[simp] theorem restartQuiet_kdir (ch : Nat) (s : State) : (restartQuiet ch s).kdir = s.kdir := rfl
@[simp] theorem restartQuiet_queue (ch : Nat) (s : State) : (restartQuiet ch s).queue = s.queue := rfl
@[simp] theorem restartQuiet_engine (ch : Nat) (s : State) : (restartQuiet ch s).engine = s.engine := rfl
@[simp] theorem restartQuiet_entries (ch : Nat) (s : State) : (restartQuiet ch s).entries = s.entries := rfl
@[simp] theorem restartQuiet_recency (ch : Nat) (s : State) : (restartQuiet ch s).recency = s.recency := rfl
@[simp] theorem restartQuiet_reqs (ch : Nat) (s : State) : (restartQuiet ch s).reqs = s.reqs := rfl
@[simp] theorem restartQuiet_calendar (ch : Nat) (s : State) : (restartQuiet ch s).calendar = s.calendar := rfl
@[simp] theorem restartQuiet_lapses (ch : Nat) (s : State) : (restartQuiet ch s).lapses = s.lapses := rfl
@[simp] theorem restartQuiet_slots (ch : Nat) (s : State) : (restartQuiet ch s).slots = s.slots := rfl
@[simp] theorem restartQuiet_promotions (ch : Nat) (s : State) : (restartQuiet ch s).promotions = s.promotions := rfl
@[simp] theorem restartQuiet_cmu (ch : Nat) (s : State) : (restartQuiet ch s).cmu = s.cmu := rfl
@[simp] theorem restartQuiet_nw (ch : Nat) (s : State) : (restartQuiet ch s).nw = s.nw := rfl
@[simp] theorem restartQuiet_txns (ch : Nat) (s : State) : (restartQuiet ch s).txns = s.txns := rfl
@[simp] theorem restartQuiet_takes (ch : Nat) (s : State) : (restartQuiet ch s).takes = s.takes := rfl
@[simp] theorem restartQuiet_atPort (ch : Nat) (s : State) : (restartQuiet ch s).atPort = s.atPort := rfl
@[simp] theorem restartQuiet_returned (ch : Nat) (s : State) : (restartQuiet ch s).returned = s.returned := rfl
@[simp] theorem restartQuiet_mem (ch : Nat) (s : State) : (restartQuiet ch s).mem = s.mem := rfl
@[simp] theorem restartQuiet_pending (ch : Nat) (s : State) : (restartQuiet ch s).pending = s.pending := rfl

/-! ### addReq -/

@[simp] theorem addReq_inReset (w : Requester) (i : Nat) (k : Key) (x : Wait) (s : State) : (addReq w i k x s).inReset = s.inReset := rfl
@[simp] theorem addReq_now (w : Requester) (i : Nat) (k : Key) (x : Wait) (s : State) : (addReq w i k x s).now = s.now := rfl
@[simp] theorem addReq_strapBase (w : Requester) (i : Nat) (k : Key) (x : Wait) (s : State) : (addReq w i k x s).strapBase = s.strapBase := rfl
@[simp] theorem addReq_run (w : Requester) (i : Nat) (k : Key) (x : Wait) (s : State) : (addReq w i k x s).run = s.run := rfl
@[simp] theorem addReq_windows (w : Requester) (i : Nat) (k : Key) (x : Wait) (s : State) : (addReq w i k x s).windows = s.windows := rfl
@[simp] theorem addReq_assemblies (w : Requester) (i : Nat) (k : Key) (x : Wait) (s : State) : (addReq w i k x s).assemblies = s.assemblies := rfl
@[simp] theorem addReq_quietTimers (w : Requester) (i : Nat) (k : Key) (x : Wait) (s : State) : (addReq w i k x s).quietTimers = s.quietTimers := rfl
@[simp] theorem addReq_channels (w : Requester) (i : Nat) (k : Key) (x : Wait) (s : State) : (addReq w i k x s).channels = s.channels := rfl
@[simp] theorem addReq_kdir (w : Requester) (i : Nat) (k : Key) (x : Wait) (s : State) : (addReq w i k x s).kdir = s.kdir := rfl
@[simp] theorem addReq_queue (w : Requester) (i : Nat) (k : Key) (x : Wait) (s : State) : (addReq w i k x s).queue = s.queue := rfl
@[simp] theorem addReq_engine (w : Requester) (i : Nat) (k : Key) (x : Wait) (s : State) : (addReq w i k x s).engine = s.engine := rfl
@[simp] theorem addReq_entries (w : Requester) (i : Nat) (k : Key) (x : Wait) (s : State) : (addReq w i k x s).entries = s.entries := rfl
@[simp] theorem addReq_recency (w : Requester) (i : Nat) (k : Key) (x : Wait) (s : State) : (addReq w i k x s).recency = s.recency := rfl
@[simp] theorem addReq_calendar (w : Requester) (i : Nat) (k : Key) (x : Wait) (s : State) : (addReq w i k x s).calendar = s.calendar := rfl
@[simp] theorem addReq_lapses (w : Requester) (i : Nat) (k : Key) (x : Wait) (s : State) : (addReq w i k x s).lapses = s.lapses := rfl
@[simp] theorem addReq_slots (w : Requester) (i : Nat) (k : Key) (x : Wait) (s : State) : (addReq w i k x s).slots = s.slots := rfl
@[simp] theorem addReq_promotions (w : Requester) (i : Nat) (k : Key) (x : Wait) (s : State) : (addReq w i k x s).promotions = s.promotions := rfl
@[simp] theorem addReq_cmu (w : Requester) (i : Nat) (k : Key) (x : Wait) (s : State) : (addReq w i k x s).cmu = s.cmu := rfl
@[simp] theorem addReq_nw (w : Requester) (i : Nat) (k : Key) (x : Wait) (s : State) : (addReq w i k x s).nw = s.nw := rfl
@[simp] theorem addReq_txns (w : Requester) (i : Nat) (k : Key) (x : Wait) (s : State) : (addReq w i k x s).txns = s.txns := rfl
@[simp] theorem addReq_takes (w : Requester) (i : Nat) (k : Key) (x : Wait) (s : State) : (addReq w i k x s).takes = s.takes := rfl
@[simp] theorem addReq_atPort (w : Requester) (i : Nat) (k : Key) (x : Wait) (s : State) : (addReq w i k x s).atPort = s.atPort := rfl
@[simp] theorem addReq_returned (w : Requester) (i : Nat) (k : Key) (x : Wait) (s : State) : (addReq w i k x s).returned = s.returned := rfl
@[simp] theorem addReq_mem (w : Requester) (i : Nat) (k : Key) (x : Wait) (s : State) : (addReq w i k x s).mem = s.mem := rfl
@[simp] theorem addReq_pending (w : Requester) (i : Nat) (k : Key) (x : Wait) (s : State) : (addReq w i k x s).pending = s.pending := rfl

/-! ### dropReq -/

@[simp] theorem dropReq_inReset (w : Requester) (s : State) : (dropReq w s).inReset = s.inReset := rfl
@[simp] theorem dropReq_now (w : Requester) (s : State) : (dropReq w s).now = s.now := rfl
@[simp] theorem dropReq_strapBase (w : Requester) (s : State) : (dropReq w s).strapBase = s.strapBase := rfl
@[simp] theorem dropReq_run (w : Requester) (s : State) : (dropReq w s).run = s.run := rfl
@[simp] theorem dropReq_windows (w : Requester) (s : State) : (dropReq w s).windows = s.windows := rfl
@[simp] theorem dropReq_assemblies (w : Requester) (s : State) : (dropReq w s).assemblies = s.assemblies := rfl
@[simp] theorem dropReq_quietTimers (w : Requester) (s : State) : (dropReq w s).quietTimers = s.quietTimers := rfl
@[simp] theorem dropReq_channels (w : Requester) (s : State) : (dropReq w s).channels = s.channels := rfl
@[simp] theorem dropReq_kdir (w : Requester) (s : State) : (dropReq w s).kdir = s.kdir := rfl
@[simp] theorem dropReq_queue (w : Requester) (s : State) : (dropReq w s).queue = s.queue := rfl
@[simp] theorem dropReq_engine (w : Requester) (s : State) : (dropReq w s).engine = s.engine := rfl
@[simp] theorem dropReq_entries (w : Requester) (s : State) : (dropReq w s).entries = s.entries := rfl
@[simp] theorem dropReq_recency (w : Requester) (s : State) : (dropReq w s).recency = s.recency := rfl
@[simp] theorem dropReq_calendar (w : Requester) (s : State) : (dropReq w s).calendar = s.calendar := rfl
@[simp] theorem dropReq_lapses (w : Requester) (s : State) : (dropReq w s).lapses = s.lapses := rfl
@[simp] theorem dropReq_slots (w : Requester) (s : State) : (dropReq w s).slots = s.slots := rfl
@[simp] theorem dropReq_promotions (w : Requester) (s : State) : (dropReq w s).promotions = s.promotions := rfl
@[simp] theorem dropReq_cmu (w : Requester) (s : State) : (dropReq w s).cmu = s.cmu := rfl
@[simp] theorem dropReq_nw (w : Requester) (s : State) : (dropReq w s).nw = s.nw := rfl
@[simp] theorem dropReq_txns (w : Requester) (s : State) : (dropReq w s).txns = s.txns := rfl
@[simp] theorem dropReq_takes (w : Requester) (s : State) : (dropReq w s).takes = s.takes := rfl
@[simp] theorem dropReq_atPort (w : Requester) (s : State) : (dropReq w s).atPort = s.atPort := rfl
@[simp] theorem dropReq_returned (w : Requester) (s : State) : (dropReq w s).returned = s.returned := rfl
@[simp] theorem dropReq_mem (w : Requester) (s : State) : (dropReq w s).mem = s.mem := rfl
@[simp] theorem dropReq_pending (w : Requester) (s : State) : (dropReq w s).pending = s.pending := rfl

/-! ### rechoose -/

@[simp] theorem rechoose_inReset (e : Nat) (s : State) : (rechoose e s).inReset = s.inReset := rfl
@[simp] theorem rechoose_now (e : Nat) (s : State) : (rechoose e s).now = s.now := rfl
@[simp] theorem rechoose_strapBase (e : Nat) (s : State) : (rechoose e s).strapBase = s.strapBase := rfl
@[simp] theorem rechoose_run (e : Nat) (s : State) : (rechoose e s).run = s.run := rfl
@[simp] theorem rechoose_windows (e : Nat) (s : State) : (rechoose e s).windows = s.windows := rfl
@[simp] theorem rechoose_assemblies (e : Nat) (s : State) : (rechoose e s).assemblies = s.assemblies := rfl
@[simp] theorem rechoose_quietTimers (e : Nat) (s : State) : (rechoose e s).quietTimers = s.quietTimers := rfl
@[simp] theorem rechoose_channels (e : Nat) (s : State) : (rechoose e s).channels = s.channels := rfl
@[simp] theorem rechoose_kdir (e : Nat) (s : State) : (rechoose e s).kdir = s.kdir := rfl
@[simp] theorem rechoose_queue (e : Nat) (s : State) : (rechoose e s).queue = s.queue := rfl
@[simp] theorem rechoose_engine (e : Nat) (s : State) : (rechoose e s).engine = s.engine := rfl
@[simp] theorem rechoose_entries (e : Nat) (s : State) : (rechoose e s).entries = s.entries := rfl
@[simp] theorem rechoose_recency (e : Nat) (s : State) : (rechoose e s).recency = s.recency := rfl
@[simp] theorem rechoose_calendar (e : Nat) (s : State) : (rechoose e s).calendar = s.calendar := rfl
@[simp] theorem rechoose_lapses (e : Nat) (s : State) : (rechoose e s).lapses = s.lapses := rfl
@[simp] theorem rechoose_slots (e : Nat) (s : State) : (rechoose e s).slots = s.slots := rfl
@[simp] theorem rechoose_promotions (e : Nat) (s : State) : (rechoose e s).promotions = s.promotions := rfl
@[simp] theorem rechoose_cmu (e : Nat) (s : State) : (rechoose e s).cmu = s.cmu := rfl
@[simp] theorem rechoose_nw (e : Nat) (s : State) : (rechoose e s).nw = s.nw := rfl
@[simp] theorem rechoose_txns (e : Nat) (s : State) : (rechoose e s).txns = s.txns := rfl
@[simp] theorem rechoose_takes (e : Nat) (s : State) : (rechoose e s).takes = s.takes := rfl
@[simp] theorem rechoose_atPort (e : Nat) (s : State) : (rechoose e s).atPort = s.atPort := rfl
@[simp] theorem rechoose_returned (e : Nat) (s : State) : (rechoose e s).returned = s.returned := rfl
@[simp] theorem rechoose_mem (e : Nat) (s : State) : (rechoose e s).mem = s.mem := rfl
@[simp] theorem rechoose_pending (e : Nat) (s : State) : (rechoose e s).pending = s.pending := rfl

/-! ### arrive -/

@[simp] theorem arrive_inReset (p : PortTxn) (s : State) : (arrive p s).inReset = s.inReset := rfl
@[simp] theorem arrive_now (p : PortTxn) (s : State) : (arrive p s).now = s.now := rfl
@[simp] theorem arrive_strapBase (p : PortTxn) (s : State) : (arrive p s).strapBase = s.strapBase := rfl
@[simp] theorem arrive_run (p : PortTxn) (s : State) : (arrive p s).run = s.run := rfl
@[simp] theorem arrive_windows (p : PortTxn) (s : State) : (arrive p s).windows = s.windows := rfl
@[simp] theorem arrive_assemblies (p : PortTxn) (s : State) : (arrive p s).assemblies = s.assemblies := rfl
@[simp] theorem arrive_quietTimers (p : PortTxn) (s : State) : (arrive p s).quietTimers = s.quietTimers := rfl
@[simp] theorem arrive_channels (p : PortTxn) (s : State) : (arrive p s).channels = s.channels := rfl
@[simp] theorem arrive_kdir (p : PortTxn) (s : State) : (arrive p s).kdir = s.kdir := rfl
@[simp] theorem arrive_queue (p : PortTxn) (s : State) : (arrive p s).queue = s.queue := rfl
@[simp] theorem arrive_engine (p : PortTxn) (s : State) : (arrive p s).engine = s.engine := rfl
@[simp] theorem arrive_entries (p : PortTxn) (s : State) : (arrive p s).entries = s.entries := rfl
@[simp] theorem arrive_recency (p : PortTxn) (s : State) : (arrive p s).recency = s.recency := rfl
@[simp] theorem arrive_reqs (p : PortTxn) (s : State) : (arrive p s).reqs = s.reqs := rfl
@[simp] theorem arrive_calendar (p : PortTxn) (s : State) : (arrive p s).calendar = s.calendar := rfl
@[simp] theorem arrive_lapses (p : PortTxn) (s : State) : (arrive p s).lapses = s.lapses := rfl
@[simp] theorem arrive_slots (p : PortTxn) (s : State) : (arrive p s).slots = s.slots := rfl
@[simp] theorem arrive_promotions (p : PortTxn) (s : State) : (arrive p s).promotions = s.promotions := rfl
@[simp] theorem arrive_cmu (p : PortTxn) (s : State) : (arrive p s).cmu = s.cmu := rfl
@[simp] theorem arrive_nw (p : PortTxn) (s : State) : (arrive p s).nw = s.nw := rfl
@[simp] theorem arrive_txns (p : PortTxn) (s : State) : (arrive p s).txns = s.txns := rfl
@[simp] theorem arrive_takes (p : PortTxn) (s : State) : (arrive p s).takes = s.takes := rfl
@[simp] theorem arrive_returned (p : PortTxn) (s : State) : (arrive p s).returned = s.returned := rfl
@[simp] theorem arrive_mem (p : PortTxn) (s : State) : (arrive p s).mem = s.mem := rfl
@[simp] theorem arrive_pending (p : PortTxn) (s : State) : (arrive p s).pending = s.pending := rfl

/-! ### writeStatus -/

@[simp] theorem writeStatus_inReset (st : Status) (s : State) : (writeStatus st s).inReset = s.inReset := rfl
@[simp] theorem writeStatus_now (st : Status) (s : State) : (writeStatus st s).now = s.now := rfl
@[simp] theorem writeStatus_strapBase (st : Status) (s : State) : (writeStatus st s).strapBase = s.strapBase := rfl
@[simp] theorem writeStatus_run (st : Status) (s : State) : (writeStatus st s).run = s.run := rfl
@[simp] theorem writeStatus_windows (st : Status) (s : State) : (writeStatus st s).windows = s.windows := rfl
@[simp] theorem writeStatus_assemblies (st : Status) (s : State) : (writeStatus st s).assemblies = s.assemblies := rfl
@[simp] theorem writeStatus_quietTimers (st : Status) (s : State) : (writeStatus st s).quietTimers = s.quietTimers := rfl
@[simp] theorem writeStatus_channels (st : Status) (s : State) : (writeStatus st s).channels = s.channels := rfl
@[simp] theorem writeStatus_kdir (st : Status) (s : State) : (writeStatus st s).kdir = s.kdir := rfl
@[simp] theorem writeStatus_queue (st : Status) (s : State) : (writeStatus st s).queue = s.queue := rfl
@[simp] theorem writeStatus_engine (st : Status) (s : State) : (writeStatus st s).engine = s.engine := rfl
@[simp] theorem writeStatus_entries (st : Status) (s : State) : (writeStatus st s).entries = s.entries := rfl
@[simp] theorem writeStatus_recency (st : Status) (s : State) : (writeStatus st s).recency = s.recency := rfl
@[simp] theorem writeStatus_reqs (st : Status) (s : State) : (writeStatus st s).reqs = s.reqs := rfl
@[simp] theorem writeStatus_calendar (st : Status) (s : State) : (writeStatus st s).calendar = s.calendar := rfl
@[simp] theorem writeStatus_lapses (st : Status) (s : State) : (writeStatus st s).lapses = s.lapses := rfl
@[simp] theorem writeStatus_slots (st : Status) (s : State) : (writeStatus st s).slots = s.slots := rfl
@[simp] theorem writeStatus_promotions (st : Status) (s : State) : (writeStatus st s).promotions = s.promotions := rfl
@[simp] theorem writeStatus_nw (st : Status) (s : State) : (writeStatus st s).nw = s.nw := rfl
@[simp] theorem writeStatus_txns (st : Status) (s : State) : (writeStatus st s).txns = s.txns := rfl
@[simp] theorem writeStatus_takes (st : Status) (s : State) : (writeStatus st s).takes = s.takes := rfl
@[simp] theorem writeStatus_atPort (st : Status) (s : State) : (writeStatus st s).atPort = s.atPort := rfl
@[simp] theorem writeStatus_returned (st : Status) (s : State) : (writeStatus st s).returned = s.returned := rfl
@[simp] theorem writeStatus_pending (st : Status) (s : State) : (writeStatus st s).pending = s.pending := rfl

/-! ### answer -/

@[simp] theorem answer_inReset (st : Status) (s : State) : (answer st s).inReset = s.inReset := rfl
@[simp] theorem answer_now (st : Status) (s : State) : (answer st s).now = s.now := rfl
@[simp] theorem answer_strapBase (st : Status) (s : State) : (answer st s).strapBase = s.strapBase := rfl
@[simp] theorem answer_run (st : Status) (s : State) : (answer st s).run = s.run := rfl
@[simp] theorem answer_windows (st : Status) (s : State) : (answer st s).windows = s.windows := rfl
@[simp] theorem answer_assemblies (st : Status) (s : State) : (answer st s).assemblies = s.assemblies := rfl
@[simp] theorem answer_quietTimers (st : Status) (s : State) : (answer st s).quietTimers = s.quietTimers := rfl
@[simp] theorem answer_channels (st : Status) (s : State) : (answer st s).channels = s.channels := rfl
@[simp] theorem answer_kdir (st : Status) (s : State) : (answer st s).kdir = s.kdir := rfl
@[simp] theorem answer_queue (st : Status) (s : State) : (answer st s).queue = s.queue := rfl
@[simp] theorem answer_engine (st : Status) (s : State) : (answer st s).engine = s.engine := rfl
@[simp] theorem answer_entries (st : Status) (s : State) : (answer st s).entries = s.entries := rfl
@[simp] theorem answer_recency (st : Status) (s : State) : (answer st s).recency = s.recency := rfl
@[simp] theorem answer_reqs (st : Status) (s : State) : (answer st s).reqs = s.reqs := rfl
@[simp] theorem answer_calendar (st : Status) (s : State) : (answer st s).calendar = s.calendar := rfl
@[simp] theorem answer_lapses (st : Status) (s : State) : (answer st s).lapses = s.lapses := rfl
@[simp] theorem answer_slots (st : Status) (s : State) : (answer st s).slots = s.slots := rfl
@[simp] theorem answer_promotions (st : Status) (s : State) : (answer st s).promotions = s.promotions := rfl
@[simp] theorem answer_nw (st : Status) (s : State) : (answer st s).nw = s.nw := rfl
@[simp] theorem answer_txns (st : Status) (s : State) : (answer st s).txns = s.txns := rfl
@[simp] theorem answer_takes (st : Status) (s : State) : (answer st s).takes = s.takes := rfl
@[simp] theorem answer_atPort (st : Status) (s : State) : (answer st s).atPort = s.atPort := rfl
@[simp] theorem answer_returned (st : Status) (s : State) : (answer st s).returned = s.returned := rfl
@[simp] theorem answer_pending (st : Status) (s : State) : (answer st s).pending = s.pending := rfl

/-! ### fetchDescriptor -/

@[simp] theorem fetchDescriptor_inReset (s : State) : (fetchDescriptor s).inReset = s.inReset := rfl
@[simp] theorem fetchDescriptor_now (s : State) : (fetchDescriptor s).now = s.now := rfl
@[simp] theorem fetchDescriptor_strapBase (s : State) : (fetchDescriptor s).strapBase = s.strapBase := rfl
@[simp] theorem fetchDescriptor_run (s : State) : (fetchDescriptor s).run = s.run := rfl
@[simp] theorem fetchDescriptor_windows (s : State) : (fetchDescriptor s).windows = s.windows := rfl
@[simp] theorem fetchDescriptor_assemblies (s : State) : (fetchDescriptor s).assemblies = s.assemblies := rfl
@[simp] theorem fetchDescriptor_quietTimers (s : State) : (fetchDescriptor s).quietTimers = s.quietTimers := rfl
@[simp] theorem fetchDescriptor_channels (s : State) : (fetchDescriptor s).channels = s.channels := rfl
@[simp] theorem fetchDescriptor_kdir (s : State) : (fetchDescriptor s).kdir = s.kdir := rfl
@[simp] theorem fetchDescriptor_queue (s : State) : (fetchDescriptor s).queue = s.queue := rfl
@[simp] theorem fetchDescriptor_engine (s : State) : (fetchDescriptor s).engine = s.engine := rfl
@[simp] theorem fetchDescriptor_entries (s : State) : (fetchDescriptor s).entries = s.entries := rfl
@[simp] theorem fetchDescriptor_recency (s : State) : (fetchDescriptor s).recency = s.recency := rfl
@[simp] theorem fetchDescriptor_reqs (s : State) : (fetchDescriptor s).reqs = s.reqs := rfl
@[simp] theorem fetchDescriptor_calendar (s : State) : (fetchDescriptor s).calendar = s.calendar := rfl
@[simp] theorem fetchDescriptor_lapses (s : State) : (fetchDescriptor s).lapses = s.lapses := rfl
@[simp] theorem fetchDescriptor_slots (s : State) : (fetchDescriptor s).slots = s.slots := rfl
@[simp] theorem fetchDescriptor_promotions (s : State) : (fetchDescriptor s).promotions = s.promotions := rfl
@[simp] theorem fetchDescriptor_nw (s : State) : (fetchDescriptor s).nw = s.nw := rfl
@[simp] theorem fetchDescriptor_txns (s : State) : (fetchDescriptor s).txns = s.txns := rfl
@[simp] theorem fetchDescriptor_takes (s : State) : (fetchDescriptor s).takes = s.takes := rfl
@[simp] theorem fetchDescriptor_atPort (s : State) : (fetchDescriptor s).atPort = s.atPort := rfl
@[simp] theorem fetchDescriptor_returned (s : State) : (fetchDescriptor s).returned = s.returned := rfl
@[simp] theorem fetchDescriptor_pending (s : State) : (fetchDescriptor s).pending = s.pending := rfl

/-! ### writeMirror -/

@[simp] theorem writeMirror_inReset (s : State) : (writeMirror s).inReset = s.inReset := rfl
@[simp] theorem writeMirror_now (s : State) : (writeMirror s).now = s.now := rfl
@[simp] theorem writeMirror_strapBase (s : State) : (writeMirror s).strapBase = s.strapBase := rfl
@[simp] theorem writeMirror_run (s : State) : (writeMirror s).run = s.run := rfl
@[simp] theorem writeMirror_windows (s : State) : (writeMirror s).windows = s.windows := rfl
@[simp] theorem writeMirror_assemblies (s : State) : (writeMirror s).assemblies = s.assemblies := rfl
@[simp] theorem writeMirror_quietTimers (s : State) : (writeMirror s).quietTimers = s.quietTimers := rfl
@[simp] theorem writeMirror_channels (s : State) : (writeMirror s).channels = s.channels := rfl
@[simp] theorem writeMirror_kdir (s : State) : (writeMirror s).kdir = s.kdir := rfl
@[simp] theorem writeMirror_queue (s : State) : (writeMirror s).queue = s.queue := rfl
@[simp] theorem writeMirror_engine (s : State) : (writeMirror s).engine = s.engine := rfl
@[simp] theorem writeMirror_entries (s : State) : (writeMirror s).entries = s.entries := rfl
@[simp] theorem writeMirror_recency (s : State) : (writeMirror s).recency = s.recency := rfl
@[simp] theorem writeMirror_reqs (s : State) : (writeMirror s).reqs = s.reqs := rfl
@[simp] theorem writeMirror_calendar (s : State) : (writeMirror s).calendar = s.calendar := rfl
@[simp] theorem writeMirror_lapses (s : State) : (writeMirror s).lapses = s.lapses := rfl
@[simp] theorem writeMirror_slots (s : State) : (writeMirror s).slots = s.slots := rfl
@[simp] theorem writeMirror_promotions (s : State) : (writeMirror s).promotions = s.promotions := rfl
@[simp] theorem writeMirror_nw (s : State) : (writeMirror s).nw = s.nw := rfl
@[simp] theorem writeMirror_txns (s : State) : (writeMirror s).txns = s.txns := rfl
@[simp] theorem writeMirror_takes (s : State) : (writeMirror s).takes = s.takes := rfl
@[simp] theorem writeMirror_atPort (s : State) : (writeMirror s).atPort = s.atPort := rfl
@[simp] theorem writeMirror_returned (s : State) : (writeMirror s).returned = s.returned := rfl
@[simp] theorem writeMirror_pending (s : State) : (writeMirror s).pending = s.pending := rfl

/-! ### startWriteBack -/

@[simp] theorem startWriteBack_inReset (e i : Nat) (s : State) : (startWriteBack e i s).inReset = s.inReset := rfl
@[simp] theorem startWriteBack_now (e i : Nat) (s : State) : (startWriteBack e i s).now = s.now := rfl
@[simp] theorem startWriteBack_strapBase (e i : Nat) (s : State) : (startWriteBack e i s).strapBase = s.strapBase := rfl
@[simp] theorem startWriteBack_run (e i : Nat) (s : State) : (startWriteBack e i s).run = s.run := rfl
@[simp] theorem startWriteBack_windows (e i : Nat) (s : State) : (startWriteBack e i s).windows = s.windows := rfl
@[simp] theorem startWriteBack_assemblies (e i : Nat) (s : State) : (startWriteBack e i s).assemblies = s.assemblies := rfl
@[simp] theorem startWriteBack_quietTimers (e i : Nat) (s : State) : (startWriteBack e i s).quietTimers = s.quietTimers := rfl
@[simp] theorem startWriteBack_channels (e i : Nat) (s : State) : (startWriteBack e i s).channels = s.channels := rfl
@[simp] theorem startWriteBack_kdir (e i : Nat) (s : State) : (startWriteBack e i s).kdir = s.kdir := rfl
@[simp] theorem startWriteBack_queue (e i : Nat) (s : State) : (startWriteBack e i s).queue = s.queue := rfl
@[simp] theorem startWriteBack_engine (e i : Nat) (s : State) : (startWriteBack e i s).engine = s.engine := rfl
@[simp] theorem startWriteBack_recency (e i : Nat) (s : State) : (startWriteBack e i s).recency = s.recency := rfl
@[simp] theorem startWriteBack_calendar (e i : Nat) (s : State) : (startWriteBack e i s).calendar = s.calendar := rfl
@[simp] theorem startWriteBack_lapses (e i : Nat) (s : State) : (startWriteBack e i s).lapses = s.lapses := rfl
@[simp] theorem startWriteBack_slots (e i : Nat) (s : State) : (startWriteBack e i s).slots = s.slots := rfl
@[simp] theorem startWriteBack_promotions (e i : Nat) (s : State) : (startWriteBack e i s).promotions = s.promotions := rfl
@[simp] theorem startWriteBack_cmu (e i : Nat) (s : State) : (startWriteBack e i s).cmu = s.cmu := rfl
@[simp] theorem startWriteBack_nw (e i : Nat) (s : State) : (startWriteBack e i s).nw = s.nw := rfl
@[simp] theorem startWriteBack_txns (e i : Nat) (s : State) : (startWriteBack e i s).txns = s.txns := rfl
@[simp] theorem startWriteBack_takes (e i : Nat) (s : State) : (startWriteBack e i s).takes = s.takes := rfl
@[simp] theorem startWriteBack_atPort (e i : Nat) (s : State) : (startWriteBack e i s).atPort = s.atPort := rfl
@[simp] theorem startWriteBack_returned (e i : Nat) (s : State) : (startWriteBack e i s).returned = s.returned := rfl
@[simp] theorem startWriteBack_pending (e i : Nat) (s : State) : (startWriteBack e i s).pending = s.pending := rfl

/-! ### releaseJob -/

@[simp] theorem releaseJob_inReset (i : Nat) (s : State) : (releaseJob i s).inReset = s.inReset := rfl
@[simp] theorem releaseJob_now (i : Nat) (s : State) : (releaseJob i s).now = s.now := rfl
@[simp] theorem releaseJob_strapBase (i : Nat) (s : State) : (releaseJob i s).strapBase = s.strapBase := rfl
@[simp] theorem releaseJob_run (i : Nat) (s : State) : (releaseJob i s).run = s.run := rfl
@[simp] theorem releaseJob_windows (i : Nat) (s : State) : (releaseJob i s).windows = s.windows := rfl
@[simp] theorem releaseJob_assemblies (i : Nat) (s : State) : (releaseJob i s).assemblies = s.assemblies := rfl
@[simp] theorem releaseJob_quietTimers (i : Nat) (s : State) : (releaseJob i s).quietTimers = s.quietTimers := rfl
@[simp] theorem releaseJob_channels (i : Nat) (s : State) : (releaseJob i s).channels = s.channels := rfl
@[simp] theorem releaseJob_kdir (i : Nat) (s : State) : (releaseJob i s).kdir = s.kdir := rfl
@[simp] theorem releaseJob_engine (i : Nat) (s : State) : (releaseJob i s).engine = s.engine := rfl
@[simp] theorem releaseJob_entries (i : Nat) (s : State) : (releaseJob i s).entries = s.entries := rfl
@[simp] theorem releaseJob_recency (i : Nat) (s : State) : (releaseJob i s).recency = s.recency := rfl
@[simp] theorem releaseJob_reqs (i : Nat) (s : State) : (releaseJob i s).reqs = s.reqs := rfl
@[simp] theorem releaseJob_calendar (i : Nat) (s : State) : (releaseJob i s).calendar = s.calendar := rfl
@[simp] theorem releaseJob_lapses (i : Nat) (s : State) : (releaseJob i s).lapses = s.lapses := rfl
@[simp] theorem releaseJob_slots (i : Nat) (s : State) : (releaseJob i s).slots = s.slots := rfl
@[simp] theorem releaseJob_promotions (i : Nat) (s : State) : (releaseJob i s).promotions = s.promotions := rfl
@[simp] theorem releaseJob_cmu (i : Nat) (s : State) : (releaseJob i s).cmu = s.cmu := rfl
@[simp] theorem releaseJob_nw (i : Nat) (s : State) : (releaseJob i s).nw = s.nw := rfl
@[simp] theorem releaseJob_txns (i : Nat) (s : State) : (releaseJob i s).txns = s.txns := rfl
@[simp] theorem releaseJob_takes (i : Nat) (s : State) : (releaseJob i s).takes = s.takes := rfl
@[simp] theorem releaseJob_atPort (i : Nat) (s : State) : (releaseJob i s).atPort = s.atPort := rfl
@[simp] theorem releaseJob_returned (i : Nat) (s : State) : (releaseJob i s).returned = s.returned := rfl
@[simp] theorem releaseJob_mem (i : Nat) (s : State) : (releaseJob i s).mem = s.mem := rfl
@[simp] theorem releaseJob_pending (i : Nat) (s : State) : (releaseJob i s).pending = s.pending := rfl

/-! ### writeHeader -/

@[simp] theorem writeHeader_inReset (k : Key) (i : Nat) (r : List (Key × Nat)) (f : Bool) (s : State) : (writeHeader k i r f s).inReset = s.inReset := rfl
@[simp] theorem writeHeader_now (k : Key) (i : Nat) (r : List (Key × Nat)) (f : Bool) (s : State) : (writeHeader k i r f s).now = s.now := rfl
@[simp] theorem writeHeader_strapBase (k : Key) (i : Nat) (r : List (Key × Nat)) (f : Bool) (s : State) : (writeHeader k i r f s).strapBase = s.strapBase := rfl
@[simp] theorem writeHeader_run (k : Key) (i : Nat) (r : List (Key × Nat)) (f : Bool) (s : State) : (writeHeader k i r f s).run = s.run := rfl
@[simp] theorem writeHeader_windows (k : Key) (i : Nat) (r : List (Key × Nat)) (f : Bool) (s : State) : (writeHeader k i r f s).windows = s.windows := rfl
@[simp] theorem writeHeader_assemblies (k : Key) (i : Nat) (r : List (Key × Nat)) (f : Bool) (s : State) : (writeHeader k i r f s).assemblies = s.assemblies := rfl
@[simp] theorem writeHeader_quietTimers (k : Key) (i : Nat) (r : List (Key × Nat)) (f : Bool) (s : State) : (writeHeader k i r f s).quietTimers = s.quietTimers := rfl
@[simp] theorem writeHeader_channels (k : Key) (i : Nat) (r : List (Key × Nat)) (f : Bool) (s : State) : (writeHeader k i r f s).channels = s.channels := rfl
@[simp] theorem writeHeader_kdir (k : Key) (i : Nat) (r : List (Key × Nat)) (f : Bool) (s : State) : (writeHeader k i r f s).kdir = s.kdir := rfl
@[simp] theorem writeHeader_queue (k : Key) (i : Nat) (r : List (Key × Nat)) (f : Bool) (s : State) : (writeHeader k i r f s).queue = s.queue := rfl
@[simp] theorem writeHeader_engine (k : Key) (i : Nat) (r : List (Key × Nat)) (f : Bool) (s : State) : (writeHeader k i r f s).engine = s.engine := rfl
@[simp] theorem writeHeader_entries (k : Key) (i : Nat) (r : List (Key × Nat)) (f : Bool) (s : State) : (writeHeader k i r f s).entries = s.entries := rfl
@[simp] theorem writeHeader_recency (k : Key) (i : Nat) (r : List (Key × Nat)) (f : Bool) (s : State) : (writeHeader k i r f s).recency = s.recency := rfl
@[simp] theorem writeHeader_reqs (k : Key) (i : Nat) (r : List (Key × Nat)) (f : Bool) (s : State) : (writeHeader k i r f s).reqs = s.reqs := rfl
@[simp] theorem writeHeader_calendar (k : Key) (i : Nat) (r : List (Key × Nat)) (f : Bool) (s : State) : (writeHeader k i r f s).calendar = s.calendar := rfl
@[simp] theorem writeHeader_lapses (k : Key) (i : Nat) (r : List (Key × Nat)) (f : Bool) (s : State) : (writeHeader k i r f s).lapses = s.lapses := rfl
@[simp] theorem writeHeader_slots (k : Key) (i : Nat) (r : List (Key × Nat)) (f : Bool) (s : State) : (writeHeader k i r f s).slots = s.slots := rfl
@[simp] theorem writeHeader_promotions (k : Key) (i : Nat) (r : List (Key × Nat)) (f : Bool) (s : State) : (writeHeader k i r f s).promotions = s.promotions := rfl
@[simp] theorem writeHeader_nw (k : Key) (i : Nat) (r : List (Key × Nat)) (f : Bool) (s : State) : (writeHeader k i r f s).nw = s.nw := rfl
@[simp] theorem writeHeader_txns (k : Key) (i : Nat) (r : List (Key × Nat)) (f : Bool) (s : State) : (writeHeader k i r f s).txns = s.txns := rfl
@[simp] theorem writeHeader_takes (k : Key) (i : Nat) (r : List (Key × Nat)) (f : Bool) (s : State) : (writeHeader k i r f s).takes = s.takes := rfl
@[simp] theorem writeHeader_atPort (k : Key) (i : Nat) (r : List (Key × Nat)) (f : Bool) (s : State) : (writeHeader k i r f s).atPort = s.atPort := rfl
@[simp] theorem writeHeader_returned (k : Key) (i : Nat) (r : List (Key × Nat)) (f : Bool) (s : State) : (writeHeader k i r f s).returned = s.returned := rfl
@[simp] theorem writeHeader_pending (k : Key) (i : Nat) (r : List (Key × Nat)) (f : Bool) (s : State) : (writeHeader k i r f s).pending = s.pending := rfl

/-! ### bindCopy -/

@[simp] theorem bindCopy_inReset (n : Nat) (c : BoundCopy) (s : State) : (bindCopy n c s).inReset = s.inReset := rfl
@[simp] theorem bindCopy_now (n : Nat) (c : BoundCopy) (s : State) : (bindCopy n c s).now = s.now := rfl
@[simp] theorem bindCopy_strapBase (n : Nat) (c : BoundCopy) (s : State) : (bindCopy n c s).strapBase = s.strapBase := rfl
@[simp] theorem bindCopy_run (n : Nat) (c : BoundCopy) (s : State) : (bindCopy n c s).run = s.run := rfl
@[simp] theorem bindCopy_windows (n : Nat) (c : BoundCopy) (s : State) : (bindCopy n c s).windows = s.windows := rfl
@[simp] theorem bindCopy_assemblies (n : Nat) (c : BoundCopy) (s : State) : (bindCopy n c s).assemblies = s.assemblies := rfl
@[simp] theorem bindCopy_quietTimers (n : Nat) (c : BoundCopy) (s : State) : (bindCopy n c s).quietTimers = s.quietTimers := rfl
@[simp] theorem bindCopy_channels (n : Nat) (c : BoundCopy) (s : State) : (bindCopy n c s).channels = s.channels := rfl
@[simp] theorem bindCopy_kdir (n : Nat) (c : BoundCopy) (s : State) : (bindCopy n c s).kdir = s.kdir := rfl
@[simp] theorem bindCopy_queue (n : Nat) (c : BoundCopy) (s : State) : (bindCopy n c s).queue = s.queue := rfl
@[simp] theorem bindCopy_engine (n : Nat) (c : BoundCopy) (s : State) : (bindCopy n c s).engine = s.engine := rfl
@[simp] theorem bindCopy_entries (n : Nat) (c : BoundCopy) (s : State) : (bindCopy n c s).entries = s.entries := rfl
@[simp] theorem bindCopy_recency (n : Nat) (c : BoundCopy) (s : State) : (bindCopy n c s).recency = s.recency := rfl
@[simp] theorem bindCopy_reqs (n : Nat) (c : BoundCopy) (s : State) : (bindCopy n c s).reqs = s.reqs := rfl
@[simp] theorem bindCopy_calendar (n : Nat) (c : BoundCopy) (s : State) : (bindCopy n c s).calendar = s.calendar := rfl
@[simp] theorem bindCopy_lapses (n : Nat) (c : BoundCopy) (s : State) : (bindCopy n c s).lapses = s.lapses := rfl
@[simp] theorem bindCopy_promotions (n : Nat) (c : BoundCopy) (s : State) : (bindCopy n c s).promotions = s.promotions := rfl
@[simp] theorem bindCopy_cmu (n : Nat) (c : BoundCopy) (s : State) : (bindCopy n c s).cmu = s.cmu := rfl
@[simp] theorem bindCopy_nw (n : Nat) (c : BoundCopy) (s : State) : (bindCopy n c s).nw = s.nw := rfl
@[simp] theorem bindCopy_txns (n : Nat) (c : BoundCopy) (s : State) : (bindCopy n c s).txns = s.txns := rfl
@[simp] theorem bindCopy_takes (n : Nat) (c : BoundCopy) (s : State) : (bindCopy n c s).takes = s.takes := rfl
@[simp] theorem bindCopy_atPort (n : Nat) (c : BoundCopy) (s : State) : (bindCopy n c s).atPort = s.atPort := rfl
@[simp] theorem bindCopy_returned (n : Nat) (c : BoundCopy) (s : State) : (bindCopy n c s).returned = s.returned := rfl
@[simp] theorem bindCopy_mem (n : Nat) (c : BoundCopy) (s : State) : (bindCopy n c s).mem = s.mem := rfl
@[simp] theorem bindCopy_pending (n : Nat) (c : BoundCopy) (s : State) : (bindCopy n c s).pending = s.pending := rfl

/-! ### armSlot -/

@[simp] theorem armSlot_inReset (n : Nat) (ps : List (Nat × Byte)) (s : State) : (armSlot n ps s).inReset = s.inReset := rfl
@[simp] theorem armSlot_now (n : Nat) (ps : List (Nat × Byte)) (s : State) : (armSlot n ps s).now = s.now := rfl
@[simp] theorem armSlot_strapBase (n : Nat) (ps : List (Nat × Byte)) (s : State) : (armSlot n ps s).strapBase = s.strapBase := rfl
@[simp] theorem armSlot_run (n : Nat) (ps : List (Nat × Byte)) (s : State) : (armSlot n ps s).run = s.run := rfl
@[simp] theorem armSlot_windows (n : Nat) (ps : List (Nat × Byte)) (s : State) : (armSlot n ps s).windows = s.windows := rfl
@[simp] theorem armSlot_assemblies (n : Nat) (ps : List (Nat × Byte)) (s : State) : (armSlot n ps s).assemblies = s.assemblies := rfl
@[simp] theorem armSlot_quietTimers (n : Nat) (ps : List (Nat × Byte)) (s : State) : (armSlot n ps s).quietTimers = s.quietTimers := rfl
@[simp] theorem armSlot_channels (n : Nat) (ps : List (Nat × Byte)) (s : State) : (armSlot n ps s).channels = s.channels := rfl
@[simp] theorem armSlot_kdir (n : Nat) (ps : List (Nat × Byte)) (s : State) : (armSlot n ps s).kdir = s.kdir := rfl
@[simp] theorem armSlot_queue (n : Nat) (ps : List (Nat × Byte)) (s : State) : (armSlot n ps s).queue = s.queue := rfl
@[simp] theorem armSlot_engine (n : Nat) (ps : List (Nat × Byte)) (s : State) : (armSlot n ps s).engine = s.engine := rfl
@[simp] theorem armSlot_entries (n : Nat) (ps : List (Nat × Byte)) (s : State) : (armSlot n ps s).entries = s.entries := rfl
@[simp] theorem armSlot_recency (n : Nat) (ps : List (Nat × Byte)) (s : State) : (armSlot n ps s).recency = s.recency := rfl
@[simp] theorem armSlot_reqs (n : Nat) (ps : List (Nat × Byte)) (s : State) : (armSlot n ps s).reqs = s.reqs := rfl
@[simp] theorem armSlot_calendar (n : Nat) (ps : List (Nat × Byte)) (s : State) : (armSlot n ps s).calendar = s.calendar := rfl
@[simp] theorem armSlot_lapses (n : Nat) (ps : List (Nat × Byte)) (s : State) : (armSlot n ps s).lapses = s.lapses := rfl
@[simp] theorem armSlot_promotions (n : Nat) (ps : List (Nat × Byte)) (s : State) : (armSlot n ps s).promotions = s.promotions := rfl
@[simp] theorem armSlot_cmu (n : Nat) (ps : List (Nat × Byte)) (s : State) : (armSlot n ps s).cmu = s.cmu := rfl
@[simp] theorem armSlot_nw (n : Nat) (ps : List (Nat × Byte)) (s : State) : (armSlot n ps s).nw = s.nw := rfl
@[simp] theorem armSlot_txns (n : Nat) (ps : List (Nat × Byte)) (s : State) : (armSlot n ps s).txns = s.txns := rfl
@[simp] theorem armSlot_takes (n : Nat) (ps : List (Nat × Byte)) (s : State) : (armSlot n ps s).takes = s.takes := rfl
@[simp] theorem armSlot_atPort (n : Nat) (ps : List (Nat × Byte)) (s : State) : (armSlot n ps s).atPort = s.atPort := rfl
@[simp] theorem armSlot_returned (n : Nat) (ps : List (Nat × Byte)) (s : State) : (armSlot n ps s).returned = s.returned := rfl
@[simp] theorem armSlot_mem (n : Nat) (ps : List (Nat × Byte)) (s : State) : (armSlot n ps s).mem = s.mem := rfl
@[simp] theorem armSlot_pending (n : Nat) (ps : List (Nat × Byte)) (s : State) : (armSlot n ps s).pending = s.pending := rfl

/-! ### wakeFetch -/

@[simp] theorem wakeFetch_inReset (i : Nat) (s : State) : (wakeFetch i s).inReset = s.inReset := rfl
@[simp] theorem wakeFetch_now (i : Nat) (s : State) : (wakeFetch i s).now = s.now := rfl
@[simp] theorem wakeFetch_strapBase (i : Nat) (s : State) : (wakeFetch i s).strapBase = s.strapBase := rfl
@[simp] theorem wakeFetch_run (i : Nat) (s : State) : (wakeFetch i s).run = s.run := rfl
@[simp] theorem wakeFetch_windows (i : Nat) (s : State) : (wakeFetch i s).windows = s.windows := rfl
@[simp] theorem wakeFetch_assemblies (i : Nat) (s : State) : (wakeFetch i s).assemblies = s.assemblies := rfl
@[simp] theorem wakeFetch_quietTimers (i : Nat) (s : State) : (wakeFetch i s).quietTimers = s.quietTimers := rfl
@[simp] theorem wakeFetch_channels (i : Nat) (s : State) : (wakeFetch i s).channels = s.channels := rfl
@[simp] theorem wakeFetch_kdir (i : Nat) (s : State) : (wakeFetch i s).kdir = s.kdir := rfl
@[simp] theorem wakeFetch_queue (i : Nat) (s : State) : (wakeFetch i s).queue = s.queue := rfl
@[simp] theorem wakeFetch_engine (i : Nat) (s : State) : (wakeFetch i s).engine = s.engine := rfl
@[simp] theorem wakeFetch_entries (i : Nat) (s : State) : (wakeFetch i s).entries = s.entries := rfl
@[simp] theorem wakeFetch_recency (i : Nat) (s : State) : (wakeFetch i s).recency = s.recency := rfl
@[simp] theorem wakeFetch_calendar (i : Nat) (s : State) : (wakeFetch i s).calendar = s.calendar := rfl
@[simp] theorem wakeFetch_lapses (i : Nat) (s : State) : (wakeFetch i s).lapses = s.lapses := rfl
@[simp] theorem wakeFetch_slots (i : Nat) (s : State) : (wakeFetch i s).slots = s.slots := rfl
@[simp] theorem wakeFetch_promotions (i : Nat) (s : State) : (wakeFetch i s).promotions = s.promotions := rfl
@[simp] theorem wakeFetch_cmu (i : Nat) (s : State) : (wakeFetch i s).cmu = s.cmu := rfl
@[simp] theorem wakeFetch_nw (i : Nat) (s : State) : (wakeFetch i s).nw = s.nw := rfl
@[simp] theorem wakeFetch_txns (i : Nat) (s : State) : (wakeFetch i s).txns = s.txns := rfl
@[simp] theorem wakeFetch_takes (i : Nat) (s : State) : (wakeFetch i s).takes = s.takes := rfl
@[simp] theorem wakeFetch_atPort (i : Nat) (s : State) : (wakeFetch i s).atPort = s.atPort := rfl
@[simp] theorem wakeFetch_returned (i : Nat) (s : State) : (wakeFetch i s).returned = s.returned := rfl
@[simp] theorem wakeFetch_mem (i : Nat) (s : State) : (wakeFetch i s).mem = s.mem := rfl
@[simp] theorem wakeFetch_pending (i : Nat) (s : State) : (wakeFetch i s).pending = s.pending := rfl

/-! ### placeHolds -/

@[simp] theorem placeHolds_inReset (e : Nat) (s : State) : (placeHolds e s).inReset = s.inReset := rfl
@[simp] theorem placeHolds_now (e : Nat) (s : State) : (placeHolds e s).now = s.now := rfl
@[simp] theorem placeHolds_strapBase (e : Nat) (s : State) : (placeHolds e s).strapBase = s.strapBase := rfl
@[simp] theorem placeHolds_run (e : Nat) (s : State) : (placeHolds e s).run = s.run := rfl
@[simp] theorem placeHolds_windows (e : Nat) (s : State) : (placeHolds e s).windows = s.windows := rfl
@[simp] theorem placeHolds_assemblies (e : Nat) (s : State) : (placeHolds e s).assemblies = s.assemblies := rfl
@[simp] theorem placeHolds_quietTimers (e : Nat) (s : State) : (placeHolds e s).quietTimers = s.quietTimers := rfl
@[simp] theorem placeHolds_channels (e : Nat) (s : State) : (placeHolds e s).channels = s.channels := rfl
@[simp] theorem placeHolds_kdir (e : Nat) (s : State) : (placeHolds e s).kdir = s.kdir := rfl
@[simp] theorem placeHolds_queue (e : Nat) (s : State) : (placeHolds e s).queue = s.queue := rfl
@[simp] theorem placeHolds_engine (e : Nat) (s : State) : (placeHolds e s).engine = s.engine := rfl
@[simp] theorem placeHolds_recency (e : Nat) (s : State) : (placeHolds e s).recency = s.recency := rfl
@[simp] theorem placeHolds_reqs (e : Nat) (s : State) : (placeHolds e s).reqs = s.reqs := rfl
@[simp] theorem placeHolds_calendar (e : Nat) (s : State) : (placeHolds e s).calendar = s.calendar := rfl
@[simp] theorem placeHolds_lapses (e : Nat) (s : State) : (placeHolds e s).lapses = s.lapses := rfl
@[simp] theorem placeHolds_slots (e : Nat) (s : State) : (placeHolds e s).slots = s.slots := rfl
@[simp] theorem placeHolds_promotions (e : Nat) (s : State) : (placeHolds e s).promotions = s.promotions := rfl
@[simp] theorem placeHolds_cmu (e : Nat) (s : State) : (placeHolds e s).cmu = s.cmu := rfl
@[simp] theorem placeHolds_nw (e : Nat) (s : State) : (placeHolds e s).nw = s.nw := rfl
@[simp] theorem placeHolds_takes (e : Nat) (s : State) : (placeHolds e s).takes = s.takes := rfl
@[simp] theorem placeHolds_atPort (e : Nat) (s : State) : (placeHolds e s).atPort = s.atPort := rfl
@[simp] theorem placeHolds_returned (e : Nat) (s : State) : (placeHolds e s).returned = s.returned := rfl
@[simp] theorem placeHolds_mem (e : Nat) (s : State) : (placeHolds e s).mem = s.mem := rfl
@[simp] theorem placeHolds_pending (e : Nat) (s : State) : (placeHolds e s).pending = s.pending := rfl

/-! ### writeBackFault -/

@[simp] theorem writeBackFault_inReset (e : Nat) (s : State) : (writeBackFault e s).inReset = s.inReset := rfl
@[simp] theorem writeBackFault_now (e : Nat) (s : State) : (writeBackFault e s).now = s.now := rfl
@[simp] theorem writeBackFault_strapBase (e : Nat) (s : State) : (writeBackFault e s).strapBase = s.strapBase := rfl
@[simp] theorem writeBackFault_run (e : Nat) (s : State) : (writeBackFault e s).run = s.run := rfl
@[simp] theorem writeBackFault_windows (e : Nat) (s : State) : (writeBackFault e s).windows = s.windows := rfl
@[simp] theorem writeBackFault_assemblies (e : Nat) (s : State) : (writeBackFault e s).assemblies = s.assemblies := rfl
@[simp] theorem writeBackFault_quietTimers (e : Nat) (s : State) : (writeBackFault e s).quietTimers = s.quietTimers := rfl
@[simp] theorem writeBackFault_channels (e : Nat) (s : State) : (writeBackFault e s).channels = s.channels := rfl
@[simp] theorem writeBackFault_kdir (e : Nat) (s : State) : (writeBackFault e s).kdir = s.kdir := rfl
@[simp] theorem writeBackFault_queue (e : Nat) (s : State) : (writeBackFault e s).queue = s.queue := rfl
@[simp] theorem writeBackFault_engine (e : Nat) (s : State) : (writeBackFault e s).engine = s.engine := rfl
@[simp] theorem writeBackFault_recency (e : Nat) (s : State) : (writeBackFault e s).recency = s.recency := rfl
@[simp] theorem writeBackFault_calendar (e : Nat) (s : State) : (writeBackFault e s).calendar = s.calendar := rfl
@[simp] theorem writeBackFault_lapses (e : Nat) (s : State) : (writeBackFault e s).lapses = s.lapses := rfl
@[simp] theorem writeBackFault_slots (e : Nat) (s : State) : (writeBackFault e s).slots = s.slots := rfl
@[simp] theorem writeBackFault_promotions (e : Nat) (s : State) : (writeBackFault e s).promotions = s.promotions := rfl
@[simp] theorem writeBackFault_cmu (e : Nat) (s : State) : (writeBackFault e s).cmu = s.cmu := rfl
@[simp] theorem writeBackFault_nw (e : Nat) (s : State) : (writeBackFault e s).nw = s.nw := rfl
@[simp] theorem writeBackFault_txns (e : Nat) (s : State) : (writeBackFault e s).txns = s.txns := rfl
@[simp] theorem writeBackFault_takes (e : Nat) (s : State) : (writeBackFault e s).takes = s.takes := rfl
@[simp] theorem writeBackFault_atPort (e : Nat) (s : State) : (writeBackFault e s).atPort = s.atPort := rfl
@[simp] theorem writeBackFault_returned (e : Nat) (s : State) : (writeBackFault e s).returned = s.returned := rfl
@[simp] theorem writeBackFault_mem (e : Nat) (s : State) : (writeBackFault e s).mem = s.mem := rfl
@[simp] theorem writeBackFault_pending (e : Nat) (s : State) : (writeBackFault e s).pending = s.pending := rfl

/-! ### cancelReuse -/

@[simp] theorem cancelReuse_inReset (e : Nat) (s : State) : (cancelReuse e s).inReset = s.inReset := rfl
@[simp] theorem cancelReuse_now (e : Nat) (s : State) : (cancelReuse e s).now = s.now := rfl
@[simp] theorem cancelReuse_strapBase (e : Nat) (s : State) : (cancelReuse e s).strapBase = s.strapBase := rfl
@[simp] theorem cancelReuse_run (e : Nat) (s : State) : (cancelReuse e s).run = s.run := rfl
@[simp] theorem cancelReuse_windows (e : Nat) (s : State) : (cancelReuse e s).windows = s.windows := rfl
@[simp] theorem cancelReuse_assemblies (e : Nat) (s : State) : (cancelReuse e s).assemblies = s.assemblies := rfl
@[simp] theorem cancelReuse_quietTimers (e : Nat) (s : State) : (cancelReuse e s).quietTimers = s.quietTimers := rfl
@[simp] theorem cancelReuse_channels (e : Nat) (s : State) : (cancelReuse e s).channels = s.channels := rfl
@[simp] theorem cancelReuse_kdir (e : Nat) (s : State) : (cancelReuse e s).kdir = s.kdir := rfl
@[simp] theorem cancelReuse_queue (e : Nat) (s : State) : (cancelReuse e s).queue = s.queue := rfl
@[simp] theorem cancelReuse_engine (e : Nat) (s : State) : (cancelReuse e s).engine = s.engine := rfl
@[simp] theorem cancelReuse_recency (e : Nat) (s : State) : (cancelReuse e s).recency = s.recency := rfl
@[simp] theorem cancelReuse_calendar (e : Nat) (s : State) : (cancelReuse e s).calendar = s.calendar := rfl
@[simp] theorem cancelReuse_lapses (e : Nat) (s : State) : (cancelReuse e s).lapses = s.lapses := rfl
@[simp] theorem cancelReuse_slots (e : Nat) (s : State) : (cancelReuse e s).slots = s.slots := rfl
@[simp] theorem cancelReuse_promotions (e : Nat) (s : State) : (cancelReuse e s).promotions = s.promotions := rfl
@[simp] theorem cancelReuse_cmu (e : Nat) (s : State) : (cancelReuse e s).cmu = s.cmu := rfl
@[simp] theorem cancelReuse_nw (e : Nat) (s : State) : (cancelReuse e s).nw = s.nw := rfl
@[simp] theorem cancelReuse_txns (e : Nat) (s : State) : (cancelReuse e s).txns = s.txns := rfl
@[simp] theorem cancelReuse_takes (e : Nat) (s : State) : (cancelReuse e s).takes = s.takes := rfl
@[simp] theorem cancelReuse_atPort (e : Nat) (s : State) : (cancelReuse e s).atPort = s.atPort := rfl
@[simp] theorem cancelReuse_returned (e : Nat) (s : State) : (cancelReuse e s).returned = s.returned := rfl
@[simp] theorem cancelReuse_mem (e : Nat) (s : State) : (cancelReuse e s).mem = s.mem := rfl
@[simp] theorem cancelReuse_pending (e : Nat) (s : State) : (cancelReuse e s).pending = s.pending := rfl

/-! ### releaseRequests -/

@[simp] theorem releaseRequests_inReset (i : Nat) (k : Key) (s : State) : (releaseRequests i k s).inReset = s.inReset := rfl
@[simp] theorem releaseRequests_now (i : Nat) (k : Key) (s : State) : (releaseRequests i k s).now = s.now := rfl
@[simp] theorem releaseRequests_strapBase (i : Nat) (k : Key) (s : State) : (releaseRequests i k s).strapBase = s.strapBase := rfl
@[simp] theorem releaseRequests_run (i : Nat) (k : Key) (s : State) : (releaseRequests i k s).run = s.run := rfl
@[simp] theorem releaseRequests_windows (i : Nat) (k : Key) (s : State) : (releaseRequests i k s).windows = s.windows := rfl
@[simp] theorem releaseRequests_assemblies (i : Nat) (k : Key) (s : State) : (releaseRequests i k s).assemblies = s.assemblies := rfl
@[simp] theorem releaseRequests_quietTimers (i : Nat) (k : Key) (s : State) : (releaseRequests i k s).quietTimers = s.quietTimers := rfl
@[simp] theorem releaseRequests_channels (i : Nat) (k : Key) (s : State) : (releaseRequests i k s).channels = s.channels := rfl
@[simp] theorem releaseRequests_kdir (i : Nat) (k : Key) (s : State) : (releaseRequests i k s).kdir = s.kdir := rfl
@[simp] theorem releaseRequests_queue (i : Nat) (k : Key) (s : State) : (releaseRequests i k s).queue = s.queue := rfl
@[simp] theorem releaseRequests_engine (i : Nat) (k : Key) (s : State) : (releaseRequests i k s).engine = s.engine := rfl
@[simp] theorem releaseRequests_entries (i : Nat) (k : Key) (s : State) : (releaseRequests i k s).entries = s.entries := rfl
@[simp] theorem releaseRequests_recency (i : Nat) (k : Key) (s : State) : (releaseRequests i k s).recency = s.recency := rfl
@[simp] theorem releaseRequests_calendar (i : Nat) (k : Key) (s : State) : (releaseRequests i k s).calendar = s.calendar := rfl
@[simp] theorem releaseRequests_lapses (i : Nat) (k : Key) (s : State) : (releaseRequests i k s).lapses = s.lapses := rfl
@[simp] theorem releaseRequests_slots (i : Nat) (k : Key) (s : State) : (releaseRequests i k s).slots = s.slots := rfl
@[simp] theorem releaseRequests_promotions (i : Nat) (k : Key) (s : State) : (releaseRequests i k s).promotions = s.promotions := rfl
@[simp] theorem releaseRequests_cmu (i : Nat) (k : Key) (s : State) : (releaseRequests i k s).cmu = s.cmu := rfl
@[simp] theorem releaseRequests_nw (i : Nat) (k : Key) (s : State) : (releaseRequests i k s).nw = s.nw := rfl
@[simp] theorem releaseRequests_txns (i : Nat) (k : Key) (s : State) : (releaseRequests i k s).txns = s.txns := rfl
@[simp] theorem releaseRequests_takes (i : Nat) (k : Key) (s : State) : (releaseRequests i k s).takes = s.takes := rfl
@[simp] theorem releaseRequests_atPort (i : Nat) (k : Key) (s : State) : (releaseRequests i k s).atPort = s.atPort := rfl
@[simp] theorem releaseRequests_returned (i : Nat) (k : Key) (s : State) : (releaseRequests i k s).returned = s.returned := rfl
@[simp] theorem releaseRequests_mem (i : Nat) (k : Key) (s : State) : (releaseRequests i k s).mem = s.mem := rfl
@[simp] theorem releaseRequests_pending (i : Nat) (k : Key) (s : State) : (releaseRequests i k s).pending = s.pending := rfl

/-! ### writeCompleted -/

@[simp] theorem writeCompleted_inReset (i : Nat) (b : Bool) (s : State) : (writeCompleted i b s).inReset = s.inReset := rfl
@[simp] theorem writeCompleted_now (i : Nat) (b : Bool) (s : State) : (writeCompleted i b s).now = s.now := rfl
@[simp] theorem writeCompleted_strapBase (i : Nat) (b : Bool) (s : State) : (writeCompleted i b s).strapBase = s.strapBase := rfl
@[simp] theorem writeCompleted_run (i : Nat) (b : Bool) (s : State) : (writeCompleted i b s).run = s.run := rfl
@[simp] theorem writeCompleted_windows (i : Nat) (b : Bool) (s : State) : (writeCompleted i b s).windows = s.windows := rfl
@[simp] theorem writeCompleted_assemblies (i : Nat) (b : Bool) (s : State) : (writeCompleted i b s).assemblies = s.assemblies := rfl
@[simp] theorem writeCompleted_quietTimers (i : Nat) (b : Bool) (s : State) : (writeCompleted i b s).quietTimers = s.quietTimers := rfl
@[simp] theorem writeCompleted_channels (i : Nat) (b : Bool) (s : State) : (writeCompleted i b s).channels = s.channels := rfl
@[simp] theorem writeCompleted_kdir (i : Nat) (b : Bool) (s : State) : (writeCompleted i b s).kdir = s.kdir := rfl
@[simp] theorem writeCompleted_queue (i : Nat) (b : Bool) (s : State) : (writeCompleted i b s).queue = s.queue := rfl
@[simp] theorem writeCompleted_engine (i : Nat) (b : Bool) (s : State) : (writeCompleted i b s).engine = s.engine := rfl
@[simp] theorem writeCompleted_entries (i : Nat) (b : Bool) (s : State) : (writeCompleted i b s).entries = s.entries := rfl
@[simp] theorem writeCompleted_recency (i : Nat) (b : Bool) (s : State) : (writeCompleted i b s).recency = s.recency := rfl
@[simp] theorem writeCompleted_reqs (i : Nat) (b : Bool) (s : State) : (writeCompleted i b s).reqs = s.reqs := rfl
@[simp] theorem writeCompleted_calendar (i : Nat) (b : Bool) (s : State) : (writeCompleted i b s).calendar = s.calendar := rfl
@[simp] theorem writeCompleted_lapses (i : Nat) (b : Bool) (s : State) : (writeCompleted i b s).lapses = s.lapses := rfl
@[simp] theorem writeCompleted_slots (i : Nat) (b : Bool) (s : State) : (writeCompleted i b s).slots = s.slots := rfl
@[simp] theorem writeCompleted_promotions (i : Nat) (b : Bool) (s : State) : (writeCompleted i b s).promotions = s.promotions := rfl
@[simp] theorem writeCompleted_cmu (i : Nat) (b : Bool) (s : State) : (writeCompleted i b s).cmu = s.cmu := rfl
@[simp] theorem writeCompleted_nw (i : Nat) (b : Bool) (s : State) : (writeCompleted i b s).nw = s.nw := rfl
@[simp] theorem writeCompleted_takes (i : Nat) (b : Bool) (s : State) : (writeCompleted i b s).takes = s.takes := rfl
@[simp] theorem writeCompleted_atPort (i : Nat) (b : Bool) (s : State) : (writeCompleted i b s).atPort = s.atPort := rfl
@[simp] theorem writeCompleted_returned (i : Nat) (b : Bool) (s : State) : (writeCompleted i b s).returned = s.returned := rfl
@[simp] theorem writeCompleted_mem (i : Nat) (b : Bool) (s : State) : (writeCompleted i b s).mem = s.mem := rfl
@[simp] theorem writeCompleted_pending (i : Nat) (b : Bool) (s : State) : (writeCompleted i b s).pending = s.pending := rfl

/-! ### flush -/

@[simp] theorem flush_inReset (s : State) : (flush s).inReset = s.inReset := rfl
@[simp] theorem flush_now (s : State) : (flush s).now = s.now := rfl
@[simp] theorem flush_strapBase (s : State) : (flush s).strapBase = s.strapBase := rfl
@[simp] theorem flush_run (s : State) : (flush s).run = s.run := rfl
@[simp] theorem flush_windows (s : State) : (flush s).windows = s.windows := rfl
@[simp] theorem flush_assemblies (s : State) : (flush s).assemblies = s.assemblies := rfl
@[simp] theorem flush_quietTimers (s : State) : (flush s).quietTimers = s.quietTimers := rfl
@[simp] theorem flush_channels (s : State) : (flush s).channels = s.channels := rfl
@[simp] theorem flush_kdir (s : State) : (flush s).kdir = s.kdir := rfl
@[simp] theorem flush_queue (s : State) : (flush s).queue = s.queue := rfl
@[simp] theorem flush_engine (s : State) : (flush s).engine = s.engine := rfl
@[simp] theorem flush_entries (s : State) : (flush s).entries = s.entries := rfl
@[simp] theorem flush_recency (s : State) : (flush s).recency = s.recency := rfl
@[simp] theorem flush_reqs (s : State) : (flush s).reqs = s.reqs := rfl
@[simp] theorem flush_calendar (s : State) : (flush s).calendar = s.calendar := rfl
@[simp] theorem flush_lapses (s : State) : (flush s).lapses = s.lapses := rfl
@[simp] theorem flush_slots (s : State) : (flush s).slots = s.slots := rfl
@[simp] theorem flush_promotions (s : State) : (flush s).promotions = s.promotions := rfl
@[simp] theorem flush_cmu (s : State) : (flush s).cmu = s.cmu := rfl
@[simp] theorem flush_nw (s : State) : (flush s).nw = s.nw := rfl
@[simp] theorem flush_takes (s : State) : (flush s).takes = s.takes := rfl
@[simp] theorem flush_atPort (s : State) : (flush s).atPort = s.atPort := rfl
@[simp] theorem flush_mem (s : State) : (flush s).mem = s.mem := rfl
@[simp] theorem flush_pending (s : State) : (flush s).pending = s.pending := rfl

/-! ### handDueConsumer -/

@[simp] theorem handDueConsumer_inReset (v : BitVec 32) (s : State) : (handDueConsumer v s).inReset = s.inReset := rfl
@[simp] theorem handDueConsumer_now (v : BitVec 32) (s : State) : (handDueConsumer v s).now = s.now := rfl
@[simp] theorem handDueConsumer_strapBase (v : BitVec 32) (s : State) : (handDueConsumer v s).strapBase = s.strapBase := rfl
@[simp] theorem handDueConsumer_run (v : BitVec 32) (s : State) : (handDueConsumer v s).run = s.run := rfl
@[simp] theorem handDueConsumer_windows (v : BitVec 32) (s : State) : (handDueConsumer v s).windows = s.windows := rfl
@[simp] theorem handDueConsumer_assemblies (v : BitVec 32) (s : State) : (handDueConsumer v s).assemblies = s.assemblies := rfl
@[simp] theorem handDueConsumer_quietTimers (v : BitVec 32) (s : State) : (handDueConsumer v s).quietTimers = s.quietTimers := rfl
@[simp] theorem handDueConsumer_channels (v : BitVec 32) (s : State) : (handDueConsumer v s).channels = s.channels := rfl
@[simp] theorem handDueConsumer_kdir (v : BitVec 32) (s : State) : (handDueConsumer v s).kdir = s.kdir := rfl
@[simp] theorem handDueConsumer_queue (v : BitVec 32) (s : State) : (handDueConsumer v s).queue = s.queue := rfl
@[simp] theorem handDueConsumer_engine (v : BitVec 32) (s : State) : (handDueConsumer v s).engine = s.engine := rfl
@[simp] theorem handDueConsumer_entries (v : BitVec 32) (s : State) : (handDueConsumer v s).entries = s.entries := rfl
@[simp] theorem handDueConsumer_recency (v : BitVec 32) (s : State) : (handDueConsumer v s).recency = s.recency := rfl
@[simp] theorem handDueConsumer_reqs (v : BitVec 32) (s : State) : (handDueConsumer v s).reqs = s.reqs := rfl
@[simp] theorem handDueConsumer_calendar (v : BitVec 32) (s : State) : (handDueConsumer v s).calendar = s.calendar := rfl
@[simp] theorem handDueConsumer_lapses (v : BitVec 32) (s : State) : (handDueConsumer v s).lapses = s.lapses := rfl
@[simp] theorem handDueConsumer_slots (v : BitVec 32) (s : State) : (handDueConsumer v s).slots = s.slots := rfl
@[simp] theorem handDueConsumer_promotions (v : BitVec 32) (s : State) : (handDueConsumer v s).promotions = s.promotions := rfl
@[simp] theorem handDueConsumer_cmu (v : BitVec 32) (s : State) : (handDueConsumer v s).cmu = s.cmu := rfl
@[simp] theorem handDueConsumer_txns (v : BitVec 32) (s : State) : (handDueConsumer v s).txns = s.txns := rfl
@[simp] theorem handDueConsumer_takes (v : BitVec 32) (s : State) : (handDueConsumer v s).takes = s.takes := rfl
@[simp] theorem handDueConsumer_atPort (v : BitVec 32) (s : State) : (handDueConsumer v s).atPort = s.atPort := rfl
@[simp] theorem handDueConsumer_returned (v : BitVec 32) (s : State) : (handDueConsumer v s).returned = s.returned := rfl
@[simp] theorem handDueConsumer_mem (v : BitVec 32) (s : State) : (handDueConsumer v s).mem = s.mem := rfl
@[simp] theorem handDueConsumer_pending (v : BitVec 32) (s : State) : (handDueConsumer v s).pending = s.pending := rfl

/-! ### publishNotice -/

@[simp] theorem publishNotice_inReset (s : State) : (publishNotice s).inReset = s.inReset := rfl
@[simp] theorem publishNotice_now (s : State) : (publishNotice s).now = s.now := rfl
@[simp] theorem publishNotice_strapBase (s : State) : (publishNotice s).strapBase = s.strapBase := rfl
@[simp] theorem publishNotice_run (s : State) : (publishNotice s).run = s.run := rfl
@[simp] theorem publishNotice_windows (s : State) : (publishNotice s).windows = s.windows := rfl
@[simp] theorem publishNotice_assemblies (s : State) : (publishNotice s).assemblies = s.assemblies := rfl
@[simp] theorem publishNotice_quietTimers (s : State) : (publishNotice s).quietTimers = s.quietTimers := rfl
@[simp] theorem publishNotice_channels (s : State) : (publishNotice s).channels = s.channels := rfl
@[simp] theorem publishNotice_kdir (s : State) : (publishNotice s).kdir = s.kdir := rfl
@[simp] theorem publishNotice_queue (s : State) : (publishNotice s).queue = s.queue := rfl
@[simp] theorem publishNotice_engine (s : State) : (publishNotice s).engine = s.engine := rfl
@[simp] theorem publishNotice_entries (s : State) : (publishNotice s).entries = s.entries := rfl
@[simp] theorem publishNotice_recency (s : State) : (publishNotice s).recency = s.recency := rfl
@[simp] theorem publishNotice_reqs (s : State) : (publishNotice s).reqs = s.reqs := rfl
@[simp] theorem publishNotice_calendar (s : State) : (publishNotice s).calendar = s.calendar := rfl
@[simp] theorem publishNotice_lapses (s : State) : (publishNotice s).lapses = s.lapses := rfl
@[simp] theorem publishNotice_slots (s : State) : (publishNotice s).slots = s.slots := rfl
@[simp] theorem publishNotice_promotions (s : State) : (publishNotice s).promotions = s.promotions := rfl
@[simp] theorem publishNotice_cmu (s : State) : (publishNotice s).cmu = s.cmu := rfl
@[simp] theorem publishNotice_txns (s : State) : (publishNotice s).txns = s.txns := rfl
@[simp] theorem publishNotice_takes (s : State) : (publishNotice s).takes = s.takes := rfl
@[simp] theorem publishNotice_atPort (s : State) : (publishNotice s).atPort = s.atPort := rfl
@[simp] theorem publishNotice_returned (s : State) : (publishNotice s).returned = s.returned := rfl
@[simp] theorem publishNotice_pending (s : State) : (publishNotice s).pending = s.pending := rfl

/-! ### publishOffer -/

@[simp] theorem publishOffer_inReset (s : State) : (publishOffer s).inReset = s.inReset := rfl
@[simp] theorem publishOffer_now (s : State) : (publishOffer s).now = s.now := rfl
@[simp] theorem publishOffer_strapBase (s : State) : (publishOffer s).strapBase = s.strapBase := rfl
@[simp] theorem publishOffer_run (s : State) : (publishOffer s).run = s.run := rfl
@[simp] theorem publishOffer_windows (s : State) : (publishOffer s).windows = s.windows := rfl
@[simp] theorem publishOffer_assemblies (s : State) : (publishOffer s).assemblies = s.assemblies := rfl
@[simp] theorem publishOffer_quietTimers (s : State) : (publishOffer s).quietTimers = s.quietTimers := rfl
@[simp] theorem publishOffer_channels (s : State) : (publishOffer s).channels = s.channels := rfl
@[simp] theorem publishOffer_kdir (s : State) : (publishOffer s).kdir = s.kdir := rfl
@[simp] theorem publishOffer_queue (s : State) : (publishOffer s).queue = s.queue := rfl
@[simp] theorem publishOffer_engine (s : State) : (publishOffer s).engine = s.engine := rfl
@[simp] theorem publishOffer_entries (s : State) : (publishOffer s).entries = s.entries := rfl
@[simp] theorem publishOffer_recency (s : State) : (publishOffer s).recency = s.recency := rfl
@[simp] theorem publishOffer_reqs (s : State) : (publishOffer s).reqs = s.reqs := rfl
@[simp] theorem publishOffer_calendar (s : State) : (publishOffer s).calendar = s.calendar := rfl
@[simp] theorem publishOffer_lapses (s : State) : (publishOffer s).lapses = s.lapses := rfl
@[simp] theorem publishOffer_slots (s : State) : (publishOffer s).slots = s.slots := rfl
@[simp] theorem publishOffer_promotions (s : State) : (publishOffer s).promotions = s.promotions := rfl
@[simp] theorem publishOffer_cmu (s : State) : (publishOffer s).cmu = s.cmu := rfl
@[simp] theorem publishOffer_txns (s : State) : (publishOffer s).txns = s.txns := rfl
@[simp] theorem publishOffer_takes (s : State) : (publishOffer s).takes = s.takes := rfl
@[simp] theorem publishOffer_atPort (s : State) : (publishOffer s).atPort = s.atPort := rfl
@[simp] theorem publishOffer_returned (s : State) : (publishOffer s).returned = s.returned := rfl
@[simp] theorem publishOffer_pending (s : State) : (publishOffer s).pending = s.pending := rfl

/-! ### advanceConsumer -/

@[simp] theorem advanceConsumer_inReset (s : State) : (advanceConsumer s).inReset = s.inReset := rfl
@[simp] theorem advanceConsumer_now (s : State) : (advanceConsumer s).now = s.now := rfl
@[simp] theorem advanceConsumer_strapBase (s : State) : (advanceConsumer s).strapBase = s.strapBase := rfl
@[simp] theorem advanceConsumer_run (s : State) : (advanceConsumer s).run = s.run := rfl
@[simp] theorem advanceConsumer_windows (s : State) : (advanceConsumer s).windows = s.windows := rfl
@[simp] theorem advanceConsumer_assemblies (s : State) : (advanceConsumer s).assemblies = s.assemblies := rfl
@[simp] theorem advanceConsumer_quietTimers (s : State) : (advanceConsumer s).quietTimers = s.quietTimers := rfl
@[simp] theorem advanceConsumer_channels (s : State) : (advanceConsumer s).channels = s.channels := rfl
@[simp] theorem advanceConsumer_kdir (s : State) : (advanceConsumer s).kdir = s.kdir := rfl
@[simp] theorem advanceConsumer_queue (s : State) : (advanceConsumer s).queue = s.queue := rfl
@[simp] theorem advanceConsumer_engine (s : State) : (advanceConsumer s).engine = s.engine := rfl
@[simp] theorem advanceConsumer_entries (s : State) : (advanceConsumer s).entries = s.entries := rfl
@[simp] theorem advanceConsumer_recency (s : State) : (advanceConsumer s).recency = s.recency := rfl
@[simp] theorem advanceConsumer_reqs (s : State) : (advanceConsumer s).reqs = s.reqs := rfl
@[simp] theorem advanceConsumer_calendar (s : State) : (advanceConsumer s).calendar = s.calendar := rfl
@[simp] theorem advanceConsumer_lapses (s : State) : (advanceConsumer s).lapses = s.lapses := rfl
@[simp] theorem advanceConsumer_slots (s : State) : (advanceConsumer s).slots = s.slots := rfl
@[simp] theorem advanceConsumer_promotions (s : State) : (advanceConsumer s).promotions = s.promotions := rfl
@[simp] theorem advanceConsumer_nw (s : State) : (advanceConsumer s).nw = s.nw := rfl
@[simp] theorem advanceConsumer_txns (s : State) : (advanceConsumer s).txns = s.txns := rfl
@[simp] theorem advanceConsumer_takes (s : State) : (advanceConsumer s).takes = s.takes := rfl
@[simp] theorem advanceConsumer_atPort (s : State) : (advanceConsumer s).atPort = s.atPort := rfl
@[simp] theorem advanceConsumer_returned (s : State) : (advanceConsumer s).returned = s.returned := rfl
@[simp] theorem advanceConsumer_pending (s : State) : (advanceConsumer s).pending = s.pending := rfl

/-- The record just replaced reads as the new one. -/
@[simp] theorem channel_setChannel_self (s : State) (i : Nat) (x : Channel) (h : i < 16) : (s.setChannel i x).channel i = x := by
  simp [State.channel, State.setChannel, Vector.getD, h]

/-- Another record reads as before. -/
theorem channel_setChannel_ne (s : State) (i j : Nat) (x : Channel) (h : i ≠ j) :
    (s.setChannel i x).channel j = s.channel j := by
  simp [State.channel, State.setChannel, Vector.getD, Array.getD_eq_getD_getElem?, Array.getElem?_setIfInBounds_ne h]

/-- The record just replaced reads as the new one. -/
@[simp] theorem slot_setSlot_self (s : State) (i : Nat) (x : Slot) (h : i < 64) : (s.setSlot i x).slot i = x := by
  simp [State.slot, State.setSlot, Vector.getD, h]

/-- Another record reads as before. -/
theorem slot_setSlot_ne (s : State) (i j : Nat) (x : Slot) (h : i ≠ j) :
    (s.setSlot i x).slot j = s.slot j := by
  simp [State.slot, State.setSlot, Vector.getD, Array.getD_eq_getD_getElem?, Array.getElem?_setIfInBounds_ne h]

/-- The record just replaced reads as the new one. -/
@[simp] theorem entry_setEntry_self (s : State) (i : Nat) (x : Entry) (h : i < 32) : (s.setEntry i x).entry i = x := by
  simp [State.entry, State.setEntry, Vector.getD, h]

/-- Another record reads as before. -/
theorem entry_setEntry_ne (s : State) (i j : Nat) (x : Entry) (h : i ≠ j) :
    (s.setEntry i x).entry j = s.entry j := by
  simp [State.entry, State.setEntry, Vector.getD, Array.getD_eq_getD_getElem?, Array.getElem?_setIfInBounds_ne h]

/-- The record just replaced reads as the new one. -/
@[simp] theorem assembly_setAssembly_self (s : State) (i : Nat) (x : Option Assembly) (h : i < 6) : (s.setAssembly i x).assembly i = x := by
  simp [State.assembly, State.setAssembly, Vector.getD, h]

/-- Another record reads as before. -/
theorem assembly_setAssembly_ne (s : State) (i j : Nat) (x : Option Assembly) (h : i ≠ j) :
    (s.setAssembly i x).assembly j = s.assembly j := by
  simp [State.assembly, State.setAssembly, Vector.getD, Array.getD_eq_getD_getElem?, Array.getElem?_setIfInBounds_ne h]

/-- The record just replaced reads as the new one. -/
@[simp] theorem quietTimer_setQuietTimer_self (s : State) (i : Nat) (x : Option QuietTimer) (h : i < 16) : (s.setQuietTimer i x).quietTimer i = x := by
  simp [State.quietTimer, State.setQuietTimer, Vector.getD, h]

/-- Another record reads as before. -/
theorem quietTimer_setQuietTimer_ne (s : State) (i j : Nat) (x : Option QuietTimer) (h : i ≠ j) :
    (s.setQuietTimer i x).quietTimer j = s.quietTimer j := by
  simp [State.quietTimer, State.setQuietTimer, Vector.getD, Array.getD_eq_getD_getElem?, Array.getElem?_setIfInBounds_ne h]

/-- The record just replaced reads as the new one. -/
@[simp] theorem window_setWindow_self (s : State) (i : Nat) (x : Option Window) (h : i < 6) : (s.setWindow i x).window i = x := by
  simp [State.window, State.setWindow, Vector.getD, h]

/-- Another record reads as before. -/
theorem window_setWindow_ne (s : State) (i j : Nat) (x : Option Window) (h : i ≠ j) :
    (s.setWindow i x).window j = s.window j := by
  simp [State.window, State.setWindow, Vector.getD, Array.getD_eq_getD_getElem?, Array.getElem?_setIfInBounds_ne h]

end Sys2Proof.Machine
end

