-- ==== Sys2Proof/Laws/Steps.lean ====
section
/-!
SUPPORT. What the operations shared by every step can do, said once: the memory port's grants lose and add no access
(R169), an event's effect is its function's but for those grants, and a part at rest settles at once.
-/

namespace Sys2Proof.Machine

/-! ## Taking an element out of a list -/

/-- `extract` takes one element that passes the test, and the rest is the list without it. -/
theorem extract_some {α : Type} {p : α → Bool} {l rest : List α} {a : α} (h : extract p l = some (a, rest)) :
    p a = true ∧ l.Perm (a :: rest) := by
  induction l generalizing rest with
  | nil => simp [extract] at h
  | cons x xs ih =>
    unfold extract at h
    split at h
    · cases h; exact ⟨‹_›, .refl _⟩
    · cases hx : extract p xs with
      | none => simp [hx] at h
      | some r =>
        obtain ⟨b, ys⟩ := r
        simp [hx] at h
        obtain ⟨rfl, rfl⟩ := h
        obtain ⟨hp, hperm⟩ := ih hx
        exact ⟨hp, (hperm.cons x).trans (.swap _ _ _)⟩

/-- `extract` finds nothing exactly where no element passes the test. -/
theorem extract_none {α : Type} {p : α → Bool} {l : List α} (h : extract p l = none) : ∀ x ∈ l, p x = false := by
  induction l with
  | nil => simp
  | cons x xs ih =>
    unfold extract at h
    by_cases hn : p x = true
    · simp [hn] at h
    · rw [if_neg hn] at h
      intro y hy
      rcases List.mem_cons.1 hy with rfl | hy
      · simpa using hn
      · exact ih (by simpa using h) y hy

/-! ## The memory port -/

/-- A port gains nothing over itself. -/
theorem MemPort.gains_refl (m : MemPort) : m.gains m [] := by simp [MemPort.gains]

/-- What is gained in two turns is gained in all. -/
theorem MemPort.gains_trans {a b c : MemPort} {xs ys : List Access} (h : a.gains b xs) (k : b.gains c ys) :
    a.gains c (xs ++ ys) := by
  unfold MemPort.gains at *
  exact k.trans (by simpa [List.append_assoc] using h.append_right ys)

/-- Judging what a source has waiting keeps its accesses. -/
theorem MemPort.sort_perm (m : MemPort) (h : Holding) (lines : List (Option Initiator)) (q : List QItem) :
    (((m.sort h lines q).1 ++ (m.sort h lines q).2).map fun x => x.access).Perm (q.map fun x => x.access) := by
  induction q generalizing lines with
  | nil => simp [MemPort.sort]
  | cons x rest ih =>
    unfold MemPort.sort
    split
    · simpa using ih lines
    · have := ih (if x.inLine then x.init :: lines else lines)
      simp only [List.map_append, List.map_cons] at this ⊢
      exact List.perm_middle.trans (this.cons _)

/-- A source's accesses are the same however they are arranged (R169). -/
theorem MemPort.arrange_perm (m : MemPort) (h : Holding) (q : List QItem) :
    ((m.arrange h q).map fun x => x.access).Perm (q.map fun x => x.access) := m.sort_perm h [] q

/-- Replacing what a source has waiting gains what its list gains. -/
theorem MemPort.setQueue_gains {m : MemPort} {src : Source} {q : List QItem} {as : List Access}
    (h : (q.map fun x => x.access).Perm ((m.queueOf src).map (fun x => x.access) ++ as)) :
    m.gains (m.setQueue src q) as := by
  unfold MemPort.gains MemPort.accesses
  rw [List.perm_iff_count] at h ⊢
  intro x
  have := h x
  cases src <;> simp [MemPort.setQueue, MemPort.queueOf, List.count_append] at this ⊢ <;> omega

/-- An access that comes to wait is the one the port gains. -/
theorem enqueue_gains (s : State) (src : Source) (q : QItem) : s.mem.gains (s.enqueue src q).mem [q.access] :=
  MemPort.setQueue_gains (by simpa using s.mem.arrange_perm s.holding (s.mem.queueOf src ++ [q]))

/-- An access made by a source is the one the port gains (R169). -/
theorem submit_gains (s : State) (src : Source) (a : Access) (after : Option Nat) :
    s.mem.gains (s.submit src a after).mem [a] := enqueue_gains _ _ _

/-- An open transaction handed to the memory port is the access the port gains. -/
theorem pass_gains (s : State) (id : Nat) (init : Initiator) (addr : Nat) (body : Body) :
    s.mem.gains (s.pass id init addr body).mem [⟨.passing id, addr, body⟩] := enqueue_gains _ _ _

/-- Judging what waits at the port loses and adds no access (R169). -/
theorem MemPort.wake_gains (h : Holding) (m : MemPort) : m.gains (m.wake h) [] := by
  unfold MemPort.wake
  generalize [Source.passing, Source.cache, Source.command, Source.notice] = srcs
  induction srcs generalizing m with
  | nil => exact m.gains_refl
  | cons src rest ih =>
    have : m.gains (m.wakeSource h src) [] := MemPort.setQueue_gains (by simpa using m.arrange_perm h (m.queueOf src))
    simpa using MemPort.gains_trans this (ih _)

/-- A grant moves one waiting access to those outstanding (R169). -/
theorem MemPort.grantOne_gains {m m' : MemPort} (h : m.grantOne = some m') : m.gains m' [] := by
  unfold MemPort.grantOne at h
  obtain ⟨src, -, h⟩ := List.exists_of_findSome?_eq_some h
  cases hx : extract QItem.ready (m.queueOf src) with
  | none => simp [hx] at h
  | some r =>
    obtain ⟨q, rest⟩ := r
    have hp := (extract_some hx).2.map fun q => q.access
    rw [List.perm_iff_count] at hp
    simp only [hx, Option.map_some, Option.some.injEq] at h
    subst h
    unfold MemPort.gains MemPort.accesses
    rw [List.perm_iff_count]
    intro x
    have := hp x
    cases src <;> simp [MemPort.setQueue, MemPort.queueOf, List.count_append, List.count_cons] at this ⊢ <;> omega

/-- Grants change which accesses are outstanding, and none else (R169). -/
theorem MemPort.grantLoop_gains (h : Holding) (n : Nat) (m : MemPort) : m.gains (MemPort.grantLoop h n m) [] := by
  induction n generalizing m with
  | zero => exact m.gains_refl
  | succ n ih =>
    unfold MemPort.grantLoop
    split
    · exact m.gains_refl
    · next hg =>
      simpa using MemPort.gains_trans (MemPort.gains_trans (MemPort.grantOne_gains hg) (MemPort.wake_gains h _)) (ih _)

/-- The grants at the end of an event change the memory port alone, and lose and add no access (R169). -/
theorem grantAll_eq (s : State) : ∃ m, grantAll s = { s with mem := m } ∧ s.mem.gains m [] :=
  ⟨_, rfl, by simpa using MemPort.gains_trans (MemPort.wake_gains _ _) (MemPort.grantLoop_gains _ _ _)⟩

/-! ## Events -/

/-- Out of reset an event is its effect, followed by the grants. -/
theorem event_next {s : State} (h : s.inReset = false) (f : State → State) :
    ∃ m, event s f = .next { f s with mem := m } ∧ (f s).mem.gains m [] := by
  obtain ⟨m, hm, hg⟩ := grantAll_eq (f s)
  exact ⟨m, by simp [event, h, hm], hg⟩

/-- In reset an event changes nothing (R172). -/
theorem event_reset {s : State} (h : s.inReset = true) (f : State → State) : event s f = .next s := by
  simp [event, h]

/-- A part with nothing that could go on behind a step: nothing waits at the system port, no request waits for an
entry, one entry at least is not faulted, and no open transaction is complete. -/
structure State.Quiet (s : State) : Prop where
  port : s.atPort = []
  requests : ∀ r ∈ s.reqs, r.wait ≠ .list
  sound : ∃ e, e < 32 ∧ (s.entry e).faulted = false
  unanswered : ∀ t ∈ s.txns, t.result = none ∧ t.responded = false

/-- A part at rest has nothing that could go on. -/
theorem State.Steady.quiet {s : State} (h : s.Steady) : s.Quiet := ⟨h.port, h.requests, h.sound, h.unanswered⟩

/-- With no request waiting, the waiting list is served by doing nothing (R89). -/
theorem pumpLoop_quiet (n : Nat) {s : State} (h : ∀ r ∈ s.reqs, r.wait ≠ .list) : pumpLoop n s = s := by
  cases n with
  | zero => rfl
  | succ n =>
    unfold pumpLoop
    rw [show s.reqs.find? (fun r => r.wait == .list) = none from by simpa using h]

/-- With no request waiting, and not every entry faulted, the cache does nothing more (R89, R95). -/
theorem pump_quiet {s : State} (h : s.Quiet) : pump s = s := by
  obtain ⟨e, he, hf⟩ := h.sound
  have : s.allFaulted = false := by
    unfold State.allFaulted
    rw [List.all_eq_false]
    exact ⟨e, by simpa using he, by simp [hf]⟩
  simp [pump, serveList, pumpLoop_quiet _ h.requests, this]

/-- Open transactions of which none is complete stay as they are, and nothing is returned (R168). -/
theorem flushFold_quiet (s : State) (ts : List Txn) (acc : Flushing)
    (h : ∀ t ∈ ts, t.result = none ∧ t.responded = false) :
    (ts.foldl (flushOne s) acc).kept = acc.kept ++ ts ∧ (ts.foldl (flushOne s) acc).out = acc.out := by
  induction ts generalizing acc with
  | nil => simp
  | cons t ts ih =>
    obtain ⟨hr, hd⟩ := h t (by simp)
    have step : (flushOne s acc t).kept = acc.kept ++ [t] ∧ (flushOne s acc t).out = acc.out := by
      unfold flushOne
      simp only [hd, hr, Bool.false_eq_true, if_false]
      split <;> simp
    obtain ⟨h1, h2⟩ := ih (flushOne s acc t) fun x hx => h x (by simp [hx])
    simp [List.foldl_cons, h1, h2, step.1, step.2]

/-- With no open transaction complete, no response is returned (R168). -/
theorem flush_quiet {s : State} (h : ∀ t ∈ s.txns, t.result = none ∧ t.responded = false) : flush s = s := by
  obtain ⟨h1, h2⟩ := flushFold_quiet s s.txns {} h
  simp [flush, h1, h2]

/-- With nothing at the system port, nothing is taken (R159). -/
theorem drainPort_empty {s : State} (h : s.atPort = []) : drainPort s = s := by simp [drainPort, h, drainLoop]

/-- A part with nothing that could go on settles as it is. -/
theorem settled {s : State} (h : s.Quiet) : drainPort (settle s) = s := by
  rw [settle, pump_quiet h, flush_quiet h.unanswered, drainPort_empty h.port]

/-- Out of reset, a step on the cache whose effect leaves nothing to go on is its effect, followed by the grants. -/
theorem cacheEvent_next {s : State} (h : s.inReset = false) (f : State → State) (hq : (f s).Quiet) :
    ∃ m, cacheEvent s f = .next { f s with mem := m } ∧ (f s).mem.gains m [] := by
  obtain ⟨m, hm, hg⟩ := event_next h fun x => drainPort (settle (f x))
  rw [settled hq] at hm hg
  exact ⟨m, hm, hg⟩

/-! ## The ends of accesses -/

/-- The end of the oldest outstanding access of a purpose goes on with it (R172). -/
theorem ending_of {s : State} {p : Purpose → Bool} {a : Access} {rest : List Access} (h : s.oldest p a rest)
    (k : Access → State → State) : s.ending p k = k a { s with mem := s.portWithout rest } := by
  unfold State.oldest at h
  simp [State.ending, h, State.portWithout]

/-- What arrives for no outstanding access is discarded (R172; log 6). -/
theorem ending_none {s : State} {p : Purpose → Bool} (h : ∀ a ∈ s.mem.outstanding, p a.purpose = false)
    (k : Access → State → State) : s.ending p k = s := by
  unfold State.ending
  cases hx : extract (fun a => p a.purpose) s.mem.outstanding with
  | none => rfl
  | some r => obtain ⟨a, rest⟩ := r; exact absurd (extract_some hx) (by
      rintro ⟨h1, h2⟩
      have := h a (h2.mem_iff.2 (by simp))
      simp [this] at h1)

/-- A command CMU holds and has not begun is begun (R175). -/
theorem onCommand_of {s : State} {code : Nat} {d : List Byte} (h : s.Executing code d)
    (f : List Byte → State → State) : onCommand code f s = f d s := by
  simp [onCommand, h.2.1, h.2.2]

/-! ## Notices and answers (R177, R181, R182) -/

/-- A notice handed to NW takes the next place and is written there, or is counted as overflow (R181, R182). -/
theorem notify_cases (n : Notice) (s : State) :
    (s.nw.notices.held < Config.ringHeldLimit ∧
      notify n s = ({ s with nw := { s.nw with notices := { s.nw.notices with
          claimed := ringNext s.nw.notices.claimed } } } : State).submit .notice
            (ownWrite .notice (s.controlBase + 0x4000 + 16 * s.nw.notices.claimed) n.toBytes)) ∨
    (¬ s.nw.notices.held < Config.ringHeldLimit ∧
      notify n s = { s with nw := { s.nw with overflow := sat16 (s.nw.overflow + 1) } }) := by
  by_cases h : s.nw.notices.held < Config.ringHeldLimit
  · exact .inl ⟨h, by simp only [notify, h, if_true, claimNotice]⟩
  · exact .inr ⟨h, by simp only [notify, h, if_false, Nw.countOverflow]⟩

/-- An answer puts CMU in its status phase and makes the write of the status byte (R177). -/
theorem answer_eq (st : Status) (s : State) :
    answer st s = ({ s with cmu := s.cmuIn .statusWrite } : State).submit .command (s.statusAccess st) none := rfl

end Sys2Proof.Machine
end

