-- ==== Sys2Proof/Laws/Answers.lean ====
section
/-!
SUPPORT. How a step's effect gives the next state a statement names (`NextIs`, `Answers`), and what the small
operations of the cache, the notice writer and the command unit come to on a part at rest.
-/

namespace Sys2Proof.Machine

/-! ## Next states -/

/-- A step whose effect is `u` answers `t`, where the two differ in the memory port alone. -/
theorem event_nextIs {s t u : State} {as : List Access} (h : s.inReset = false) (f : State → State) (hu : f s = u)
    (ht : { u with mem := t.mem } = t) (hg : t.mem.gains u.mem as) : NextIs (event s f) t as := by
  obtain ⟨m, hm, hg'⟩ := event_next h f
  rw [hu] at hm hg'
  exact ⟨m, by rw [hm, ← ht], by simpa using MemPort.gains_trans hg hg'⟩

/-- The same for a step after which the cache's waiting list and the returns are looked at, and find nothing. -/
theorem cacheEvent_nextIs {s t u : State} {as : List Access} (h : s.inReset = false) (f : State → State)
    (hu : f s = u) (hq : u.Quiet) (ht : { u with mem := t.mem } = t) (hg : t.mem.gains u.mem as) :
    NextIs (cacheEvent s f) t as := by
  obtain ⟨m, hm, hg'⟩ := cacheEvent_next h f (by rw [hu]; exact hq)
  rw [hu] at hm hg'
  exact ⟨m, by rw [hm, ← ht], by simpa using MemPort.gains_trans hg hg'⟩

/-- A step that makes no access. -/
theorem event_silent {s t : State} {f : State → State} (h : s.inReset = false) (hf : f s = t) :
    NextIs (event s f) t [] := event_nextIs h f hf rfl (MemPort.gains_refl _)

/-- A step that makes no access and leaves the part at rest. -/
theorem cacheEvent_silent {s t : State} {f : State → State} (h : s.inReset = false) (hf : f s = t) (hq : t.Quiet) :
    NextIs (cacheEvent s f) t [] := cacheEvent_nextIs h f hf hq rfl (MemPort.gains_refl _)

/-- A step at which CMU makes one access and enters a phase. -/
theorem event_submits {s t : State} {f : State → State} {a : Access} {p : CmuPhase} {o : Option Nat}
    (h : s.inReset = false) (hf : f s = t.cmuSubmit a p o) :
    NextIs (event s f) { t with cmu := t.cmuIn p } [a] := event_nextIs h f hf rfl (submit_gains _ _ _ _)

/-- The same, leaving the part at rest. -/
theorem cacheEvent_submits {s t : State} {f : State → State} {a : Access} {p : CmuPhase} {o : Option Nat}
    (h : s.inReset = false) (hf : f s = t.cmuSubmit a p o) (hq : t.Quiet) :
    NextIs (cacheEvent s f) { t with cmu := t.cmuIn p } [a] :=
  cacheEvent_nextIs h f hf ⟨hq.port, hq.requests, hq.sound, hq.unanswered⟩ rfl (submit_gains _ _ _ _)

/-- A step that answers the descriptor. -/
theorem event_answers {s t : State} {f : State → State} {st : Status} (h : s.inReset = false)
    (hf : f s = answer st t) : Answers (event s f) t st := event_nextIs h f hf rfl (submit_gains _ _ _ _)

/-- A step that answers the descriptor and leaves the part at rest. -/
theorem cacheEvent_answers {s t : State} {f : State → State} {st : Status} (h : s.inReset = false)
    (hf : f s = answer st t) (hq : t.Quiet) : Answers (cacheEvent s f) t st :=
  cacheEvent_nextIs h f hf ⟨hq.port, hq.requests, hq.sound, hq.unanswered⟩ rfl (submit_gains _ _ _ _)

/-- The oldest outstanding access of a purpose ends. -/
theorem ending_ended {s : State} {p : Purpose → Bool} {a : Access} {rest : List Access} (h : s.oldest p a rest)
    (k : Access → State → State) : s.ending p k = k a (s.ended rest) := ending_of h k

/-- The end of an access leaves a part at rest at rest. -/
theorem State.Quiet.ended {s : State} (h : s.Quiet) (rest : List Access) : (s.ended rest).Quiet :=
  ⟨h.port, h.requests, h.sound, h.unanswered⟩

/-! ## Notices -/

/-- A notice changes NW and the memory port alone. -/
theorem notify_with (n : Notice) (s : State) : ∃ w m, notify n s = { s with nw := w, mem := m } := by
  rcases notify_cases n s with ⟨_, e⟩ | ⟨_, e⟩ <;> exact ⟨_, _, e⟩

/-- A notice leaves CMU as it is. -/
@[simp] theorem notify_cmu_same (n : Notice) (s : State) : (notify n s).cmu = s.cmu := by
  obtain ⟨_, _, e⟩ := notify_with n s
  rw [e]

/-- A notice leaves a part at rest at rest. -/
theorem State.Quiet.notify {s : State} (h : s.Quiet) (n : Notice) : (Machine.notify n s).Quiet := by
  obtain ⟨_, _, e⟩ := notify_with n s
  rw [e]
  exact ⟨h.port, h.requests, h.sound, h.unanswered⟩

/-- A notice and an access of CMU's come to the same in either order, but for the order at the memory port (R96:
the notice follows the other effects). -/
theorem notify_cmuSubmit (n : Notice) (a : Access) (p : CmuPhase) (o : Option Nat) (s : State) :
    ∃ m, notify n (s.cmuSubmit a p o) = { (notify n s).cmuSubmit a p o with mem := m }
      ∧ ((notify n s).cmuSubmit a p o).mem.gains m [] := by
  rcases notify_cases n s with ⟨h, e⟩ | ⟨h, e⟩ <;> rcases notify_cases n (s.cmuSubmit a p o) with ⟨h', e'⟩ | ⟨h', e'⟩
  · refine ⟨_, by rw [e, e']; rfl, ?_⟩
    set b := ownWrite .notice (s.controlBase + 0x4000 + 16 * s.nw.notices.claimed) n.toBytes
    have claimed : s.mem.gains (notify n s).mem [b] := by rw [e]; exact submit_gains { s with nw := _ } .notice b none
    have left : s.mem.gains ((notify n s).cmuSubmit a p o).mem ([b] ++ [a]) :=
      MemPort.gains_trans claimed (submit_gains { notify n s with cmu := _ } .command a o)
    have made : s.mem.gains (s.cmuSubmit a p o).mem [a] := submit_gains { s with cmu := _ } .command a o
    have right := MemPort.gains_trans made (submit_gains { s.cmuSubmit a p o with nw := _ } .notice b none)
    exact right.trans ((List.Perm.append_left _ (List.Perm.swap b a [])).trans (by simpa using left.symm))
  · exact absurd h h'
  · exact absurd h' h
  · refine ⟨_, by rw [e, e']; rfl, ?_⟩
    rw [e]
    exact MemPort.gains_refl _

/-! ## The cache at rest -/

/-- What the search for a context's entry finds. -/
theorem findEntry_some {s : State} {i e : Nat} (h : s.findEntry i = some e) :
    e < 32 ∧ (s.entry e).index = i ∧ (s.entry e).cond ≠ .invalid := by
  unfold State.findEntry at h
  have hp := List.find?_some h
  have hm := List.mem_of_find?_eq_some h
  simp only [List.mem_range, Bool.and_eq_true, bne_iff_ne, beq_iff_eq] at hm hp
  exact ⟨hm, hp.2, hp.1⟩

/-- The entry a served reference is given. -/
theorem State.ServedBy.given {s : State} {i e : Nat} {k : Key} (h : s.ServedBy i k e) : s.givenEntry i k = some e := by
  obtain ⟨h1, h2, h3⟩ := h
  simp [State.givenEntry, h1, State.servingEntry, h2, Entry.serves, h3]

/-- A request for a served context is ready at once (R87). -/
theorem request_served {s : State} {who : Requester} {i e : Nat} {k : Key} (h : s.ServedBy i k e) :
    request who i k s = addReq who i k .ready s := by
  obtain ⟨h1, h2, h3⟩ := h
  simp [request, h1, h2, h3]

/-- A request for a context that is gone is ready at once (R87). -/
theorem request_gone {s : State} {who : Requester} {i : Nat} {k : Key} (h : s.present i k = false) :
    request who i k s = addReq who i k .ready s := by
  simp [request, h]

/-- A VALID entry becomes the most recently used (R86). -/
theorem touch_valid {s : State} {e : Nat} (h : (s.entry e).cond = .valid) :
    touch e s = { s with recency := s.recencyWith e } := by
  simp only [touch, h, if_true]
  rfl

/-- The image of a VALID entry changes (R85). -/
theorem modifyImage_valid {s : State} {e : Nat} {f : Context → Context} (he : e < 32)
    (h : (s.entry e).cond = .valid) :
    modifyImage e f s = s.setEntry e { s.entry e with image := f (s.entry e).image, dirty := true } := by
  simp [modifyImage, cancelIfEnded, h, he]

/-- An entry that is not INVALID becomes so (R85). -/
theorem invalidate_eq {s : State} {e : Nat} (h : (s.entry e).cond ≠ .invalid) :
    invalidate e s = s.withoutEntry e (s.entry e).index := by
  simp only [invalidate, h, if_false]
  rfl

/-- With no entry pinned there is none to unpin. -/
theorem unpin_none {s : State} (h : s.Unpinned) : unpin s = s := by
  have : (List.range 32).find? (fun e => (s.entry e).pinned) = none := by
    rw [List.find?_eq_none]
    intro x hx
    simp [h x (List.mem_range.1 hx)]
  simp [unpin, this]

/-- The one pinned entry is unpinned (R74). -/
theorem unpin_only {s : State} {e : Nat} (he : e < 32) (h : s.PinnedOnly e) :
    unpin s = s.setEntry e { s.entry e with pinned := false } := by
  have : (List.range 32).find? (fun e => (s.entry e).pinned) = some e := by
    cases hf : (List.range 32).find? (fun e => (s.entry e).pinned) with
    | none => exact absurd h.1 (by simpa using List.find?_eq_none.1 hf e (List.mem_range.2 he))
    | some d =>
      rw [h.2.2 d (List.mem_range.1 (List.mem_of_find?_eq_some hf)) (List.find?_some (p := fun e => (s.entry e).pinned) hf)]
  simp [unpin, this, h.2.1]

end Sys2Proof.Machine
end

