-- ==== Sys2Proof/Laws/Cache.lean ====
section
/-!
SUPPORT. What each operation of the context cache leaves of its invariant: at most one entry that is not INVALID for a
context, and none for the context of a request that waits for an entry (R85, R88).
-/

namespace Sys2Proof.Machine

/-- A request that waits for an entry: in the waiting list, or on a write-back (R88, R89). -/
abbrev Req.unplaced (r : Req) : Prop := r.wait = .list ∨ ∃ e, r.wait = .writeBack e

/-- A cache with no entry and no unplaced request beyond those of one that meets the invariant meets it too. -/
theorem cacheOk_of {s t : State} (h : s.CacheOk)
    (he : ∀ d, (t.entry d).cond ≠ .invalid → (s.entry d).cond ≠ .invalid ∧ (t.entry d).index = (s.entry d).index)
    (hr : ∀ r ∈ t.reqs, r.unplaced → ∃ q ∈ s.reqs, q.unplaced ∧ q.index = r.index) : t.CacheOk where
  single d e hd hx hi := h.single d e (he d hd).1 (he e hx).1 ((he d hd).2 ▸ (he e hx).2 ▸ hi)
  awaited r hm hw e hx := by
    obtain ⟨q, hq, hqw, hqi⟩ := hr r hm hw
    rw [(he e hx).2, ← hqi]
    exact h.awaited q hq hqw e (he e hx).1

/-- Another entry record: it reads as the new one, or as before. -/
theorem entry_setEntry (s : State) (e d : Nat) (x : Entry) :
    (s.setEntry e x).entry d = x ∧ d = e ∧ e < 32 ∨ (s.setEntry e x).entry d = s.entry d ∧ (d ≠ e ∨ 32 ≤ e) := by
  by_cases hd : d = e
  · subst hd
    by_cases hl : d < 32
    · exact .inl ⟨entry_setEntry_self s d x hl, rfl, hl⟩
    · exact .inr ⟨by simp [State.entry, State.setEntry, Vector.getD, Array.getD, hl], .inr (Nat.le_of_not_lt hl)⟩
  · exact .inr ⟨entry_setEntry_ne s e d x (Ne.symm hd), .inl hd⟩

/-- The requests are kept where an entry of the same context takes the place of one that is not INVALID. -/
theorem cacheOk_setEntry {s : State} (h : s.CacheOk) (e : Nat) (x : Entry)
    (hx : x.cond ≠ .invalid → (s.entry e).cond ≠ .invalid ∧ x.index = (s.entry e).index) :
    (s.setEntry e x).CacheOk := by
  refine cacheOk_of h (fun d hd => ?_) fun r hr hw => ⟨r, hr, hw, rfl⟩
  rcases entry_setEntry s e d x with ⟨hs, rfl, -⟩ | ⟨hs, -⟩ <;> rw [hs] at hd ⊢
  · exact hx hd
  · exact ⟨hd, rfl⟩

theorem cacheOk_invalidate {s : State} (h : s.CacheOk) (e : Nat) : (invalidate e s).CacheOk := by
  unfold invalidate
  dsimp only
  split
  · exact h
  · exact cacheOk_of (cacheOk_setEntry h e {} fun hx => absurd rfl hx) (fun _ hd => ⟨hd, rfl⟩) fun r hr hw =>
      ⟨r, hr, hw, rfl⟩

/-- An INVALID entry is what is left of an entry invalidated, and every other reads as before. -/
theorem entry_invalidate (s : State) (e d : Nat) :
    ((invalidate e s).entry d).cond = .invalid ∧ d = e ∨ (invalidate e s).entry d = s.entry d ∧ d ≠ e := by
  by_cases hd : d = e
  · subst hd
    refine .inl ⟨?_, rfl⟩
    unfold invalidate
    dsimp only
    split
    · assumption
    · rcases entry_setEntry s d d {} with ⟨hs, -, -⟩ | ⟨hs, hl⟩
      · exact congrArg Entry.cond hs
      · have : 32 ≤ d := hl.resolve_left (absurd rfl)
        have : s.entry d = {} := by simp [State.entry, Vector.getD, Array.getD, Nat.not_lt.mpr this]
        simp_all
  · refine .inr ⟨?_, hd⟩
    unfold invalidate
    dsimp only
    split
    · rfl
    · exact entry_setEntry_ne s e d {} (Ne.symm hd)

theorem cacheOk_rechoose {s : State} (h : s.CacheOk) (e : Nat) : (rechoose e s).CacheOk := by
  refine cacheOk_of h (fun _ hd => ⟨hd, rfl⟩) fun r hr hw => ?_
  rcases List.mem_append.1 hr with hm | hm
  · obtain ⟨q, hq, rfl⟩ := List.mem_map.1 hm
    have hq := List.mem_filter.1 hq
    exact ⟨q, hq.1, .inr ⟨e, by simpa using hq.2⟩, rfl⟩
  · exact ⟨r, (List.mem_filter.1 hm).1, hw, rfl⟩

theorem cacheOk_cancelReuse {s : State} (h : s.CacheOk) (e : Nat) (hx : (s.entry e).cond ≠ .invalid) :
    (cancelReuse e s).CacheOk := by
  refine cacheOk_rechoose (cacheOk_setEntry h e _ ?_) e
  exact fun _ => ⟨hx, rfl⟩

theorem cacheOk_cancelIfEnded {s : State} (h : s.CacheOk) (e : Nat) : (cancelIfEnded e s).CacheOk := by
  unfold cancelIfEnded
  dsimp only
  split
  · next hc => exact cacheOk_cancelReuse h e (by rw [hc.1]; decide)
  · exact h

theorem cacheOk_modifyImage {s : State} (h : s.CacheOk) (e : Nat) (f : Context → Context) :
    (modifyImage e f s).CacheOk := by
  refine cacheOk_cancelIfEnded (cacheOk_setEntry h e _ ?_) e
  exact fun hx => ⟨hx, rfl⟩

/-- An entry begins its fetch for a context that no other entry is of (R88, R90). -/
theorem cacheOk_startFetch {s : State} (h : s.CacheOk) (e idx : Nat) (key : Key)
    (hi : ∀ d, d ≠ e → (s.entry d).cond ≠ .invalid → (s.entry d).index ≠ idx) (he : e < 32) :
    (startFetch e idx key s).CacheOk := by
  have entries : ∀ d, ((startFetch e idx key s).entry d).cond ≠ .invalid →
      d = e ∧ ((startFetch e idx key s).entry d).index = idx
      ∨ d ≠ e ∧ (s.entry d).cond ≠ .invalid ∧ ((startFetch e idx key s).entry d).index = (s.entry d).index := by
    intro d hd
    change (((invalidate e s).setEntry e _).entry d).cond ≠ _ at hd
    change d = e ∧ (((invalidate e s).setEntry e _).entry d).index = idx
      ∨ d ≠ e ∧ _ ∧ (((invalidate e s).setEntry e _).entry d).index = _
    rcases entry_setEntry (invalidate e s) e d
        { cond := .fetching, index := idx, key := key, merge := mergesOf idx s.reqs } with ⟨hs, hde, -⟩ | ⟨hs, hde⟩
    · exact .inl ⟨hde, by rw [hs]⟩
    · have hde : d ≠ e := hde.resolve_right (Nat.not_le.mpr he)
      rw [hs] at hd ⊢
      rcases entry_invalidate s e d with ⟨-, h'⟩ | ⟨h', -⟩
      · exact absurd h' hde
      · rw [h'] at hd ⊢
        exact .inr ⟨hde, hd, rfl⟩
  refine ⟨fun d f hd hf hdf => ?_, fun r hr hw f hf => ?_⟩
  · rcases entries d hd with ⟨rfl, h1⟩ | ⟨h0, h1, h2⟩ <;> rcases entries f hf with ⟨rfl, g1⟩ | ⟨g0, g1, g2⟩
    · rfl
    · exact absurd (g2 ▸ hdf ▸ h1) (hi f g0 g1)
    · exact absurd (h2 ▸ hdf.trans g1) (hi d h0 h1)
    · exact h.single d f h1 g1 (h2 ▸ g2 ▸ hdf)
  · change r ∈ List.map _ _ at hr
    obtain ⟨q, hq, rfl⟩ := List.mem_map.1 hr
    have hq := (List.mem_filter.1 hq).1
    have given : ∀ w : Wait, (w = .list ∨ ∃ e, w = .writeBack e) → w.given = false := by
      rintro w (rfl | ⟨e, rfl⟩) <;> rfl
    split at hw
    · rcases hw with hw | ⟨e, hw⟩ <;> cases hw
    · next hn =>
      rw [if_neg hn]
      have hqi : q.index ≠ idx := fun e => hn ⟨e, by simp [given q.wait hw]⟩
      rcases entries f hf with ⟨-, g1⟩ | ⟨-, g1, g2⟩
      · exact fun e => hqi (e.symm.trans g1)
      · exact fun e => h.awaited q hq hw f g1 (g2.symm.trans e)

theorem cacheOk_startWriteBack {s : State} (h : s.CacheOk) (e idx : Nat) (hx : (s.entry e).cond ≠ .invalid) :
    (startWriteBack e idx s).CacheOk := by
  refine cacheOk_of (cacheOk_setEntry h e { s.entry e with cond := .retiring, retire := {} } fun _ => ⟨hx, rfl⟩)
    (fun _ hd => ⟨hd, rfl⟩) fun r hr hw => ?_
  change r ∈ List.map _ _ at hr
  obtain ⟨q, hq, rfl⟩ := List.mem_map.1 hr
  split at hw
  · next hc => exact ⟨q, hq, .inl hc.2, by rw [if_pos hc]⟩
  · next hc => exact ⟨q, hq, hw, by rw [if_neg hc]⟩

/-- A free entry is INVALID, and one chosen for reuse is VALID; both are entries of the cache. -/
theorem freeEntry_lt {s : State} {e : Nat} (h : s.freeEntry = some e) : e < 32 :=
  List.mem_range.1 (List.mem_of_find?_eq_some h)

theorem lru_valid {s : State} {e : Nat} (h : s.lru = some e) : (s.entry e).cond = .valid ∧ e < 32 := by
  have hv : (s.entry e).cond = .valid := by
    have := List.find?_some h
    simp only [State.evictable, Bool.and_eq_true, beq_iff_eq] at this
    exact this.1.1.1.1
  refine ⟨hv, Nat.lt_of_not_le fun hl => ?_⟩
  have : s.entry e = {} := by simp [State.entry, Vector.getD, Array.getD, Nat.not_lt.mpr hl]
  simp [this] at hv

/-- A request for a context that no entry is of takes one, or none is to be had (R88, R89). -/
theorem cacheOk_place {s t : State} (h : s.CacheOk) (idx : Nat) (key : Key)
    (hi : ∀ d, (s.entry d).cond ≠ .invalid → (s.entry d).index ≠ idx) (ht : place idx key s = some t) : t.CacheOk := by
  unfold place at ht
  split at ht
  · next e he => cases ht; exact cacheOk_startFetch h e idx key (fun d _ => hi d) (freeEntry_lt he)
  · split at ht
    · cases ht
    · next e he =>
      obtain ⟨hv, hl⟩ := lru_valid he
      split at ht <;> cases ht
      · exact cacheOk_startWriteBack h e idx (by rw [hv]; decide)
      · exact cacheOk_startFetch h e idx key (fun d _ => hi d) hl

theorem cacheOk_pumpLoop (n : Nat) {s : State} (h : s.CacheOk) : (pumpLoop n s).CacheOk := by
  induction n generalizing s with
  | zero => exact h
  | succ n ih =>
    unfold pumpLoop
    split
    · exact h
    · next r hr =>
      split
      · exact h
      · next t ht =>
        exact ih (cacheOk_place h r.index r.key (fun d hd => h.awaited r (List.mem_of_find?_eq_some hr)
          (.inl (by simpa using List.find?_some hr)) d hd) ht)

theorem cacheOk_serveList {s : State} (h : s.CacheOk) : (serveList s).CacheOk := cacheOk_pumpLoop _ h

/-- Adding a request keeps the invariant where it waits for no entry, or none is of its context. -/
theorem cacheOk_addReq {s : State} (h : s.CacheOk) (who : Requester) (idx : Nat) (key : Key) (w : Wait)
    (hw : (w = .list ∨ ∃ e, w = .writeBack e) → ∀ d, (s.entry d).cond ≠ .invalid → (s.entry d).index ≠ idx) :
    (addReq who idx key w s).CacheOk where
  single := h.single
  awaited r hr hu := by
    rcases List.mem_append.1 hr with hm | hm
    · exact h.awaited r hm hu
    · obtain rfl : r = ⟨who, idx, key, w⟩ := by simpa using hm
      exact hw hu

theorem findEntry_none {s : State} {idx : Nat} (h : s.findEntry idx = none) (d : Nat)
    (hd : (s.entry d).cond ≠ .invalid) : (s.entry d).index ≠ idx := by
  have hl : d < 32 := Nat.lt_of_not_le fun hl => hd (by
    have : s.entry d = {} := by simp [State.entry, Vector.getD, Array.getD, Nat.not_lt.mpr hl]
    rw [this])
  have := List.find?_eq_none.1 h d (List.mem_range.2 hl)
  intro he
  simp [he, hd] at this

theorem cacheOk_request {s : State} (h : s.CacheOk) (who : Requester) (idx : Nat) (key : Key) :
    (request who idx key s).CacheOk := by
  have plain : ∀ (t : State), t.CacheOk → ∀ w : Wait, w = .ready ∨ w = .kept ∨ w = .fetch →
      (addReq who idx key w t).CacheOk := fun t ht w hw =>
    cacheOk_addReq ht who idx key w fun hu => by rcases hw with rfl | rfl | rfl <;> simp at hu
  unfold request
  split
  · split
    · next hf =>
      have none := findEntry_none hf
      unfold requestFresh
      split
      · exact cacheOk_addReq h who idx key _ fun _ => none
      · have hs := cacheOk_addReq h who idx key .list fun _ => none
        dsimp only
        split
        · exact hs
        · cases hp : place idx key (addReq who idx key .list s) with
          | none => exact hs
          | some t => exact cacheOk_place hs idx key none hp
    · next e _ =>
      split
      · exact plain s h _ (.inr (.inr rfl))
      · next hc =>
        refine cacheOk_cancelIfEnded (plain _ (cacheOk_setEntry h e _ ?_) _ (.inr (.inl rfl))) e
        exact fun hx => ⟨hx, rfl⟩
      · exact plain s h _ (.inl rfl)
  · exact plain s h _ (.inl rfl)

/-- The entry whose write-back has ended passes to the allocation that waits, or stays (R92). -/
theorem cacheOk_passOn {s : State} (h : s.CacheOk) (e : Nat) (hx : (s.entry e).cond ≠ .invalid) :
    (passOn e s).CacheOk := by
  have hl : e < 32 := Nat.lt_of_not_le fun hl => hx (by
    have : s.entry e = {} := by simp [State.entry, Vector.getD, Array.getD, Nat.not_lt.mpr hl]
    rw [this])
  unfold passOn
  split
  · next r hr =>
    exact cacheOk_startFetch h e r.index r.key (fun d _ => h.awaited r (List.mem_of_find?_eq_some hr)
      (.inr ⟨e, by simpa using List.find?_some hr⟩) d) hl
  · exact cacheOk_setEntry h e _ fun _ => ⟨hx, rfl⟩

end Sys2Proof.Machine
end

