-- ==== Sys2Proof/Laws/Calendar.lean ====
section
/-!
SUPPORT. What each operation of the maintenance calendar leaves of its invariant: at most one entry for a context
index (R108).
-/

namespace Sys2Proof.Machine

/-- The entry found for an index is of that index and stands in the calendar. -/
theorem calEntry_found {s : State} {idx : Nat} {e : CalEntry} (h : s.calEntry idx = some e) :
    e.index = idx ∧ e ∈ s.calendar :=
  ⟨by simpa using List.find?_some h, List.mem_of_find?_eq_some h⟩

/-- A calendar whose entries stand in one with one entry for an index, in its order, has one too. -/
theorem calendarOk_of_sublist {s t : State} (h : s.CalendarOk)
    (hs : (t.calendar.map fun e => e.index).Sublist (s.calendar.map fun e => e.index)) : t.CalendarOk :=
  List.Nodup.sublist hs h

/-- A calendar with the indices of one that has one entry for an index has one too. -/
theorem calendarOk_of_perm {s t : State} (h : s.CalendarOk)
    (hs : (t.calendar.map fun e => e.index).Perm (s.calendar.map fun e => e.index)) : t.CalendarOk :=
  hs.nodup_iff.2 h

theorem calendarOk_calKeep {s : State} (h : s.CalendarOk) (e : CalEntry) : (calKeep e s).CalendarOk := by
  refine calendarOk_of_perm h (.of_eq ?_)
  rw [calKeep, List.map_map]
  refine List.map_congr_left fun x _ => ?_
  by_cases hx : x.index = e.index <;> simp [hx]

theorem calendarOk_calSet {s : State} (h : s.CalendarOk) (e : CalEntry) : (calSet e s).CalendarOk := by
  unfold State.CalendarOk calSet
  rw [List.map_append, List.nodup_append]
  refine ⟨List.Nodup.sublist (List.filter_sublist.map _) h, List.nodup_singleton _, ?_⟩
  intro a ha b hb
  obtain ⟨x, hx, rfl⟩ := List.mem_map.1 ha
  obtain rfl : b = e.index := by simpa using hb
  simpa using (List.mem_filter.1 hx).2

theorem calendarOk_calRemove {s : State} (h : s.CalendarOk) (idx : Nat) : (calRemove idx s).CalendarOk :=
  calendarOk_of_sublist h (List.filter_sublist.map _)

theorem calendarOk_calMake {s : State} (h : s.CalendarOk) (idx : Nat) (key : Key) (cls : PeriodClass) :
    (calMake idx key cls s).CalendarOk := calendarOk_calSet h _

theorem calendarOk_calHeard {s : State} (h : s.CalendarOk) (idx : Nat) (stamp : Tick) :
    (calHeard idx stamp s).CalendarOk := by
  unfold calHeard
  split
  · exact h
  · exact calendarOk_calSet h _

theorem calendarOk_calReclass {s : State} (h : s.CalendarOk) (idx : Nat) (cls : PeriodClass) :
    (calReclass idx cls s).CalendarOk := by
  unfold calReclass
  split
  · exact h
  · split
    · exact calendarOk_calSet h _
    · exact calendarOk_calKeep h _

theorem calendarOk_calClass {s : State} (h : s.CalendarOk) (idx : Nat) (cls : PeriodClass) :
    (calClass idx cls s).CalendarOk := by
  unfold calClass
  split
  · exact h
  · exact calendarOk_calKeep h _

theorem calendarOk_calForce {s : State} (h : s.CalendarOk) (idx : Nat) : (calForce idx s).CalendarOk := by
  unfold calForce
  split
  · exact h
  · split
    · exact h
    · exact calendarOk_calSet h _

/-- Due order has the entries it orders (R109). -/
theorem dueInsert_perm (now : Tick) (e : CalEntry) (es : List CalEntry) : (dueInsert now e es).Perm (e :: es) := by
  induction es with
  | nil => exact .refl _
  | cons x rest ih =>
    unfold dueInsert
    split
    · exact (ih.cons x).trans (.swap e x rest)
    · exact .refl _

theorem dueOrder_perm (now : Tick) (es : List CalEntry) : (dueOrder now es).Perm es := by
  have fold : ∀ (xs acc : List CalEntry), (xs.foldl (fun a e => dueInsert now e a) acc).Perm (acc ++ xs) := by
    intro xs
    induction xs with
    | nil => intro acc; simp
    | cons x xs ih =>
      intro acc
      refine (ih _).trans (((dueInsert_perm now x acc).append_right xs).trans ?_)
      simpa using List.perm_middle.symm
  exact fold es []

theorem calendarOk_calRebase {s : State} (h : s.CalendarOk) : (calRebase s).CalendarOk := by
  refine calendarOk_of_perm h ?_
  rw [calRebase, List.map_map]
  exact (dueOrder_perm s.now s.calendar).map _

end Sys2Proof.Machine
end

