-- ==== Sys2Proof/Laws/Fixed.lean ====
section
/-!
SUPPORT. What the operations of the blocks never change: reset, strap base, run state, window table and the queue
of steps belong to the reset, START, STOP and SET_WINDOW alone (R158); the update queue changes at the offer of a
job, its taking and its release alone (R66). One lemma per operation, so that a proof about a step need not
unfold it.
-/

namespace Sys2Proof.Machine

/-- What no operation of a block changes: reset, strap base, run state, window table, the model's own queue. -/
def State.fixed (s : State) : Bool × BitVec 16 × RunState × Vector (Option Window) 6 × List Instr :=
  (s.inReset, s.strapBase, s.run, s.windows, s.pending)

/-- The fixed part of a state written out. -/
@[simp] theorem State.mk_fixed (a1 a2 a3 a4 a5 a6 a7 a8 a9 a10 a11 a12 a13 a14 a15 a16 a17 a18 a19 a20 a21 a22 a23
    a24 a25 a26) :
    (State.mk a1 a2 a3 a4 a5 a6 a7 a8 a9 a10 a11 a12 a13 a14 a15 a16 a17 a18 a19 a20 a21 a22 a23 a24 a25 a26).fixed
      = (a1, a3, a4, a5, a26) := rfl

/-- The fixed part, field by field. -/
@[simp] theorem State.fixed_fields (s : State) : (s.inReset, s.strapBase, s.run, s.windows, s.pending) = s.fixed := rfl

/-- A measure that each step of a fold keeps is kept by the fold. -/
theorem foldl_keeps {α β σ : Type} (m : σ → β) (f : σ → α → σ) (h : ∀ s x, m (f s x) = m s) (xs : List α) (s : σ) :
    m (xs.foldl f s) = m s := by
  induction xs generalizing s with
  | nil => rfl
  | cons x xs ih => simp [ih, h]

/-- A measure that each later step of a fold keeps is that of the first. -/
theorem foldl_keeps_from {α β σ : Type} (m : σ → β) (f : σ → α → σ) (h : ∀ s x, m (f s x) = m s) (xs : List α)
    (s s0 : σ) (h0 : m s = m s0) : m (xs.foldl f s) = m s0 := (foldl_keeps m f h xs s).trans h0

/-! ## The index words a write can cover (R161, R173) -/

theorem takeWord_producer (i : Nat) (p : Nat × Byte) (ps : List (Nat × Byte)) (s : State) :
    takeWord 0 i (p :: ps) s = handProducer i (composeWord s.cmu.shadow (p :: ps)) s := by unfold takeWord; rfl

theorem takeWord_noticeConsumer (i : Nat) (p : Nat × Byte) (ps : List (Nat × Byte)) (s : State) :
    takeWord 3 i (p :: ps) s = handNoticeConsumer (composeWord s.nw.noticeShadow (p :: ps)) s := by
  unfold takeWord; rfl

theorem takeWord_dueConsumer (i : Nat) (p : Nat × Byte) (ps : List (Nat × Byte)) (s : State) :
    takeWord 5 i (p :: ps) s = handDueConsumer (composeWord s.nw.dueShadow (p :: ps)) s := by unfold takeWord; rfl

theorem takeWord_other (w i : Nat) (h0 : w ≠ 0) (h3 : w ≠ 3) (h5 : w ≠ 5) (p : Nat × Byte) (ps : List (Nat × Byte))
    (s : State) : takeWord w i (p :: ps) s = s := by
  unfold takeWord
  split
  · rfl
  · split <;> simp_all

/-! ## Reset, strap base, run state, window table, pending -/

@[simp] theorem setChannel_fixed (s : State) (ch : Nat) (c : Channel) : (s.setChannel ch c).fixed = s.fixed := rfl
@[simp] theorem setSlot_fixed (s : State) (n : Nat) (x : Slot) : (s.setSlot n x).fixed = s.fixed := rfl
@[simp] theorem setEntry_fixed (s : State) (e : Nat) (x : Entry) : (s.setEntry e x).fixed = s.fixed := rfl
@[simp] theorem setAssembly_fixed (s : State) (w : Nat) (a : Option Assembly) : (s.setAssembly w a).fixed = s.fixed := rfl
@[simp] theorem setQuietTimer_fixed (s : State) (ch : Nat) (t : Option QuietTimer) : (s.setQuietTimer ch t).fixed = s.fixed := rfl
@[simp] theorem submit_fixed (s : State) (src : Source) (a : Access) (o : Option Nat) : (s.submit src a o).fixed = s.fixed := rfl
@[simp] theorem pass_fixed (s : State) (id : Nat) (i : Initiator) (a : Nat) (b : Body) : (s.pass id i a b).fixed = s.fixed := rfl
@[simp] theorem wakePort_fixed (s : State) : (wakePort s).fixed = s.fixed := rfl
@[simp] theorem modifyTxn_fixed (s : State) (id : Nat) (f : Txn → Txn) : (s.modifyTxn id f).fixed = s.fixed := rfl
@[simp] theorem failTxn_fixed (s : State) (id : Nat) : (s.failTxn id).fixed = s.fixed := rfl
@[simp] theorem kdirRemove_fixed (s : State) (k : Key) : (s.kdirRemove k).fixed = s.fixed := rfl
@[simp] theorem cmuSubmit_fixed (s : State) (a : Access) (p : CmuPhase) (o : Option Nat) : (s.cmuSubmit a p o).fixed = s.fixed := rfl
@[simp] theorem countChannel_fixed (s : State) (ch : Nat) (f : ChanCounters → ChanCounters) : (s.countChannel ch f).fixed = s.fixed := rfl
@[simp] theorem grantAll_fixed (s : State) : (grantAll s).fixed = s.fixed := rfl
@[simp] theorem claimNotice_fixed (n : Notice) (s : State) : (claimNotice n s).fixed = s.fixed := rfl
@[simp] theorem claimOffer_fixed (e : CalEntry) (r : OfferReason) (s : State) : (claimOffer e r s).fixed = s.fixed := rfl
@[simp] theorem lapseDrop_fixed (i : Nat) (s : State) : (lapseDrop i s).fixed = s.fixed := rfl
@[simp] theorem calKeep_fixed (e : CalEntry) (s : State) : (calKeep e s).fixed = s.fixed := rfl
@[simp] theorem calSet_fixed (e : CalEntry) (s : State) : (calSet e s).fixed = s.fixed := rfl
@[simp] theorem calRemove_fixed (i : Nat) (s : State) : (calRemove i s).fixed = s.fixed := rfl
@[simp] theorem calMake_fixed (i : Nat) (k : Key) (c : PeriodClass) (s : State) : (calMake i k c s).fixed = s.fixed := rfl
@[simp] theorem restartQuiet_fixed (ch : Nat) (s : State) : (restartQuiet ch s).fixed = s.fixed := rfl
@[simp] theorem addReq_fixed (w : Requester) (i : Nat) (k : Key) (x : Wait) (s : State) : (addReq w i k x s).fixed = s.fixed := rfl
@[simp] theorem dropReq_fixed (w : Requester) (s : State) : (dropReq w s).fixed = s.fixed := rfl
@[simp] theorem rechoose_fixed (e : Nat) (s : State) : (rechoose e s).fixed = s.fixed := rfl
@[simp] theorem arrive_fixed (p : PortTxn) (s : State) : (arrive p s).fixed = s.fixed := rfl
@[simp] theorem writeStatus_fixed (st : Status) (s : State) : (writeStatus st s).fixed = s.fixed := rfl
@[simp] theorem answer_fixed (st : Status) (s : State) : (answer st s).fixed = s.fixed := rfl
@[simp] theorem fetchDescriptor_fixed (s : State) : (fetchDescriptor s).fixed = s.fixed := rfl
@[simp] theorem writeMirror_fixed (s : State) : (writeMirror s).fixed = s.fixed := rfl
@[simp] theorem startWriteBack_fixed (e i : Nat) (s : State) : (startWriteBack e i s).fixed = s.fixed := rfl
@[simp] theorem releaseJob_fixed (i : Nat) (s : State) : (releaseJob i s).fixed = s.fixed := rfl
@[simp] theorem writeHeader_fixed (k : Key) (i : Nat) (r : List (Key × Nat)) (f : Bool) (s : State) : (writeHeader k i r f s).fixed = s.fixed := rfl
@[simp] theorem bindCopy_fixed (n : Nat) (c : BoundCopy) (s : State) : (bindCopy n c s).fixed = s.fixed := rfl
@[simp] theorem armSlot_fixed (n : Nat) (ps : List (Nat × Byte)) (s : State) : (armSlot n ps s).fixed = s.fixed := rfl
@[simp] theorem wakeFetch_fixed (i : Nat) (s : State) : (wakeFetch i s).fixed = s.fixed := rfl
@[simp] theorem placeHolds_fixed (e : Nat) (s : State) : (placeHolds e s).fixed = s.fixed := rfl
@[simp] theorem writeBackFault_fixed (e : Nat) (s : State) : (writeBackFault e s).fixed = s.fixed := rfl
@[simp] theorem cancelReuse_fixed (e : Nat) (s : State) : (cancelReuse e s).fixed = s.fixed := rfl
@[simp] theorem releaseRequests_fixed (i : Nat) (k : Key) (s : State) : (releaseRequests i k s).fixed = s.fixed := rfl
@[simp] theorem writeCompleted_fixed (i : Nat) (b : Bool) (s : State) : (writeCompleted i b s).fixed = s.fixed := rfl
@[simp] theorem flush_fixed (s : State) : (flush s).fixed = s.fixed := rfl
@[simp] theorem handDueConsumer_fixed (v : BitVec 32) (s : State) : (handDueConsumer v s).fixed = s.fixed := rfl
@[simp] theorem publishNotice_fixed (s : State) : (publishNotice s).fixed = s.fixed := rfl
@[simp] theorem publishOffer_fixed (s : State) : (publishOffer s).fixed = s.fixed := rfl
@[simp] theorem advanceConsumer_fixed (s : State) : (advanceConsumer s).fixed = s.fixed := rfl

@[simp] theorem notify_fixed (n : Notice) (s : State) : (notify n s).fixed = s.fixed := by
  unfold notify
  try dsimp only
  (repeat' split) <;> simp

@[simp] theorem notifyAll_fixed (ns : List Notice) (s : State) : (notifyAll ns s).fixed = s.fixed := by
  exact foldl_keeps State.fixed _ (fun s n => by simp) _ _

@[simp] theorem memoryFault_fixed (a : FaultAccess) (k : Key) (d : Nat) (s : State) : (memoryFault a k d s).fixed = s.fixed := by
  unfold memoryFault
  try dsimp only
  (repeat' split) <;> simp

@[simp] theorem completePart_fixed (s : State) (id k : Nat) (f : Nat → Byte → Byte) : (s.completePart id k f).fixed = s.fixed := by
  unfold State.completePart
  try dsimp only
  (repeat' split) <;> simp

@[simp] theorem answerWith_fixed (fs : List (Nat × List Byte)) (st : Status) (s : State) : (answerWith fs st s).fixed = s.fixed := by
  unfold answerWith
  split
  · simp
  · exact foldl_keeps_from State.fixed _ (fun s n => by simp) _ _ _ rfl

@[simp] theorem calHeard_fixed (i : Nat) (t : Tick) (s : State) : (calHeard i t s).fixed = s.fixed := by
  unfold calHeard
  try dsimp only
  (repeat' split) <;> simp

@[simp] theorem calReclass_fixed (i : Nat) (c : PeriodClass) (s : State) : (calReclass i c s).fixed = s.fixed := by
  unfold calReclass
  try dsimp only
  (repeat' split) <;> simp

@[simp] theorem calClass_fixed (i : Nat) (c : PeriodClass) (s : State) : (calClass i c s).fixed = s.fixed := by
  unfold calClass
  try dsimp only
  (repeat' split) <;> simp

@[simp] theorem calForce_fixed (i : Nat) (s : State) : (calForce i s).fixed = s.fixed := by
  unfold calForce
  try dsimp only
  (repeat' split) <;> simp

@[simp] theorem calRebase_fixed (s : State) : (calRebase s).fixed = s.fixed := by
  unfold calRebase
  try dsimp only
  (repeat' split) <;> simp

@[simp] theorem touch_fixed (e : Nat) (s : State) : (touch e s).fixed = s.fixed := by
  unfold touch
  try dsimp only
  (repeat' split) <;> simp

@[simp] theorem touchFor_fixed (w : Requester) (e : Nat) (s0 s : State) : (touchFor w e s0 s).fixed = s.fixed := by
  unfold touchFor
  (repeat' split) <;> simp

@[simp] theorem invalidate_fixed (e : Nat) (s : State) : (invalidate e s).fixed = s.fixed := by
  unfold invalidate
  try dsimp only
  (repeat' split) <;> simp

@[simp] theorem markJob_fixed (i : Nat) (k : Key) (c : LossCause) (s : State) : (markJob i k c s).fixed = s.fixed := by
  unfold markJob
  try dsimp only
  (repeat' split) <;> simp

@[simp] theorem cancelIfEnded_fixed (e : Nat) (s : State) : (cancelIfEnded e s).fixed = s.fixed := by
  unfold cancelIfEnded
  try dsimp only
  (repeat' split) <;> simp

@[simp] theorem modifyImage_fixed (e : Nat) (f : Context → Context) (s : State) : (modifyImage e f s).fixed = s.fixed := by
  unfold modifyImage
  try dsimp only
  (repeat' split) <;> simp

@[simp] theorem startFetch_fixed (e i : Nat) (k : Key) (s : State) : (startFetch e i k s).fixed = s.fixed := by
  unfold startFetch
  try dsimp only
  (repeat' split) <;> simp

@[simp] theorem passOn_fixed (e : Nat) (s : State) : (passOn e s).fixed = s.fixed := by
  unfold passOn
  try dsimp only
  (repeat' split) <;> simp

@[simp] theorem releaseHold_fixed (i : Nat) (k : Key) (s : State) : (releaseHold i k s).fixed = s.fixed := by
  unfold releaseHold
  try dsimp only
  (repeat' split) <;> simp

theorem place_fixed (i : Nat) (k : Key) (s t : State) (h : place i k s = some t) : t.fixed = s.fixed := by
  unfold place at h
  split at h
  · cases h; simp
  · split at h
    · cases h
    · split at h <;> cases h <;> simp

@[simp] theorem requestFresh_fixed (w : Requester) (i : Nat) (k : Key) (s : State) : (requestFresh w i k s).fixed = s.fixed := by
  unfold requestFresh
  split
  · simp
  · simp only []
    split
    · simp
    · cases hp : place i k (addReq w i k .list s) with
      | none => simp
      | some t => simp [place_fixed _ _ _ _ hp]

@[simp] theorem request_fixed (w : Requester) (i : Nat) (k : Key) (s : State) : (request w i k s).fixed = s.fixed := by
  unfold request
  try dsimp only
  (repeat' split) <;> simp

@[simp] theorem holdClass_fixed (i : Nat) (a b : Context) (s : State) : (holdClass i a b s).fixed = s.fixed := by
  unfold holdClass
  try dsimp only
  (repeat' split) <;> simp

@[simp] theorem takeOperatorWrite_fixed (e : Nat) (bs : List (Nat × Byte)) (s : State) : (takeOperatorWrite e bs s).fixed = s.fixed := by
  unfold takeOperatorWrite
  try dsimp only
  (repeat' split) <;> simp

@[simp] theorem reconcileHold_fixed (e : Nat) (s : State) : (reconcileHold e s).fixed = s.fixed := by
  unfold reconcileHold
  try dsimp only
  (repeat' split) <;> simp

@[simp] theorem operatorWrite_fixed (i : Nat) (k : Key) (t : Nat) (bs : List (Nat × Byte)) (s : State) : (operatorWrite i k t bs s).fixed = s.fixed := by
  unfold operatorWrite
  try dsimp only
  (repeat' split) <;> simp

@[simp] theorem unpin_fixed (s : State) : (unpin s).fixed = s.fixed := by
  unfold unpin
  try dsimp only
  (repeat' split) <;> simp

@[simp] theorem discardJob_fixed (j : Job) (c : LossCause) (s : State) : (discardJob j c s).fixed = s.fixed := by
  unfold discardJob
  try dsimp only
  (repeat' split) <;> simp

@[simp] theorem handOver_fixed (i e : Nat) (h : HandOver) (s : State) : (handOver i e h s).fixed = s.fixed := by
  unfold handOver
  try dsimp only
  (repeat' split) <;> simp

@[simp] theorem applyJob_fixed (j : Job) (sn : Snapshot) (e : Nat) (s : State) : (applyJob j sn e s).fixed = s.fixed := by
  unfold applyJob
  try dsimp only
  (repeat' split) <;> simp

@[simp] theorem finishTrial_fixed (j : Job) (r : Bool) (sn : Snapshot) (s : State) : (finishTrial j r sn s).fixed = s.fixed := by
  unfold finishTrial
  try dsimp only
  (repeat' split) <;> simp

@[simp] theorem giveEngine_fixed (s : State) : (giveEngine s).fixed = s.fixed := by
  unfold giveEngine
  try dsimp only
  (repeat' split) <;> simp

@[simp] theorem abandonEngine_fixed (s : State) : (abandonEngine s).fixed = s.fixed := by
  unfold abandonEngine
  try dsimp only
  (repeat' split) <;> simp

@[simp] theorem completeJob_fixed (s : State) : (completeJob s).fixed = s.fixed := by
  unfold completeJob
  try dsimp only
  (repeat' split) <;> simp

@[simp] theorem takeJob_fixed (s : State) : (takeJob s).fixed = s.fixed := by
  unfold takeJob
  try dsimp only
  (repeat' split) <;> simp

@[simp] theorem takeHeader_fixed (n : Nat) (ps : List (Nat × Byte)) (s : State) : (takeHeader n ps s).fixed = s.fixed := by
  unfold takeHeader
  try dsimp only
  (repeat' split) <;> simp

@[simp] theorem releaseHeld_fixed (n : Nat) (s : State) : (releaseHeld n s).fixed = s.fixed := by
  unfold releaseHeld
  split
  · rfl
  · exact foldl_keeps_from State.fixed _ (fun s n => by simp) _ _ _ (by simp)

@[simp] theorem startPromotion_fixed (s : State) : (startPromotion s).fixed = s.fixed := by
  unfold startPromotion
  try dsimp only
  (repeat' split) <;> simp

@[simp] theorem deliver_fixed (n : Nat) (s : State) : (deliver n s).fixed = s.fixed := by
  unfold deliver
  try dsimp only
  (repeat' split) <;> simp

@[simp] theorem promoteOn_fixed (p : Promotion) (e : Nat) (s : State) : (promoteOn p e s).fixed = s.fixed := by
  unfold promoteOn
  try dsimp only
  (repeat' split) <;> simp

@[simp] theorem nextPromotion_fixed (n : Nat) (s : State) : (nextPromotion n s).fixed = s.fixed := by
  unfold nextPromotion
  try dsimp only
  (repeat' split) <;> simp

@[simp] theorem givePromotion_fixed (s : State) : (givePromotion s).fixed = s.fixed := by
  unfold givePromotion
  try dsimp only
  (repeat' split) <;> simp

@[simp] theorem abandonPromotion_fixed (s : State) : (abandonPromotion s).fixed = s.fixed := by
  unfold abandonPromotion
  try dsimp only
  (repeat' split) <;> simp

@[simp] theorem patchSlot_fixed (n id k : Nat) (s : State) : (patchSlot n id k s).fixed = s.fixed := by
  unfold patchSlot
  try dsimp only
  (repeat' split) <;> simp

@[simp] theorem answerWaiting_fixed (n : Nat) (s : State) : (answerWaiting n s).fixed = s.fixed := by
  unfold answerWaiting
  dsimp only
  rw [releaseHeld_fixed]
  exact foldl_keeps_from State.fixed _ (fun s n => by simp) _ _ _ (by simp)

@[simp] theorem readSlot_fixed (n id k : Nat) (s : State) : (readSlot n id k s).fixed = s.fixed := by
  unfold readSlot
  try dsimp only
  (repeat' split) <;> simp

@[simp] theorem giveSlot_fixed (n : Nat) (s : State) : (giveSlot n s).fixed = s.fixed := by
  unfold giveSlot
  try dsimp only
  (repeat' split) <;> simp

@[simp] theorem abandonSlot_fixed (n : Nat) (s : State) : (abandonSlot n s).fixed = s.fixed := by
  unfold abandonSlot
  try dsimp only
  (repeat' split) <;> simp

@[simp] theorem startLapse_fixed (s : State) : (startLapse s).fixed = s.fixed := by
  unfold startLapse
  try dsimp only
  (repeat' split) <;> simp

@[simp] theorem applyLapse_fixed (l : Lapse) (e : Nat) (s : State) : (applyLapse l e s).fixed = s.fixed := by
  unfold applyLapse
  try dsimp only
  (repeat' split) <;> simp

@[simp] theorem giveLapse_fixed (s : State) : (giveLapse s).fixed = s.fixed := by
  unfold giveLapse
  try dsimp only
  (repeat' split) <;> simp

@[simp] theorem abandonLapse_fixed (s : State) : (abandonLapse s).fixed = s.fixed := by
  unfold abandonLapse
  try dsimp only
  (repeat' split) <;> simp

@[simp] theorem releaseEntry_fixed (i : Nat) (s : State) : (releaseEntry i s).fixed = s.fixed := by
  unfold releaseEntry
  try dsimp only
  (repeat' split) <;> simp

@[simp] theorem releaseContext_fixed (k : Key) (i : Nat) (s : State) : (releaseContext k i s).fixed = s.fixed := by
  unfold releaseContext
  try dsimp only
  (repeat' split) <;> simp

@[simp] theorem releaseNext_fixed (r : List (Key × Nat)) (f : Bool) (s : State) : (releaseNext r f s).fixed = s.fixed := by
  unfold releaseNext
  try dsimp only
  (repeat' split) <;> simp

@[simp] theorem drainRelease_fixed (i : Nat) (s : State) : (drainRelease i s).fixed = s.fixed := by
  unfold drainRelease
  try dsimp only
  (repeat' split) <;> simp

@[simp] theorem reviveNext_fixed (r : List (Key × Nat)) (f : Bool) (s : State) : (reviveNext r f s).fixed = s.fixed := by
  induction r generalizing s with
  | nil => unfold reviveNext; simp
  | cons x r ih =>
    obtain ⟨k, i⟩ := x
    unfold reviveNext
    split
    · exact ih s
    · simp

@[simp] theorem giveRevive_fixed (s : State) : (giveRevive s).fixed = s.fixed := by
  unfold giveRevive
  try dsimp only
  (repeat' split) <;> simp

@[simp] theorem abandonRevive_fixed (s : State) : (abandonRevive s).fixed = s.fixed := by
  unfold abandonRevive
  try dsimp only
  (repeat' split) <;> simp

@[simp] theorem finishCopies_fixed (w : CopyWork) (st : Status) (s : State) : (finishCopies w st s).fixed = s.fixed := by
  unfold finishCopies
  try dsimp only
  (repeat' split) <;> simp

@[simp] theorem copyNext_fixed (w : CopyWork) (s : State) : (copyNext w s).fixed = s.fixed := by
  unfold copyNext
  try dsimp only
  (repeat' split) <;> simp

@[simp] theorem giveCopy_fixed (s : State) : (giveCopy s).fixed = s.fixed := by
  unfold giveCopy
  try dsimp only
  (repeat' split) <;> simp

@[simp] theorem abandonCopy_fixed (s : State) : (abandonCopy s).fixed = s.fixed := by
  unfold abandonCopy
  try dsimp only
  (repeat' split) <;> simp

@[simp] theorem give_fixed (w : Requester) (s : State) : (give w s).fixed = s.fixed := by
  unfold give
  try dsimp only
  (repeat' split) <;> simp

@[simp] theorem abandon_fixed (w : Requester) (s : State) : (abandon w s).fixed = s.fixed := by
  unfold abandon
  try dsimp only
  (repeat' split) <;> simp

@[simp] theorem giveIfReady_fixed (w : Requester) (s : State) : (giveIfReady w s).fixed = s.fixed := by
  unfold giveIfReady
  try dsimp only
  (repeat' split) <;> simp

theorem pumpLoop_fixed (n : Nat) (s : State) : (pumpLoop n s).fixed = s.fixed := by
  induction n generalizing s with
  | zero => rfl
  | succ n ih =>
    unfold pumpLoop
    split
    · rfl
    · split
      · rfl
      · next h => rw [ih, place_fixed _ _ _ _ h]

@[simp] theorem serveList_fixed (s : State) : (serveList s).fixed = s.fixed := by
  exact pumpLoop_fixed _ _

theorem abandonLoop_fixed (n : Nat) (s : State) : (abandonLoop n s).fixed = s.fixed := by
  induction n generalizing s with
  | zero => rfl
  | succ n ih =>
    unfold abandonLoop
    split
    · rfl
    · rw [ih]; simp

@[simp] theorem pump_fixed (s : State) : (pump s).fixed = s.fixed := by
  unfold pump
  dsimp only
  split
  · rw [abandonLoop_fixed, serveList_fixed]
  · simp

@[simp] theorem completeContext_fixed (i : Nat) (k : Key) (h : Bool) (id n : Nat) (s : State) : (completeContext i k h id n s).fixed = s.fixed := by
  unfold completeContext
  try dsimp only
  (repeat' split) <;> simp

@[simp] theorem patchWaiting_fixed (i : Nat) (s : State) : (patchWaiting i s).fixed = s.fixed := by
  unfold patchWaiting
  (repeat' split) <;>
    first
    | with_reducible rfl
    | exact foldl_keeps_from State.fixed _ (fun s n => by (try split) <;> simp) _ _ _ (by simp)
    | exact foldl_keeps_from State.fixed _ (fun s n => by (try split) <;> simp) _ _ _ (by with_reducible rfl)

@[simp] theorem failWaiting_fixed (i : Nat) (s : State) : (failWaiting i s).fixed = s.fixed := by
  unfold failWaiting
  (repeat' split) <;>
    first
    | with_reducible rfl
    | exact foldl_keeps_from State.fixed _ (fun s n => by (try split) <;> simp) _ _ _ (by simp)
    | exact foldl_keeps_from State.fixed _ (fun s n => by (try split) <;> simp) _ _ _ (by with_reducible rfl)

@[simp] theorem loadEntry_fixed (e : Nat) (d : List Byte) (s : State) : (loadEntry e d s).fixed = s.fixed := by
  unfold loadEntry
  dsimp only
  rw [placeHolds_fixed]
  exact foldl_keeps_from State.fixed _ (fun s n => by simp) _ _ _ (by simp)

@[simp] theorem fetchArrived_fixed (i : Nat) (d : List Byte) (s : State) : (fetchArrived i d s).fixed = s.fixed := by
  unfold fetchArrived
  split
  · rfl
  · dsimp only
    split
    · rw [patchWaiting_fixed]
      exact foldl_keeps_from State.fixed _ (fun s n => by simp) _ _ _ (by split <;> simp)
    · rfl

@[simp] theorem fetchFailed_fixed (i : Nat) (s : State) : (fetchFailed i s).fixed = s.fixed := by
  unfold fetchFailed
  split
  · rfl
  · dsimp only
    split
    · rw [failWaiting_fixed, startLapse_fixed]
      exact foldl_keeps_from State.fixed _ (fun s n => by simp) _ _ _ (by simp)
    · rfl

@[simp] theorem writeBackDone_fixed (e : Nat) (s : State) : (writeBackDone e s).fixed = s.fixed := by
  unfold writeBackDone
  try dsimp only
  (repeat' split) <;> simp

@[simp] theorem writeBackEnded_fixed (i : Nat) (k : Key) (b : Bool) (s : State) : (writeBackEnded i k b s).fixed = s.fixed := by
  unfold writeBackEnded
  try dsimp only
  (repeat' split) <;> simp

@[simp] theorem countTorn_fixed (c : Option Nat) (s : State) : (countTorn c s).fixed = s.fixed := by
  unfold countTorn
  try dsimp only
  (repeat' split) <;> simp

@[simp] theorem discardAssembly_fixed (w : Nat) (y : TornDetail) (s : State) : (discardAssembly w y s).fixed = s.fixed := by
  unfold discardAssembly
  try dsimp only
  (repeat' split) <;> simp

@[simp] theorem discardAll_fixed (y : TornDetail) (s : State) : (discardAll y s).fixed = s.fixed := by
  unfold discardAll
  (repeat' split) <;>
    first
    | with_reducible rfl
    | exact foldl_keeps_from State.fixed _ (fun s n => by (try split) <;> simp) _ _ _ (by simp)
    | exact foldl_keeps_from State.fixed _ (fun s n => by (try split) <;> simp) _ _ _ (by with_reducible rfl)

@[simp] theorem offerJob_fixed (i : Nat) (k : Key) (r : List Byte) (t : Tick) (s : State) : (offerJob i k r t s).fixed = s.fixed := by
  unfold offerJob
  try dsimp only
  (repeat' split) <;> simp

@[simp] theorem takeHeard_fixed (i : Nat) (k : Key) (r : List Byte) (t : Tick) (s : State) : (takeHeard i k r t s).fixed = s.fixed := by
  unfold takeHeard
  try dsimp only
  (repeat' split) <;> simp

@[simp] theorem signOfLife_fixed (k : Key) (t : Tick) (s : State) : (signOfLife k t s).fixed = s.fixed := by
  unfold signOfLife
  try dsimp only
  (repeat' split) <;> simp

@[simp] theorem takeRecord_fixed (r : List Byte) (t : Tick) (s : State) : (takeRecord r t s).fixed = s.fixed := by
  unfold takeRecord
  try dsimp only
  (repeat' split) <;> simp

@[simp] theorem placeHold_fixed (o : ReadOwner) (s : State) : (placeHold o s).fixed = s.fixed := by
  unfold placeHold
  try dsimp only
  (repeat' split) <;> simp

@[simp] theorem handProducer_fixed (i : Nat) (v : BitVec 32) (s : State) : (handProducer i v s).fixed = s.fixed := by
  unfold handProducer
  try dsimp only
  (repeat' split) <;> simp

@[simp] theorem handNoticeConsumer_fixed (v : BitVec 32) (s : State) : (handNoticeConsumer v s).fixed = s.fixed := by
  unfold handNoticeConsumer
  try dsimp only
  (repeat' split) <;> simp

@[simp] theorem takeWord_fixed (w i : Nat) (ps : List (Nat × Byte)) (s : State) : (takeWord w i ps s).fixed = s.fixed := by
  cases ps with
  | nil => rfl
  | cons p ps =>
    by_cases h0 : w = 0
    · subst h0; rw [takeWord_producer, handProducer_fixed]
    by_cases h3 : w = 3
    · subst h3; rw [takeWord_noticeConsumer, handNoticeConsumer_fixed]
    by_cases h5 : w = 5
    · subst h5; rw [takeWord_dueConsumer, handDueConsumer_fixed]
    rw [takeWord_other w i h0 h3 h5]

@[simp] theorem finishWrite_fixed (i : Nat) (j : Initiator) (a : Nat) (w : WriteWork) (s : State) : (finishWrite i j a w s).fixed = s.fixed := by
  unfold finishWrite
  try dsimp only
  (repeat' split) <;> simp

@[simp] theorem completeReadPart_fixed (i k : Nat) (s : State) : (completeReadPart i k s).fixed = s.fixed := by
  unfold completeReadPart
  try dsimp only
  (repeat' split) <;> simp

@[simp] theorem readArrived_fixed (i : Nat) (d : List Byte) (s : State) : (readArrived i d s).fixed = s.fixed := by
  unfold readArrived
  (repeat' split) <;>
    first
    | with_reducible rfl
    | exact foldl_keeps_from State.fixed _ (fun s n => by (try split) <;> simp) _ _ _ (by simp)
    | exact foldl_keeps_from State.fixed _ (fun s n => by (try split) <;> simp) _ _ _ (by with_reducible rfl)

@[simp] theorem releasePart_fixed (o : ReadOwner) (s : State) : (releasePart o s).fixed = s.fixed := by
  unfold releasePart
  try dsimp only
  (repeat' split) <;> simp

@[simp] theorem readFailed_fixed (i : Nat) (s : State) : (readFailed i s).fixed = s.fixed := by
  unfold readFailed
  (repeat' split) <;>
    first
    | with_reducible rfl
    | exact foldl_keeps_from State.fixed _ (fun s n => by (try split) <;> simp) _ _ _ (by simp)
    | exact foldl_keeps_from State.fixed _ (fun s n => by (try split) <;> simp) _ _ _ (by with_reducible rfl)

@[simp] theorem rejudgePart_fixed (i k : Nat) (s : State) : (rejudgePart i k s).fixed = s.fixed := by
  unfold rejudgePart
  try dsimp only
  (repeat' split) <;> simp

@[simp] theorem settle_fixed (s : State) : (settle s).fixed = s.fixed := by
  unfold settle
  try dsimp only
  (repeat' split) <;> simp

@[simp] theorem takeOffer_fixed (e : CalEntry) (s : State) : (takeOffer e s).fixed = s.fixed := by
  unfold takeOffer
  try dsimp only
  (repeat' split) <;> simp

@[simp] theorem takeGrace_fixed (e : CalEntry) (s : State) : (takeGrace e s).fixed = s.fixed := by
  unfold takeGrace
  try dsimp only
  (repeat' split) <;> simp

@[simp] theorem expireQuiet_fixed (c : Nat) (t : QuietTimer) (s : State) : (expireQuiet c t s).fixed = s.fixed := by
  unfold expireQuiet
  try dsimp only
  (repeat' split) <;> simp

@[simp] theorem offerFault_fixed (a : Access) (s : State) : (offerFault a s).fixed = s.fixed := by
  unfold offerFault
  try dsimp only
  (repeat' split) <;> simp

@[simp] theorem dueFault_fixed (a : Access) (s : State) : (dueFault a s).fixed = s.fixed := by
  unfold dueFault
  try dsimp only
  (repeat' split) <;> simp

@[simp] theorem restartQuietAll_fixed (s : State) : (restartQuietAll s).fixed = s.fixed := by
  unfold restartQuietAll
  (repeat' split) <;>
    first
    | with_reducible rfl
    | exact foldl_keeps_from State.fixed _ (fun s n => by (try split) <;> simp) _ _ _ (by simp)
    | exact foldl_keeps_from State.fixed _ (fun s n => by (try split) <;> simp) _ _ _ (by with_reducible rfl)

@[simp] theorem forceNext_fixed (r : List (Key × Nat)) (s : State) : (forceNext r s).fixed = s.fixed := by
  cases r with
  | nil => simp [forceNext]
  | cons p more => exact calForce_fixed p.2 s

@[simp] theorem forceDue_fixed (m t : Nat) (s : State) : (forceDue m t s).fixed = s.fixed := by
  unfold forceDue
  (repeat' split) <;> (try simp)
  all_goals exact foldl_keeps_from State.fixed _ (fun s n => by simp) _ _ _ rfl

@[simp] theorem descriptorArrived_fixed (d : List Byte) (s : State) : (descriptorArrived d s).fixed = s.fixed := by
  unfold descriptorArrived
  try dsimp only
  (repeat' split) <;> simp

@[simp] theorem descriptorFailed_fixed (s : State) : (descriptorFailed s).fixed = s.fixed := by
  unfold descriptorFailed
  try dsimp only
  (repeat' split) <;> simp

@[simp] theorem admitEnded_fixed (b : Bool) (s : State) : (admitEnded b s).fixed = s.fixed := by
  unfold admitEnded
  try dsimp only
  (repeat' split) <;> simp

@[simp] theorem releaseEnded_fixed (b : Bool) (s : State) : (releaseEnded b s).fixed = s.fixed := by
  unfold releaseEnded
  try dsimp only
  (repeat' split) <;> simp

@[simp] theorem applyPolicy_fixed (c : Nat) (p : Policy) (s : State) : (applyPolicy c p s).fixed = s.fixed := by
  unfold applyPolicy
  try dsimp only
  (repeat' split) <;> simp

@[simp] theorem policyArrived_fixed (c : Nat) (d : List Byte) (s : State) : (policyArrived c d s).fixed = s.fixed := by
  unfold policyArrived
  try dsimp only
  (repeat' split) <;> simp

@[simp] theorem policyReadEnded_fixed (d : Option (List Byte)) (s : State) : (policyReadEnded d s).fixed = s.fixed := by
  unfold policyReadEnded
  try dsimp only
  (repeat' split) <;> simp

@[simp] theorem channelWriteEnded_fixed (b : Bool) (s : State) : (channelWriteEnded b s).fixed = s.fixed := by
  unfold channelWriteEnded
  try dsimp only
  (repeat' split) <;> simp

@[simp] theorem trialReadEnded_fixed (d : Option (List Byte)) (s : State) : (trialReadEnded d s).fixed = s.fixed := by
  unfold trialReadEnded
  try dsimp only
  (repeat' split) <;> simp

@[simp] theorem trialWriteEnded_fixed (b : Bool) (s : State) : (trialWriteEnded b s).fixed = s.fixed := by
  unfold trialWriteEnded
  try dsimp only
  (repeat' split) <;> simp

@[simp] theorem copyWriteEnded_fixed (b : Bool) (s : State) : (copyWriteEnded b s).fixed = s.fixed := by
  unfold copyWriteEnded
  try dsimp only
  (repeat' split) <;> simp

@[simp] theorem identifyWriteEnded_fixed (b : Bool) (s : State) : (identifyWriteEnded b s).fixed = s.fixed := by
  unfold identifyWriteEnded
  try dsimp only
  (repeat' split) <;> simp

@[simp] theorem mirrorWriteEnded_fixed (b : Bool) (s : State) : (mirrorWriteEnded b s).fixed = s.fixed := by
  unfold mirrorWriteEnded
  try dsimp only
  (repeat' split) <;> simp

@[simp] theorem resultWriteEnded_fixed (b : Bool) (s : State) : (resultWriteEnded b s).fixed = s.fixed := by
  unfold resultWriteEnded
  try dsimp only
  (repeat' split) <;> simp

@[simp] theorem statusWriteEnded_fixed (b : Bool) (s : State) : (statusWriteEnded b s).fixed = s.fixed := by
  unfold statusWriteEnded
  try dsimp only
  (repeat' split) <;> simp

@[simp] theorem indexWriteEnded_fixed (b : Bool) (s : State) : (indexWriteEnded b s).fixed = s.fixed := by
  unfold indexWriteEnded
  try dsimp only
  (repeat' split) <;> simp

/-! ## The update queue -/

@[simp] theorem calRebase_queue (s : State) : (calRebase s).queue = s.queue := rfl

@[simp] theorem notify_queue (n : Notice) (s : State) : (notify n s).queue = s.queue := by
  unfold notify
  try dsimp only
  (repeat' split) <;> simp

@[simp] theorem notifyAll_queue (ns : List Notice) (s : State) : (notifyAll ns s).queue = s.queue := by
  exact foldl_keeps State.queue _ (fun s n => by simp) _ _

@[simp] theorem memoryFault_queue (a : FaultAccess) (k : Key) (d : Nat) (s : State) : (memoryFault a k d s).queue = s.queue := by
  unfold memoryFault
  try dsimp only
  (repeat' split) <;> simp

@[simp] theorem completePart_queue (s : State) (id k : Nat) (f : Nat → Byte → Byte) : (s.completePart id k f).queue = s.queue := by
  unfold State.completePart
  try dsimp only
  (repeat' split) <;> simp

@[simp] theorem answerWith_queue (fs : List (Nat × List Byte)) (st : Status) (s : State) : (answerWith fs st s).queue = s.queue := by
  unfold answerWith
  split
  · simp
  · exact foldl_keeps_from State.queue _ (fun s n => by simp) _ _ _ rfl

@[simp] theorem calHeard_queue (i : Nat) (t : Tick) (s : State) : (calHeard i t s).queue = s.queue := by
  unfold calHeard
  try dsimp only
  (repeat' split) <;> simp

@[simp] theorem calReclass_queue (i : Nat) (c : PeriodClass) (s : State) : (calReclass i c s).queue = s.queue := by
  unfold calReclass
  try dsimp only
  (repeat' split) <;> simp

@[simp] theorem calClass_queue (i : Nat) (c : PeriodClass) (s : State) : (calClass i c s).queue = s.queue := by
  unfold calClass
  try dsimp only
  (repeat' split) <;> simp

@[simp] theorem calForce_queue (i : Nat) (s : State) : (calForce i s).queue = s.queue := by
  unfold calForce
  try dsimp only
  (repeat' split) <;> simp

@[simp] theorem touch_queue (e : Nat) (s : State) : (touch e s).queue = s.queue := by
  unfold touch
  try dsimp only
  (repeat' split) <;> simp

@[simp] theorem touchFor_queue (w : Requester) (e : Nat) (s0 s : State) : (touchFor w e s0 s).queue = s.queue := by
  unfold touchFor
  (repeat' split) <;> simp

@[simp] theorem invalidate_queue (e : Nat) (s : State) : (invalidate e s).queue = s.queue := by
  unfold invalidate
  try dsimp only
  (repeat' split) <;> simp

@[simp] theorem markJob_queue (i : Nat) (k : Key) (c : LossCause) (s : State) : (markJob i k c s).queue = s.queue := by
  unfold markJob
  try dsimp only
  (repeat' split) <;> simp

@[simp] theorem cancelIfEnded_queue (e : Nat) (s : State) : (cancelIfEnded e s).queue = s.queue := by
  unfold cancelIfEnded
  try dsimp only
  (repeat' split) <;> simp

@[simp] theorem modifyImage_queue (e : Nat) (f : Context → Context) (s : State) : (modifyImage e f s).queue = s.queue := by
  unfold modifyImage
  try dsimp only
  (repeat' split) <;> simp

@[simp] theorem startFetch_queue (e i : Nat) (k : Key) (s : State) : (startFetch e i k s).queue = s.queue := by
  unfold startFetch
  try dsimp only
  (repeat' split) <;> simp

@[simp] theorem passOn_queue (e : Nat) (s : State) : (passOn e s).queue = s.queue := by
  unfold passOn
  try dsimp only
  (repeat' split) <;> simp

@[simp] theorem releaseHold_queue (i : Nat) (k : Key) (s : State) : (releaseHold i k s).queue = s.queue := by
  unfold releaseHold
  try dsimp only
  (repeat' split) <;> simp

theorem place_queue (i : Nat) (k : Key) (s t : State) (h : place i k s = some t) : t.queue = s.queue := by
  unfold place at h
  split at h
  · cases h; simp
  · split at h
    · cases h
    · split at h <;> cases h <;> simp

@[simp] theorem requestFresh_queue (w : Requester) (i : Nat) (k : Key) (s : State) : (requestFresh w i k s).queue = s.queue := by
  unfold requestFresh
  split
  · simp
  · simp only []
    split
    · simp
    · cases hp : place i k (addReq w i k .list s) with
      | none => simp
      | some t => simp [place_queue _ _ _ _ hp]

@[simp] theorem request_queue (w : Requester) (i : Nat) (k : Key) (s : State) : (request w i k s).queue = s.queue := by
  unfold request
  try dsimp only
  (repeat' split) <;> simp

@[simp] theorem holdClass_queue (i : Nat) (a b : Context) (s : State) : (holdClass i a b s).queue = s.queue := by
  unfold holdClass
  try dsimp only
  (repeat' split) <;> simp

@[simp] theorem takeOperatorWrite_queue (e : Nat) (bs : List (Nat × Byte)) (s : State) : (takeOperatorWrite e bs s).queue = s.queue := by
  unfold takeOperatorWrite
  try dsimp only
  (repeat' split) <;> simp

@[simp] theorem reconcileHold_queue (e : Nat) (s : State) : (reconcileHold e s).queue = s.queue := by
  unfold reconcileHold
  try dsimp only
  (repeat' split) <;> simp

@[simp] theorem operatorWrite_queue (i : Nat) (k : Key) (t : Nat) (bs : List (Nat × Byte)) (s : State) : (operatorWrite i k t bs s).queue = s.queue := by
  unfold operatorWrite
  try dsimp only
  (repeat' split) <;> simp

@[simp] theorem unpin_queue (s : State) : (unpin s).queue = s.queue := by
  unfold unpin
  try dsimp only
  (repeat' split) <;> simp

@[simp] theorem discardJob_queue (j : Job) (c : LossCause) (s : State) : (discardJob j c s).queue = s.queue := by
  unfold discardJob
  try dsimp only
  (repeat' split) <;> simp

@[simp] theorem handOver_queue (i e : Nat) (h : HandOver) (s : State) : (handOver i e h s).queue = s.queue := by
  unfold handOver
  try dsimp only
  (repeat' split) <;> simp

@[simp] theorem applyJob_queue (j : Job) (sn : Snapshot) (e : Nat) (s : State) : (applyJob j sn e s).queue = s.queue := by
  unfold applyJob
  try dsimp only
  (repeat' split) <;> simp

@[simp] theorem finishTrial_queue (j : Job) (r : Bool) (sn : Snapshot) (s : State) : (finishTrial j r sn s).queue = s.queue := by
  unfold finishTrial
  try dsimp only
  (repeat' split) <;> simp

@[simp] theorem giveEngine_queue (s : State) : (giveEngine s).queue = s.queue := by
  unfold giveEngine
  try dsimp only
  (repeat' split) <;> simp

@[simp] theorem abandonEngine_queue (s : State) : (abandonEngine s).queue = s.queue := by
  unfold abandonEngine
  try dsimp only
  (repeat' split) <;> simp

@[simp] theorem completeJob_queue (s : State) : (completeJob s).queue = s.queue := by
  unfold completeJob
  try dsimp only
  (repeat' split) <;> simp

@[simp] theorem takeHeader_queue (n : Nat) (ps : List (Nat × Byte)) (s : State) : (takeHeader n ps s).queue = s.queue := by
  unfold takeHeader
  try dsimp only
  (repeat' split) <;> simp

@[simp] theorem releaseHeld_queue (n : Nat) (s : State) : (releaseHeld n s).queue = s.queue := by
  unfold releaseHeld
  split
  · rfl
  · exact foldl_keeps_from State.queue _ (fun s n => by simp) _ _ _ (by simp)

@[simp] theorem startPromotion_queue (s : State) : (startPromotion s).queue = s.queue := by
  unfold startPromotion
  try dsimp only
  (repeat' split) <;> simp

@[simp] theorem deliver_queue (n : Nat) (s : State) : (deliver n s).queue = s.queue := by
  unfold deliver
  try dsimp only
  (repeat' split) <;> simp

@[simp] theorem promoteOn_queue (p : Promotion) (e : Nat) (s : State) : (promoteOn p e s).queue = s.queue := by
  unfold promoteOn
  try dsimp only
  (repeat' split) <;> simp

@[simp] theorem nextPromotion_queue (n : Nat) (s : State) : (nextPromotion n s).queue = s.queue := by
  unfold nextPromotion
  try dsimp only
  (repeat' split) <;> simp

@[simp] theorem givePromotion_queue (s : State) : (givePromotion s).queue = s.queue := by
  unfold givePromotion
  try dsimp only
  (repeat' split) <;> simp

@[simp] theorem abandonPromotion_queue (s : State) : (abandonPromotion s).queue = s.queue := by
  unfold abandonPromotion
  try dsimp only
  (repeat' split) <;> simp

@[simp] theorem patchSlot_queue (n id k : Nat) (s : State) : (patchSlot n id k s).queue = s.queue := by
  unfold patchSlot
  try dsimp only
  (repeat' split) <;> simp

@[simp] theorem answerWaiting_queue (n : Nat) (s : State) : (answerWaiting n s).queue = s.queue := by
  unfold answerWaiting
  dsimp only
  rw [releaseHeld_queue]
  exact foldl_keeps_from State.queue _ (fun s n => by simp) _ _ _ (by simp)

@[simp] theorem readSlot_queue (n id k : Nat) (s : State) : (readSlot n id k s).queue = s.queue := by
  unfold readSlot
  try dsimp only
  (repeat' split) <;> simp

@[simp] theorem giveSlot_queue (n : Nat) (s : State) : (giveSlot n s).queue = s.queue := by
  unfold giveSlot
  try dsimp only
  (repeat' split) <;> simp

@[simp] theorem abandonSlot_queue (n : Nat) (s : State) : (abandonSlot n s).queue = s.queue := by
  unfold abandonSlot
  try dsimp only
  (repeat' split) <;> simp

@[simp] theorem startLapse_queue (s : State) : (startLapse s).queue = s.queue := by
  unfold startLapse
  try dsimp only
  (repeat' split) <;> simp

@[simp] theorem applyLapse_queue (l : Lapse) (e : Nat) (s : State) : (applyLapse l e s).queue = s.queue := by
  unfold applyLapse
  try dsimp only
  (repeat' split) <;> simp

@[simp] theorem giveLapse_queue (s : State) : (giveLapse s).queue = s.queue := by
  unfold giveLapse
  try dsimp only
  (repeat' split) <;> simp

@[simp] theorem abandonLapse_queue (s : State) : (abandonLapse s).queue = s.queue := by
  unfold abandonLapse
  try dsimp only
  (repeat' split) <;> simp

@[simp] theorem releaseEntry_queue (i : Nat) (s : State) : (releaseEntry i s).queue = s.queue := by
  unfold releaseEntry
  try dsimp only
  (repeat' split) <;> simp

@[simp] theorem drainRelease_queue (i : Nat) (s : State) : (drainRelease i s).queue = s.queue := by
  unfold drainRelease
  try dsimp only
  (repeat' split) <;> simp

@[simp] theorem reviveNext_queue (r : List (Key × Nat)) (f : Bool) (s : State) : (reviveNext r f s).queue = s.queue := by
  induction r generalizing s with
  | nil => unfold reviveNext; simp
  | cons x r ih =>
    obtain ⟨k, i⟩ := x
    unfold reviveNext
    split
    · exact ih s
    · simp

@[simp] theorem giveRevive_queue (s : State) : (giveRevive s).queue = s.queue := by
  unfold giveRevive
  try dsimp only
  (repeat' split) <;> simp

@[simp] theorem abandonRevive_queue (s : State) : (abandonRevive s).queue = s.queue := by
  unfold abandonRevive
  try dsimp only
  (repeat' split) <;> simp

@[simp] theorem finishCopies_queue (w : CopyWork) (st : Status) (s : State) : (finishCopies w st s).queue = s.queue := by
  unfold finishCopies
  try dsimp only
  (repeat' split) <;> simp

@[simp] theorem copyNext_queue (w : CopyWork) (s : State) : (copyNext w s).queue = s.queue := by
  unfold copyNext
  try dsimp only
  (repeat' split) <;> simp

@[simp] theorem giveCopy_queue (s : State) : (giveCopy s).queue = s.queue := by
  unfold giveCopy
  try dsimp only
  (repeat' split) <;> simp

@[simp] theorem abandonCopy_queue (s : State) : (abandonCopy s).queue = s.queue := by
  unfold abandonCopy
  try dsimp only
  (repeat' split) <;> simp

@[simp] theorem give_queue (w : Requester) (s : State) : (give w s).queue = s.queue := by
  unfold give
  try dsimp only
  (repeat' split) <;> simp

@[simp] theorem abandon_queue (w : Requester) (s : State) : (abandon w s).queue = s.queue := by
  unfold abandon
  try dsimp only
  (repeat' split) <;> simp

@[simp] theorem giveIfReady_queue (w : Requester) (s : State) : (giveIfReady w s).queue = s.queue := by
  unfold giveIfReady
  try dsimp only
  (repeat' split) <;> simp

theorem pumpLoop_queue (n : Nat) (s : State) : (pumpLoop n s).queue = s.queue := by
  induction n generalizing s with
  | zero => rfl
  | succ n ih =>
    unfold pumpLoop
    split
    · rfl
    · split
      · rfl
      · next h => rw [ih, place_queue _ _ _ _ h]

@[simp] theorem serveList_queue (s : State) : (serveList s).queue = s.queue := by
  exact pumpLoop_queue _ _

theorem abandonLoop_queue (n : Nat) (s : State) : (abandonLoop n s).queue = s.queue := by
  induction n generalizing s with
  | zero => rfl
  | succ n ih =>
    unfold abandonLoop
    split
    · rfl
    · rw [ih]; simp

@[simp] theorem pump_queue (s : State) : (pump s).queue = s.queue := by
  unfold pump
  dsimp only
  split
  · rw [abandonLoop_queue, serveList_queue]
  · simp

@[simp] theorem completeContext_queue (i : Nat) (k : Key) (h : Bool) (id n : Nat) (s : State) : (completeContext i k h id n s).queue = s.queue := by
  unfold completeContext
  try dsimp only
  (repeat' split) <;> simp

@[simp] theorem patchWaiting_queue (i : Nat) (s : State) : (patchWaiting i s).queue = s.queue := by
  unfold patchWaiting
  (repeat' split) <;>
    first
    | with_reducible rfl
    | exact foldl_keeps_from State.queue _ (fun s n => by (try split) <;> simp) _ _ _ (by simp)
    | exact foldl_keeps_from State.queue _ (fun s n => by (try split) <;> simp) _ _ _ (by with_reducible rfl)

@[simp] theorem failWaiting_queue (i : Nat) (s : State) : (failWaiting i s).queue = s.queue := by
  unfold failWaiting
  (repeat' split) <;>
    first
    | with_reducible rfl
    | exact foldl_keeps_from State.queue _ (fun s n => by (try split) <;> simp) _ _ _ (by simp)
    | exact foldl_keeps_from State.queue _ (fun s n => by (try split) <;> simp) _ _ _ (by with_reducible rfl)

@[simp] theorem loadEntry_queue (e : Nat) (d : List Byte) (s : State) : (loadEntry e d s).queue = s.queue := by
  unfold loadEntry
  dsimp only
  rw [placeHolds_queue]
  exact foldl_keeps_from State.queue _ (fun s n => by simp) _ _ _ (by simp)

@[simp] theorem fetchArrived_queue (i : Nat) (d : List Byte) (s : State) : (fetchArrived i d s).queue = s.queue := by
  unfold fetchArrived
  split
  · rfl
  · dsimp only
    split
    · rw [patchWaiting_queue]
      exact foldl_keeps_from State.queue _ (fun s n => by simp) _ _ _ (by split <;> simp)
    · rfl

@[simp] theorem fetchFailed_queue (i : Nat) (s : State) : (fetchFailed i s).queue = s.queue := by
  unfold fetchFailed
  split
  · rfl
  · dsimp only
    split
    · rw [failWaiting_queue, startLapse_queue]
      exact foldl_keeps_from State.queue _ (fun s n => by simp) _ _ _ (by simp)
    · rfl

@[simp] theorem writeBackDone_queue (e : Nat) (s : State) : (writeBackDone e s).queue = s.queue := by
  unfold writeBackDone
  try dsimp only
  (repeat' split) <;> simp

@[simp] theorem writeBackEnded_queue (i : Nat) (k : Key) (b : Bool) (s : State) : (writeBackEnded i k b s).queue = s.queue := by
  unfold writeBackEnded
  try dsimp only
  (repeat' split) <;> simp

@[simp] theorem countTorn_queue (c : Option Nat) (s : State) : (countTorn c s).queue = s.queue := by
  unfold countTorn
  try dsimp only
  (repeat' split) <;> simp

@[simp] theorem discardAssembly_queue (w : Nat) (y : TornDetail) (s : State) : (discardAssembly w y s).queue = s.queue := by
  unfold discardAssembly
  try dsimp only
  (repeat' split) <;> simp

@[simp] theorem discardAll_queue (y : TornDetail) (s : State) : (discardAll y s).queue = s.queue := by
  unfold discardAll
  (repeat' split) <;>
    first
    | with_reducible rfl
    | exact foldl_keeps_from State.queue _ (fun s n => by (try split) <;> simp) _ _ _ (by simp)
    | exact foldl_keeps_from State.queue _ (fun s n => by (try split) <;> simp) _ _ _ (by with_reducible rfl)

@[simp] theorem signOfLife_queue (k : Key) (t : Tick) (s : State) : (signOfLife k t s).queue = s.queue := by
  unfold signOfLife
  try dsimp only
  (repeat' split) <;> simp

@[simp] theorem placeHold_queue (o : ReadOwner) (s : State) : (placeHold o s).queue = s.queue := by
  unfold placeHold
  try dsimp only
  (repeat' split) <;> simp

@[simp] theorem handProducer_queue (i : Nat) (v : BitVec 32) (s : State) : (handProducer i v s).queue = s.queue := by
  unfold handProducer
  try dsimp only
  (repeat' split) <;> simp

@[simp] theorem handNoticeConsumer_queue (v : BitVec 32) (s : State) : (handNoticeConsumer v s).queue = s.queue := by
  unfold handNoticeConsumer
  try dsimp only
  (repeat' split) <;> simp

@[simp] theorem takeWord_queue (w i : Nat) (ps : List (Nat × Byte)) (s : State) : (takeWord w i ps s).queue = s.queue := by
  cases ps with
  | nil => rfl
  | cons p ps =>
    by_cases h0 : w = 0
    · subst h0; rw [takeWord_producer, handProducer_queue]
    by_cases h3 : w = 3
    · subst h3; rw [takeWord_noticeConsumer, handNoticeConsumer_queue]
    by_cases h5 : w = 5
    · subst h5; rw [takeWord_dueConsumer, handDueConsumer_queue]
    rw [takeWord_other w i h0 h3 h5]

@[simp] theorem finishWrite_queue (i : Nat) (j : Initiator) (a : Nat) (w : WriteWork) (s : State) : (finishWrite i j a w s).queue = s.queue := by
  unfold finishWrite
  try dsimp only
  (repeat' split) <;> simp

@[simp] theorem completeReadPart_queue (i k : Nat) (s : State) : (completeReadPart i k s).queue = s.queue := by
  unfold completeReadPart
  try dsimp only
  (repeat' split) <;> simp

@[simp] theorem readArrived_queue (i : Nat) (d : List Byte) (s : State) : (readArrived i d s).queue = s.queue := by
  unfold readArrived
  (repeat' split) <;>
    first
    | with_reducible rfl
    | exact foldl_keeps_from State.queue _ (fun s n => by (try split) <;> simp) _ _ _ (by simp)
    | exact foldl_keeps_from State.queue _ (fun s n => by (try split) <;> simp) _ _ _ (by with_reducible rfl)

@[simp] theorem releasePart_queue (o : ReadOwner) (s : State) : (releasePart o s).queue = s.queue := by
  unfold releasePart
  try dsimp only
  (repeat' split) <;> simp

@[simp] theorem readFailed_queue (i : Nat) (s : State) : (readFailed i s).queue = s.queue := by
  unfold readFailed
  (repeat' split) <;>
    first
    | with_reducible rfl
    | exact foldl_keeps_from State.queue _ (fun s n => by (try split) <;> simp) _ _ _ (by simp)
    | exact foldl_keeps_from State.queue _ (fun s n => by (try split) <;> simp) _ _ _ (by with_reducible rfl)

@[simp] theorem rejudgePart_queue (i k : Nat) (s : State) : (rejudgePart i k s).queue = s.queue := by
  unfold rejudgePart
  try dsimp only
  (repeat' split) <;> simp

@[simp] theorem settle_queue (s : State) : (settle s).queue = s.queue := by
  unfold settle
  try dsimp only
  (repeat' split) <;> simp

@[simp] theorem takeOffer_queue (e : CalEntry) (s : State) : (takeOffer e s).queue = s.queue := by
  unfold takeOffer
  try dsimp only
  (repeat' split) <;> simp

@[simp] theorem takeGrace_queue (e : CalEntry) (s : State) : (takeGrace e s).queue = s.queue := by
  unfold takeGrace
  try dsimp only
  (repeat' split) <;> simp

@[simp] theorem expireQuiet_queue (c : Nat) (t : QuietTimer) (s : State) : (expireQuiet c t s).queue = s.queue := by
  unfold expireQuiet
  try dsimp only
  (repeat' split) <;> simp

@[simp] theorem offerFault_queue (a : Access) (s : State) : (offerFault a s).queue = s.queue := by
  unfold offerFault
  try dsimp only
  (repeat' split) <;> simp

@[simp] theorem dueFault_queue (a : Access) (s : State) : (dueFault a s).queue = s.queue := by
  unfold dueFault
  try dsimp only
  (repeat' split) <;> simp

@[simp] theorem restartQuietAll_queue (s : State) : (restartQuietAll s).queue = s.queue := by
  unfold restartQuietAll
  (repeat' split) <;>
    first
    | with_reducible rfl
    | exact foldl_keeps_from State.queue _ (fun s n => by (try split) <;> simp) _ _ _ (by simp)
    | exact foldl_keeps_from State.queue _ (fun s n => by (try split) <;> simp) _ _ _ (by with_reducible rfl)

@[simp] theorem forceNext_queue (r : List (Key × Nat)) (s : State) : (forceNext r s).queue = s.queue := by
  cases r with
  | nil => simp [forceNext]
  | cons p more => exact calForce_queue p.2 s

@[simp] theorem forceDue_queue (m t : Nat) (s : State) : (forceDue m t s).queue = s.queue := by
  unfold forceDue
  (repeat' split) <;> (try simp)
  all_goals exact foldl_keeps_from State.queue _ (fun s n => by simp) _ _ _ rfl

@[simp] theorem descriptorArrived_queue (d : List Byte) (s : State) : (descriptorArrived d s).queue = s.queue := by
  unfold descriptorArrived
  try dsimp only
  (repeat' split) <;> simp

@[simp] theorem descriptorFailed_queue (s : State) : (descriptorFailed s).queue = s.queue := by
  unfold descriptorFailed
  try dsimp only
  (repeat' split) <;> simp

@[simp] theorem admitEnded_queue (b : Bool) (s : State) : (admitEnded b s).queue = s.queue := by
  unfold admitEnded
  try dsimp only
  (repeat' split) <;> simp

@[simp] theorem applyPolicy_queue (c : Nat) (p : Policy) (s : State) : (applyPolicy c p s).queue = s.queue := by
  unfold applyPolicy
  try dsimp only
  (repeat' split) <;> simp

@[simp] theorem policyArrived_queue (c : Nat) (d : List Byte) (s : State) : (policyArrived c d s).queue = s.queue := by
  unfold policyArrived
  try dsimp only
  (repeat' split) <;> simp

@[simp] theorem policyReadEnded_queue (d : Option (List Byte)) (s : State) : (policyReadEnded d s).queue = s.queue := by
  unfold policyReadEnded
  try dsimp only
  (repeat' split) <;> simp

@[simp] theorem channelWriteEnded_queue (b : Bool) (s : State) : (channelWriteEnded b s).queue = s.queue := by
  unfold channelWriteEnded
  try dsimp only
  (repeat' split) <;> simp

@[simp] theorem trialWriteEnded_queue (b : Bool) (s : State) : (trialWriteEnded b s).queue = s.queue := by
  unfold trialWriteEnded
  try dsimp only
  (repeat' split) <;> simp

@[simp] theorem copyWriteEnded_queue (b : Bool) (s : State) : (copyWriteEnded b s).queue = s.queue := by
  unfold copyWriteEnded
  try dsimp only
  (repeat' split) <;> simp

@[simp] theorem identifyWriteEnded_queue (b : Bool) (s : State) : (identifyWriteEnded b s).queue = s.queue := by
  unfold identifyWriteEnded
  try dsimp only
  (repeat' split) <;> simp

@[simp] theorem mirrorWriteEnded_queue (b : Bool) (s : State) : (mirrorWriteEnded b s).queue = s.queue := by
  unfold mirrorWriteEnded
  try dsimp only
  (repeat' split) <;> simp

@[simp] theorem resultWriteEnded_queue (b : Bool) (s : State) : (resultWriteEnded b s).queue = s.queue := by
  unfold resultWriteEnded
  try dsimp only
  (repeat' split) <;> simp

@[simp] theorem statusWriteEnded_queue (b : Bool) (s : State) : (statusWriteEnded b s).queue = s.queue := by
  unfold statusWriteEnded
  try dsimp only
  (repeat' split) <;> simp

@[simp] theorem indexWriteEnded_queue (b : Bool) (s : State) : (indexWriteEnded b s).queue = s.queue := by
  unfold indexWriteEnded
  try dsimp only
  (repeat' split) <;> simp

end Sys2Proof.Machine
end

