-- ==== Sys2Proof/Laws/Passage.lean ====
section
/-!
SUPPORT. What the passage of one transaction does to a part at rest: it is taken and handled alone (R159, R168), and
what completes is returned alone.
-/

namespace Sys2Proof.Machine

/-! ## The take -/

/-- Changing the last open transaction changes no other (R168). -/
theorem modifyTxn_last {s : State} {ts : List Txn} {t : Txn} (h : s.txns = ts ++ [t]) (hi : ∀ x ∈ ts, x.id ≠ t.id)
    (f : Txn → Txn) : s.modifyTxn t.id f = { s with txns := ts ++ [f t] } := by
  have rest : ts.map (fun x => if x.id = t.id then f x else x) = ts := by
    conv => rhs; rw [← List.map_id ts]
    exact List.map_congr_left fun x hx => by simp [hi x hx]
  simp [State.modifyTxn, h, rest]

/-- The open transactions go on with nothing to do but for the one taken last, after which the port grants (R168). -/
theorem advance_last {s : State} {ts : List Txn} {t : Txn} (h : s.txns = ts ++ [t])
    (hh : ∀ x ∈ ts, x.handled = true) (ht : t.handled = false) (hi : ∀ x ∈ ts, x.id ≠ t.id) :
    advance s = grantAll (handleTxn t s) := by
  have find : ∀ x ∈ ts, ∃ y, s.txn x.id = some y ∧ y.handled = true := by
    intro x hx
    cases hf : s.txns.find? (fun y => y.id == x.id) with
    | none => simpa using List.find?_eq_none.1 hf x (by rw [h]; simp [hx])
    | some y =>
      have h2 := List.mem_of_find?_eq_some hf
      rw [h] at h2
      rcases List.mem_append.1 h2 with h3 | h3
      · exact ⟨y, hf, hh y h3⟩
      · simp only [List.mem_singleton] at h3
        subst h3
        exact absurd (by simpa using List.find?_some hf) fun e : y.id = x.id => hi x hx e.symm
  have skip : ∀ us : List Txn, (∀ x ∈ us, x ∈ ts) → (us.map fun t => t.id).foldl advanceOne (s, []) = (s, []) := by
    intro us
    induction us with
    | nil => intro _; rfl
    | cons u us ih =>
      intro hu
      obtain ⟨y, hy, hyh⟩ := find u (hu u (by simp))
      have : advanceOne (s, []) u.id = (s, []) := by simp [advanceOne, hy, hyh]
      rw [List.map_cons, List.foldl_cons, this]
      exact ih fun x hx => hu x (by simp [hx])
  have hl : s.txn t.id = some t := by
    have : ts.find? (fun y => y.id == t.id) = none := by
      rw [List.find?_eq_none]; intro x hx; simpa using hi x hx
    simp [State.txn, h, List.find?_append, this]
  rw [show advance s = ((s.txns.map fun t => t.id).foldl advanceOne (s, [])).1 from rfl, h, List.map_append, List.foldl_append, skip ts (fun _ hx => hx)]
  simp only [List.map_cons, List.map_nil, List.foldl_cons, List.foldl_nil, advanceOne, hl, ht]
  simp only [List.not_mem_nil, Bool.false_eq_true, or_false, if_false]
  split <;> rfl

/-- A transaction that reaches a part at rest with room is taken at once (R159). -/
theorem arrive_taken {s : State} (h : s.Steady) (hl : s.txns.length < Config.openLimit) (p : PortTxn) :
    drainPort (settle (arrive p s)) = settle (advance (takeTxn p s)) := by
  have pumped : pump (arrive p s) = arrive p s := by
    obtain ⟨e, he, hf⟩ := h.sound
    have : (arrive p s).allFaulted = false := by
      unfold State.allFaulted
      rw [List.all_eq_false]
      exact ⟨e, by simpa using he, by rw [show (arrive p s).entry e = s.entry e from rfl, hf]; simp⟩
    simp [pump, serveList, pumpLoop_quiet _ (s := arrive p s) h.requests, this]
  have port : (arrive p s).atPort = [p] := by simp [arrive, h.port]
  have room : (arrive p s).txns.length < Config.openLimit := hl
  have back : ({ arrive p s with atPort := [] } : State) = s := by rw [← h.port]; rfl
  rw [settle, pumped, flush_quiet (s := arrive p s) h.unanswered]
  simp only [drainPort, port, List.length_singleton, drainLoop, room, if_true, back]

/-- A transaction that reaches a part with none free waits at the port (R159). -/
theorem arrive_waits {s : State} (h : s.Steady) (hl : ¬ s.txns.length < Config.openLimit) (p : PortTxn) :
    drainPort (settle (arrive p s)) = { s with atPort := [p] } := by
  have pumped : pump (arrive p s) = arrive p s := by
    obtain ⟨e, he, hf⟩ := h.sound
    have : (arrive p s).allFaulted = false := by
      unfold State.allFaulted
      rw [List.all_eq_false]
      exact ⟨e, by simpa using he, by rw [show (arrive p s).entry e = s.entry e from rfl, hf]; simp⟩
    simp [pump, serveList, pumpLoop_quiet _ (s := arrive p s) h.requests, this]
  have port : (arrive p s).atPort = [p] := by simp [arrive, h.port]
  have full : ¬ (arrive p s).txns.length < Config.openLimit := hl
  rw [settle, pumped, flush_quiet (s := arrive p s) h.unanswered]
  simp only [drainPort, port, List.length_singleton, drainLoop, full, if_false]
  simp [arrive, h.port]

/-- The state in which the parts of a write just taken are handled. -/
def State.taking (s : State) (init : Initiator) (addr : Nat) (bytes : List WByte) : State :=
  { s with
    takes := s.takes + 1
    txns := s.txns
      ++ [⟨s.takes, init, addr, s.run, .write (s.partsOf addr bytes.length) bytes 0 none, false, none, false⟩] }

/-- A write that reaches a part at rest and whose parts are all handled with no byte dropped goes out as its owners
left it; what its owners did is all that changes (R159, R160). -/
theorem write_taken {s s1 : State} {init : Initiator} {addr : Nat} {bytes out : List WByte} {k : Option Key}
    (h : s.Steady) (hl : s.txns.length < Config.openLimit)
    (hp : handleParts s.run s.takes (s.partsOf addr bytes.length) ⟨s.partsOf addr bytes.length, bytes, 0, none⟩
        (s.taking init addr bytes) = (⟨[], out, 0, k⟩, s1))
    (ht : s1.txns = (s.taking init addr bytes).txns)
    (hq : ({ s1 with txns := s.txns } : State).Quiet) :
    ∃ m, cacheEvent s (arrive (.write init addr bytes)) = .next { s1 with
          txns := s.txns ++ [⟨s.takes, init, addr, s.run, .write [] out 0 k, true, none, false⟩], mem := m }
      ∧ s1.mem.gains m [⟨.passing s.takes, addr, .write out⟩] := by
  obtain ⟨m, hm, hg⟩ := event_next h.running fun x => drainPort (settle (arrive (.write init addr bytes) x))
  have ids : ∀ x ∈ s.txns, x.id ≠ s.takes := fun x hx => Nat.ne_of_lt (h.numbered x hx)
  rw [arrive_taken h hl] at hm hg
  have taken : takeTxn (.write init addr bytes) s = s.taking init addr bytes := rfl
  rw [taken, advance_last (ts := s.txns) rfl h.handled rfl ids] at hm hg
  simp only [handleTxn, hp, finishWrite, Nat.lt_irrefl, if_false, false_and] at hm hg
  rw [modifyTxn_last (ts := s.txns) (t := ⟨s.takes, init, addr, s.run,
    .write (s.partsOf addr bytes.length) bytes 0 none, false, none, false⟩) ht ids] at hm hg
  obtain ⟨m0, hm0, hg0⟩ := grantAll_eq (({ s1 with
      txns := s.txns ++ [(⟨s.takes, init, addr, s.run, .write [] out 0 k, true, none, false⟩ : Txn)] } : State).pass
      s.takes init addr (.write out))
  rw [hm0] at hm hg
  have unanswered : ∀ t ∈ s.txns ++ [(⟨s.takes, init, addr, s.run, .write [] out 0 k, true, none, false⟩ : Txn)],
      t.result = none ∧ t.responded = false := by
    intro t hx
    rcases List.mem_append.1 hx with hx | hx
    · exact h.unanswered t hx
    · simp only [List.mem_singleton] at hx; subst hx; simp
  have quiet : ({ ({ s1 with
      txns := s.txns ++ [(⟨s.takes, init, addr, s.run, .write [] out 0 k, true, none, false⟩ : Txn)] } : State).pass
      s.takes init addr (.write out) with mem := m0 } : State).Quiet := ⟨hq.port, hq.requests, hq.sound, unanswered⟩
  rw [settle, pump_quiet quiet, flush_quiet quiet.unanswered] at hm hg
  exact ⟨m, hm, by simpa using MemPort.gains_trans (MemPort.gains_trans (pass_gains _ _ _ _ _) hg0) hg⟩

/-- Bytes of one owner are one part (R159). -/
theorem partsFrom_run {own : Nat → Owner × Nat} {o : Owner} {n i : Nat} (hn : 0 < n)
    (h : ∀ k, k < n → (own (i + k)).1 = o) : partsFrom own n i = [⟨o, i, n, (own i).2⟩] := by
  induction n generalizing i with
  | zero => omega
  | succ n ih =>
    have h0 : (own i).1 = o := h 0 (by omega)
    unfold partsFrom
    cases n with
    | zero => simp [partsFrom, h0]
    | succ n =>
      rw [ih (by omega) fun k hk => by simpa [Nat.add_assoc, Nat.add_comm 1 k] using h (k + 1) (by omega)]
      simp [h0]

/-- A transaction whose bytes lie in one unit of one owner is one part (R159). -/
theorem partsOf_run {s : State} {addr len off : Nat} {o : Owner} (hn : 0 < len)
    (h : ∀ i, i < len → s.ownerOf (addr + i) = (o, off + i)) : s.partsOf addr len = [⟨o, 0, len, off⟩] := by
  have run : ∀ own : Nat → Owner × Nat, (∀ i, i < len → own i = (o, off + i)) →
      partsFrom own len 0 = [⟨o, 0, len, off⟩] := fun own ho => by
    rw [partsFrom_run (o := o) hn fun k hk => by rw [Nat.zero_add, ho k hk], ho 0 hn, Nat.add_zero]
  exact run (fun i => s.ownerOf (addr + i)) h

/-- A write of one part that its owner handles, dropping no byte, goes out as the owner left it (R159, R160). -/
theorem write_taken_part {s : State} {init : Initiator} {addr : Nat} {bytes : List WByte} {p : Part} {o : PartOutcome}
    (h : s.Steady) (hl : s.txns.length < Config.openLimit) (hp : s.partsOf addr bytes.length = [p])
    (ho : handlePart s.run s.takes p bytes (s.taking init addr bytes) = some o) (hd : o.dropped = 0) (hk : o.key = none)
    (ht : o.state.txns = (s.taking init addr bytes).txns) (hq : ({ o.state with txns := s.txns } : State).Quiet) :
    ∃ m, cacheEvent s (arrive (.write init addr bytes)) = .next { o.state with
          txns := s.txns ++ [⟨s.takes, init, addr, s.run, .write [] o.bytes 0 none, true, none, false⟩], mem := m }
      ∧ o.state.mem.gains m [⟨.passing s.takes, addr, .write o.bytes⟩] := by
  have quiet : o.state.Quiet := ⟨hq.port, hq.requests, hq.sound, fun t hx => by
    rw [ht] at hx
    rcases List.mem_append.1 hx with hx | hx
    · exact h.unanswered t hx
    · simp only [List.mem_singleton] at hx; subst hx; simp⟩
  exact write_taken h hl (by rw [hp]; simp [handleParts, ho, hd, hk, pump_quiet quiet]) ht hq

/-- With every transaction handled but the one just taken, nothing of an earlier write is still to be handled (R169). -/
theorem taking_behind {s : State} (h : s.Steady) (init : Initiator) (addr : Nat) (bytes : List WByte) (o : Owner) :
    (s.taking init addr bytes).behind s.takes o = false := by
  have none : (s.taking init addr bytes).ahead s.takes = [] := by
    unfold State.ahead
    rw [List.flatMap_eq_nil_iff]
    intro t ht
    rcases List.mem_append.1 ht with ht | ht
    · have := h.handled t ht
      split <;> simp [this]
    · simp only [List.mem_singleton] at ht
      subst ht
      simp
  simp [State.behind, none]

/-- The initiator's earlier writes have been issued where none waits at the port (R161). -/
theorem taking_unissued {s : State} (h : s.Steady) (init : Initiator) (addr : Nat) (bytes : List WByte)
    (hq : ∀ q ∈ s.mem.passing, q.init = some init → q.access.isWrite = false) :
    (s.taking init addr bytes).unissued s.takes = false := by
  have last : (s.taking init addr bytes).txn s.takes = some ⟨s.takes, init, addr, s.run,
      .write (s.partsOf addr bytes.length) bytes 0 none, false, none, false⟩ := by
    have : s.txns.find? (fun t => t.id == s.takes) = none := by
      rw [List.find?_eq_none]
      intro t ht
      simpa using Nat.ne_of_lt (h.numbered t ht)
    simp [State.txn, State.taking, List.find?_append, this]
  simp only [State.unissued, last, List.any_eq_false, Bool.and_eq_true, beq_iff_eq, not_and, Bool.not_eq_true]
  exact hq

/-- The bytes a part carries are those of the write, at the offset the part enters its unit. -/
theorem carried_whole (o : Owner) (off : Nat) (bytes : List WByte) :
    Part.carried ⟨o, 0, bytes.length, off⟩ bytes = carriedAt off bytes := by
  unfold Part.carried carriedAt carriedBytes
  simp only [List.drop_zero, List.take_length, List.map_filterMap]
  congr 1
  funext b
  cases b.1 <;> simp

/-! ## The return -/

/-- Changing one open transaction among others changes no other (R168). -/
theorem modifyTxn_mid {s : State} {pre post : List Txn} {t : Txn} (h : s.txns = pre ++ t :: post)
    (hi : ∀ x ∈ pre ++ post, x.id ≠ t.id) (f : Txn → Txn) :
    s.modifyTxn t.id f = { s with txns := pre ++ f t :: post } := by
  have same : ∀ ts : List Txn, (∀ x ∈ ts, x.id ≠ t.id) →
      ts.map (fun x => if x.id = t.id then f x else x) = ts := by
    intro ts hts
    conv => rhs; rw [← List.map_id ts]
    exact List.map_congr_left fun x hx => by simp [hts x hx]
  have h1 := same pre fun x hx => hi x (by simp [hx])
  have h2 := same post fun x hx => hi x (by simp [hx])
  simp [State.modifyTxn, h, h1, h2]

/-- The fold of the returns keeps the initiators it has blocked, and transactions of another initiator block only
their own. -/
theorem flushFold_blocked (s : State) (ts : List Txn) (acc : Flushing) (i : Initiator)
    (h : ∀ t ∈ ts, t.result = none ∧ t.responded = false) (hi : ∀ t ∈ ts, t.init ≠ i) (ha : i ∉ acc.blocked) :
    i ∉ (ts.foldl (flushOne s) acc).blocked := by
  induction ts generalizing acc with
  | nil => exact ha
  | cons t ts ih =>
    obtain ⟨hr, hd⟩ := h t (by simp)
    rw [List.foldl_cons]
    refine ih _ (fun x hx => h x (by simp [hx])) (fun x hx => hi x (by simp [hx])) ?_
    unfold flushOne
    simp only [hd, hr, Bool.false_eq_true, if_false]
    split
    · exact ha
    · simp only [List.mem_cons, not_or]; exact ⟨fun e => hi t (by simp) e.symm, ha⟩

/-- One transaction that has become complete, none of its initiator's open before it, is returned and leaves the open
list; the others stay (R168). -/
theorem flush_one {s : State} {pre post : List Txn} {t : Txn} {r : Response} (h : s.txns = pre ++ t :: post)
    (hr : t.result = some r) (hd : t.responded = false) (hf : ∀ x ∈ pre, x.init ≠ t.init) (ha : s.awaits t.id = false)
    (hu : ∀ x ∈ pre ++ post, x.result = none ∧ x.responded = false) :
    flush s = { s with txns := pre ++ post, returned := s.returned ++ [⟨t.init, t.id, r⟩] } := by
  obtain ⟨k1, o1⟩ := flushFold_quiet s pre {} fun x hx => hu x (by simp [hx])
  have nb := flushFold_blocked s pre {} t.init (fun x hx => hu x (by simp [hx])) hf (by simp)
  have mid : ∀ acc : Flushing, t.init ∉ acc.blocked → (flushOne s acc t).kept = acc.kept
      ∧ (flushOne s acc t).out = acc.out ++ [⟨t.init, t.id, r⟩] := by
    intro acc hb
    unfold flushOne
    rw [if_neg (by simp [hd]), if_neg hb]
    simp [hr, ha]
  obtain ⟨k3, o3⟩ := mid _ nb
  obtain ⟨k2, o2⟩ := flushFold_quiet s post (flushOne s (pre.foldl (flushOne s) {}) t) fun x hx => hu x (by simp [hx])
  simp [flush, h, List.foldl_append, k2, o2, k3, o3, k1, o1]

/-- What a step leaves when all that is left to go on is the return of one complete transaction. -/
theorem settled_one {s : State} {pre post : List Txn} {t : Txn} {r : Response} (h : s.txns = pre ++ t :: post)
    (hr : t.result = some r) (hd : t.responded = false) (hf : ∀ x ∈ pre, x.init ≠ t.init) (ha : s.awaits t.id = false)
    (hq : ({ s with txns := pre ++ post } : State).Quiet) :
    drainPort (settle s) = { s with txns := pre ++ post, returned := s.returned ++ [⟨t.init, t.id, r⟩] } := by
  have pumped : pump s = s := by
    obtain ⟨e, he, hx⟩ := hq.sound
    have : s.allFaulted = false := by
      unfold State.allFaulted
      rw [List.all_eq_false]
      exact ⟨e, by simpa using he, by
        rw [show s.entry e = ({ s with txns := pre ++ post } : State).entry e from rfl, hx]; simp⟩
    simp [pump, serveList, pumpLoop_quiet _ (s := s) hq.requests, this]
  rw [settle, pumped, flush_one h hr hd hf ha hq.unanswered, drainPort_empty]
  exact hq.port

end Sys2Proof.Machine
end

