-- ==== Sys2Proof/Tests/Slice0.lean ====
section
/-!
SUPPORT. Our own tests: ill-formed terms refused, the worked cases of 02_correction_arithmetic.md, a few steps, and
for each statement with hypotheses a state and operands that meet them (`test_meets_…`).
-/

namespace Sys2Proof.Tests

set_option Elab.async false

open Sys2Proof Sys2Proof.Machine

/-! ## Small states -/

/-- A tracked link: channel 0, station 1, its context index 0. -/
def key1 : Key := ⟨0, 1⟩

/-- A second link of the channel, station 2, its context index 1, not cached. -/
def key2 : Key := ⟨0, 2⟩

/-- The first link's context. -/
def ctx1 : Context := { key := key1, state := .tracking, due := 100 }

/-- The part in RUNNING at counter value 100: a context window of 16 contexts, a capture window, channel 0 OPEN, two
links, the first one's context VALID in entry 0. -/
def base : State :=
  { State.reset with
    inReset := false
    now := 100
    run := .running
    strapBase := 1
    windows := #v[some ⟨.context, 0x10000000, 4096⟩, some ⟨.capture, 0x20000000, 4096⟩, none, none, none, none]
    channels := State.reset.channels.setIfInBounds 0 { state := .opened }
    kdir := [(key1, 0), (key2, 1)]
    calendar := [⟨0, key1, .offer, 50, 0, .tracking, 0, false⟩]
    entries := State.reset.entries.setIfInBounds 0 { cond := .valid, index := 0, key := key1, image := ctx1 }
    recency := [0]
    takes := 7 }

/-- `base` with its cached entry changed. -/
def based (f : Entry → Entry) : State := { base with entries := base.entriesWith 0 (f (base.entry 0)) }

/-- A state with one access outstanding. -/
def waits (s : State) (p : Purpose) (b : Body := .write []) : State :=
  { s with mem := { s.mem with outstanding := [⟨p, 0, b⟩] } }

/-- A state with CMU in a phase. -/
def phased (s : State) (p : CmuPhase) : State := { s with cmu := s.cmuIn p }

/-- A state whose one request is ready. -/
def asked (s : State) (who : Requester) (idx : Nat) (key : Key) : State := { s with reqs := [⟨who, idx, key, .ready⟩] }

/-- `State.Steady` as a test. -/
def steadyTest (s : State) : Bool :=
  !s.inReset && s.atPort.isEmpty && s.reqs.all (fun r => r.wait != .list)
    && (List.range 32).any (fun e => !(s.entry e).faulted)
    && s.txns.all (fun t => t.handled && t.result.isNone && !t.responded && decide (t.id < s.takes))

theorem steady_of {s : State} (h : steadyTest s = true) : s.Steady := by
  simp only [steadyTest, Bool.and_eq_true, List.all_eq_true, List.any_eq_true, Bool.not_eq_true',
    List.isEmpty_iff, List.mem_range, bne_iff_ne, Option.isNone_iff_eq_none, decide_eq_true_eq] at h
  obtain ⟨⟨⟨⟨h1, h2⟩, h3⟩, e, h4, h5⟩, h6⟩ := h
  exact ⟨h1, h2, h3, ⟨e, h4, h5⟩, fun t ht => (h6 t ht).1.1.1, fun t ht => ⟨(h6 t ht).1.1.2, (h6 t ht).1.2⟩,
    fun t ht => (h6 t ht).2⟩

/-- What a step answers, where it answers a next state. -/
def after (o : Host.Outcome State Fault Refusal) : Option State :=
  match o with
  | .next s => some s
  | _ => none

/-! ## Ill-formed terms -/

theorem test_wf_read_empty : (Instr.passingRead .processor 0 0).wellFormed = false := by decide
theorem test_wf_read_long : (Instr.passingRead .processor 0 4097).wellFormed = false := by decide
theorem test_wf_read_top : (Instr.passingRead .processor (2 ^ 40 - 1) 2).wellFormed = false := by decide
theorem test_wf_read_last : (Instr.passingRead .processor (2 ^ 40 - 1) 1).wellFormed = true := by decide
theorem test_wf_write_empty : (Instr.passingWrite .framer 0 []).wellFormed = false := by decide
theorem test_wf_data_empty : (Instr.readDataReturn 0 (some [])).wellFormed = false := by decide
theorem test_wf_word_short : (Instr.commandProducerWrite .processor [some 1]).wellFormed = false := by decide
theorem test_wf_word_disabled : (Instr.dueConsumerWrite .processor [none, none, none, none]).wellFormed = false := by
  decide
theorem test_wf_notice_word : (Instr.noticeConsumerWrite .processor []).wellFormed = false := by decide
theorem test_wf_part_word : (Instr.partIndexWordWrite .processor .dueProducer []).wellFormed = false := by decide
theorem test_wf_header : (Instr.slotHeaderWrite .framer 63 [none, none, none, none]).wellFormed = false := by decide
theorem test_wf_fetch : (Instr.fetchDataArrival 0 (some (zeros 255))).wellFormed = false := by decide +kernel
theorem test_wf_descriptor : (Instr.descriptorFetchEnd (some (zeros 31))).wellFormed = false := by decide +kernel
theorem test_wf_policy : (Instr.policyBlockReadEnd (some (zeros 65))).wellFormed = false := by decide +kernel
theorem test_wf_record : (Instr.trialRecordReadEnd (some [])).wellFormed = false := by decide +kernel
theorem test_wf_refused : exec (.passingRead .processor 0 0) base = .refused .illFormed := by rfl

/-! ## The queue (the step takes its front) -/

theorem test_step_front : (after (step { base with pending := [.pinReset, .start] })).map State.pending = some [.start] := by
  rfl
theorem test_step_tick : (after (step base)).map State.now = some 101 := by rfl
theorem test_step_tick_reset : (after (step State.reset)).map State.now = some 0 := by rfl
theorem test_step_first : (after (step { State.reset with pending := [.pinResetDeassertion 5] })).map State.controlBase
    = some 0x05000000 := by rfl

/-! ## Rounding and the scalar stages (R26, R29 to R31; cases 2 and 3) -/

theorem test_round_half_up : roundDiv 11 2 = 6 := by decide
theorem test_round_half_down : roundDiv (-151) 2 = -76 := by decide
theorem test_round_small_half : roundDiv (-1) 2 = -1 := by decide
theorem test_round_below_half : roundDiv 2 5 = 0 := by decide
theorem test_case2_timing : stageT (-302) 2 {} 1200 = ⟨-76, false, false⟩ := by decide
theorem test_case2_power : stageP (-22) 0 {} 93 = ⟨3, true, true⟩ := by decide
theorem test_case3_freq : stageF 3100 0 {} (-19500) = ⟨-500, true, true⟩ := by decide

/-! ## The tap stage and the settle test (R33 to R41; cases 1 and 4 to 6) -/

/-- A tap set with these taps and every other (0, 0). -/
def tapsAt (ts : List (Nat × Tap)) : List Tap := ts.foldl (fun acc t => acc.set t.1 t.2) (List.replicate 12 {})

/-- The issued taps Case 1 leaves. -/
def issued1 : List Tap := tapsAt [(4, ⟨8192, 0⟩), (5, ⟨615, -205⟩)]

theorem test_case1_taps : stageQ (tapsAt [(4, ⟨7800, 0⟩), (5, ⟨1200, -400⟩)]) (identityTaps 4) 4 1
    = ⟨tapsAt [(4, ⟨7996, 0⟩), (5, ⟨600, -200⟩)], 7996, some issued1, false⟩ := by decide +kernel
theorem test_case1_health : healthOf issued1 4 = 254 := by decide +kernel
theorem test_case4_taps : stageQ (tapsAt [(3, ⟨400, 0⟩), (4, ⟨8192, 0⟩)]) issued1 4 1
    = ⟨tapsAt [(3, ⟨200, 0⟩), (4, ⟨8207, -5⟩), (5, ⟨615, -205⟩)], 8207,
        some (tapsAt [(3, ⟨200, 0⟩), (4, ⟨8192, -5⟩), (5, ⟨614, -205⟩)]), false⟩ := by decide +kernel
theorem test_case5_taps : stageQ (tapsAt [(4, ⟨2048, 0⟩), (6, ⟨9000, 0⟩)]) (identityTaps 4) 4 0
    = ⟨tapsAt [(4, ⟨2048, 0⟩), (6, ⟨9000, 0⟩)], 2048, some (tapsAt [(4, ⟨8192, 0⟩), (6, ⟨32767, 0⟩)]), true⟩ := by
  decide +kernel
theorem test_case5_health : healthOf (tapsAt [(4, ⟨8192, 0⟩), (6, ⟨32767, 0⟩)]) 4 = 15 := by decide +kernel
theorem test_case6_degenerate : (stageQ (tapsAt [(4, ⟨900, 120⟩)]) (identityTaps 4) 4 0).taps = none := by
  decide +kernel
theorem test_case6_health : healthOf (identityTaps 4) 4 = 255 := by decide +kernel

/-- The capture record of Case 4. -/
def record4 : List Byte :=
  key1.toBytes.set 1 1 ++ leInt 3 40 ++ le 1 120 ++ leInt 2 (-6) ++ leInt 2 20 ++ le 4 77
    ++ tapBytes (tapsAt [(3, ⟨400, 0⟩), (4, ⟨8192, 0⟩)])

/-- The context of Case 4. -/
def ctx4 : Context :=
  { key := key1, state := .acquiring, step := 1, settle := 1, offTiming := -1500, offPower := 10, offFreq := 300
    taps := issued1, basis := 1, corrSeq := 1 }

/-- The snapshot of Case 4. -/
def snap4 : Snapshot := ⟨.acquiring, -1500, 10, 300, issued1, 1, false, 1, 1, {}⟩

/-- What the update of Case 4 leaves. -/
def applied4 : Applied := applyUpdate ctx4 snap4 record4 77 0

theorem test_case4_state : (applied4.ctx.state, applied4.ctx.step, applied4.ctx.settle) = (.tracking, 1, 2) := by
  decide +kernel
theorem test_case4_notices : applied4.notices = [(.stateChange, 0x32, 0)] := by decide +kernel
theorem test_case4_adjusts : applied4.ctx.pending.map (fun k => (k.status, k.timing, k.power, k.freq, k.id))
    = some (.settled, 40, 2, -20, 2) := by decide +kernel

/-! ## Records (R191 to R195) -/

theorem test_policy_default : (Policy.read (Policy.toBytes {})).clamp = ({} : Policy) := by decide +kernel
theorem test_policy_zero_clamps : (Policy.read (zeros 64)).clamp.acquirePeriod = 10 := by decide +kernel
theorem test_context_bytes : (Context.toBytes { ctx1 with offTiming := -1 }).length = 256 := by decide +kernel
theorem test_context_negative : (Context.ofBytes (Context.toBytes { ctx1 with offTiming := -2 })).offTiming = -2 := by
  decide +kernel
theorem test_notice_bytes : Notice.toBytes ⟨.stateChange, 0x53, ⟨2, 0x1234⟩, 0x01020304, 1⟩
    = [4, 0x53, 0, 0, 2, 0, 0x34, 0x12, 4, 3, 2, 1, 1, 0, 0, 0] := by decide +kernel
theorem test_offer_bytes : offerBytes ⟨3, 0x0102⟩ .retry 4 0x00051020 = [3, 0, 2, 1, 2, 4, 0x20, 0x10] := by
  decide +kernel

/-! ## States and operands that meet the statements' hypotheses: the machine and its reset -/

theorem test_meets_StepTakesFront : ({ base with pending := [.jobTake] } : State).pending = .jobTake :: []
    ∧ base.pending = [] ∧ base.inReset = false ∧ State.reset.pending = [] ∧ State.reset.inReset = true := by decide

theorem test_meets_ResetEndsAndStarts : State.reset.inReset = true ∧ State.reset.atPort = []
    ∧ base.inReset = false := by decide

theorem test_meets_NothingWhileInReset : State.reset.inReset = true ∧ State.reset.mem.outstanding = []
    ∧ Instr.start.wellFormed = true ∧ Instr.start ≠ .pinReset ∧ ∀ strap, Instr.start ≠ .pinResetDeassertion strap := by
  refine ⟨rfl, rfl, rfl, by decide, fun _ h => ?_⟩
  cases h

/-! ## Traffic -/

/-- `base` with 32 transactions open, the most there can be. -/
def full : State :=
  { base with
    takes := 32
    txns := (List.range 32).map fun i =>
      ⟨i, .processor, 0, .running, .read 1 [⟨.plain, 0, 1, 0, false⟩] none, true, none, false⟩ }

theorem test_meets_PassingReadTaken : base.Steady ∧ isPortRun (2 ^ 40 - 4096) 4096 = true ∧ base.txns.length < 32 :=
  ⟨steady_of (by decide), by decide⟩
theorem test_meets_PassingReadTaken_full : full.Steady ∧ 32 ≤ full.txns.length :=
  ⟨steady_of (by decide +kernel), by decide⟩
theorem test_meets_PassingReadTaken_judge : base.capacity = 16 ∧ base.heldIndex = none ∧ base.keyAt 15 = none
    ∧ base.keyAt 1 = some key2 ∧ (phased base (.releaseWrite key2 1 [] false)).heldIndex = some 1 := by decide +kernel

/-- The bytes of an index word, a slot, a capture block and a context at their boundaries (R159, R161). -/
theorem test_meets_PassingReadTaken_owner :
    (base.ownerOf 0x0100001B, base.ownerOf 0x0100001C, base.ownerOf 0x01000FFF)
      = ((.word 6, 3), (.plain, 0), (.plain, 0))
    ∧ (base.ownerOf 0x01001000, base.ownerOf 0x01001FFF, base.ownerOf 0x01002000)
      = ((.slot 0, 0), (.slot 63, 63), (.plain, 0))
    ∧ (base.ownerOf 0x20000FFF, base.ownerOf 0x20001000) = ((.capture 1 0x20000FC0, 63), (.plain, 0))
    ∧ (base.ownerOf 0x10000FFF, base.ownerOf 0x0FFFFFFF) = ((.context 15, 255), (.plain, 0)) := by decide +kernel

/-- One enabled byte. -/
def one : List WByte := [some 7]

/-- The four bytes of an index word, the last one alone enabled. -/
def word : List WByte := [none, none, none, some 9]

theorem test_meets_PlainWritesPass : isPortRun 0x0100000B 1 = true
    ∧ (∀ i, i < one.length → base.passesThrough (0x0100000B + i)) ∧ isWordWrite word = true := by
  refine ⟨by decide, fun i h => .inr ⟨2, ?_⟩, by decide⟩
  cases i with
  | zero => decide +kernel
  | succ n => exact absurd h (by simp [one])
theorem test_meets_PlainWritesPass_plain : isPortRun 0 1 = true
    ∧ ∀ i, i < one.length → base.passesThrough (0 + i) := by
  refine ⟨by decide, fun i h => .inl ?_⟩
  cases i with
  | zero => decide +kernel
  | succ n => exact absurd h (by simp [one])

theorem test_meets_GuardedBytesDropped : isPortRun 0x100000FF 1 = true ∧ one.any Option.isSome = true
    ∧ (∀ i, i < one.length → base.ownerOf (0x100000FF + i) = (.context 0, 255 + i))
    ∧ 0 < base.capacity ∧ base.heldIndex ≠ some 0 ∧ base.keyAt 0 = some key1
    ∧ (∀ b ∈ carriedAt 255 one, isOperatorOffset b.1 = false) ∧ (∀ t ∈ base.txns, t.init ≠ .processor)
    ∧ base.awaits base.takes = false := by decide +kernel

theorem test_meets_OperatorWriteTaken : isPortRun 0x10000017 1 = true ∧ one.any Option.isSome = true
    ∧ (∀ i, i < one.length → base.ownerOf (0x10000017 + i) = (.context 0, 23 + i))
    ∧ ((carriedAt 23 one).filter fun b => !isOperatorOffset b.1) = [] ∧ base.findEntry 0 = some 0
    ∧ (base.entry 0).serves = true ∧ (base.entry 0).cond = .valid := by decide +kernel

/-- The operator byte at 23 between two guarded ones. -/
def mixed : List WByte := [some 1, some 2, some 3]

theorem test_meets_OperatorWriteTaken_mixed :
    (∀ i, i < mixed.length → base.ownerOf (0x10000016 + i) = (.context 0, 22 + i))
    ∧ ((carriedAt 22 mixed).filter fun b => isOperatorOffset b.1) = [(23, 2)]
    ∧ ((carriedAt 22 mixed).filter fun b => !isOperatorOffset b.1) = [(22, 1), (24, 3)] := by decide +kernel
theorem test_meets_OperatorWriteTaken_uncached : base.keyAt 1 = some key2 ∧ base.findEntry 1 = none ∧ base.noneWaits 1
    ∧ base.freeEntry = some 1 ∧ base.ownerOf 0x10000117 = (.context 1, 23) := by decide +kernel

/-- `base` with an assembly open on the first block of the capture window, byte 0 still to come. -/
def gathering : State :=
  { base with assemblies := base.assemblies.setIfInBounds 1 (some ⟨0x20000000, none :: List.replicate 63 (some 0), 90⟩) }

theorem test_meets_CaptureWriteGathered : isPortRun 0x20000FFF 1 = true
    ∧ (∀ i, i < one.length → base.ownerOf (0x20000FFF + i) = (.capture 1 0x20000FC0, 63 + i)) ∧ base.run = .running
    ∧ base.assembly 1 = none := by decide +kernel
theorem test_meets_CaptureWriteGathered_open : (gathering.assembly 1).map Assembly.block = some 0x20000000
    ∧ (gathering.assembly 1).map Assembly.block ≠ some 0x20000FC0 := by decide +kernel

/-- An assembly open on a block with byte 0 alone marked, which names channel 0 or channel 15. -/
def naming (s : State) : State :=
  { s with
    assemblies := (s.assemblies.setIfInBounds 1 (some ⟨0x20000000, some 15 :: List.replicate 63 none, 90⟩)).setIfInBounds
      5 (some ⟨0x20000FC0, some 0 :: List.replicate 63 none, 91⟩) }

/-- Tearing the assembly a channel names counts on its torn counter (R53, R54). -/
theorem test_torn_counts : (((naming base).torn 1 1).channel 15).counters.torn = 1
    ∧ (((naming base).torn 1 1).channel 0).counters.torn = 0 ∧ ((naming base).torn 1 1).assembly 1 = none := by
  decide +kernel

/-- A capture record of a link, with no taps. -/
def record (k : Key) (flags : Byte) : List Byte := k.toBytes.set 1 flags ++ zeros 60

/-- `base` with a CAPTURE job of the first link waiting. -/
def queued : State := { base with queue := [⟨.capture 0, 0, key1, record key1 0, 80⟩] }

/-- `base` with 64 TRIAL jobs waiting, the most there can be. -/
def crowded : State := { base with queue := List.replicate 64 ⟨.trial false 0, 0, key1, record key1 0, 80⟩ }

theorem test_meets_RecordChecks_key : 15 < (recKey (record ⟨16, 1⟩ 0)).channel
    ∧ recKey (record ⟨0, 0⟩ 0) = ⟨0, 0⟩ ∧ recKey (record ⟨0, 16384⟩ 0) = ⟨0, 16384⟩ ∧ (base.channel 0).state ≠ .closed := by
  decide +kernel

/-- A record that names a CLOSED channel is CLOSED whatever its station (R147): detail 2, not 1. -/
theorem test_closed_before_station : takeRecord (record ⟨15, 0⟩ 0) 5 base = notify ⟨.captureUnknown, 2, ⟨15, 0⟩, 5, 0⟩ base
    := by decide +kernel
theorem test_meets_RecordChecks_closed : recKey (record ⟨15, 16383⟩ 0) = ⟨15, 16383⟩
    ∧ (base.channel 15).state = .closed ∧ base.lookup ⟨0, 3⟩ = none := by decide +kernel
theorem test_meets_RecordChecks_quiet :
    (({ base with channels := base.channels.setIfInBounds 0 { state := .quiet } } : State).channel 0).state = .quiet := by
  decide
theorem test_meets_RecordChecks : recKey (record key1 2) = key1 ∧ recCollided (record key1 2) = true
    ∧ recCollided (record key1 0) = false ∧ (base.channel 0).state = .opened ∧ base.lookup key1 = some 0
    ∧ (base.calEntry 0).isSome = true ∧ base.lookup key2 = some 1 ∧ base.calEntry 1 = none := by decide +kernel
theorem test_meets_RecordChecks_queue : queued.waitingJob 0 = true ∧ base.waitingJob 0 = false
    ∧ base.queue.length < 64 ∧ crowded.waitingJob 0 = false ∧ 64 ≤ crowded.queue.length := by decide +kernel

/-- An open read of the processor's with one part. -/
def reading (p : ReadPart) (data : Option (List Byte)) : Txn :=
  ⟨3, .processor, 0, .running, .read p.len [p] data, true, none, false⟩

/-- A state with one read open and its access outstanding. -/
def opened (s : State) (p : ReadPart) : State :=
  waits { s with txns := [reading p none] } (.passing 3) (.read p.len)

/-- The access `opened` has outstanding. -/
def readAccess (n : Nat) : Access := ⟨.passing 3, 0, .read n⟩

/-- `base` with one write open and its access outstanding. -/
def writing : State :=
  waits { base with txns := [⟨3, .framer, 0, .running, .write [] one 0 none, true, none, false⟩] } (.passing 3) (.write one)

theorem opens_one {s : State} {t : Txn} (h : s.txns = [t]) (ha : s.awaits t.id = false) : s.Opens [] t [] :=
  ⟨h, by simp, by simp, ha⟩

/-- Two plain bytes. -/
def plain2 : ReadPart := ⟨.plain, 0, 2, 0, false⟩

theorem test_meets_ResponsesReturned : (opened base plain2).Steady
    ∧ (opened base plain2).Opens [] (reading plain2 none) []
    ∧ (opened base plain2).oldest (isPassing 3) (readAccess 2) [] :=
  ⟨steady_of (by decide), opens_one rfl (by decide), by decide⟩
theorem test_meets_StepsComplete_mismatch : (∃ a ∈ (opened base plain2).mem.outstanding, ∃ len, a.purpose = .passing 3
    ∧ a.body = .read len) ∧ ∀ a ∈ (opened base plain2).mem.outstanding, ∀ len, a.body = .read len → len ≠ one.length := by
  refine ⟨⟨readAccess 2, by decide, 2, rfl, rfl⟩, ?_⟩
  intro a ha len hl
  simp only [opened, waits, List.mem_singleton] at ha
  subst ha
  cases hl
  decide
theorem test_meets_ResponsesReturned_write : writing.Steady
    ∧ writing.oldest (isPassing 3) ⟨.passing 3, 0, .write one⟩ [] := ⟨steady_of (by decide), by decide⟩

/-- The last byte of context 0, held. -/
def ctxPart (key : Key) (held : Bool) (idx off : Nat) : ReadPart := ⟨.context idx key held, 0, 1, off, false⟩

/-- `base` with a hold on its cached entry. -/
def held : State := based fun x => { x with holds := 1 }

theorem test_meets_ContextReadPatched : (opened held (ctxPart key1 true 0 255)).Steady
    ∧ (opened held (ctxPart key1 true 0 255)).ServedBy 0 key1 0 ∧ (held.entry 0).key = key1 :=
  ⟨steady_of (by decide), by decide, by decide⟩
theorem test_meets_ContextReadPatched_uncached : (opened base (ctxPart key2 false 1 0)).Steady
    ∧ base.present 1 key2 = true ∧ base.findEntry 1 = none := ⟨steady_of (by decide), by decide⟩
theorem test_meets_ContextReadPatched_gone : base.present 2 ⟨0, 3⟩ = false ∧ base.servingEntry 2 = none := by decide

/-- A correction of basis 0 and id 1. -/
def corr1 : Correction := { abortCorrection 0 1 with status := .continuing, timing := 5 }

/-- `base` with slot 63 in this record. -/
def slotted (x : Slot) : State := { base with slots := base.slotsWith 63 x }

/-- A part of a read of slot 63. -/
def slotPart (off len : Nat) : ReadPart := ⟨.slot 63, 0, len, off, false⟩

/-- `base` with slot 63 BOUND with a correction. -/
def bound1 : State := slotted { state := .bound, latched := key1, copy := some (.correction 0 key1 corr1) }

theorem test_meets_SlotReads_header : (opened base (slotPart 7 1)).Steady
    ∧ (opened base (slotPart 7 1)).oldest (isPassing 3) (readAccess 1) [] ∧ 7 + 1 ≤ 8 :=
  ⟨steady_of (by decide), by decide, by decide⟩
theorem test_meets_SlotReads_idle : (base.slot 63).state = .idle := by decide
theorem test_meets_SlotReads_bound : (opened bound1 (slotPart 59 1)).Steady
    ∧ (bound1.slot 63).state = .bound ∧ (bound1.slot 63).copy = some (.correction 0 key1 corr1) ∧ 59 + 1 ≤ 60 :=
  ⟨steady_of (by decide), by decide⟩
theorem test_meets_SlotReads_delivered :
    ((slotted { state := .delivered, copy := some .noChange }).slot 63).state = .delivered := by decide
theorem test_meets_SlotReads_deliver :
    ((slotted { state := .bound, copy := some .noChange }).slot 63).state = .bound ∧ 60 < 60 + 1 := by decide
theorem test_meets_SlotReads_promote : ((asked bound1 .promotion 0 key1).reqOf .promotion).isSome = true := by decide
theorem test_meets_SlotReads_begin : bound1.reqOf .promotion = none ∧ bound1.promotions = [] ∧ bound1.ServedBy 0 key1 0
    := by decide
theorem test_meets_SlotReads_armed : ((slotted { state := .armed, latched := ⟨0, 0⟩ }).slot 63).state = .armed
    ∧ (slotted { state := .armed, latched := ⟨0, 0⟩ }).bindingSource 63 = none ∧ 8 < 8 + 1 := by decide
theorem test_meets_SlotReads_binding : (slotted { state := .armed, latched := key1 }).bindingSource 63 = some 0
    ∧ (slotted { state := .armed, latched := key1 }).ServedBy 0 key1 0
    ∧ ((slotted { state := .armed, latched := key1 }).slot 63).binding = false := by decide

/-! ## The memory port -/

/-- A fetch held behind a passing write, and a write-back that is ready, made later. -/
def porting : State :=
  { base with
    mem := { base.mem with
      passing := [{ access := ⟨.passing 3, 0, .write one⟩, order := 3, init := some .framer }]
      cache := [{ access := ⟨.fetch 1, 0x10000100, .read 256⟩, order := 5 },
        { access := ⟨.writeBack 0 key1, 0x10000000, .write one⟩, order := 6 }] } }

/-- Of one source the access that was ready first is granted first (R169): here not the one made first. -/
theorem test_ready_first : (grantAll porting).mem.outstanding.map Access.purpose
    = [.passing 3, .writeBack 0 key1, .fetch 1] := by decide +kernel

/-- Several commands, one after another. -/
def runs (cs : List Instr) (s : State) : Option State := cs.foldl (fun a c => a.bind fun t => after (exec c t)) (some s)

/-- A RELEASE whose header write is outstanding, the notice ring full and an overflow counted. -/
def releasing2 : State :=
  waits (phased { base with nw := { base.nw with notices := ⟨1023, 1023, 0⟩, overflow := 1 } }
    (.releaseWrite key2 1 [] false)) .releaseHeader

/-- A write held by R97 and a notice consumer write behind it: the consumer is handed over once the bytes of the first
write have been issued, and OVERFLOW comes after them (R161). -/
theorem test_word_after_issue :
    (runs [.passingWrite .processor 0x10000117 one, .noticeConsumerWrite .processor [some 1, none, none, none],
      .releaseHeaderWriteEnd true] releasing2).map (fun t => (t.mem.outstanding.map Access.purpose, t.nw.overflow))
    = some ([.passing 7, .status, .notice, .passing 8, .fetch 1], 0) := by decide +kernel

/-- A capture write behind one held by R97, and another initiator's of the same bytes taken after it: the later one is
gathered and issued later (R169). -/
theorem test_take_order_decides :
    (runs [.passingWrite .processor 0x10000117 one, .passingWrite .processor 0x20000000 one,
      .passingWrite .demodulator 0x20000000 [some 2], .releaseHeaderWriteEnd true] releasing2).map
      (fun t => (t.mem.outstanding.map Access.purpose, (t.assembly 1).map fun a => a.bytes.head?))
    = some ([.passing 7, .status, .passing 8, .passing 9, .fetch 1], some (some (some 2))) := by decide +kernel

/-- Every entry is faulted, and no context is cached. -/
def faulty : State :=
  { base with
    entries := Vector.replicate 32 { cond := .valid, index := 100, key := ⟨9, 9⟩, faulted := true }
    kdir := [(key1, 0), (key2, 1), (⟨0, 3⟩, 2)] }

/-- A write of the control bytes of two contexts asks for each, and each is abandoned with its own MEMORY_FAULT (R95). -/
theorem test_abandons_each :
    (after (exec (.passingWrite .processor 0x10000117 (some 1 :: List.replicate 255 none ++ [some 1])) faulty)).map
      (fun t => (t.nw.notices.claimed, t.reqs)) = some (2, []) := by decide +kernel

/-! ## Index words and slot headers -/

/-- `base` with a write of the processor waiting at the memory port. -/
def unissued : State :=
  { base with
    mem := { base.mem with
      passing := [{ access := ⟨.passing 3, 0x4000, .write one⟩, order := 3, init := some .processor }] } }

theorem test_meets_ProducerWriteWakes_issued : base.issuedAll .processor ∧ unissued.issuedAll .framer
    ∧ ¬ unissued.issuedAll .processor ∧ unissued.Steady := ⟨by decide, by decide, by decide, steady_of (by decide)⟩
theorem test_meets_ProducerWriteWakes : isWordWrite [some 1, none, none, none] = true ∧ base.cmu.phase = .idle
    ∧ (composeWord base.cmu.shadow (carriedBytes [some 1, none, none, none])).toNat % 256 ≠ base.cmu.consumer
    ∧ (composeWord base.cmu.shadow (carriedBytes word)).toNat % 256 = base.cmu.consumer := by decide +kernel
theorem test_meets_NoticeConsumerTaken :
    let s := { base with nw := { base.nw with notices := ⟨1023, 1023, 0⟩, overflow := 1 } }
    ringDiff s.nw.notices.published ((composeWord s.nw.noticeShadow (carriedBytes [some 1, none, none, none])).toNat % 1024)
      < ringDiff s.nw.notices.published s.nw.notices.consumer ∧ 0 < s.nw.overflow ∧ base.nw.overflow = 0 := by
  decide +kernel
theorem test_meets_DueConsumerTaken : base.Steady ∧ base.txns.length < 32 ∧ isWordWrite word = true :=
  ⟨steady_of (by decide), by decide⟩
theorem test_meets_SlotHeaderArms : (slotted { state := .armed, binding := true }).holdsBack 63 = true
    ∧ base.holdsBack 63 = false ∧ base.run ≠ .idle ∧ (slotted {}).Steady := ⟨by decide, by decide, by decide,
  steady_of (by decide)⟩

/-! ## The context cache -/

/-- The second link's entry, FETCHING in entry 31, and its fetch outstanding. -/
def fetching (f : Entry → Entry) : State :=
  waits { base with entries := base.entriesWith 31 (f { cond := .fetching, index := 1, key := key2 }) } (.fetch 1) (.read 256)

/-- The access `fetching` has outstanding. -/
def fetchAccess : Access := ⟨.fetch 1, 0, .read 256⟩

/-- The second link's image. -/
def image2 : List Byte := Context.toBytes { key := key2, state := .lapsed, lapse := .silent }

theorem test_meets_FetchEnds : (fetching id).Steady ∧ (fetching id).oldest (isFetch 1) fetchAccess []
    ∧ (fetching id).findEntry 1 = some 31 ∧ ((fetching id).entry 31).cond = .fetching ∧ image2.length = 256
    ∧ (fetching id).waitingReads 1 = [] ∧ (fetching id).fetchWaiters 1 = []
    ∧ (Context.ofBytes image2).holdDisagrees = false ∧ ((fetching id).entry 31).merge = [] ∧ (fetching id).lapses = [] :=
  ⟨steady_of (by decide +kernel), by decide +kernel⟩

/-- An image of the second link in a state with a hold flag. -/
def imageOf (st : CtxState) (hold : Bool) : List Byte := Context.toBytes { key := key2, state := st, hold := hold }

theorem test_meets_FetchEnds_held : (Context.ofBytes (imageOf .tracking true)).hold = true
    ∧ (Context.ofBytes (imageOf .tracking true)).state = .tracking ∧ (imageOf .tracking true).length = 256
    ∧ (Context.ofBytes (imageOf .held false)).hold = false ∧ (Context.ofBytes (imageOf .held false)).state = .held := by
  decide +kernel
theorem test_meets_FetchEnds_merge : ((fetching fun x => { x with merge := [⟨3, [(23, 1)]⟩, ⟨4, [(32, 1)]⟩] }).entry 31).merge
    = [⟨3, [(23, 1)]⟩, ⟨4, [(32, 1)]⟩] := by decide
theorem test_meets_FetchEnds_released : ((fetching fun x => { x with released := true }).entry 31).released = true := by
  decide

/-- A CAPTURE job of the second link that waits for its fetch. -/
def obtaining2 : State :=
  { fetching id with engine := .obtaining ⟨.capture 0, 1, key2, [], 5⟩ none, reqs := [⟨.engine, 1, key2, .fetch⟩] }

theorem test_meets_FetchEnds_engine : obtaining2.Steady ∧ obtaining2.fetchWaiters 1 = [.engine]
    ∧ obtaining2.reqOf .engine = some ⟨.engine, 1, key2, .fetch⟩ ∧ obtaining2.present 1 key2 = true
    ∧ obtaining2.waitingReads 1 = [] ∧ (Context.ofBytes (imageOf .tracking false)).holdDisagrees = false :=
  ⟨steady_of (by decide +kernel), by decide +kernel⟩

/-- A read of byte 9 of the second link's context that waits for its fetch, its data back. -/
def readWaits : State := { fetching id with txns := [reading (ctxPart key2 false 1 9) (some [7])] }

theorem test_meets_FetchEnds_read : readWaits.Steady
    ∧ readWaits.Opens [] (reading (ctxPart key2 false 1 9) (some [7])) []
    ∧ readWaits.waitingReads 1 = [(3, 0, key2, false)] ∧ readWaits.fetchWaiters 1 = []
    ∧ (∀ u ∈ readWaits.txns, u.wantsHold 1 key2 = false) ∧ readWaits.present 1 key2 = true :=
  ⟨steady_of (by decide +kernel), opens_one rfl (by decide +kernel), by decide +kernel⟩
/-- The fetch of the second link's context with one requester waiting for it. -/
def fetchFor (who : Requester) : State := { fetching id with reqs := [⟨who, 1, key2, .fetch⟩] }

theorem test_meets_FetchEnds_trial :
    let s := { fetchFor .engine with engine := .obtaining ⟨.trial true 0, 1, key2, [], 5⟩ none }
    s.Steady ∧ s.fetchWaiters 1 = [.engine] ∧ s.waitingReads 1 = [] := ⟨steady_of (by decide +kernel), by decide +kernel⟩

/-- A read of slot 63 from an offset on, its data back, that waits for the fetch of the slot's binding. -/
def slotFetch (off : Nat) : State :=
  { fetchFor (.slot 63) with
    txns := [reading (slotPart off 4) (some [1, 2, 3, 4])]
    slots := base.slotsWith 63 { state := .armed, latched := key2, binding := true, waiting := [(3, 0)] } }

theorem test_meets_FetchEnds_slot : (slotFetch 57).Steady ∧ (slotFetch 57).fetchWaiters 1 = [.slot 63]
    ∧ (slotFetch 57).Opens [] (reading (slotPart 57 4) (some [1, 2, 3, 4])) [] ∧ (slotFetch 57).waitingReads 1 = []
    ∧ ((slotFetch 57).slot 63).waiting = [(3, 0)] ∧ ((slotFetch 57).slot 63).heldWrites = [] :=
  ⟨steady_of (by decide +kernel), by decide +kernel, opens_one rfl (by decide +kernel), by decide +kernel⟩
theorem test_meets_FetchEnds_promotion :
    let s := { fetchFor .promotion with promotions := [⟨63, 1, key2, corr1⟩] }
    s.Steady ∧ s.fetchWaiters 1 = [.promotion] ∧ (s.slot 63).heldWrites = [] ∧ s.lapses = [] :=
  ⟨steady_of (by decide +kernel), by decide +kernel⟩
theorem test_meets_FetchEnds_revive :
    let s := phased (fetchFor .revive) (.reviving key2 1 [] false)
    s.Steady ∧ s.fetchWaiters 1 = [.revive] ∧ s.waitingReads 1 = [] := ⟨steady_of (by decide +kernel), by decide +kernel⟩
theorem test_meets_FetchEnds_copy :
    let s := phased (fetchFor .copy) (.copying key2 1 ⟨[(key1, 0)], 0x30000000, 2, 0, {}⟩)
    s.Steady ∧ s.fetchWaiters 1 = [.copy] ∧ s.waitingReads 1 = [] := ⟨steady_of (by decide +kernel), by decide +kernel⟩
theorem test_meets_FetchEnds_lapse :
    let s := { fetchFor .lapse with lapses := [⟨1, key2, 90⟩, ⟨0, key1, 91⟩] }
    s.Steady ∧ s.fetchWaiters 1 = [.lapse] ∧ s.waitingReads 1 = [] ∧ s.reqOf .lapse = some ⟨.lapse, 1, key2, .fetch⟩
    ∧ (s.entry 31).key = key2 ∧ s.ServedBy 0 key1 0 := ⟨steady_of (by decide +kernel), by decide +kernel⟩
theorem test_meets_OperatorWriteTaken_fetching : (fetching id).Steady ∧ (fetching id).findEntry 1 = some 31
    ∧ ((fetching id).entry 31).cond = .fetching := ⟨steady_of (by decide +kernel), by decide +kernel⟩
theorem test_meets_ContextReadPatched_fetching : (opened (fetching id) (ctxPart key2 false 1 255)).Steady
    ∧ (opened (fetching id) (ctxPart key2 false 1 255)).Opens [] (reading (ctxPart key2 false 1 255) none) [] :=
  ⟨steady_of (by decide +kernel), opens_one rfl (by decide +kernel)⟩

/-- The first link's entry RETIRING and its write-back outstanding. -/
def retiring (f : Entry → Entry) : State :=
  waits (based fun x => f { x with cond := .retiring, dirty := true }) (.writeBack 0 key1)

/-- The access `retiring` has outstanding. -/
def backAccess : Access := ⟨.writeBack 0 key1, 0, .write []⟩

theorem test_meets_WriteBackEnds : (retiring id).Steady ∧ (retiring id).oldest (isWriteBack 0) backAccess []
    ∧ (retiring id).findEntry 0 = some 0 ∧ ((retiring id).entry 0).cond = .retiring
    ∧ backAccess.writeBackKey = ((retiring id).entry 0).key ∧ (retiring id).cmu.phase = .idle
    ∧ (retiring id).reqs = [] ∧ ((retiring id).entry 0).holds = 0 ∧ ((retiring id).entry 31).faulted = false :=
  ⟨steady_of (by decide), by decide⟩
theorem test_meets_WriteBackEnds_given : ((retiring fun x => { x with retire := { given := true } }).entry 0).retire.given
    = true := by decide
theorem test_meets_WriteBackEnds_held : 0 < ((retiring fun x => { x with holds := 1 }).entry 0).holds := by decide

/-- The first link's entry RETIRING, its write-back ended while a read holds it. -/
def lingering : State := retiring fun x => { x with holds := 1, retire := { ended := true } }

theorem test_meets_OperatorWriteTaken_retiring : (retiring id).Steady ∧ ((retiring id).entry 0).serves = true
    ∧ ((retiring id).entry 0).retire.ended = false ∧ (lingering.entry 0).retire.ended = true
    ∧ (∀ r ∈ lingering.reqs, r.wait ≠ .writeBack 0) := ⟨steady_of (by decide), by decide⟩
theorem test_meets_ContextReadPatched_retiring :
    let s := opened (retiring fun x => { x with holds := 1 }) (ctxPart key1 true 0 255)
    s.Steady ∧ s.present 0 key1 = true ∧ s.findEntry 0 = some 0 ∧ (s.entry 0).retire.ended = false :=
  ⟨steady_of (by decide), by decide⟩

/-- An operator write of an entry that lingers takes it back to VALID in the place it had (R86, R92). -/
theorem test_lingering_keeps_place :
    (takeOperatorWrite 0 [(23, 1)] { lingering with recency := [0, 4] }).recency = [0, 4]
    ∧ ((takeOperatorWrite 0 [(23, 1)] lingering).entry 0).cond = .valid := by decide +kernel

/-- A requester given an entry that lingers leaves it in the place it had (R86, R92). -/
theorem test_given_keeps_place :
    let s := request .copy 0 key1 { phased lingering (.copying key1 0 ⟨[], 0, 1, 0, {}⟩) with recency := [0, 4] }
    s.reqs = [⟨.copy, 0, key1, .kept⟩] ∧ (give .copy s).recency = [0, 4] := by decide +kernel

/-- Every entry is taken: the first link's lingers with CE waiting for it, those of the next two contexts are evictable,
the rest are pinned. -/
def choosing : State :=
  { base with
    kdir := [(key1, 0), (key2, 1), (⟨0, 3⟩, 2)]
    calendar := []
    entries := (Vector.ofFn fun i => ({ cond := .valid, index := i.val, key := ⟨0, i.val + 1⟩, pinned := decide (2 < i.val) } :
      Entry)).setIfInBounds 0 (lingering.entry 0)
    recency := List.range 32
    reqs := [⟨.engine, 15, ⟨0, 16⟩, .writeBack 0⟩] }

/-- The parts of a write are events of their own (R97): the first takes the lingering entry back, the request chooses
the second context's entry, and the second part, which would have touched that entry, asks for another. -/
theorem test_parts_are_events :
    (after (exec (.passingWrite .processor 0x10000017 (some 1 :: List.replicate 255 none ++ [some 1])) choosing)).map
      (fun t => (List.range 3).map fun e => ((t.entry e).cond, (t.entry e).index))
    = some [(.valid, 0), (.fetching, 15), (.fetching, 1)] := by decide +kernel

/-- CE waits for the write-back of the first link's entry to fetch the second's context into it. -/
def handingOn : State := { retiring id with reqs := [⟨.engine, 1, key2, .writeBack 0⟩] }

theorem test_meets_WriteBackEnds_passes : handingOn.Steady ∧ Requester.engine.isWrite = false :=
  ⟨steady_of (by decide), by decide⟩

/-! ## The coefficient engine -/

/-- A CAPTURE job of the first link. -/
def job1 : Job := ⟨.capture 3, 0, key1, record key1 0, 80⟩

/-- CE has the job in its computing phase, the entry pinned. -/
def computing (mark : Option LossCause) (f : Entry → Entry := id) : State :=
  { based (fun x => f { x with pinned := true }) with engine := .computing job1 mark (snapshotOf ctx1 {}) }

theorem test_meets_JobTakenAndGiven : queued.Steady ∧ queued.run ≠ .idle ∧ queued.engine = .idle
    ∧ queued.ServedBy 0 key1 0 := ⟨steady_of (by decide), by decide⟩
theorem test_meets_JobTakenAndGiven_fetch : base.present 1 key2 = true ∧ base.findEntry 1 = none ∧ base.noneWaits 1
    ∧ base.freeEntry = some 1 := by decide

/-- Every entry VALID, entry 31 alone unpinned, and CE's next job of a context that is not cached. -/
def crammed (dirty : Bool) : State :=
  { base with
    kdir := [(⟨0, 41⟩, 40)]
    entries := Vector.ofFn fun i =>
      { cond := .valid, index := i.val, key := ⟨0, i.val + 1⟩, image := ctx1, pinned := decide (i.val < 31), dirty := dirty }
    recency := [30, 31, 2]
    queue := [⟨.capture 0, 40, ⟨0, 41⟩, [], 80⟩] }

theorem test_meets_JobTakenAndGiven_reuse : ∀ d : Bool, (crammed d).Steady ∧ (crammed d).present 40 ⟨0, 41⟩ = true
    ∧ (crammed d).findEntry 40 = none ∧ (crammed d).noneWaits 40 ∧ (crammed d).freeEntry = none
    ∧ (crammed d).recency = [30] ++ 31 :: [2] ∧ ¬ (crammed d).reusable 30 ∧ (crammed d).reusable 31
    ∧ ((crammed d).entry 31).dirty = d := by
  intro d
  cases d <;> exact ⟨steady_of (by decide +kernel), by decide +kernel⟩
theorem test_meets_JobTakenAndGiven_list :
    let s := { crammed true with recency := [30] }
    s.Steady ∧ s.freeEntry = none ∧ ∀ e ∈ s.recency, ¬ s.reusable e := ⟨steady_of (by decide +kernel), by decide +kernel⟩

/-- Two requests in the waiting list, and entry 31 INVALID. -/
def listed : State :=
  { crammed true with
    entries := (crammed true).entriesWith 31 {}
    reqs := [⟨.slot 3, 40, ⟨0, 41⟩, .list⟩, ⟨.slot 4, 41, ⟨0, 42⟩, .list⟩] }

theorem test_meets_JobTakenAndGiven_serves : listed.freeEntry = some 31
    ∧ listed.reqs = [] ++ ⟨.slot 3, 40, ⟨0, 41⟩, .list⟩ :: [⟨.slot 4, 41, ⟨0, 42⟩, .list⟩]
    ∧ (∀ q ∈ listed.reqs.tail, q.index ≠ 40) ∧ Requester.isWrite (.slot 3) = false
    ∧ ∀ d, d < 32 → d ≠ 31 → (listed.entry d).cond ≠ .invalid ∧ ¬ listed.reusable d := by decide +kernel
theorem test_meets_JobTakenAndGiven_given :
    let s := asked { base with engine := .obtaining job1 none } .engine 0 key1
    s.Steady ∧ s.Ready .engine 0 key1 ∧ (s.entry 0).image.state ≠ .lapsed := ⟨steady_of (by decide), by decide⟩
theorem test_meets_JobApplied : (computing none).Steady ∧ (computing none).ServedBy 0 key1 0
    ∧ (computing none).PinnedOnly 0 ∧ job1.isCapture = true := ⟨steady_of (by decide), by decide⟩
theorem test_meets_JobApplied_hand : (base.calEntry 0).isSome = true ∧ (base.entry 0).cond = .valid := by decide

/-- `computing` with the link released meanwhile. -/
def computingGone : State := { computing (some .released) (fun x => { x with released := true }) with kdir := [] }

theorem test_meets_JobLost : (computing (some .operator)).Steady ∧ (computing (some .operator)).PinnedOnly 0 :=
  ⟨steady_of (by decide), by decide⟩
theorem test_meets_JobLost_gone : computingGone.Steady ∧ computingGone.present 0 key1 = false
    ∧ (computingGone.entry 0).pinned = true ∧ (computingGone.entry 0).released = true
    ∧ (∀ d, d < 32 → (computingGone.entry d).pinned = true → d = 0) := ⟨steady_of (by decide), by decide⟩
theorem test_meets_JobLost_given :
    let s := asked { base with engine := .obtaining job1 (some .operator) } .engine 0 key1
    s.Steady ∧ s.Ready .engine 0 key1 ∧ s.Unpinned ∧ s.ServedBy 0 key1 0 := ⟨steady_of (by decide), by decide⟩

/-- `computingGone` with the entry RETIRING and READ_CONTEXTS waiting for it to fetch the second link's context. -/
def retiringGone : State :=
  { computing (some .released) (fun x => { x with released := true, cond := .retiring }) with
    kdir := [(key2, 1)], reqs := [⟨.copy, 1, key2, .writeBack 0⟩] }

theorem test_meets_JobLost_retiring : retiringGone.Steady ∧ retiringGone.present 0 key1 = false
    ∧ (retiringGone.entry 0).cond = .retiring ∧ Requester.copy.isWrite = false := ⟨steady_of (by decide), by decide⟩

/-- The allocation that chose the entry takes it when the job lets go of it (R88, R92). -/
theorem test_unpin_passes_on : (after (exec .jobCompletion retiringGone)).map
    (fun t => (t.reqs.map fun r => r.wait, (t.entry 0).index)) = some ([.fetch], 1) := by decide +kernel
theorem test_meets_JobLost_lapsed :
    (((based fun x => { x with image := { ctx1 with state := .lapsed } }).entry 0).image.state) = .lapsed := by decide

/-- CE has a TRIAL of the first link in its computing phase. -/
def trialling : State :=
  { computing none with engine := .computing { job1 with kind := .trial true 0 } none (snapshotOf ctx1 {}) }

theorem test_meets_TrialReports : trialling.Steady ∧ trialling.PinnedOnly 0 := ⟨steady_of (by decide), by decide⟩
theorem test_meets_TrialReports_end :
    (waits (phased base (.trialWrite key1)) .trialResult).oldest (isPurpose .trialResult) ⟨.trialResult, 0, .write []⟩ []
    := by decide

/-! ## The calendar and the timers -/

/-- `base` with the first link's entry of this kind, miss count and due time. -/
def timed (k : CalKind) (miss : Nat) (due : Tick) : State :=
  { base with calendar := [⟨0, key1, k, due, miss, .tracking, 0, false⟩] }

/-- Its entry. -/
def timedEntry (k : CalKind) (miss : Nat) (due : Tick) : CalEntry := ⟨0, key1, k, due, miss, .tracking, 0, false⟩

theorem test_meets_DueHead : (timed .offer 0 100).calTaken = some (timedEntry .offer 0 100) := by decide
theorem test_due_not_reached : (timed .offer 0 101).calTaken = none := by decide

/-- Three entries due, the last two at one due time, the earliest. -/
def tied : State :=
  { base with calendar := [timedEntry .offer 0 100, { timedEntry .offer 0 90 with index := 5 },
    { timedEntry .offer 0 90 with index := 6 }] }

theorem test_meets_DueHead_tie : tied.calTaken = some { timedEntry .offer 0 90 with index := 5 } ∧ tied.run ≠ .idle
    ∧ (tied.now - 90).toNat < 2 ^ 31 ∧ ((90 : Tick) - tied.now).toInt < ((100 : Tick) - tied.now).toInt := by decide
theorem test_meets_OfferPlaced : (timed .offerForced 2 100).calTaken = some (timedEntry .offerForced 2 100)
    ∧ ((timed .offerForced 2 100).nw.due.claimed + 1024 - base.nw.due.consumer) % 1024 < 1023 := by decide

/-- The due ring holds 1023 offers. -/
def ringFull : State := { timed .offer 1 100 with nw := { base.nw with due := ⟨1022, 1022, 1023⟩ } }

theorem test_meets_OfferDeferred : ringFull.calTaken = some (timedEntry .offer 1 100)
    ∧ 1023 ≤ (ringFull.nw.due.claimed + 1024 - ringFull.nw.due.consumer) % 1024 := by decide
theorem test_meets_GraceMissed : (timed .grace 6 100).Steady
    ∧ (timed .grace 6 100).calTaken = some (timedEntry .grace 6 100) ∧ (timed .grace 6 100).run = .running
    ∧ 6 + 1 < (base.policyOf key1).missLimit ∧ (base.policyOf key1).missLimit ≤ 7 + 1 := ⟨steady_of (by decide), by decide⟩
theorem test_meets_GraceMissed_lapses : (timed .grace 7 100).reqOf .lapse = none ∧ (timed .grace 7 100).lapses = []
    ∧ (timed .grace 7 100).ServedBy 0 key1 0
    ∧ ((asked (timed .grace 7 100) .lapse 1 key2).reqOf .lapse).isSome = true := by decide
theorem test_meets_GraceSuspended : ({ timed .grace 7 100 with run := .stopped } : State).Steady
    ∧ ({ timed .grace 7 100 with run := .stopped } : State).calTaken = some (timedEntry .grace 7 100) :=
  ⟨steady_of (by decide), by decide⟩
theorem test_meets_SilentLapse :
    let s := { asked base .lapse 0 key1 with lapses := [⟨0, key1, 90⟩] }
    s.Steady ∧ s.Ready .lapse 0 key1 ∧ s.ServedBy 0 key1 0 ∧ (s.calEntry 0).isSome = true :=
  ⟨steady_of (by decide), by decide⟩

/-- Channel 15 in this state with its quiet timer started at 0 for 100 ticks. -/
def quieting (c : ChannelState) (now : Tick) : State :=
  { base with
    now := now
    channels := base.channels.setIfInBounds 15 { state := c }
    quietTimers := base.quietTimers.setIfInBounds 15 (some ⟨100, 0⟩) }

theorem test_meets_QuietExpiry : (quieting .opened 100).quietTimer 15 = some ⟨100, 0⟩
    ∧ 100 ≤ ((quieting .opened 100).now - 0).toNat ∧ ((quieting .opened 99).now - 0).toNat < 100
    ∧ ((quieting .opened 100).channel 15).state = .opened ∧ ((quieting .quiet 100).channel 15).state = .quiet := by decide

/-- One notice unread, N 2, T 1 ms, and the coalescing timer at this count. -/
def coalescing (n : Nat) : State :=
  { base with nw := { base.nw with notices := ⟨1, 1, 0⟩, coalesceN := 2, coalesceT := 1, timer := some n } }

theorem test_meets_CoalescingExpiry : (coalescing 16384).nw.timer = some 16384 ∧ 16384 * (coalescing 0).nw.coalesceT ≤ 16384
    ∧ 16383 < 16384 * (coalescing 16383).nw.coalesceT := by decide

/-! ## Response slots -/

/-- A read of slot 63 whose data is back and which waits on the slot's binding. -/
def binding (off : Nat) (hw : List (List (Nat × Byte))) (s : State := base) (idx : Nat := 0) (key : Key := key1) : State :=
  { asked s (.slot 63) idx key with
    txns := [reading (slotPart off 4) (some [1, 2, 3, 4])]
    slots := s.slotsWith 63
      { state := .armed, latched := key, binding := true, waiting := [(3, 0)], heldWrites := hw } }

theorem test_meets_SlotBound : (binding 56 []).Steady ∧ (binding 56 []).Opens [] (reading (slotPart 56 4) (some [1, 2, 3, 4])) []
    ∧ (binding 56 []).Ready (.slot 63) 0 key1 ∧ ((binding 56 []).slot 63).waiting = [(3, 0)]
    ∧ ((binding 56 []).slot 63).binding = true ∧ (binding 56 []).ServedBy 0 key1 0 ∧ 8 < 56 + 4 ∧ 56 + 4 ≤ 60 :=
  ⟨steady_of (by decide), opens_one rfl (by decide), by decide⟩
theorem test_meets_SlotBound_held : ((binding 60 [[(0, 1)]]).slot 63).heldWrites = [[(0, 1)]]
    ∧ (binding 60 [[(0, 1)]]).promoting 63 = false ∧ ((binding 60 [[(0, 1)]]).entry 0).image.pending = none := by decide

/-- `base` with a pending correction of the first link. -/
def offering : State := based fun x => { x with image := { ctx1 with pending := some corr1 } }

theorem test_meets_SlotBound_delivers : (binding 58 [] offering).Steady ∧ (binding 58 [] offering).ServedBy 0 key1 0
    ∧ ((binding 58 [] offering).entry 0).image.pending = some corr1 ∧ 60 < 58 + 4
    ∧ (binding 58 [] offering).reqOf .promotion = none ∧ (binding 58 [] offering).promotions = [] :=
  ⟨steady_of (by decide), by decide⟩
theorem test_meets_SlotBound_gone : (binding 60 [] base 2 ⟨0, 3⟩).present 2 ⟨0, 3⟩ = false := by decide

/-- The promotion of `corr1` in progress on the first link's context, changed. -/
def promoting (f : Context → Context) (c : Correction := corr1) : State :=
  { asked (based fun x => { x with image := f x.image }) .promotion 0 key1 with
    promotions := [⟨63, 0, key1, c⟩]
    slots := base.slotsWith 63 { state := .delivered, copy := some (.correction 0 key1 c) } }

theorem test_meets_PromotionDecided : (promoting id).Steady ∧ (promoting id).Ready .promotion 0 key1
    ∧ ((promoting id).slot 63).heldWrites = [] ∧ (promoting id).ServedBy 0 key1 0
    ∧ ((promoting id).entry 0).image.basis = corr1.basis ∧ ((promoting id).entry 0).image.pending = none :=
  ⟨steady_of (by decide), by decide⟩
theorem test_meets_PromotionDecided_basis :
    ((promoting fun c => { c with basis := 65535 }).entry 0).image.basis ≠ corr1.basis := by decide
theorem test_meets_PromotionDecided_done :
    ((promoting fun c => { c with pending := some corr1 }).entry 0).image.pending = some corr1 := by decide
theorem test_meets_PromotionDecided_other :
    ((promoting fun c => { c with pending := some { corr1 with id := 2 } }).entry 0).image.pending
      = some { corr1 with id := 2 } := by decide
theorem test_meets_PromotionDecided_gone : ({ promoting id with kdir := [] } : State).present 0 key1 = false := by decide

/-! ## The notice writer -/

theorem test_meets_Notices_handed : ((⟨1022, 0, 0⟩ : Ring).claimed + 1024 - 0) % 1024 < 1023
    ∧ 1023 ≤ ((⟨1023, 0, 0⟩ : Ring).claimed + 1024 - 0) % 1024 := by decide
theorem test_meets_Notices : (waits base .notice).oldest isNotice ⟨.notice, 0, .write []⟩ []
    ∧ (waits base .noticeProducer).oldest isNoticeProducer ⟨.noticeProducer, 0, .write []⟩ [] := by decide
theorem test_meets_OffersPublished :
    (waits base (.offer 1023 key1)).oldest isOffer ⟨.offer 1023 key1, 0, .write []⟩ []
    ∧ (waits base (.dueProducer 1)).oldest isDueProducer ⟨.dueProducer 1, 0, .write []⟩ [] := by decide

/-! ## The command unit -/

/-- A descriptor with this code and these bytes, the rest zero. -/
def desc (code : Byte) (ps : List (Nat × Byte)) : List Byte := putBytes (zeros 32) ((0, code) :: ps)

/-- CMU holds a descriptor it has not begun. -/
def holds (s : State) (d : List Byte) : State := phased s (.executing d)

/-- CMU in a phase, with the phase's access outstanding. -/
def ending (s : State) (p : CmuPhase) (a : Purpose) : State := waits (phased s p) a

/-- An outstanding access of `ending`. -/
def endAccess (a : Purpose) : Access := ⟨a, 0, .write []⟩

theorem test_meets_DescriptorFetched :
    (waits (phased base .fetching) .descriptor (.read 32)).oldest (isPurpose .descriptor) ⟨.descriptor, 0, .read 32⟩ []
    ∧ (desc 0x21 []).length = 32 ∧ cmdCode (desc 0x21 []) = 0x21
    ∧ cmdCode (desc 0x22 []) ∉ [0x01, 0x02, 0x03, 0x04, 0x05, 0x10, 0x11, 0x12, 0x13, 0x14, 0x15, 0x20, 0x21] := by
  decide +kernel
theorem test_meets_AnswerWritten :
    (ending base (.resultWrite 1 .done) .resultField).oldest (isPurpose .resultField) (endAccess .resultField) []
    ∧ (ending base .statusWrite .status).oldest (isPurpose .status) (endAccess .status) []
    ∧ (ending base .indexWrite .consumerWord).oldest (isPurpose .consumerWord) (endAccess .consumerWord) []
    ∧ base.cmu.producer = base.cmu.consumer := by decide
theorem test_meets_AnswerWritten_more : ({ base with cmu := { base.cmu with producer := 255 } } : State).cmu.producer ≠ 0
    ∧ 1 < 2 := by decide

theorem test_meets_StartRuns : (holds base (desc 0x01 [])).Executing 0x01 (desc 0x01 []) ∧ base.run = .running
    ∧ (holds { base with run := .idle } (desc 0x01 [])).run ≠ .running ∧ base.contextWindow ≠ none
    ∧ State.reset.contextWindow = none := by decide +kernel
theorem test_meets_StopStops : (holds base (desc 0x02 [])).Executing 0x02 (desc 0x02 []) ∧ base.run = .running
    ∧ (∀ w, w < 6 → base.assembly w = none) := by decide +kernel
theorem test_meets_StopStops_torn : (holds (naming base) (desc 0x02 [])).Executing 0x02 (desc 0x02 [])
    ∧ ((naming base).assembly 1).isSome = true ∧ ((naming base).assembly 5).isSome = true := by decide +kernel

/-- STOP discards both open assemblies, the lower entry's first (R54, log 37). -/
theorem test_stop_tears_both :
    (after (exec .stop (holds (naming base) (desc 0x02 [])))).map
      (fun t => ((t.channel 0).counters.torn, (t.channel 15).counters.torn, t.nw.notices.claimed)) = some (1, 1, 2) := by
  decide +kernel
theorem test_meets_StopStops_end :
    (ending base .mirrorWrite .mirror).oldest (isPurpose .mirror) (endAccess .mirror) [] := by decide

/-- A SET_WINDOW descriptor, the base in units of 2^24 and the size in units of 256. -/
def setWindow (entry kind base size : Byte) : List Byte := desc 0x03 [(8, entry), (9, kind), (15, base), (21, size)]

theorem test_meets_WindowSet : (holds base (setWindow 5 1 0x30 0x10)).Executing 0x03 (setWindow 5 1 0x30 0x10)
    ∧ base.checkWindow 5 1 0x30000000 4096 = .ok (some ⟨.capture, 0x30000000, 4096⟩)
    ∧ base.checkWindow 6 1 0x30000000 4096 = .error .range ∧ base.checkWindow 5 1 0x30000000 4352 = .error .range
    ∧ base.checkWindow 5 1 0x20000000 4096 = .error .overlap ∧ base.checkWindow 5 1 0x01000000 4096 = .error .overlap
    ∧ base.checkWindow 5 2 0x30000000 4096 = .error .inUse ∧ base.checkWindow 0 2 0x30000000 4096 = .error .inUse
    ∧ base.checkWindow 0 0 0 0 = .error .inUse ∧ base.checkWindow 1 0 0 0 = .ok none
    ∧ base.checkWindow 0 2 0x10000000 4096 = .ok (base.window 0) := by decide +kernel
theorem test_meets_WindowSet_torn :
    (holds (naming base) (setWindow 1 1 0x30 0x10)).Executing 0x03 (setWindow 1 1 0x30 0x10)
    ∧ base.checkWindow 1 1 0x30000000 4096 = .ok (some ⟨.capture, 0x30000000, 4096⟩)
    ∧ (naming base).window 1 ≠ some ⟨.capture, 0x30000000, 4096⟩ := by decide +kernel

/-- A policy block with every field its default. -/
def block : List Byte := Policy.toBytes {}

theorem test_meets_PolicySet : (holds base (desc 0x04 [(4, 15)])).Executing 0x04 (desc 0x04 [(4, 15)])
    ∧ byteAt (desc 0x04 [(4, 15)]) 4 = 15 ∧ getAddress (desc 0x04 [(4, 15)]) 8 % 64 = 0
    ∧ getAddress (desc 0x04 [(8, 63)]) 8 % 64 ≠ 0 ∧ 15 < byteAt (desc 0x04 [(4, 16)]) 4 := by decide +kernel
theorem test_meets_PolicySet_end : block.length = 64 ∧ (Policy.read block).clamp = Policy.read block
    ∧ (ending base (.policyRead 15) .policyBlock).oldest (isPurpose .policyBlock) (endAccess .policyBlock) []
    ∧ (base.channel 15).state = .closed ∧ (base.channel 0).state ≠ .closed
    ∧ (Policy.read (block.set 0 5)).clamp.mainTap ≠ (base.policy 0).mainTap ∧ (∃ k ∈ base.kdir, k.1.channel = 0)
    ∧ ¬ ∃ k ∈ base.kdir, k.1.channel = 15 := by decide +kernel
theorem test_meets_RecordsReported : (holds base (desc 0x05 [(4, 15)])).Executing 0x05 (desc 0x05 [(4, 15)])
    ∧ (holds base (desc 0x21 [])).Executing 0x21 (desc 0x21 [])
    ∧ (ending base (.channelWrite 15 true ⟨0, 0, 0, 0, 0, 0⟩) .channelRecord).oldest (isPurpose .channelRecord)
      (endAccess .channelRecord) []
    ∧ (ending base .identifyWrite .identify).oldest (isPurpose .identify) (endAccess .identify) [] := by decide +kernel

/-- An ADMIT descriptor of a link of channel 0 with a timing offset beyond the range. -/
def admitting (station : Byte) : List Byte := desc 0x10 [(6, station), (11, 0x7F)]

theorem test_meets_Admitted : (holds base (admitting 3)).Executing 0x10 (admitting 3)
    ∧ getKey (admitting 3) 4 = ⟨0, 3⟩ ∧ base.checkAdmit ⟨0, 3⟩ = .ok 2 ∧ base.checkAdmit ⟨0, 0⟩ = .error .keyInvalid
    ∧ base.checkAdmit ⟨15, 16383⟩ = .error .closed ∧ base.checkAdmit key1 = .error .duplicate
    ∧ ({ base with windows := State.reset.windows } : State).checkAdmit key1 = .error .state
    ∧ ({ base with kdir := (List.range 16).map fun i => (⟨0, i + 4⟩, i) } : State).checkAdmit key1 = .error .full := by
  decide +kernel

/-- An ADMIT whose image write is outstanding. -/
def admitted : State := ending base (.admitWrite ⟨0, 3⟩ 2 true) .admitImage

theorem test_meets_Admitted_end : admitted.Steady ∧ admitted.Judged
    ∧ admitted.oldest (isPurpose .admitImage) (endAccess .admitImage) [] :=
  ⟨steady_of (by decide), fun t h => absurd h (by simp [admitted, ending, waits, phased, base, State.reset]), by decide⟩

/-- A RELEASE descriptor of a station of channel 0. -/
def releasing (station : Byte) : List Byte := desc 0x11 [(6, station)]

theorem test_meets_Released : (holds base (releasing 1)).Steady ∧ (holds base (releasing 1)).Executing 0x11 (releasing 1)
    ∧ base.lookup (getKey (releasing 1) 4) = some 0 ∧ base.lookup (getKey (releasing 3) 4) = none
    ∧ (base.kdir.filter fun p => p.1.channel == 0) = (key1, 0) :: [(key2, 1)]
    ∧ base.inProgress (isWriteBack 0) = false ∧ base.findEntry 0 = some 0 ∧ base.findEntry 1 = none
    ∧ (base.entry 0).cond = .valid := ⟨steady_of (by decide +kernel), by decide +kernel⟩
theorem test_meets_Released_pinned : ((computing none).entry 0).pinned = true := by decide
theorem test_meets_Released_fetching : (holds obtaining2 (releasing 2)).Steady
    ∧ obtaining2.lookup (getKey (releasing 2) 4) = some 1 ∧ (obtaining2.entry 31).cond = .fetching :=
  ⟨steady_of (by decide +kernel), by decide +kernel⟩
theorem test_meets_Released_channel : (getKey (releasing 0) 4).station = 0
    ∧ (base.kdir.filter fun p => p.1.channel == (getKey (releasing 0) 4).channel) = (key1, 0) :: [(key2, 1)] := by
  decide +kernel
theorem test_meets_Released_drains : (holds (retiring id) (releasing 1)).Steady
    ∧ (retiring id).inProgress (isWriteBack 0) = true ∧ ((retiring id).entry 0).cond = .retiring
    ∧ ((retiring id).entry 0).pinned = false ∧ ((retiring fun x => { x with pinned := true }).entry 0).pinned = true :=
  ⟨steady_of (by decide +kernel), by decide⟩
theorem test_meets_Released_passes : (holds handingOn (releasing 1)).Steady
    ∧ handingOn.reqs = [] ++ ⟨.engine, 1, key2, .writeBack 0⟩ :: [] :=
  ⟨steady_of (by decide +kernel), rfl⟩

/-- A RELEASE whose header write is outstanding. -/
def releasedEnd : State := ending base (.releaseWrite key2 1 [] false) .releaseHeader

theorem test_meets_Released_end : releasedEnd.Steady ∧ releasedEnd.Judged
    ∧ releasedEnd.oldest (isPurpose .releaseHeader) (endAccess .releaseHeader) [] :=
  ⟨steady_of (by decide), fun t h => absurd h (by simp [releasedEnd, ending, waits, phased, base, State.reset]),
    by decide⟩
theorem test_meets_Released_drained :
    let s := ending base (.releaseDrain key2 1 [(key1, 0)] false) (.writeBack 1 key2)
    s.Steady ∧ s.oldest (isWriteBack 1) (endAccess (.writeBack 1 key2)) [] ∧ s.findEntry 1 = none :=
  ⟨steady_of (by decide), by decide⟩

/-- A RELEASE of a channel whose first header write is outstanding, the first link's context still to visit. -/
def releasedMore : State := ending base (.releaseWrite key2 1 [(key1, 0)] false) .releaseHeader

theorem test_meets_Released_next : releasedMore.Steady ∧ releasedMore.Judged
    ∧ releasedMore.oldest (isPurpose .releaseHeader) (endAccess .releaseHeader) []
    ∧ releasedMore.inProgress (isWriteBack 0) = false ∧ (releasedMore.entry 0).cond = .valid :=
  ⟨steady_of (by decide), fun t h => absurd h (by simp [releasedMore, ending, waits, phased, base, State.reset]),
    by decide⟩

/-- The first link is LAPSED. -/
def lapsed : State :=
  { base with
    calendar := []
    entries := base.entriesWith 0 { base.entry 0 with image := { ctx1 with state := .lapsed, hold := true } } }

/-- A REVIVE descriptor of a station of channel 0. -/
def reviving (station : Byte) : List Byte := desc 0x12 [(6, station)]

theorem test_meets_Revived : (holds lapsed (reviving 1)).Steady ∧ (holds lapsed (reviving 1)).Executing 0x12 (reviving 1)
    ∧ lapsed.lookup key1 = some 0 ∧ lapsed.calEntry 0 = none ∧ lapsed.ServedBy 0 key1 0 ∧ base.calEntry 0 ≠ none :=
  ⟨steady_of (by decide +kernel), by decide +kernel⟩
theorem test_meets_Revived_walk : (holds lapsed (reviving 0)).Steady
    ∧ lapsed.kdir.filter (fun p => p.1.channel == 0) = [] ++ (key1, 0) :: [(key2, 1)] ∧ lapsed.calEntry 0 = none :=
  ⟨steady_of (by decide), by decide⟩
theorem test_meets_Revived_given :
    let s := asked (phased lapsed (.reviving key1 0 [] true)) .revive 0 key1
    s.Steady ∧ s.Ready .revive 0 key1 ∧ s.ServedBy 0 key1 0
    ∧ ({ s with kdir := [] } : State).present 0 key1 = false := ⟨steady_of (by decide), by decide⟩

/-- A FORCE_DUE descriptor. -/
def forcing (mask station : Byte) : List Byte := desc 0x13 [(4, mask), (8, station)]

theorem test_meets_ForcedDue : (holds base (forcing 1 1)).Executing 0x13 (forcing 1 1)
    ∧ getLe (forcing 1 1) 4 4 = 2 ^ 0 ∧ base.lookup ⟨0, getLe (forcing 1 1) 8 2⟩ = some 0 ∧ base.calEntry 0 ≠ none
    ∧ base.calEntry 1 = none ∧ (∀ c, c < 16 → getLe (forcing 3 1) 4 4 ≠ 2 ^ c) ∧ getLe (forcing 0 1) 4 4 = 0
    ∧ 65536 ≤ getLe (desc 0x13 [(6, 1)]) 4 4 ∧ 16383 < getLe (desc 0x13 [(9, 64)]) 8 2 := by decide +kernel
theorem test_meets_ForcedDue_channels : (holds base (forcing 1 0)).Executing 0x13 (forcing 1 0)
    ∧ getLe (forcing 1 0) 8 2 = 0 ∧ (phased base (.forcing [(key2, 1)])).cmu.phase = .forcing [(key2, 1)] := by
  decide +kernel

/-- A step of FORCE_DUE with station 0 visits one link, and another may be heard before the next (R124, log 18). -/
theorem test_force_one_visit : (after (exec .forceDue (holds base (forcing 1 0)))).map
    (fun t => (t.cmu.phase, t.calendar.map fun e => e.kind)) = some (.forcing [(key2, 1)], [.offerForced]) := by
  decide +kernel

/-- A TRIAL descriptor of a station of channel 0 with its record at this low byte of address. -/
def trying (station low : Byte) : List Byte := desc 0x14 [(6, station), (8, low), (13, 1)]

theorem test_meets_TrialQueued : (holds base (trying 1 64)).Executing 0x14 (trying 1 64)
    ∧ base.lookup (getKey (trying 1 64) 4) = some 0 ∧ getAddress (trying 1 64) 8 % 64 = 0
    ∧ getAddress (trying 1 63) 8 % 64 ≠ 0 ∧ base.lookup (getKey (trying 3 64) 4) = none := by decide +kernel
theorem test_meets_TrialQueued_end : (record key1 0).length = 64 ∧ base.queue.length < 64 ∧ 64 ≤ crowded.queue.length
    ∧ (ending base (.trialRead key1 0 true) .trialRecord).oldest (isPurpose .trialRecord) (endAccess .trialRecord) []
    := by decide +kernel

/-- A READ_CONTEXTS descriptor from a station of channel 0, two contexts to 0x30000000. -/
def copies (station : Byte) : List Byte := desc 0x15 [(6, station), (8, 2), (15, 0x30)]

theorem test_meets_ContextsRead : (holds base (copies 1)).Steady ∧ (holds base (copies 1)).Executing 0x15 (copies 1)
    ∧ ((base.kdir.filter fun p => !(p.1.lt (getKey (copies 1) 4))).take 2) = (key1, 0) :: [(key2, 1)]
    ∧ ((base.kdir.filter fun p => !(p.1.lt (getKey (copies 3) 4))).take 2) = [] ∧ base.ServedBy 0 key1 0 :=
  ⟨steady_of (by decide +kernel), by decide +kernel⟩

/-- The work of a READ_CONTEXTS with this left to visit. -/
def work (rest : List (Key × Nat)) : CopyWork := ⟨rest, 0x30000000, 2, 0, {}⟩

theorem test_meets_ContextsRead_composed :
    let s := asked (phased base (.copying key1 0 (work []))) .copy 0 key1
    s.Steady ∧ s.Ready .copy 0 key1 ∧ s.ServedBy 0 key1 0 := ⟨steady_of (by decide), by decide⟩
theorem test_meets_ContextsRead_end :
    let s := ending base (.copyWrite key2 (work [(key1, 0)])) .contextCopy
    s.Steady ∧ s.oldest (isPurpose .contextCopy) (endAccess .contextCopy) [] ∧ s.ServedBy 0 key1 0 :=
  ⟨steady_of (by decide), by decide⟩
theorem test_meets_NotifySet : (holds base (desc 0x20 [(8, 65), (11, 4)])).Executing 0x20 (desc 0x20 [(8, 65), (11, 4)])
    := by decide +kernel

/-! ## The arithmetic, the records and the invariants -/

theorem test_meets_RoundsHalfAway : 0 < 1 ∧ 2 * ((5 : Int) - roundDiv 5 2 * (2 : Nat)).natAbs = 2 := by decide
theorem test_meets_TapsNormalised : (11 : Nat) < 12
    ∧ (stageQ (tapsAt [(11, ⟨1024, 0⟩)]) (identityTaps 11) 11 0).taps.isSome = true
    ∧ (stageQ (tapsAt [(11, ⟨1023, 0⟩)]) (identityTaps 11) 11 0).taps = none := by decide +kernel

/-- A tap set whose main tap comes out of the convolution with `bigIssued` as 262,128 and 1 for each `x`. -/
def bigTaps (x : Int) : List Tap := tapsAt [(3, ⟨32767, 0⟩), (4, ⟨x, 0⟩), (5, ⟨32767, 0⟩)]

/-- Issued taps that carry a captured set beyond the upper bound of R36. -/
def bigIssued : List Tap := tapsAt [(3, ⟨32767, 0⟩), (4, ⟨8192, 0⟩), (5, ⟨32767, 0⟩)]

theorem test_meets_TapsNormalised_high :
    (stageQ (bigTaps 15) bigIssued 4 0).r = 262143 ∧ (stageQ (bigTaps 15) bigIssued 4 0).taps.isSome = true
    ∧ (stageQ (bigTaps 16) bigIssued 4 0).r = 262144 ∧ (stageQ (bigTaps 16) bigIssued 4 0).taps = none := by
  decide +kernel
theorem test_meets_TapsNormalised_health : ((List.range 12).map fun k => (tapAt (identityTaps 4) k).re ^ 2).sum = 8192 ^ 2
    ∧ healthOf [] 4 = 0 := by decide +kernel
theorem test_meets_UpdateVerdicts : (figures snap4 record4 (captureGains snap4 record4)).degenerate = false
    ∧ snap4.state = .acquiring := by decide +kernel
theorem test_meets_UpdateVerdicts_rejected :
    (figures { snap4 with taps := List.replicate 12 {} } record4 (captureGains snap4 record4)).degenerate = true
    ∧ (figures { snap4 with taps := List.replicate 12 {} } record4 (captureGains snap4 record4)).tapStage.isSome = true := by
  decide +kernel
theorem test_meets_UpdateVerdicts_taps : recTapsPresent record4 = true ∧ snap4.freeze = false
    ∧ snap4.policy.snrMin ≤ recSnr record4 ∧ recSnr (record4.set 7 0) < snap4.policy.snrMin
    ∧ recTapsPresent (record4.set 7 0) = true ∧ recTapsPresent (zeros 64) = false
    ∧ ¬ snap4.policy.relapseTiming < (recTiming record4).natAbs
    ∧ snap4.policy.relapseTiming < (recTiming (record4.set 6 64)).natAbs ∧ ctx4.state ≠ applied4.ctx.state := by decide +kernel
theorem test_meets_PolicyRoundTrip : ({} : Policy).clamp = {} := by decide +kernel
theorem test_meets_ContextRoundTrip : ctx4.Fits where
  key := by unfold fits; decide
  counts := by unfold fits; decide
  offsets := by unfold fitsInt; decide
  sequences := by unfold fits; decide
  taps := by unfold TapsFit fitsInt; decide +kernel
  pending := by intro p h; cases h
  measured := by unfold fitsInt fits; decide
  counters := by unfold fits; decide
theorem test_meets_StepKeepsQueue : ∃ t, step base = .next t ∧ base.QueueOk ∧ base.CalendarOk ∧ base.OpenOk :=
  ⟨_, rfl, ⟨by decide, by decide⟩, by unfold State.CalendarOk; decide, by unfold State.OpenOk; decide⟩
theorem test_meets_StepKeepsQueue_full : full.OpenOk ∧ full.txns.length = 32 := by unfold State.OpenOk; decide
theorem getD_beyond {α : Type} {n : Nat} (v : Vector α n) (i : Nat) (d : α) (h : n ≤ i) : v.getD i d = d := by
  simp [Vector.getD, Array.getD, h]
theorem window_below {i : Nat} {w : Window} (h : base.window i = some w) : i < 6 := by
  by_contra hi
  rw [State.window, getD_beyond _ _ _ (Nat.le_of_not_lt hi)] at h
  cases h
theorem only_entry0 (d : Nat) (h : (base.entry d).cond ≠ .invalid) : d = 0 := by
  by_contra hd
  refine h ?_
  by_cases hl : d < 32
  · have all : ∀ e, e < 32 → e ≠ 0 → (base.entry e).cond = .invalid := by decide
    exact all d hl hd
  · rw [State.entry, getD_beyond _ _ _ (Nat.le_of_not_lt hl)]
theorem test_meets_StepKeepsWindows_cache : base.CacheOk where
  single d e hd he _ := (only_entry0 d hd).trans (only_entry0 e he).symm
  awaited r hr := absurd hr (by simp [base, State.reset])
theorem test_meets_StepKeepsWindows : base.WindowsOk where
  reset h := absurd h (by decide)
  legal i w h := by
    have all : ∀ j, j < 6 → ∀ v, base.window j = some v → v.legal := by unfold Window.legal; decide +kernel
    exact all i (window_below h) w h
  apart i j w x hi hj hij := by
    have all : ∀ k, k < 6 → ∀ l, l < 6 → k ≠ l → ∀ v, base.window k = some v → ∀ u, base.window l = some u →
        overlaps v.base v.size u.base u.size = false := by decide +kernel
    exact all i (window_below hi) j (window_below hj) hij w hi x hj
  control i w h := by
    have all : ∀ j, j < 6 → ∀ v, base.window j = some v → base.overlapsControl v.base v.size = false := by
      decide +kernel
    exact all i (window_below h) w h
  oneContext := by decide +kernel
  fiveCapture := by decide +kernel
theorem test_meets_StepKeepsDirectory : base.DirectoryOk where
  ordered := by decide
  indices := by decide
  within := by decide +kernel
  admitting := by intro key idx clamped h; cases h

end Sys2Proof.Tests
end

section
/-!
PROOFS. The key directory (R2, R4, R19): what the operations of the blocks leave of it. None but the end of an ADMIT
image write adds a key, none but RELEASE takes one out, and none but ADMIT begins an ADMIT image write.
-/

namespace Sys2Proof.Machine

/-! ## What the directory's rules speak of -/

/-- The key directory, the window table that bounds its indices, and the phase an outstanding ADMIT write shows in. -/
structure Directory where
  kdir : List (Key × Nat)
  windows : Vector (Option Window) 6
  phase : CmuPhase

/-- The directory of a state. -/
def State.dir (s : State) : Directory := ⟨s.kdir, s.windows, s.cmu.phase⟩

/-- The directory of a state written out. -/
@[simp] theorem State.mk_dir (a1 a2 a3 a4 a5 a6 a7 a8 a9 a10 a11 a12 a13 a14 a15 a16 a17 a18 a19 a20 a21 a22 a23
    a24 a25 a26) :
    (State.mk a1 a2 a3 a4 a5 a6 a7 a8 a9 a10 a11 a12 a13 a14 a15 a16 a17 a18 a19 a20 a21 a22 a23 a24 a25 a26).dir
      = ⟨a9, a5, a19.phase⟩ := rfl

/-- The directory, field by field. -/
@[simp] theorem State.dir_fields (s : State) : Directory.mk s.kdir s.windows s.cmu.phase = s.dir := rfl

/-- A directory that has lost keys at most, over the same windows, with no ADMIT write the other has not. -/
structure Directory.Within (d d0 : Directory) : Prop where
  kdir : d.kdir.Sublist d0.kdir
  windows : d.windows = d0.windows
  admitting : ∀ k i c, d.phase = .admitWrite k i c → d0.phase = .admitWrite k i c

@[simp] theorem Directory.Within.refl (d : Directory) : d.Within d := ⟨.refl _, rfl, fun _ _ _ h => h⟩

theorem Directory.Within.trans {a b c : Directory} (h : a.Within b) (k : b.Within c) : a.Within c :=
  ⟨h.kdir.trans k.kdir, h.windows.trans k.windows, fun x i y hp => k.admitting x i y (h.admitting x i y hp)⟩

/-- A phase that is no ADMIT write may take the place of any. -/
theorem Directory.Within.phase {d d0 : Directory} (h : d.Within d0) {p : CmuPhase}
    (hp : ∀ k i c, p ≠ .admitWrite k i c) : Directory.Within ⟨d.kdir, d.windows, p⟩ d0 :=
  ⟨h.kdir, h.windows, fun k i c he => absurd he (hp k i c)⟩

/-- What each step of a fold keeps within, the fold keeps within. -/
theorem foldl_within {α : Type} (f : State → α → State) (h : ∀ s x, (f s x).dir.Within s.dir) (xs : List α)
    (s : State) : (xs.foldl f s).dir.Within s.dir := by
  induction xs generalizing s with
  | nil => exact .refl _
  | cons x xs ih => exact (ih _).trans (h s x)

/-- The pool capacity is the window table's (R162). -/
theorem capacity_of_windows {s t : State} (h : t.windows = s.windows) : t.capacity = s.capacity := by
  simp only [State.capacity, State.contextWindow, State.windowsOf, State.window, h]

/-- What lies within a directory that meets the invariant meets it. -/
theorem directoryOk_of_within {s t : State} (h : s.DirectoryOk) (hw : t.dir.Within s.dir) : t.DirectoryOk where
  ordered := h.ordered.sublist hw.kdir
  indices := h.indices.sublist (hw.kdir.map _)
  within p hp := capacity_of_windows hw.windows ▸ h.within p (hw.kdir.subset hp)
  admitting key idx clamped hp := by
    obtain ⟨hi, hk⟩ := h.admitting key idx clamped (hw.admitting _ _ _ hp)
    exact ⟨capacity_of_windows hw.windows ▸ hi, fun p hm => hk p (hw.kdir.subset hm)⟩

@[simp] theorem setChannel_dir (s : State) (ch : Nat) (c : Channel) : (s.setChannel ch c).dir = s.dir := rfl
@[simp] theorem setSlot_dir (s : State) (n : Nat) (x : Slot) : (s.setSlot n x).dir = s.dir := rfl
@[simp] theorem setEntry_dir (s : State) (e : Nat) (x : Entry) : (s.setEntry e x).dir = s.dir := rfl
@[simp] theorem setAssembly_dir (s : State) (w : Nat) (a : Option Assembly) : (s.setAssembly w a).dir = s.dir := rfl
@[simp] theorem setQuietTimer_dir (s : State) (ch : Nat) (t : Option QuietTimer) :
    (s.setQuietTimer ch t).dir = s.dir := rfl
@[simp] theorem submit_dir (s : State) (src : Source) (a : Access) (o : Option Nat) :
    (s.submit src a o).dir = s.dir := rfl
@[simp] theorem pass_dir (s : State) (id : Nat) (i : Initiator) (a : Nat) (b : Body) :
    (s.pass id i a b).dir = s.dir := rfl
@[simp] theorem wakePort_dir (s : State) : (wakePort s).dir = s.dir := rfl
@[simp] theorem modifyTxn_dir (s : State) (id : Nat) (f : Txn → Txn) : (s.modifyTxn id f).dir = s.dir := rfl
@[simp] theorem failTxn_dir (s : State) (id : Nat) : (s.failTxn id).dir = s.dir := rfl
@[simp] theorem countChannel_dir (s : State) (ch : Nat) (f : ChanCounters → ChanCounters) :
    (s.countChannel ch f).dir = s.dir := rfl
@[simp] theorem grantAll_dir (s : State) : (grantAll s).dir = s.dir := rfl
@[simp] theorem claimNotice_dir (n : Notice) (s : State) : (claimNotice n s).dir = s.dir := rfl
@[simp] theorem claimOffer_dir (e : CalEntry) (r : OfferReason) (s : State) : (claimOffer e r s).dir = s.dir := rfl
@[simp] theorem lapseDrop_dir (i : Nat) (s : State) : (lapseDrop i s).dir = s.dir := rfl
@[simp] theorem calKeep_dir (e : CalEntry) (s : State) : (calKeep e s).dir = s.dir := rfl
@[simp] theorem calSet_dir (e : CalEntry) (s : State) : (calSet e s).dir = s.dir := rfl
@[simp] theorem calRemove_dir (i : Nat) (s : State) : (calRemove i s).dir = s.dir := rfl
@[simp] theorem calMake_dir (i : Nat) (k : Key) (c : PeriodClass) (s : State) : (calMake i k c s).dir = s.dir := rfl
@[simp] theorem restartQuiet_dir (ch : Nat) (s : State) : (restartQuiet ch s).dir = s.dir := rfl
@[simp] theorem addReq_dir (w : Requester) (i : Nat) (k : Key) (x : Wait) (s : State) :
    (addReq w i k x s).dir = s.dir := rfl
@[simp] theorem dropReq_dir (w : Requester) (s : State) : (dropReq w s).dir = s.dir := rfl
@[simp] theorem rechoose_dir (e : Nat) (s : State) : (rechoose e s).dir = s.dir := rfl
@[simp] theorem arrive_dir (p : PortTxn) (s : State) : (arrive p s).dir = s.dir := rfl
@[simp] theorem startWriteBack_dir (e i : Nat) (s : State) : (startWriteBack e i s).dir = s.dir := rfl
@[simp] theorem releaseJob_dir (i : Nat) (s : State) : (releaseJob i s).dir = s.dir := rfl
@[simp] theorem bindCopy_dir (n : Nat) (c : BoundCopy) (s : State) : (bindCopy n c s).dir = s.dir := rfl
@[simp] theorem armSlot_dir (n : Nat) (ps : List (Nat × Byte)) (s : State) : (armSlot n ps s).dir = s.dir := rfl
@[simp] theorem wakeFetch_dir (i : Nat) (s : State) : (wakeFetch i s).dir = s.dir := rfl
@[simp] theorem placeHolds_dir (e : Nat) (s : State) : (placeHolds e s).dir = s.dir := rfl
@[simp] theorem writeBackFault_dir (e : Nat) (s : State) : (writeBackFault e s).dir = s.dir := rfl
@[simp] theorem cancelReuse_dir (e : Nat) (s : State) : (cancelReuse e s).dir = s.dir := rfl
@[simp] theorem releaseRequests_dir (i : Nat) (k : Key) (s : State) : (releaseRequests i k s).dir = s.dir := rfl
@[simp] theorem writeCompleted_dir (i : Nat) (b : Bool) (s : State) : (writeCompleted i b s).dir = s.dir := rfl
@[simp] theorem flush_dir (s : State) : (flush s).dir = s.dir := rfl
@[simp] theorem handDueConsumer_dir (v : BitVec 32) (s : State) : (handDueConsumer v s).dir = s.dir := rfl
@[simp] theorem publishNotice_dir (s : State) : (publishNotice s).dir = s.dir := rfl
@[simp] theorem publishOffer_dir (s : State) : (publishOffer s).dir = s.dir := rfl
@[simp] theorem notify_dir (n : Notice) (s : State) : (notify n s).dir = s.dir := by
  unfold notify
  split <;> simp
@[simp] theorem notifyAll_dir (ns : List Notice) (s : State) : (notifyAll ns s).dir = s.dir :=
  foldl_keeps State.dir _ (fun s n => notify_dir n s) ns s
@[simp] theorem memoryFault_dir (a : FaultAccess) (k : Key) (d : Nat) (s : State) :
    (memoryFault a k d s).dir = s.dir := by
  simp [memoryFault]
@[simp] theorem completePart_dir (s : State) (id k : Nat) (f : Nat → Byte → Byte) :
    (s.completePart id k f).dir = s.dir := by
  unfold State.completePart
  split <;> simp
@[simp] theorem calHeard_dir (i : Nat) (t : Tick) (s : State) : (calHeard i t s).dir = s.dir := by
  unfold calHeard
  split <;> simp
@[simp] theorem calReclass_dir (i : Nat) (c : PeriodClass) (s : State) : (calReclass i c s).dir = s.dir := by
  unfold calReclass
  (repeat' split) <;> simp
@[simp] theorem calClass_dir (i : Nat) (c : PeriodClass) (s : State) : (calClass i c s).dir = s.dir := by
  unfold calClass
  split <;> simp
@[simp] theorem calForce_dir (i : Nat) (s : State) : (calForce i s).dir = s.dir := by
  unfold calForce
  (repeat' split) <;> simp
@[simp] theorem calRebase_dir (s : State) : (calRebase s).dir = s.dir := rfl
@[simp] theorem touch_dir (e : Nat) (s : State) : (touch e s).dir = s.dir := by
  unfold touch
  split <;> simp
@[simp] theorem touchFor_dir (w : Requester) (e : Nat) (s0 s : State) : (touchFor w e s0 s).dir = s.dir := by
  unfold touchFor
  (repeat' split) <;> simp
@[simp] theorem invalidate_dir (e : Nat) (s : State) : (invalidate e s).dir = s.dir := by
  unfold invalidate
  dsimp only
  split <;> simp
@[simp] theorem markJob_dir (i : Nat) (k : Key) (c : LossCause) (s : State) : (markJob i k c s).dir = s.dir := by
  unfold markJob
  (repeat' split) <;> simp
@[simp] theorem cancelIfEnded_dir (e : Nat) (s : State) : (cancelIfEnded e s).dir = s.dir := by
  unfold cancelIfEnded
  dsimp only
  split <;> simp
@[simp] theorem modifyImage_dir (e : Nat) (f : Context → Context) (s : State) :
    (modifyImage e f s).dir = s.dir := by
  simp [modifyImage]
@[simp] theorem startFetch_dir (e i : Nat) (k : Key) (s : State) : (startFetch e i k s).dir = s.dir := by
  simp [startFetch]
@[simp] theorem passOn_dir (e : Nat) (s : State) : (passOn e s).dir = s.dir := by
  unfold passOn
  split <;> simp
@[simp] theorem releaseHold_dir (i : Nat) (k : Key) (s : State) : (releaseHold i k s).dir = s.dir := by
  unfold releaseHold
  dsimp only
  (repeat' split) <;> simp
/-- A request that takes a place in the cache leaves the directory as it is (R88, R89). -/
theorem place_dir {i : Nat} {k : Key} {s t : State} (h : place i k s = some t) : t.dir = s.dir := by
  unfold place at h
  split at h
  · cases h; simp
  · split at h
    · cases h
    · split at h <;> cases h <;> simp

@[simp] theorem requestFresh_dir (w : Requester) (i : Nat) (k : Key) (s : State) :
    (requestFresh w i k s).dir = s.dir := by
  unfold requestFresh
  split
  · simp
  · dsimp only
    split
    · simp
    · cases hp : place i k (addReq w i k .list s) with
      | none => simp
      | some t => simp [place_dir hp]
@[simp] theorem request_dir (w : Requester) (i : Nat) (k : Key) (s : State) : (request w i k s).dir = s.dir := by
  unfold request
  (repeat' split) <;> simp
@[simp] theorem holdClass_dir (i : Nat) (a b : Context) (s : State) : (holdClass i a b s).dir = s.dir := by
  unfold holdClass
  (repeat' split) <;> simp
@[simp] theorem takeOperatorWrite_dir (e : Nat) (bs : List (Nat × Byte)) (s : State) :
    (takeOperatorWrite e bs s).dir = s.dir := by
  simp [takeOperatorWrite]
@[simp] theorem reconcileHold_dir (e : Nat) (s : State) : (reconcileHold e s).dir = s.dir := by
  unfold reconcileHold
  dsimp only
  split <;> simp
@[simp] theorem operatorWrite_dir (i : Nat) (k : Key) (t : Nat) (bs : List (Nat × Byte)) (s : State) :
    (operatorWrite i k t bs s).dir = s.dir := by
  unfold operatorWrite
  (repeat' split) <;> simp
@[simp] theorem unpin_dir (s : State) : (unpin s).dir = s.dir := by
  unfold unpin
  (repeat' split) <;> simp
@[simp] theorem discardJob_dir (j : Job) (c : LossCause) (s : State) : (discardJob j c s).dir = s.dir := by
  unfold discardJob
  split <;> simp
@[simp] theorem handOver_dir (i e : Nat) (h : HandOver) (s : State) : (handOver i e h s).dir = s.dir := by
  unfold handOver
  split <;> simp
@[simp] theorem applyJob_dir (j : Job) (sn : Snapshot) (e : Nat) (s : State) :
    (applyJob j sn e s).dir = s.dir := by
  simp [applyJob]
@[simp] theorem takeJob_dir (s : State) : (takeJob s).dir = s.dir := by
  unfold takeJob
  (repeat' split) <;> simp
@[simp] theorem takeHeader_dir (n : Nat) (ps : List (Nat × Byte)) (s : State) :
    (takeHeader n ps s).dir = s.dir := by
  unfold takeHeader
  (repeat' split) <;> simp
@[simp] theorem releaseHeld_dir (n : Nat) (s : State) : (releaseHeld n s).dir = s.dir := by
  unfold releaseHeld
  split
  · rfl
  · exact foldl_keeps_from State.dir _ (fun s ps => armSlot_dir n ps s) _ _ _ rfl
@[simp] theorem startPromotion_dir (s : State) : (startPromotion s).dir = s.dir := by
  unfold startPromotion
  (repeat' split) <;> simp
@[simp] theorem deliver_dir (n : Nat) (s : State) : (deliver n s).dir = s.dir := by
  unfold deliver
  dsimp only
  split <;> simp
@[simp] theorem promoteOn_dir (p : Promotion) (e : Nat) (s : State) : (promoteOn p e s).dir = s.dir := by
  unfold promoteOn
  dsimp only
  (repeat' split) <;> simp
@[simp] theorem nextPromotion_dir (n : Nat) (s : State) : (nextPromotion n s).dir = s.dir := by
  simp [nextPromotion]
@[simp] theorem givePromotion_dir (s : State) : (givePromotion s).dir = s.dir := by
  unfold givePromotion
  (repeat' split) <;> simp
@[simp] theorem abandonPromotion_dir (s : State) : (abandonPromotion s).dir = s.dir := by
  unfold abandonPromotion
  split <;> simp
@[simp] theorem patchSlot_dir (n id k : Nat) (s : State) : (patchSlot n id k s).dir = s.dir := by
  unfold patchSlot
  (repeat' split) <;> simp
@[simp] theorem answerWaiting_dir (n : Nat) (s : State) : (answerWaiting n s).dir = s.dir := by
  unfold answerWaiting
  dsimp only
  rw [releaseHeld_dir]
  exact foldl_keeps_from State.dir _ (fun s w => by simp) _ _ _ rfl
@[simp] theorem readSlot_dir (n id k : Nat) (s : State) : (readSlot n id k s).dir = s.dir := by
  unfold readSlot
  dsimp only
  (repeat' split) <;> simp
@[simp] theorem giveSlot_dir (n : Nat) (s : State) : (giveSlot n s).dir = s.dir := by
  unfold giveSlot
  (repeat' split) <;> simp
@[simp] theorem abandonSlot_dir (n : Nat) (s : State) : (abandonSlot n s).dir = s.dir := by
  simp [abandonSlot]
@[simp] theorem startLapse_dir (s : State) : (startLapse s).dir = s.dir := by
  unfold startLapse
  (repeat' split) <;> simp
@[simp] theorem applyLapse_dir (l : Lapse) (e : Nat) (s : State) : (applyLapse l e s).dir = s.dir := by
  simp [applyLapse]
@[simp] theorem giveLapse_dir (s : State) : (giveLapse s).dir = s.dir := by
  unfold giveLapse
  (repeat' split) <;> simp
@[simp] theorem abandonLapse_dir (s : State) : (abandonLapse s).dir = s.dir := by
  unfold abandonLapse
  (repeat' split) <;> simp
@[simp] theorem releaseEntry_dir (i : Nat) (s : State) : (releaseEntry i s).dir = s.dir := by
  unfold releaseEntry
  dsimp only
  (repeat' split) <;> simp
@[simp] theorem pumpLoop_dir (n : Nat) (s : State) : (pumpLoop n s).dir = s.dir := by
  induction n generalizing s with
  | zero => rfl
  | succ n ih =>
    unfold pumpLoop
    split
    · rfl
    · split
      · rfl
      · next h => rw [ih, place_dir h]
@[simp] theorem serveList_dir (s : State) : (serveList s).dir = s.dir := by
  simp [serveList]
@[simp] theorem completeContext_dir (i : Nat) (k : Key) (h : Bool) (id n : Nat) (s : State) :
    (completeContext i k h id n s).dir = s.dir := by
  unfold completeContext
  (repeat' split) <;> simp
@[simp] theorem patchWaiting_dir (i : Nat) (s : State) : (patchWaiting i s).dir = s.dir :=
  foldl_keeps State.dir _ (fun s w => by simp) _ s
@[simp] theorem failWaiting_dir (i : Nat) (s : State) : (failWaiting i s).dir = s.dir :=
  foldl_keeps State.dir _ (fun s w => by simp) _ s
@[simp] theorem loadEntry_dir (e : Nat) (d : List Byte) (s : State) : (loadEntry e d s).dir = s.dir := by
  unfold loadEntry
  dsimp only
  rw [placeHolds_dir]
  exact foldl_keeps_from State.dir _ (fun s m => by simp) _ _ _ (by simp)
@[simp] theorem writeBackDone_dir (e : Nat) (s : State) : (writeBackDone e s).dir = s.dir := by
  unfold writeBackDone
  dsimp only
  (repeat' split) <;> simp
@[simp] theorem countTorn_dir (c : Option Nat) (s : State) : (countTorn c s).dir = s.dir := by
  unfold countTorn
  split <;> simp
@[simp] theorem discardAssembly_dir (w : Nat) (y : TornDetail) (s : State) :
    (discardAssembly w y s).dir = s.dir := by
  unfold discardAssembly
  split <;> simp
@[simp] theorem discardAll_dir (y : TornDetail) (s : State) : (discardAll y s).dir = s.dir :=
  foldl_keeps State.dir _ (fun s w => discardAssembly_dir w y s) _ s
@[simp] theorem offerJob_dir (i : Nat) (k : Key) (r : List Byte) (t : Tick) (s : State) :
    (offerJob i k r t s).dir = s.dir := by
  unfold offerJob
  (repeat' split) <;> simp
@[simp] theorem takeHeard_dir (i : Nat) (k : Key) (r : List Byte) (t : Tick) (s : State) :
    (takeHeard i k r t s).dir = s.dir := by
  unfold takeHeard
  split <;> simp
@[simp] theorem signOfLife_dir (k : Key) (t : Tick) (s : State) : (signOfLife k t s).dir = s.dir := by
  unfold signOfLife
  dsimp only
  split <;> simp
@[simp] theorem takeRecord_dir (r : List Byte) (t : Tick) (s : State) : (takeRecord r t s).dir = s.dir := by
  unfold takeRecord
  dsimp only
  (repeat' split) <;> simp
@[simp] theorem placeHold_dir (o : ReadOwner) (s : State) : (placeHold o s).dir = s.dir := by
  unfold placeHold
  (repeat' split) <;> simp
@[simp] theorem handNoticeConsumer_dir (v : BitVec 32) (s : State) : (handNoticeConsumer v s).dir = s.dir := by
  unfold handNoticeConsumer
  dsimp only
  split <;> simp
@[simp] theorem finishWrite_dir (i : Nat) (j : Initiator) (a : Nat) (w : WriteWork) (s : State) :
    (finishWrite i j a w s).dir = s.dir := by
  unfold finishWrite
  (repeat' split) <;> simp
@[simp] theorem releasePart_dir (o : ReadOwner) (s : State) : (releasePart o s).dir = s.dir := by
  unfold releasePart
  split <;> simp
@[simp] theorem takeOffer_dir (e : CalEntry) (s : State) : (takeOffer e s).dir = s.dir := by
  unfold takeOffer
  split <;> simp
@[simp] theorem takeGrace_dir (e : CalEntry) (s : State) : (takeGrace e s).dir = s.dir := by
  unfold takeGrace
  dsimp only
  (repeat' split) <;> simp
@[simp] theorem expireQuiet_dir (c : Nat) (t : QuietTimer) (s : State) : (expireQuiet c t s).dir = s.dir := by
  unfold expireQuiet
  split <;> simp
@[simp] theorem offerFault_dir (a : Access) (s : State) : (offerFault a s).dir = s.dir := by
  unfold offerFault
  split <;> simp
@[simp] theorem dueFault_dir (a : Access) (s : State) : (dueFault a s).dir = s.dir := by
  unfold dueFault
  split <;> simp
@[simp] theorem restartQuietAll_dir (s : State) : (restartQuietAll s).dir = s.dir :=
  foldl_keeps State.dir _ (fun s ch => by split <;> simp) _ s
@[simp] theorem applyPolicy_dir (c : Nat) (p : Policy) (s : State) : (applyPolicy c p s).dir = s.dir := by
  unfold applyPolicy
  dsimp only
  (repeat' split) <;> simp

/-! ## What moves the command unit, or takes keys out -/

/-- A directory as it was lies within itself. -/
theorem Directory.Within.of_eq {d d0 : Directory} (h : d = d0) : d.Within d0 := h ▸ .refl d

/-- CMU enters a phase that is no ADMIT write. -/
theorem within_phase (s : State) (p : CmuPhase) (hp : ∀ k i b, p ≠ .admitWrite k i b) :
    Directory.Within ⟨s.kdir, s.windows, p⟩ s.dir := (Directory.Within.refl s.dir).phase hp

theorem cmuSubmit_within (s : State) (a : Access) {p : CmuPhase} (o : Option Nat)
    (hp : ∀ k i b, p ≠ .admitWrite k i b) : (s.cmuSubmit a p o).dir.Within s.dir := within_phase s p hp

theorem answer_within (st : Status) (s : State) : (answer st s).dir.Within s.dir := cmuSubmit_within s _ _ (by simp)

theorem writeStatus_within (st : Status) (s : State) : (writeStatus st s).dir.Within s.dir := answer_within st s

theorem answerWith_within (fs : List (Nat × List Byte)) (st : Status) (s : State) :
    (answerWith fs st s).dir.Within s.dir := by
  unfold answerWith
  split
  · exact writeStatus_within st s
  · refine (foldl_within _ (fun s p => (.refl _ : (s.submit _ _).dir.Within s.dir)) _ _).trans ?_
    exact within_phase s (.resultWrite fs.length st) (by simp)

theorem fetchDescriptor_within (s : State) : (fetchDescriptor s).dir.Within s.dir := cmuSubmit_within s _ _ (by simp)

theorem writeMirror_within (s : State) : (writeMirror s).dir.Within s.dir := cmuSubmit_within s _ _ (by simp)

theorem advanceConsumer_within (s : State) : (advanceConsumer s).dir.Within s.dir :=
  within_phase s (.indexWrite) (by simp)

theorem finishTrial_within (j : Job) (raw : Bool) (sn : Snapshot) (s : State) :
    (finishTrial j raw sn s).dir.Within s.dir :=
  (cmuSubmit_within _ _ _ (by simp)).trans (.of_eq (by simp))

theorem giveEngine_within (s : State) : (giveEngine s).dir.Within s.dir := by
  unfold giveEngine
  split
  · dsimp only
    split
    · split
      · exact .of_eq (by simp)
      · exact (answer_within _ _).trans (.of_eq (by simp))
    · (repeat' split) <;> exact .of_eq (by simp)
  · exact .of_eq (by simp)

theorem abandonEngine_within (s : State) : (abandonEngine s).dir.Within s.dir := by
  unfold abandonEngine
  split
  · dsimp only
    split
    · exact .of_eq (by simp)
    · exact (answer_within _ _).trans (.of_eq (by simp))
  · exact .of_eq (by simp)

theorem completeJob_within (s : State) : (completeJob s).dir.Within s.dir := by
  unfold completeJob
  split
  · split
    · exact finishTrial_within _ _ _ s
    · (repeat' split) <;> exact .of_eq (by simp)
  · exact .refl _

/-- RELEASE takes its key out of the directory (R21). -/
theorem releaseContext_within (k : Key) (i : Nat) (s : State) : (releaseContext k i s).dir.Within s.dir := by
  unfold releaseContext
  simp only [releaseRequests_dir, releaseEntry_dir, markJob_dir, releaseJob_dir, calRemove_dir]
  exact ⟨List.filter_sublist, rfl, fun _ _ _ h => h⟩

theorem writeHeader_within (k : Key) (i : Nat) (r : List (Key × Nat)) (f : Bool) (s : State) :
    (writeHeader k i r f s).dir.Within s.dir := cmuSubmit_within s _ _ (by simp)

theorem releaseNext_within (r : List (Key × Nat)) (f : Bool) (s : State) : (releaseNext r f s).dir.Within s.dir := by
  unfold releaseNext
  split
  · exact answer_within _ s
  · next k i more =>
    refine .trans ?_ (releaseContext_within k i s)
    dsimp only
    split
    · exact within_phase (releaseContext k i s) (.releaseDrain k i more f) (by simp)
    · exact writeHeader_within _ _ _ _ _

theorem drainRelease_within (i : Nat) (s : State) : (drainRelease i s).dir.Within s.dir := by
  unfold drainRelease
  split
  · split
    · exact writeHeader_within _ _ _ _ _
    · exact .refl _
  · exact .refl _

theorem reviveNext_within (r : List (Key × Nat)) (f : Bool) (s : State) : (reviveNext r f s).dir.Within s.dir := by
  induction r with
  | nil => exact answer_within _ s
  | cons p r ih =>
    obtain ⟨k, i⟩ := p
    unfold reviveNext
    split
    · exact ih
    · rw [request_dir]
      exact within_phase s (.reviving k i r f) (by simp)

theorem giveRevive_within (s : State) : (giveRevive s).dir.Within s.dir := by
  unfold giveRevive
  split
  · exact (reviveNext_within _ _ _).trans (.of_eq (by split <;> simp))
  · exact .of_eq (by simp)

theorem abandonRevive_within (s : State) : (abandonRevive s).dir.Within s.dir := by
  unfold abandonRevive
  split
  · exact (reviveNext_within _ _ _).trans (.of_eq (by simp))
  · exact .of_eq (by simp)

theorem finishCopies_within (w : CopyWork) (st : Status) (s : State) : (finishCopies w st s).dir.Within s.dir :=
  answerWith_within _ st s

theorem copyNext_within (w : CopyWork) (s : State) : (copyNext w s).dir.Within s.dir := by
  unfold copyNext
  split
  · exact finishCopies_within _ _ s
  · next k i rest _ =>
    rw [request_dir]
    exact within_phase s (.copying k i { w with rest := rest }) (by simp)

theorem giveCopy_within (s : State) : (giveCopy s).dir.Within s.dir := by
  unfold giveCopy
  split
  · dsimp only
    split
    · exact (copyNext_within _ _).trans (.of_eq (by simp))
    · exact (cmuSubmit_within _ _ _ (by simp)).trans (.of_eq (by simp))
  · exact .of_eq (by simp)

theorem abandonCopy_within (s : State) : (abandonCopy s).dir.Within s.dir := by
  unfold abandonCopy
  split
  · exact (finishCopies_within _ _ _).trans (.of_eq (by simp))
  · exact .of_eq (by simp)

theorem give_within (w : Requester) (s : State) : (give w s).dir.Within s.dir := by
  cases w with
  | engine => exact giveEngine_within s
  | slot n => exact .of_eq (giveSlot_dir n s)
  | promotion => exact .of_eq (givePromotion_dir s)
  | lapse => exact .of_eq (giveLapse_dir s)
  | revive => exact giveRevive_within s
  | copy => exact giveCopy_within s
  | write t i bs => exact .refl _

theorem abandon_within (w : Requester) (s : State) : (abandon w s).dir.Within s.dir := by
  cases w with
  | engine => exact abandonEngine_within s
  | slot n => exact .of_eq (abandonSlot_dir n s)
  | promotion => exact .of_eq (abandonPromotion_dir s)
  | lapse => exact .of_eq (abandonLapse_dir s)
  | revive => exact abandonRevive_within s
  | copy => exact abandonCopy_within s
  | write t i bs => exact .of_eq (dropReq_dir _ s)

theorem giveIfReady_within (w : Requester) (s : State) : (giveIfReady w s).dir.Within s.dir := by
  unfold giveIfReady
  split
  · exact .refl _
  · exact give_within w s

theorem abandonLoop_within (n : Nat) (s : State) : (abandonLoop n s).dir.Within s.dir := by
  induction n generalizing s with
  | zero => exact .refl _
  | succ n ih =>
    unfold abandonLoop
    split
    · exact .refl _
    · exact ((ih _).trans (abandon_within _ _)).trans (.of_eq (by simp))

theorem pump_within (s : State) : (pump s).dir.Within s.dir := by
  unfold pump
  dsimp only
  split
  · exact (abandonLoop_within _ _).trans (.of_eq (by simp))
  · exact .of_eq (by simp)

theorem fetchArrived_within (i : Nat) (d : List Byte) (s : State) : (fetchArrived i d s).dir.Within s.dir := by
  unfold fetchArrived
  split
  · exact .refl _
  · dsimp only
    split
    · rw [patchWaiting_dir]
      exact (foldl_within _ (fun s w => giveIfReady_within w s) _ _).trans (.of_eq (by split <;> simp))
    · exact .refl _

theorem fetchFailed_within (i : Nat) (s : State) : (fetchFailed i s).dir.Within s.dir := by
  unfold fetchFailed
  split
  · exact .refl _
  · dsimp only
    split
    · rw [failWaiting_dir, startLapse_dir]
      exact (foldl_within _ (fun s w => abandon_within w s) _ _).trans (.of_eq (by simp))
    · exact .refl _

theorem writeBackEnded_within (i : Nat) (k : Key) (b : Bool) (s : State) :
    (writeBackEnded i k b s).dir.Within s.dir := by
  unfold writeBackEnded
  refine (drainRelease_within _ _).trans (.of_eq ?_)
  (repeat' split) <;> simp

/-! ## The passage of traffic -/

theorem handProducer_within (i : Nat) (v : BitVec 32) (s : State) : (handProducer i v s).dir.Within s.dir := by
  unfold handProducer
  dsimp only
  split
  · exact (fetchDescriptor_within _).trans (.of_eq rfl)
  · exact .of_eq rfl

theorem takeWord_within (w i : Nat) (ps : List (Nat × Byte)) (s : State) : (takeWord w i ps s).dir.Within s.dir := by
  cases ps with
  | nil => exact .refl _
  | cons p ps =>
    by_cases h0 : w = 0
    · subst h0; rw [takeWord_producer]; exact handProducer_within _ _ _
    by_cases h3 : w = 3
    · subst h3; rw [takeWord_noticeConsumer, handNoticeConsumer_dir]; exact .refl _
    by_cases h5 : w = 5
    · subst h5; rw [takeWord_dueConsumer, handDueConsumer_dir]; exact .refl _
    rw [takeWord_other w i h0 h3 h5]; exact .refl _

@[simp] theorem openAssembly_dir (w block : Nat) (s : State) : (openAssembly w block s).1.dir = s.dir := by
  unfold openAssembly
  dsimp only
  (repeat' split) <;> simp

@[simp] theorem capturePart_dir (w block : Nat) (ps : List (Nat × Byte)) (s : State) :
    (capturePart w block ps s).1.dir = s.dir := by
  unfold capturePart
  dsimp only
  split <;> simp

@[simp] theorem captureWrite_dir (run : RunState) (w block : Nat) (p : Part) (bytes : List WByte) (s : State) :
    (captureWrite run w block p bytes s).state.dir = s.dir := by
  unfold captureWrite
  dsimp only
  split <;> simp

@[simp] theorem contextWrite_dir (i : Nat) (k : Key) (id : Nat) (p : Part) (bytes : List WByte) (s : State) :
    (contextWrite i k id p bytes s).state.dir = s.dir := by
  unfold contextWrite
  dsimp only
  split <;> simp

theorem handlePart_within {run : RunState} {id : Nat} {p : Part} {bytes : List WByte} {s : State} {o : PartOutcome}
    (h : handlePart run id p bytes s = some o) : o.state.dir.Within s.dir := by
  unfold handlePart at h
  split at h
  · cases h
  · split at h
    · cases h; exact .refl _
    · split at h <;> cases h
      exact takeWord_within _ _ _ _
    · cases h
      exact .of_eq (by dsimp only; split <;> simp)
    · cases h; exact .of_eq (by simp)
    · (repeat' split at h) <;> cases h
      · exact .refl _
      · exact .refl _
      · exact .of_eq (by simp)

theorem handleParts_within (run : RunState) (id : Nat) (ps : List Part) (w : WriteWork) (s : State) :
    (handleParts run id ps w s).2.dir.Within s.dir := by
  induction ps generalizing w s with
  | nil => exact .refl _
  | cons p ps ih =>
    unfold handleParts
    split
    · exact .refl _
    · next h => exact ((ih _ _).trans (pump_within _)).trans (handlePart_within h)

theorem handleTxn_within (t : Txn) (s : State) : (handleTxn t s).dir.Within s.dir := by
  unfold handleTxn
  split
  · split
    · exact .refl _
    · exact .of_eq (by simp)
  · next todo bytes dropped key _ =>
    have hp := handleParts_within t.run t.id todo ⟨todo, bytes, dropped, key⟩ s
    split
    · next h =>
      rw [h] at hp
      exact (Directory.Within.of_eq (by simp)).trans hp
    · next h =>
      rw [h] at hp
      exact (Directory.Within.of_eq (by simp)).trans hp

theorem advanceOne_within (acc : State × List Initiator) (id : Nat) :
    (advanceOne acc id).1.dir.Within acc.1.dir := by
  unfold advanceOne
  split
  · exact .refl _
  · split
    · exact .refl _
    · next t _ _ =>
      have hs : (grantAll (handleTxn t acc.1)).dir.Within acc.1.dir := handleTxn_within t acc.1
      dsimp only
      split <;> exact hs

/-- A walk over the open transactions keeps within what each of its steps does. -/
theorem walk_within (f : State × List Initiator → Nat → State × List Initiator)
    (h : ∀ acc id, (f acc id).1.dir.Within acc.1.dir) (ids : List Nat) (acc : State × List Initiator) :
    (ids.foldl f acc).1.dir.Within acc.1.dir := by
  induction ids generalizing acc with
  | nil => exact .refl _
  | cons id ids ih => exact (ih _).trans (h acc id)

theorem advance_within (s : State) : (advance s).dir.Within s.dir := walk_within _ advanceOne_within _ (s, [])

theorem takeTxn_dir (p : PortTxn) (s : State) : (takeTxn p s).dir = s.dir := by
  cases p with
  | read init addr len => exact foldl_keeps_from State.dir _ (fun s q => by simp) _ _ _ rfl
  | write init addr bytes => rfl

theorem settle_within (s : State) : (settle s).dir.Within s.dir := pump_within s

theorem drainLoop_within (n : Nat) (s : State) : (drainLoop n s).dir.Within s.dir := by
  induction n generalizing s with
  | zero => exact .refl _
  | succ n ih =>
    unfold drainLoop
    split
    · exact .refl _
    · split
      · exact (((ih _).trans (settle_within _)).trans (advance_within _)).trans (.of_eq (takeTxn_dir _ _))
      · exact .refl _

theorem drainPort_within (s : State) : (drainPort s).dir.Within s.dir := drainLoop_within _ s

theorem completeReadPart_within (id k : Nat) (s : State) : (completeReadPart id k s).dir.Within s.dir := by
  unfold completeReadPart
  (repeat' split) <;> exact .of_eq (by simp)

theorem readArrived_within (id : Nat) (data : List Byte) (s : State) : (readArrived id data s).dir.Within s.dir :=
  foldl_within _ (fun s k => (pump_within _).trans (completeReadPart_within id k s)) _ _

theorem readFailed_within (id : Nat) (s : State) : (readFailed id s).dir.Within s.dir := by
  unfold readFailed
  split
  · exact .refl _
  · exact foldl_within _ (fun s p => (pump_within _).trans (.of_eq (by simp))) _ _

theorem rejudgePart_within (id k : Nat) (s : State) : (rejudgePart id k s).dir.Within s.dir := by
  unfold rejudgePart
  split
  · split
    · split
      · exact .refl _
      · dsimp only
        split
        · exact ((pump_within _).trans (completeReadPart_within id k _)).trans (.of_eq (by simp))
        · exact .of_eq (by simp)
    · exact .refl _
  · exact .refl _

theorem resumeOne_within (acc : State × List Initiator) (id : Nat) : (resumeOne acc id).1.dir.Within acc.1.dir :=
  (advanceOne_within _ id).trans (foldl_within _ (fun s k => rejudgePart_within id k s) _ acc.1)

theorem resume_within (s : State) : (resume s).dir.Within s.dir :=
  (walk_within _ resumeOne_within _ (pump s, [])).trans (pump_within s)

/-! ## The ends of the command unit's accesses -/

theorem releaseEnded_within (b : Bool) (s : State) : (releaseEnded b s).dir.Within s.dir := by
  unfold releaseEnded
  split
  · exact (releaseNext_within _ _ _).trans (.of_eq (by split <;> simp))
  · exact .refl _

theorem descriptorArrived_within (d : List Byte) (s : State) : (descriptorArrived d s).dir.Within s.dir := by
  unfold descriptorArrived
  split
  · exact within_phase s (.executing d) (by simp)
  · exact answer_within _ s

theorem descriptorFailed_within (s : State) : (descriptorFailed s).dir.Within s.dir :=
  (answer_within _ _).trans (.of_eq (by simp))

theorem policyReadEnded_within (data : Option (List Byte)) (s : State) : (policyReadEnded data s).dir.Within s.dir := by
  unfold policyReadEnded policyArrived
  split
  · split
    · exact (Directory.Within.of_eq (by simp)).trans (answer_within .memory s)
    · dsimp only
      split
      · exact answer_within _ s
      · exact (answer_within _ _).trans (.of_eq (by simp))
  · exact .refl _

theorem channelWriteEnded_within (b : Bool) (s : State) : (channelWriteEnded b s).dir.Within s.dir := by
  unfold channelWriteEnded
  split
  · split
    · exact (Directory.Within.of_eq (by simp)).trans (answer_within .memory s)
    · exact (answer_within _ _).trans (.of_eq (by split <;> simp))
  · exact .refl _

theorem trialReadEnded_within (data : Option (List Byte)) (s : State) : (trialReadEnded data s).dir.Within s.dir := by
  unfold trialReadEnded
  split
  · split
    · exact (Directory.Within.of_eq (by simp)).trans (answer_within .memory s)
    · split
      · exact within_phase s (.trialWait) (by simp)
      · exact answer_within _ s
  · exact .refl _

/-- The end of a write that answers the descriptor: MEMORY with a notice, or DONE. -/
theorem answerEnd_within (b : Bool) (a : FaultAccess) (k : Key) (n : Nat) (s : State) :
    (if b then memoryFault a k n (answer .memory s) else answer .done s).dir.Within s.dir := by
  split
  · exact (Directory.Within.of_eq (by simp)).trans (answer_within .memory s)
  · exact answer_within _ s

theorem trialWriteEnded_within (b : Bool) (s : State) : (trialWriteEnded b s).dir.Within s.dir := by
  unfold trialWriteEnded
  split
  · exact answerEnd_within b _ _ _ s
  · exact .refl _

theorem identifyWriteEnded_within (b : Bool) (s : State) : (identifyWriteEnded b s).dir.Within s.dir := by
  unfold identifyWriteEnded
  split
  · exact answerEnd_within b _ _ _ s
  · exact .refl _

theorem mirrorWriteEnded_within (b : Bool) (s : State) : (mirrorWriteEnded b s).dir.Within s.dir := by
  unfold mirrorWriteEnded
  split
  · exact answerEnd_within b _ _ _ s
  · exact .refl _

theorem copyWriteEnded_within (b : Bool) (s : State) : (copyWriteEnded b s).dir.Within s.dir := by
  unfold copyWriteEnded
  split
  · split
    · exact (Directory.Within.of_eq (memoryFault_dir _ _ _ _)).trans (finishCopies_within _ _ s)
    · exact copyNext_within _ s
  · exact .refl _

theorem resultWriteEnded_within (b : Bool) (s : State) : (resultWriteEnded b s).dir.Within s.dir := by
  unfold resultWriteEnded
  split
  · next left st _ =>
    have noticed : (if b then memoryFault .resultWrite zeroKey s.cmu.consumer s else s).dir = s.dir := by split <;> simp
    dsimp only
    generalize (if b then memoryFault .resultWrite zeroKey s.cmu.consumer s else s) = s1 at *
    refine .trans ?_ (.of_eq noticed)
    split
    · exact writeStatus_within _ _
    · exact within_phase s1 (.resultWrite (left - 1) st) (by simp)
  · exact .refl _

theorem statusWriteEnded_within (b : Bool) (s : State) : (statusWriteEnded b s).dir.Within s.dir := by
  unfold statusWriteEnded
  split
  · exact (advanceConsumer_within _).trans (.of_eq (by split <;> simp))
  · exact .refl _

theorem indexWriteEnded_within (b : Bool) (s : State) : (indexWriteEnded b s).dir.Within s.dir := by
  unfold indexWriteEnded
  split
  · have noticed : (if b then memoryFault .commandIndexWrite zeroKey s.cmu.consumer s else s).dir = s.dir := by
      split <;> simp
    dsimp only
    generalize (if b then memoryFault .commandIndexWrite zeroKey s.cmu.consumer s else s) = s1 at *
    refine .trans ?_ (.of_eq noticed)
    split
    · exact within_phase s1 .idle (by simp)
    · exact fetchDescriptor_within _
  · exact .refl _

theorem forceNext_within (r : List (Key × Nat)) (s : State) : (forceNext r s).dir.Within s.dir := by
  cases r with
  | nil => exact answer_within _ s
  | cons p more =>
    refine (within_phase (calForce p.2 s) (.forcing more) (by simp)).trans (.of_eq ?_)
    exact calForce_dir p.2 s

theorem forceDue_within (m t : Nat) (s : State) : (forceDue m t s).dir.Within s.dir := by
  unfold forceDue
  split
  · exact answer_within _ s
  · split
    · exact answer_within _ s
    · split
      · exact forceNext_within _ s
      · split
        · split
          · exact answer_within _ s
          · split
            · exact answer_within _ s
            · exact (answer_within _ _).trans (.of_eq (by simp))
        · exact answer_within _ s

@[simp] theorem stopRun_dir (s : State) : (stopRun s).dir = s.dir := by simp [stopRun]

@[simp] theorem startRun_dir (s : State) : (startRun s).dir = s.dir := by
  unfold startRun
  rw [restartQuietAll_dir]
  split <;> rfl

/-! ## The window table (R162, R163) -/

/-- The windows of a kind are those of the entries that hold one. -/
theorem windowsOf_mem {s : State} {k : WindowKind} {p : Nat × Window} :
    p ∈ s.windowsOf k ↔ p.1 < 6 ∧ s.window p.1 = some p.2 ∧ p.2.kind = k := by
  obtain ⟨i, w⟩ := p
  unfold State.windowsOf
  rw [List.mem_filterMap]
  constructor
  · rintro ⟨j, hj, hp⟩
    have hj := List.mem_range.1 hj
    split at hp
    · next v hv =>
      split at hp
      · next hk => cases hp; exact ⟨hj, hv, hk⟩
      · cases hp
    · cases hp
  · rintro ⟨hi, hw, hk⟩
    exact ⟨i, List.mem_range.2 hi, by simp only at hw hk; simp [hw, hk]⟩

/-- A window-table entry just replaced, or as before. -/
theorem window_setWindow (s : State) (entry i : Nat) (w : Option Window) :
    (s.setWindow entry w).window i = if i = entry ∧ i < 6 then w else s.window i := by
  by_cases hl : i < 6 <;> by_cases he : i = entry <;>
    simp [State.window, State.setWindow, Vector.getD, Array.getD, Array.getElem_setIfInBounds, hl, he]
  all_goals simp_all [eq_comm]

/-- The context windows are the same where no entry that changes is one before or after. -/
theorem capacity_setWindow_other {s : State} {entry : Nat} {w : Option Window}
    (hs : s.isContextEntry entry = false) (hw : ∀ x, w = some x → x.kind ≠ .context) :
    (s.setWindow entry w).capacity = s.capacity := by
  have same : (s.setWindow entry w).windowsOf .context = s.windowsOf .context := by
    refine List.filterMap_congr fun i hi => ?_
    have hi := List.mem_range.1 hi
    rw [window_setWindow]
    by_cases he : i = entry
    · subst he
      have old : ∀ x, s.window i = some x → x.kind ≠ .context := by
        intro x hx hk
        simp [State.isContextEntry, hx, hk] at hs
      cases w <;> cases ho : s.window i <;> simp_all
    · simp [he]
  simp [State.capacity, State.contextWindow, same]

/-- With no other context window and none at the entry, there is none, and the pool is empty (R162). -/
theorem capacity_none {s : State} {entry : Nat} (hs : s.isContextEntry entry = false)
    (ho : s.otherWindows entry .context < 1) : s.capacity = 0 := by
  have none : s.windowsOf .context = [] := by
    refine List.eq_nil_iff_forall_not_mem.2 fun p hp => ?_
    obtain ⟨-, hw, hk⟩ := windowsOf_mem.1 hp
    have other : p.1 ≠ entry := by
      rintro rfl
      simp [State.isContextEntry, hw, hk] at hs
    have hm : p ∈ (s.windowsOf .context).filter fun q => q.1 != entry := by simp [hp, other]
    exact absurd (List.length_pos_of_mem hm) (by simpa [State.otherWindows] using ho)
  simp [State.capacity, State.contextWindow, none]

/-- A context window not in use is one over an empty directory (R163). -/
theorem kdir_of_not_inUse {s : State} (h : s.contextInUse = false) : s.kdir = [] := by
  simp only [State.contextInUse, Bool.or_eq_false_iff, Bool.not_eq_false', List.isEmpty_iff] at h
  exact h.1

/-- A SET_WINDOW that passes its checks leaves every index of the directory within the pool (R163). -/
theorem checkWindow_within {s : State} {entry kind base size : Nat} {w : Option Window}
    (h : s.checkWindow entry kind base size = .ok w) (hd : ∀ p ∈ s.kdir, p.2 < s.capacity) (hw : s.window entry ≠ w) :
    ∀ p ∈ s.kdir, p.2 < (s.setWindow entry w).capacity := by
  have empty : s.kdir = [] → ∀ p ∈ s.kdir, p.2 < (s.setWindow entry w).capacity := by
    rintro he p hp; rw [he] at hp; cases hp
  have unused : s.isContextEntry entry = true → s.contextInUse = false →
      ∀ p ∈ s.kdir, p.2 < (s.setWindow entry w).capacity := fun _ hu => empty (kdir_of_not_inUse hu)
  have plain : s.isContextEntry entry = false → (∀ x, w = some x → x.kind ≠ .context) →
      ∀ p ∈ s.kdir, p.2 < (s.setWindow entry w).capacity := fun hc hk p hp =>
    capacity_setWindow_other hc hk ▸ hd p hp
  by_cases hc : s.isContextEntry entry = true
  · refine unused hc (Bool.eq_false_iff.2 fun hu => ?_)
    unfold State.checkWindow at h
    dsimp only at h
    (repeat' split at h) <;> cases h
    · next hn => exact hn ⟨hc, hu⟩
    · next hn => exact hn ⟨hc, hw, hu⟩
  · have hc : s.isContextEntry entry = false := Bool.eq_false_iff.2 hc
    unfold State.checkWindow at h
    split at h
    · cases h
    · split at h
      · split at h <;> cases h
        exact plain hc nofun
      · split at h
        · cases h
        · next k _ =>
          dsimp only at h
          (repeat' split at h) <;> cases h
          next hcrowd _ =>
          cases k with
          | capture => exact plain hc (by rintro x hx; cases hx; simp)
          | context =>
            have hz := capacity_none hc (by simpa [State.windowCrowded] using hcrowd)
            intro p hp
            have := hd p hp
            omega

/-! ## Keys (R2) -/

theorem Key.lt_iff {a b : Key} :
    a.lt b = true ↔ a.channel < b.channel ∨ a.channel = b.channel ∧ a.station < b.station := by
  simp [Key.lt]

/-- Keys are totally ordered (R2). -/
theorem Key.lt_of_not_lt {a b : Key} (h : ¬ a.lt b = true) (hn : b ≠ a) : b.lt a = true := by
  obtain ⟨ac, as⟩ := a
  obtain ⟨bc, bs⟩ := b
  simp only [Key.lt_iff, ne_eq, Key.mk.injEq] at *
  omega

theorem Key.lt_trans {a b c : Key} (h : a.lt b = true) (k : b.lt c = true) : a.lt c = true := by
  simp only [Key.lt_iff] at *
  omega

/-- An entry placed in key order is one more entry. -/
theorem kdirInsert_perm (k : Key) (idx : Nat) (es : List (Key × Nat)) : (kdirInsert k idx es).Perm ((k, idx) :: es) := by
  induction es with
  | nil => exact .refl _
  | cons p rest ih =>
    unfold kdirInsert
    split
    · exact .refl _
    · exact (ih.cons p).trans (.swap _ _ _)

/-- A new key placed in key order leaves the directory in key order (R2). -/
theorem kdirInsert_ordered {k : Key} {idx : Nat} {es : List (Key × Nat)}
    (h : es.Pairwise fun a b => a.1.lt b.1 = true) (hk : ∀ p ∈ es, p.1 ≠ k) :
    (kdirInsert k idx es).Pairwise fun a b => a.1.lt b.1 = true := by
  induction es with
  | nil => exact List.pairwise_singleton _ _
  | cons p rest ih =>
    obtain ⟨hp, hr⟩ := List.pairwise_cons.1 h
    unfold kdirInsert
    split
    · next hlt =>
      refine List.pairwise_cons.2 ⟨fun q hq => ?_, h⟩
      rcases List.mem_cons.1 hq with rfl | hq
      · exact hlt
      · exact Key.lt_trans hlt (hp q hq)
    · next hlt =>
      refine List.pairwise_cons.2 ⟨fun q hq => ?_, ih hr fun q hq => hk q (by simp [hq])⟩
      rcases List.mem_cons.1 ((kdirInsert_perm k idx rest).subset hq) with rfl | hq
      · exact Key.lt_of_not_lt hlt (hk p (by simp))
      · exact hp q hq

/-! ## ADMIT and SET_WINDOW (R19, R20, R163) -/

/-- The key an ADMIT write is outstanding for enters the directory at its index (R20). -/
theorem directoryOk_admitted {s : State} (h : s.DirectoryOk) {key : Key} {idx : Nat} {clamped : Bool}
    (hp : s.cmu.phase = .admitWrite key idx clamped) {t : State} (hk : t.kdir = kdirInsert key idx s.kdir)
    (hw : t.windows = s.windows) (ht : ∀ k i c, t.cmu.phase ≠ .admitWrite k i c) : t.DirectoryOk := by
  obtain ⟨hi, hn⟩ := h.admitting key idx clamped hp
  have perm := kdirInsert_perm key idx s.kdir
  refine ⟨hk ▸ kdirInsert_ordered h.ordered fun p hp => (hn p hp).1, ?_, fun p hp => ?_,
    fun k i c he => absurd he (ht k i c)⟩
  · rw [hk, (perm.map Prod.snd).nodup_iff, List.map_cons, List.nodup_cons]
    refine ⟨fun hm => ?_, h.indices⟩
    obtain ⟨p, hp, he⟩ := List.mem_map.1 hm
    exact (hn p hp).2 he
  · rw [capacity_of_windows hw]
    rcases List.mem_cons.1 (perm.subset (hk ▸ hp)) with rfl | hp
    · exact hi
    · exact h.within p hp

/-- The end of an ADMIT image write (R20). -/
theorem directoryOk_admitEnded {s : State} (h : s.DirectoryOk) (error : Bool) : (admitEnded error s).DirectoryOk := by
  unfold admitEnded
  split
  · next key idx clamped hp =>
    split
    · exact directoryOk_of_within h ((Directory.Within.of_eq (memoryFault_dir _ _ _ _)).trans (answer_within .memory s))
    · exact directoryOk_admitted h hp rfl rfl (by simp [answerWith])
  · exact h

/-- A free index is below the pool capacity and out of the directory (R4). -/
theorem freeIndex_found {s : State} {idx : Nat} (h : s.freeIndex = some idx) :
    idx < s.capacity ∧ ∀ p ∈ s.kdir, p.2 ≠ idx := by
  have first : ∀ (q : Nat → Bool) (n i j : Nat), firstFrom q n i = some j → j < i + n ∧ q j = true := by
    intro q n
    induction n with
    | zero => intro i j hj; cases hj
    | succ n ih =>
      intro i j hj
      unfold firstFrom at hj
      split at hj
      · cases hj; exact ⟨by omega, ‹_›⟩
      · obtain ⟨h1, h2⟩ := ih (i + 1) j hj
        exact ⟨by omega, h2⟩
  obtain ⟨hl, hf⟩ := first _ _ _ _ h
  refine ⟨by omega, fun p hp he => ?_⟩
  have hn : s.keyAt idx = none := by
    simp only [State.indexFree, Bool.and_eq_true, Option.isNone_iff_eq_none] at hf
    exact hf.1.1
  exact List.find?_eq_none.1 (Option.map_eq_none_iff.1 hn) p hp (by simpa using he)

/-- An ADMIT that passes its checks has an index below the capacity, and its key and index are out of the directory
(R19). -/
theorem checkAdmit_found {s : State} {key : Key} {idx : Nat} (h : s.checkAdmit key = .ok idx) :
    idx < s.capacity ∧ ∀ p ∈ s.kdir, p.1 ≠ key ∧ p.2 ≠ idx := by
  unfold State.checkAdmit at h
  (repeat' split at h) <;> cases h
  next hd _ hf =>
  obtain ⟨hl, hi⟩ := freeIndex_found hf
  refine ⟨hl, fun p hp => ⟨fun he => ?_, hi p hp⟩⟩
  have hn : s.lookup key = none := Option.not_isSome_iff_eq_none.1 hd
  exact List.find?_eq_none.1 (Option.map_eq_none_iff.1 hn) p hp (by simpa using he)

/-- A command CMU begins keeps the directory where each command it may hold does. -/
theorem directoryOk_onCommand {s : State} (h : s.DirectoryOk) (code : Nat) (f : List Byte → State → State)
    (hf : ∀ d, s.cmu.phase = .executing d → (f d s).DirectoryOk) : (onCommand code f s).DirectoryOk := by
  unfold onCommand
  split
  · next d hd =>
    split
    · exact hf d hd
    · exact h
  · exact h

/-! ## Every step -/

/-- An answer keeps the invariant. -/
theorem directoryOk_answer {s : State} (h : s.DirectoryOk) (st : Status) : (answer st s).DirectoryOk :=
  directoryOk_of_within h (answer_within st s)

/-- ADMIT up to its image write (R19, R20). -/
theorem directoryOk_admitLink {s : State} (h : s.DirectoryOk) (d : List Byte) :
    (match s.checkAdmit (cmdKey d) with
     | .error st => answer st s
     | .ok idx =>
       s.cmuSubmit (ownWrite .admitImage (s.contextAddr idx) (s.contextFor d).toBytes)
         (.admitWrite (cmdKey d) idx (s.contextFor d).anyAtLimit)).DirectoryOk := by
  split
  · exact directoryOk_answer h _
  · next idx hc =>
    refine ⟨h.ordered, h.indices, h.within, fun key i clamped hp => ?_⟩
    cases hp
    exact checkAdmit_found hc

/-- SET_WINDOW (R163, R164). -/
theorem directoryOk_setWindow {s : State} (h : s.DirectoryOk) {entry kind base size : Nat} {w : Option Window}
    (hc : s.checkWindow entry kind base size = .ok w) : (answer .done (applyWindow entry w s)).DirectoryOk := by
  unfold applyWindow
  split
  · exact directoryOk_answer h _
  · next hw =>
    have dir := discardAssembly_dir entry .windowChanged s
    have hk : (discardAssembly entry .windowChanged s).kdir = s.kdir := congrArg Directory.kdir dir
    have hv : ((discardAssembly entry .windowChanged s).setWindow entry w).capacity = (s.setWindow entry w).capacity :=
      capacity_of_windows (congrArg (fun v => v.setIfInBounds entry w) (congrArg Directory.windows dir))
    refine ⟨?_, ?_, ?_, fun key idx clamped hp => by cases hp⟩
    · exact (show ((discardAssembly entry .windowChanged s).kdir.Pairwise _) from hk ▸ h.ordered)
    · exact (show ((discardAssembly entry .windowChanged s).kdir.map Prod.snd).Nodup from hk ▸ h.indices)
    · intro p hp
      change p.2 < ((discardAssembly entry .windowChanged s).setWindow entry w).capacity
      rw [hv]
      exact checkWindow_within hc h.within hw p (hk ▸ hp)

/-- The end of an access goes on where what it goes on with keeps the invariant. -/
theorem directoryOk_ending {s : State} (h : s.DirectoryOk) (p : Purpose → Bool) (k : Access → State → State)
    (hk : ∀ a x, x.DirectoryOk → (k a x).DirectoryOk) : (s.ending p k).DirectoryOk := by
  unfold State.ending
  split
  · exact h
  · exact hk _ _ ⟨h.ordered, h.indices, h.within, h.admitting⟩

/-- What keeps within the directory it finds keeps the invariant. -/
theorem directoryOk_keeps {f : State → State} (hf : ∀ x, (f x).dir.Within x.dir) {s : State} (h : s.DirectoryOk) :
    (f s).DirectoryOk := directoryOk_of_within h (hf s)

/-- An event keeps the invariant where its effect does. -/
theorem directoryOk_event {s t : State} (h : s.DirectoryOk) {f : State → State} (hf : (f s).DirectoryOk)
    (ht : event s f = .next t) : t.DirectoryOk := by
  unfold event at ht
  split at ht <;> cases ht
  · exact h
  · exact directoryOk_of_within hf (.of_eq (by simp))

theorem directoryOk_cacheEvent {s t : State} (h : s.DirectoryOk) {f : State → State} (hf : (f s).DirectoryOk)
    (ht : cacheEvent s f = .next t) : t.DirectoryOk :=
  directoryOk_event h (directoryOk_of_within hf ((drainPort_within (settle (f s))).trans (settle_within (f s)))) ht

theorem directoryOk_arrival {s t : State} (h : s.DirectoryOk) {p : PortTxn} (ht : arrival p s = .next t) :
    t.DirectoryOk := by
  have ha : (arrive p s).DirectoryOk := directoryOk_of_within h (.of_eq (by simp))
  unfold arrival at ht
  split at ht
  · cases ht; exact ha
  · exact directoryOk_cacheEvent h ha ht

theorem directoryOk_controlWrite {s t : State} (h : s.DirectoryOk) {init : Initiator} {off : Nat} {bytes : List WByte}
    (ht : controlWrite init off bytes s = .next t) : t.DirectoryOk := by
  unfold controlWrite at ht
  split at ht
  · exact directoryOk_cacheEvent h (directoryOk_of_within h (.of_eq (by simp))) ht
  · cases ht

/-- The state after pin reset has an empty directory. -/
theorem directoryOk_reset : State.reset.DirectoryOk where
  ordered := .nil
  indices := .nil
  within := nofun
  admitting := nofun

/-- A step that ends an access, and keeps within the directory. -/
theorem directoryOk_eventEnding {s t : State} (h : s.DirectoryOk) {p : Purpose → Bool} {k : Access → State → State}
    (hk : ∀ a x, (k a x).dir.Within x.dir) (ht : event s (fun x => x.ending p k) = .next t) : t.DirectoryOk :=
  directoryOk_event h (directoryOk_ending h p k fun a _ hx => directoryOk_keeps (hk a) hx) ht

theorem directoryOk_cacheEnding {s t : State} (h : s.DirectoryOk) {p : Purpose → Bool} {k : Access → State → State}
    (hk : ∀ a x, (k a x).dir.Within x.dir) (ht : cacheEvent s (fun x => x.ending p k) = .next t) : t.DirectoryOk :=
  directoryOk_cacheEvent h (directoryOk_ending h p k fun a _ hx => directoryOk_keeps (hk a) hx) ht

/-- A step at which CMU begins a command that keeps within the directory. -/
theorem directoryOk_command {s t : State} (h : s.DirectoryOk) {code : Nat} {f : List Byte → State → State}
    (hf : ∀ d x, (f d x).dir.Within x.dir) (ht : event s (onCommand code f) = .next t) : t.DirectoryOk :=
  directoryOk_event h (directoryOk_onCommand h code f fun d _ => directoryOk_keeps (hf d) h) ht

theorem directoryOk_cacheCommand {s t : State} (h : s.DirectoryOk) {code : Nat} {f : List Byte → State → State}
    (hf : ∀ d x, (f d x).dir.Within x.dir) (ht : cacheEvent s (onCommand code f) = .next t) : t.DirectoryOk :=
  directoryOk_cacheEvent h (directoryOk_onCommand h code f fun d _ => directoryOk_keeps (hf d) h) ht

/-- Every step of the part keeps the directory's invariant (R2, R4, R19). -/
theorem directoryOk_exec {s t : State} (i : Instr) (h : s.DirectoryOk) (ht : exec i s = .next t) : t.DirectoryOk := by
  cases i with
  | pinReset => cases ht; exact ⟨.nil, .nil, nofun, nofun⟩
  | pinResetDeassertion strap =>
    change execPinResetDeassertion strap s = _ at ht
    unfold execPinResetDeassertion at ht
    split at ht <;> cases ht
    · exact directoryOk_of_within (s := { s with inReset := false, strapBase := strap, now := 0 })
        ⟨h.ordered, h.indices, h.within, h.admitting⟩ (drainPort_within _)
    · exact h
  | passingRead init addr len =>
    change execPassingRead init addr len s = _ at ht
    unfold execPassingRead at ht
    split at ht
    · exact directoryOk_arrival h ht
    · cases ht
  | passingWrite init addr bytes =>
    change execPassingWrite init addr bytes s = _ at ht
    unfold execPassingWrite at ht
    split at ht
    · exact directoryOk_arrival h ht
    · cases ht
  | readDataReturn txn data =>
    change execReadDataReturn txn data s = _ at ht
    unfold execReadDataReturn at ht
    split at ht
    · split at ht
      · exact directoryOk_cacheEnding h (fun _ x => readFailed_within txn x) ht
      · next bs =>
        split at ht
        · exact directoryOk_cacheEnding h (fun _ x => readArrived_within txn bs x) ht
        · cases ht
    · cases ht; exact h
  | writeResponseReturn txn error =>
    change execWriteResponseReturn txn error s = _ at ht
    unfold execWriteResponseReturn at ht
    split at ht
    · exact directoryOk_cacheEnding h (fun _ x => .of_eq (writeCompleted_dir txn error x)) ht
    · cases ht; exact h
  | commandProducerWrite init bytes => exact directoryOk_controlWrite h ht
  | noticeConsumerWrite init bytes => exact directoryOk_controlWrite h ht
  | dueConsumerWrite init bytes => exact directoryOk_controlWrite h ht
  | partIndexWordWrite init word bytes => exact directoryOk_controlWrite h ht
  | slotHeaderWrite init slot bytes => exact directoryOk_controlWrite h ht
  | fetchDataArrival index data =>
    change execFetchDataArrival index data s = _ at ht
    unfold execFetchDataArrival at ht
    split at ht
    · refine directoryOk_cacheEnding h (fun _ x => ?_) ht
      cases data with
      | none => exact fetchFailed_within index x
      | some bs => exact fetchArrived_within index bs x
    · cases ht
  | writeBackEnd index error => exact directoryOk_cacheEnding h (fun a x => writeBackEnded_within index _ error x) ht
  | jobTake => exact directoryOk_cacheEvent h (directoryOk_of_within h (.of_eq (takeJob_dir s))) ht
  | jobContextGiven => exact directoryOk_cacheEvent h (directoryOk_keeps (giveIfReady_within _) h) ht
  | jobCompletion => exact directoryOk_cacheEvent h (directoryOk_keeps completeJob_within h) ht
  | offerTaking =>
    change execOfferTaking s = _ at ht
    unfold execOfferTaking at ht
    refine directoryOk_event h (directoryOk_of_within h (.of_eq ?_)) ht
    (repeat' split) <;> simp
  | graceExpiry =>
    change execGraceExpiry s = _ at ht
    unfold execGraceExpiry at ht
    refine directoryOk_cacheEvent h (directoryOk_of_within h (.of_eq ?_)) ht
    (repeat' split) <;> simp
  | silentLapseApplied =>
    change execSilentLapseApplied s = _ at ht
    unfold execSilentLapseApplied at ht
    refine directoryOk_cacheEvent h (directoryOk_of_within h (.of_eq ?_)) ht
    split <;> simp
  | quietTimerExpiry channel =>
    change execQuietTimerExpiry channel s = _ at ht
    unfold execQuietTimerExpiry at ht
    refine directoryOk_event h (directoryOk_of_within h (.of_eq ?_)) ht
    (repeat' split) <;> simp
  | coalescingTimerExpiry =>
    change execCoalescingTimerExpiry s = _ at ht
    unfold execCoalescingTimerExpiry at ht
    refine directoryOk_event h (directoryOk_of_within h (.of_eq ?_)) ht
    split <;> simp
  | slotBindingMade slot => exact directoryOk_cacheEvent h (directoryOk_keeps (giveIfReady_within _) h) ht
  | promotion => exact directoryOk_cacheEvent h (directoryOk_keeps (giveIfReady_within _) h) ht
  | noticeWriteEnd error => exact directoryOk_eventEnding h (fun _ x => .of_eq (by split <;> rfl)) ht
  | noticeProducerWriteEnd error => exact directoryOk_eventEnding h (fun _ x => .refl _) ht
  | offerWriteEnd error => exact directoryOk_eventEnding h (fun _ x => .of_eq (by split <;> simp)) ht
  | dueProducerWriteEnd error => exact directoryOk_eventEnding h (fun _ x => .of_eq (by split <;> simp)) ht
  | descriptorFetchEnd data =>
    change execDescriptorFetchEnd data s = _ at ht
    unfold execDescriptorFetchEnd at ht
    split at ht
    · refine directoryOk_eventEnding h (fun _ x => ?_) ht
      cases data with
      | none => exact descriptorFailed_within x
      | some bs => exact descriptorArrived_within bs x
    · cases ht
  | start =>
    refine directoryOk_command h (fun _ x => ?_) ht
    split
    · exact (writeMirror_within _).trans (.of_eq (startRun_dir x))
    · exact answer_within _ x
  | stop =>
    refine directoryOk_command h (fun _ x => ?_) ht
    split
    · exact (writeMirror_within _).trans (.of_eq (stopRun_dir x))
    · exact answer_within _ x
  | setWindow =>
    refine directoryOk_event h (directoryOk_onCommand h _ _ fun d _ => ?_) ht
    split
    · exact directoryOk_answer h _
    · next hc => exact directoryOk_setWindow h hc
  | setPolicy =>
    refine directoryOk_command h (fun _ x => ?_) ht
    split
    · exact answer_within _ x
    · split
      · exact answer_within _ x
      · exact cmuSubmit_within x _ _ (by simp)
  | readChannel =>
    refine directoryOk_command h (fun _ x => ?_) ht
    dsimp only
    split
    · exact answer_within _ x
    · exact cmuSubmit_within x _ _ (by simp)
  | admitLink => exact directoryOk_event h (directoryOk_onCommand h _ _ fun d _ => directoryOk_admitLink h d) ht
  | release =>
    refine directoryOk_cacheCommand h (fun _ x => ?_) ht
    dsimp only
    (repeat' split) <;> (first | exact answer_within _ x | exact releaseNext_within _ _ x)
  | revive =>
    refine directoryOk_cacheCommand h (fun _ x => ?_) ht
    dsimp only
    (repeat' split) <;> (first | exact answer_within _ x | exact reviveNext_within _ _ x)
  | forceDue =>
    change execForceDue s = _ at ht
    unfold execForceDue at ht
    refine directoryOk_event h ?_ ht
    split
    · exact directoryOk_of_within h (forceNext_within _ s)
    · exact directoryOk_onCommand h _ _ fun d _ => directoryOk_of_within h (forceDue_within _ _ s)
  | trial =>
    refine directoryOk_command h (fun _ x => ?_) ht
    dsimp only
    (repeat' split) <;> (first | exact answer_within _ x | exact cmuSubmit_within x _ _ (by simp))
  | readContexts =>
    refine directoryOk_cacheCommand h (fun _ x => ?_) ht
    dsimp only
    (repeat' split) <;> (first | exact answer_within _ x | exact copyNext_within _ x)
  | setNotify =>
    refine directoryOk_command h (fun _ x => ?_) ht
    exact (answer_within _ _).trans (.of_eq rfl)
  | identify => exact directoryOk_command h (fun _ x => cmuSubmit_within x _ _ (by simp)) ht
  | admitImageWriteEnd error =>
    change execAdmitImageWriteEnd error s = _ at ht
    unfold execAdmitImageWriteEnd at ht
    refine directoryOk_cacheEvent h (directoryOk_ending h _ _ fun _ x hx => ?_) ht
    exact directoryOk_keeps resume_within (directoryOk_admitEnded hx error)
  | releaseHeaderWriteEnd error =>
    exact directoryOk_cacheEnding h (fun _ x => (resume_within _).trans (releaseEnded_within error x)) ht
  | reviveContextGiven => exact directoryOk_cacheEvent h (directoryOk_keeps (giveIfReady_within _) h) ht
  | policyBlockReadEnd data =>
    change execPolicyBlockReadEnd data s = _ at ht
    unfold execPolicyBlockReadEnd at ht
    split at ht
    · exact directoryOk_eventEnding h (fun _ x => policyReadEnded_within data x) ht
    · cases ht
  | channelRecordWriteEnd error => exact directoryOk_eventEnding h (fun _ x => channelWriteEnded_within error x) ht
  | trialRecordReadEnd data =>
    change execTrialRecordReadEnd data s = _ at ht
    unfold execTrialRecordReadEnd at ht
    split at ht
    · exact directoryOk_eventEnding h (fun _ x => trialReadEnded_within data x) ht
    · cases ht
  | trialResultWriteEnd error => exact directoryOk_eventEnding h (fun _ x => trialWriteEnded_within error x) ht
  | contextCopyComposed => exact directoryOk_cacheEvent h (directoryOk_keeps (giveIfReady_within _) h) ht
  | copyWriteEnd error => exact directoryOk_cacheEnding h (fun _ x => copyWriteEnded_within error x) ht
  | identifyWriteEnd error => exact directoryOk_eventEnding h (fun _ x => identifyWriteEnded_within error x) ht
  | mirrorWriteEnd error => exact directoryOk_eventEnding h (fun _ x => mirrorWriteEnded_within error x) ht
  | resultWriteEnd error => exact directoryOk_eventEnding h (fun _ x => resultWriteEnded_within error x) ht
  | statusWriteEnd error => exact directoryOk_eventEnding h (fun _ x => statusWriteEnded_within error x) ht
  | commandIndexWriteEnd error => exact directoryOk_eventEnding h (fun _ x => indexWriteEnded_within error x) ht

/-- Settles O59: the step takes the front of the queue, or ticks, and every step of the part keeps the directory. -/
theorem stepKeepsDirectory : Obligations.StepKeepsDirectory := by
  intro s t ht h
  unfold step at ht
  split at ht
  · cases ht
    unfold tick
    split
    · exact h
    · exact ⟨h.ordered, h.indices, h.within, h.admitting⟩
  · next i rest _ =>
    exact directoryOk_exec (s := { s with pending := rest }) i ⟨h.ordered, h.indices, h.within, h.admitting⟩ ht

end Sys2Proof.Machine
end

section
/-!
PROOFS. The part after pin reset (R172), and records read back as they were written (R192).
-/

namespace Sys2Proof.Machine

/-! ## Pin reset -/

/-- Every record of a fixed table that holds one value throughout reads as that value where it is the default. -/
theorem getD_replicate {α : Type} (n i : Nat) (x : α) : (Vector.replicate n x).getD i x = x := by
  simp only [Vector.getD, Vector.toArray_replicate, Array.getD_eq_getD_getElem?, Array.getElem?_replicate]
  split <;> rfl

/-- Settles O2: the fixed tables hold their default throughout, and every other field is its reset value. -/
theorem resetValues : Obligations.ResetValues := by
  have window : ∀ i, State.reset.window i = none := fun i => getD_replicate 6 i none
  have assembly : ∀ w, State.reset.assembly w = none := fun w => getD_replicate 6 w none
  have timer : ∀ ch, State.reset.quietTimer ch = none := fun ch => getD_replicate 16 ch none
  have entry : ∀ e, State.reset.entry e = {} := fun e => getD_replicate 32 e ({} : Entry)
  have slot : ∀ n, State.reset.slot n = {} := fun n => getD_replicate 64 n ({} : Slot)
  have channel : ∀ ch, State.reset.channel ch = {} := fun ch => getD_replicate 16 ch ({} : Channel)
  refine ⟨rfl, rfl, rfl, window, assembly, timer, rfl, rfl, rfl, fun e => ?_, rfl, rfl, rfl, rfl, fun n => ?_, rfl, rfl,
    rfl, rfl, rfl, rfl, rfl, rfl, rfl, rfl, rfl, rfl, rfl, rfl, rfl, fun ch => ?_⟩
  · rw [entry e]; exact ⟨rfl, rfl, rfl, rfl, rfl, rfl⟩
  · rw [slot n]; exact ⟨rfl, rfl, rfl, rfl, rfl, rfl, rfl⟩
  · rw [channel ch]; exact ⟨rfl, rfl, rfl⟩

/-- Settles O60: the tables are empty, so that nothing breaks a rule. -/
theorem invariantsAtReset : Obligations.InvariantsAtReset := by
  have window : ∀ i, State.reset.window i = none := fun i => getD_replicate 6 i none
  have entry : ∀ e, (State.reset.entry e).cond = .invalid := fun e =>
    congrArg Entry.cond (getD_replicate 32 e ({} : Entry))
  have windows : ∀ k, State.reset.windowsOf k = [] := fun k =>
    List.eq_nil_iff_forall_not_mem.2 fun p hp => by simpa [window] using (windowsOf_mem.1 hp).2.1
  have windowsOk : State.reset.WindowsOk :=
    { reset := fun _ => window
      legal := fun i w h => by simp [window] at h
      apart := fun i j w x h => by simp [window] at h
      control := fun i w h => by simp [window] at h
      oneContext := by simp [windows]
      fiveCapture := by simp [windows] }
  have cacheOk : State.reset.CacheOk := ⟨fun d _ hd => absurd (entry d) hd, fun r hr => absurd hr List.not_mem_nil⟩
  exact ⟨⟨Nat.zero_le _, .nil⟩, windowsOk, directoryOk_reset, cacheOk, .nil, Nat.zero_le _⟩

end Sys2Proof.Machine
end

section
/-!
PROOFS. A context record is read back as it was written (R189, R192): a field written little-endian reads as its
value, a field behind others is found by their lengths, and the 256 bytes are fields one behind another.
-/

namespace Sys2Proof.Machine

/-! ## Fields one behind another (R189) -/

/-- A value of `n` bytes is the sum of its bytes, each by its place. -/
theorem getLe_eq_sum (bs : List Byte) (off n : Nat) :
    getLe bs off n = ((List.range n).map fun i => byteAt bs (off + i) * 2 ^ (8 * i)).sum := by
  have fold : ∀ is : List Nat, is.foldr (fun i acc => byteAt bs (off + i) * 2 ^ (8 * i) + acc) 0
      = (is.map fun i => byteAt bs (off + i) * 2 ^ (8 * i)).sum := by
    intro is
    induction is with
    | nil => rfl
    | cons i is ih => simp [ih]
  exact fold _

/-- One byte is a value of one byte. -/
theorem byteAt_eq_getLe (bs : List Byte) (off : Nat) : byteAt bs off = getLe bs off 1 := by simp [getLe]

/-- A field behind others is found by their length. -/
theorem getLe_append_right {pre post : List Byte} {off n : Nat} (h : pre.length ≤ off) :
    getLe (pre ++ post) off n = getLe post (off - pre.length) n := by
  simp only [getLe_eq_sum, byteAt]
  refine congrArg List.sum (List.map_congr_left fun i _ => ?_)
  rw [List.getD_append_right _ _ _ _ (by omega), Nat.sub_add_comm h]

/-- A field is read the same whatever stands behind it. -/
theorem getLe_append_left {pre post : List Byte} {off n : Nat} (h : off + n ≤ pre.length) :
    getLe (pre ++ post) off n = getLe pre off n := by
  simp only [getLe_eq_sum, byteAt]
  refine congrArg List.sum (List.map_congr_left fun i hi => ?_)
  rw [List.getD_append _ _ _ _ (by have := List.mem_range.1 hi; omega)]

@[simp] theorem le_length (n v : Nat) : (le n v).length = n := by simp [le]

@[simp] theorem leInt_length (n : Nat) (v : Int) : (leInt n v).length = n := by simp [leInt]

@[simp] theorem zeros_length (n : Nat) : (zeros n).length = n := by simp [zeros]

/-- A value written in `n` bytes is read back modulo what they hold. -/
theorem getLe_le (n v : Nat) : getLe (le n v) 0 n = v % 2 ^ (8 * n) := by
  have upTo : ∀ k, k ≤ n → getLe (le n v) 0 k = v % 2 ^ (8 * k) := by
    intro k
    induction k with
    | zero => intro _; simp [getLe, Nat.mod_one]
    | succ k ih =>
      intro hk
      have byte : byteAt (le n v) k = v / 2 ^ (8 * k) % 256 := by
        simp [byteAt, le, List.getD_eq_getElem?_getD, List.getElem?_range (by omega : k < n)]
      have place : 2 ^ (8 * (k + 1)) = 2 ^ (8 * k) * 256 := by rw [Nat.mul_add, Nat.pow_add]
      rw [getLe_eq_sum, List.range_succ, List.map_append, List.sum_append, ← getLe_eq_sum, ih (by omega), place,
        Nat.mod_mul]
      simp [byte, Nat.mul_comm]
  exact upTo n (Nat.le_refl n)

/-- A value that fits is read back. -/
theorem getLe_field {n v : Nat} {post : List Byte} (h : fits n v) : getLe (le n v ++ post) 0 n = v := by
  rw [getLe_append_left (by simp), getLe_le, Nat.mod_eq_of_lt h]

/-- A signed value that fits is what two's complement gives (R189). -/
theorem signed_mod {n : Nat} {v : Int} (hn : 0 < n) (h : fitsInt n v) : signed n (v % 2 ^ (8 * n)).toNat = v := by
  obtain ⟨m, hm⟩ : ∃ m, 8 * n = m + 1 := ⟨8 * n - 1, by omega⟩
  obtain ⟨hl, hu⟩ := h
  simp only [signed, hm, Nat.add_sub_cancel, pow_succ] at *
  have pos : (0 : Int) < 2 ^ m := by positivity
  have cast : ((2 ^ m : Nat) : Int) = 2 ^ m := by push_cast; rfl
  generalize (2 ^ m : Int) = p at *
  by_cases hv : 0 ≤ v
  · rw [Int.emod_eq_of_lt hv (by omega)]
    rw [if_pos (by omega)]
    omega
  · have : v % (p * 2) = v + p * 2 := by
      rw [← Int.add_emod_right, Int.emod_eq_of_lt (by omega) (by omega)]
    rw [this, if_neg (by omega)]
    omega

/-- A signed value that fits is read back. -/
theorem signed_field {n : Nat} {v : Int} {post : List Byte} (hn : 0 < n) (h : fitsInt n v) :
    signed n (getLe (leInt n v ++ post) 0 n) = v := by
  have pos : (0 : Int) < 2 ^ (8 * n) := by positivity
  have lt : (v % 2 ^ (8 * n)).toNat < 2 ^ (8 * n) := by
    have h0 := Int.emod_nonneg v (ne_of_gt pos)
    have h1 := Int.emod_lt_of_pos v pos
    have cast : ((2 ^ (8 * n) : Nat) : Int) = 2 ^ (8 * n) := by push_cast; rfl
    omega
  rw [leInt, getLe_field lt, signed_mod hn h]

/-! ## Tap sets (R189) -/

@[simp] theorem Tap.toBytes_length (t : Tap) : t.toBytes.length = 4 := by simp [Tap.toBytes]

/-- The bytes of the taps from a number on. -/
def tapRun (ts : List Tap) (ks : List Nat) : List Byte := ks.flatMap fun k => (tapAt ts k).toBytes

@[simp] theorem tapRun_length (ts : List Tap) (ks : List Nat) : (tapRun ts ks).length = 4 * ks.length := by
  induction ks with
  | nil => rfl
  | cons k ks ih => simp only [tapRun, List.flatMap_cons, List.length_append, Tap.toBytes_length, List.length_cons] at *; omega

theorem tapBytes_eq_run (ts : List Tap) : tapBytes ts = tapRun ts (List.range 12) := rfl

@[simp] theorem tapBytes_length (ts : List Tap) : (tapBytes ts).length = 48 := by simp [tapBytes_eq_run]

/-- A tap of a set that fits does. -/
theorem TapsFit.tapAt {ts : List Tap} (h : TapsFit ts) {k : Nat} (hk : k < 12) :
    fitsInt 2 (tapAt ts k).re ∧ fitsInt 2 (tapAt ts k).im := by
  have hl : k < ts.length := h.1 ▸ hk
  rw [Machine.tapAt, List.getD_eq_getElem _ _ hl]
  exact h.2 _ (List.getElem_mem hl)

/-- A tap set is read the same behind other fields. -/
theorem getTaps_append_right {pre post : List Byte} {off : Nat} (h : pre.length ≤ off) :
    getTaps (pre ++ post) off = getTaps post (off - pre.length) := by
  refine List.map_congr_left fun k _ => ?_
  simp only [getInt]
  rw [getLe_append_right (by omega), getLe_append_right (by omega), Nat.sub_add_comm h,
    show off + 4 * k + 2 - pre.length = off - pre.length + 4 * k + 2 by omega]

/-- A tap of a set is found by its number. -/
theorem getLe_tapBytes (ts : List Tap) (post : List Byte) {k : Nat} (hk : k < 12) (j n : Nat) :
    ∃ more, getLe (tapBytes ts ++ post) (4 * k + j) n = getLe ((tapAt ts k).toBytes ++ more) j n := by
  have split : List.range 12 = List.range k ++ k :: (List.range (11 - k)).map (k + 1 + ·) := by
    rw [show 12 = k + (1 + (11 - k)) by omega, List.range_add, List.range_add]
    simp [List.range_one, Nat.add_assoc]
  refine ⟨tapRun ts ((List.range (11 - k)).map (k + 1 + ·)) ++ post, ?_⟩
  have whole : tapBytes ts ++ post = tapRun ts (List.range k)
      ++ ((tapAt ts k).toBytes ++ (tapRun ts ((List.range (11 - k)).map (k + 1 + ·)) ++ post)) := by
    rw [tapBytes_eq_run, split, tapRun, List.flatMap_append, List.flatMap_cons]
    simp only [tapRun, List.append_assoc]
  have before : (tapRun ts (List.range k)).length = 4 * k := by simp
  rw [whole, getLe_append_right (by omega), before, Nat.add_sub_cancel_left]

/-- A tap set that fits is read back. -/
theorem getTaps_tapBytes {ts : List Tap} {post : List Byte} (h : TapsFit ts) : getTaps (tapBytes ts ++ post) 0 = ts := by
  have tap : ∀ k, k < 12 → getInt (tapBytes ts ++ post) (0 + 4 * k) 2 = (tapAt ts k).re
      ∧ getInt (tapBytes ts ++ post) (0 + 4 * k + 2) 2 = (tapAt ts k).im := by
    intro k hk
    obtain ⟨hr, hi⟩ := h.tapAt hk
    obtain ⟨m0, re⟩ := getLe_tapBytes ts post hk 0 2
    obtain ⟨m2, im⟩ := getLe_tapBytes ts post hk 2 2
    rw [Nat.zero_add, getInt, getInt, im, ← Nat.add_zero (4 * k), re, Tap.toBytes, List.append_assoc, List.append_assoc,
      signed_field (by omega) hr, getLe_append_right (by simp), leInt_length, Nat.sub_self, signed_field (by omega) hi]
    exact ⟨rfl, rfl⟩
  have whole : (List.range 12).map (fun k => tapAt ts k) = ts := by
    refine List.ext_getElem (by simp [h.1]) fun k h1 h2 => ?_
    simp only [List.getElem_map, List.getElem_range, tapAt, List.getD_eq_getElem _ _ h2]
  rw [← whole]
  refine List.map_congr_left fun k hk => ?_
  rw [whole, (tap k (List.mem_range.1 hk)).1, (tap k (List.mem_range.1 hk)).2]

/-! ## Codes and flags (R189, R192) -/

theorem fits_code {v : Nat} (h : v ≤ 255) : fits 1 v := by unfold fits; omega

theorem CtxState.ofCode_code (s : CtxState) : CtxState.ofCode s.code = s := by cases s <;> rfl

theorem CtxState.code_fits (s : CtxState) : fits 1 s.code := fits_code (by cases s <;> decide)

theorem LapseReason.ofCode_code (r : LapseReason) : LapseReason.ofCode r.code = r := by cases r <;> rfl

theorem LapseReason.code_fits (r : LapseReason) : fits 1 r.code := fits_code (by cases r <;> decide)

theorem calKindOfCode_code (k : Option CalKind) : calKindOfCode (calKindCode k) = k := by
  rcases k with _ | k
  · rfl
  · cases k <;> rfl

theorem calKindCode_fits (k : Option CalKind) : fits 1 (calKindCode k) := fits_code (by
  rcases k with _ | k
  · decide
  · cases k <;> decide)

theorem pendingStatus_code (s : CorrStatus) : pendingStatus s.code = some s := by cases s <;> rfl

theorem CorrStatus.code_fits (s : CorrStatus) : fits 1 s.code := fits_code (by cases s <;> decide)

/-- The four flags of a context are the bits of its flags byte (R192). -/
theorem contextFlags_bits : ∀ a b c d : Bool,
    let v := flagBit 0 a + flagBit 1 b + flagBit 2 c + flagBit 3 d
    v ≤ 255 ∧ v.testBit 0 = a ∧ v.testBit 1 = b ∧ v.testBit 2 = c ∧ v.testBit 3 = d := by decide

/-- The hold and freeze flags are the bits of the control byte (R192). -/
theorem controlByte_bits : ∀ a b : Bool,
    controlByte a b ≤ 255 ∧ (controlByte a b).testBit 0 = a ∧ (controlByte a b).testBit 1 = b := by decide

/-- The six flags of a correction are the bits of its flags byte (R192). -/
theorem correctionFlags_bits : ∀ a b c d e f : Bool,
    let v := correctionFlags a b c d e f
    v ≤ 255 ∧ v.testBit 0 = a ∧ v.testBit 1 = b ∧ v.testBit 2 = c ∧ v.testBit 3 = d ∧ v.testBit 4 = e
      ∧ v.testBit 5 = f := by decide

/-- A 32-bit instant fits four bytes. -/
theorem tick_fits (t : Tick) : fits 4 t.toNat := t.isLt

/-! ## The blocks of a context record (R192) -/

/-- The last measurement is read back. -/
theorem measurement_read {pre post : List Byte} {m : Measurement} (hl : pre.length = 144)
    (h : fitsInt 4 m.timing ∧ fitsInt 2 m.power ∧ fitsInt 2 m.freq ∧ fits 1 m.snr ∧ fits 1 m.health) :
    let bs := pre ++ (m.toBytes ++ post)
    (⟨getInt bs 144 4, getInt bs 148 2, getInt bs 150 2, byteAt bs 152, byteAt bs 153,
      BitVec.ofNat 32 (getLe bs 156 4)⟩ : Measurement) = m := by
  obtain ⟨ht, hp, hf, hs, hh⟩ := h
  simp [Measurement.toBytes, getInt, byteAt_eq_getLe, getLe_append_right, hl, getLe_field, signed_field, ht, hp, hf, hs,
    hh, tick_fits]

/-- The counters are read back. -/
theorem counters_read {pre post : List Byte} {k : CtxCounters} (hl : pre.length = 160)
    (h : fits 4 k.captures ∧ fits 4 k.delivered ∧ fits 2 k.superseded ∧ fits 2 k.replaced ∧ fits 2 k.lost
      ∧ fits 2 k.rejected ∧ fits 2 k.clipped) :
    let bs := pre ++ (k.toBytes ++ post)
    (⟨getLe bs 160 4, getLe bs 164 4, getLe bs 168 2, getLe bs 170 2, getLe bs 172 2, getLe bs 174 2,
      getLe bs 176 2⟩ : CtxCounters) = k := by
  obtain ⟨h1, h2, h3, h4, h5, h6, h7⟩ := h
  simp [CtxCounters.toBytes, getLe_append_right, hl, getLe_field, h1, h2, h3, h4, h5, h6, h7]

/-- The fields of a pending correction before its tap set. -/
def Correction.fieldBytes (c : Correction) : List Byte :=
  le 1 c.status.code ++ (le 1 c.flagsByte ++ (leInt 1 c.power ++ (zeros 1 ++ (leInt 4 c.timing ++ (leInt 2 c.freq
    ++ (le 2 c.basis ++ (le 2 c.id ++ zeros 2)))))))

/-- A pending correction is its fields and, where it has one, its tap set. -/
theorem pendingBytes_some (c : Correction) : ∃ tb, pendingBytes (some c) = c.fieldBytes ++ tb
    ∧ tb.length = 48 ∧ ∀ ts, c.taps = some ts → tb = tapBytes ts := by
  unfold pendingBytes Correction.fieldBytes
  simp only [List.append_assoc]
  cases h : c.taps with
  | none => exact ⟨zeros 48, rfl, by simp, nofun⟩
  | some ts => exact ⟨tapBytes ts, rfl, by simp, fun _ hs => by cases hs; rfl⟩

/-- The tap set of a pending correction is read back where there is one. -/
theorem pendingTaps_read {pre tb post : List Byte} {taps : Option (List Tap)} (hl : pre.length = 96)
    (hb : ∀ ts, taps = some ts → tb = tapBytes ts) (h : ∀ ts, taps = some ts → TapsFit ts) :
    (if taps.isSome then some (getTaps (pre ++ (tb ++ post)) 96) else none) = taps := by
  cases taps with
  | none => rfl
  | some ts => simp [hb ts rfl, getTaps_append_right, hl, getTaps_tapBytes (h ts rfl)]

/-- The pending correction is read back, and zeros are none (R192). -/
theorem pending_read {pre post : List Byte} {p : Option Correction} (hl : pre.length = 80)
    (h : ∀ c, p = some c → c.Fits) : getPending (pre ++ (pendingBytes p ++ post)) = p := by
  cases p with
  | none =>
    have status : byteAt (pre ++ (zeros 64 ++ post)) 80 = 0 := by
      rw [byteAt_eq_getLe, getLe_append_right (by omega), hl, getLe_append_left (by simp)]
      decide
    simp [getPending, pendingBytes, status, pendingStatus]
  | some c =>
    have fit := h c rfl
    obtain ⟨hv, b0, b1, b2, b3, b4, b5⟩ := correctionFlags_bits c.taps.isSome c.clipped c.tapsSkipped c.timingClamped
      c.powerClamped c.freqClamped
    have flags : fits 1 c.flagsByte := fits_code hv
    obtain ⟨tb, hp, -, hb⟩ := pendingBytes_some c
    have taps := pendingTaps_read (pre := pre ++ c.fieldBytes) (post := post) (by simp [hl, Correction.fieldBytes]) hb
      fit.taps
    rw [hp]
    simp only [List.append_assoc] at taps ⊢
    generalize hts : getTaps (pre ++ (c.fieldBytes ++ (tb ++ post))) 96 = ts at *
    rw [getPending, hts]
    have status : byteAt (pre ++ (c.fieldBytes ++ (tb ++ post))) 80 = c.status.code := by
      simp [Correction.fieldBytes, byteAt_eq_getLe, getLe_append_right, hl, getLe_field, CorrStatus.code_fits]
    have byte : byteAt (pre ++ (c.fieldBytes ++ (tb ++ post))) 81 = c.flagsByte := by
      simp [Correction.fieldBytes, byteAt_eq_getLe, getLe_append_right, hl, getLe_field, flags]
    rw [status, pendingStatus_code, Option.map_some]
    simp only [bitAt, byte]
    rw [show c.flagsByte = correctionFlags c.taps.isSome c.clipped c.tapsSkipped c.timingClamped c.powerClamped
      c.freqClamped from rfl, b0, b1, b2, b3, b4, b5, taps]
    simp [Correction.fieldBytes, getInt, getLe_append_right, hl, getLe_field, signed_field, fit.timing, fit.power,
      fit.freq, fit.basis, fit.id]

/-- Every pending correction block has 64 bytes. -/
@[simp] theorem pendingBytes_length (p : Option Correction) : (pendingBytes p).length = 64 := by
  cases p with
  | none => simp [pendingBytes]
  | some c =>
    obtain ⟨tb, hp, hl, -⟩ := pendingBytes_some c
    simp [hp, hl, Correction.fieldBytes]

/-! ## The whole record -/

@[simp] theorem Measurement.toBytes_length (m : Measurement) : m.toBytes.length = 16 := by simp [Measurement.toBytes]

@[simp] theorem CtxCounters.toBytes_length (k : CtxCounters) : k.toBytes.length = 32 := by simp [CtxCounters.toBytes]

/-- The fields of a context before its tap set: the first 32 bytes of its record (R192). -/
def Context.frontBytes (c : Context) : List Byte :=
  le 1 c.key.channel ++ (zeros 1 ++ (le 2 c.key.station ++ (le 1 c.state.code ++ (le 1 c.lapse.code ++ (le 1 c.step
    ++ (le 1 c.settle ++ (le 1 c.flagsByte ++ (le 1 (calKindCode c.calKind) ++ (le 1 c.miss ++ (zeros 1
    ++ (le 4 c.due.toNat ++ (leInt 4 c.offTiming ++ (leInt 2 c.offFreq ++ (leInt 1 c.offPower
    ++ (le 1 (controlByte c.hold c.freeze) ++ (le 2 c.basis ++ (le 2 c.corrSeq ++ zeros 4)))))))))))))))))

@[simp] theorem Context.frontBytes_length (c : Context) : c.frontBytes.length = 32 := by simp [Context.frontBytes]

/-- The record is its front, the tap set, the pending correction, the last measurement, the counters and zeros. -/
theorem Context.toBytes_eq (c : Context) : c.toBytes = c.frontBytes
    ++ (tapBytes c.taps ++ (pendingBytes c.pending ++ (c.meas.toBytes ++ (c.counters.toBytes ++ zeros 64)))) := by
  simp only [Context.toBytes, Context.headerBytes, Key.toBytes, Context.frontBytes, List.append_assoc]

/-- The fields of the front are read back. -/
theorem front_read {c : Context} {post : List Byte} (h : c.Fits) :
    { Context.ofBytes (c.frontBytes ++ post) with taps := c.taps, pending := c.pending, meas := c.meas, counters := c.counters } = c := by
  obtain ⟨hv, f0, f1, f2, f3⟩ := contextFlags_bits c.impaired c.timingAtLimit c.powerAtLimit c.freqAtLimit
  obtain ⟨cv, c0, c1⟩ := controlByte_bits c.hold c.freeze
  have flags : fits 1 c.flagsByte := fits_code hv
  have control : fits 1 (controlByte c.hold c.freeze) := fits_code cv
  obtain ⟨hc, hs⟩ := h.key
  obtain ⟨h1, h2, h3⟩ := h.counts
  obtain ⟨o1, o2, o3⟩ := h.offsets
  obtain ⟨q1, q2⟩ := h.sequences
  have byte : byteAt (c.frontBytes ++ post) 8 = c.flagsByte := by
    simp [Context.frontBytes, byteAt_eq_getLe, getLe_append_right, getLe_field, flags]
  have operator : byteAt (c.frontBytes ++ post) 23 = controlByte c.hold c.freeze := by
    simp [Context.frontBytes, byteAt_eq_getLe, getLe_append_right, getLe_field, control]
  simp only [Context.ofBytes, bitAt, byte, operator, c0, c1]
  rw [show c.flagsByte = flagBit 0 c.impaired + flagBit 1 c.timingAtLimit + flagBit 2 c.powerAtLimit
    + flagBit 3 c.freqAtLimit from rfl, f0, f1, f2, f3]
  simp [Context.frontBytes, getKey, getInt, byteAt_eq_getLe, getLe_append_right, getLe_field, signed_field, hc, hs, h1,
    h2, h3, o1, o2, o3, q1, q2, tick_fits, CtxState.code_fits, CtxState.ofCode_code, LapseReason.code_fits,
    LapseReason.ofCode_code, calKindCode_fits, calKindOfCode_code]

theorem Context.ofBytes_taps (bs : List Byte) : (Context.ofBytes bs).taps = getTaps bs 32 := rfl
theorem Context.ofBytes_pending (bs : List Byte) : (Context.ofBytes bs).pending = getPending bs := rfl
theorem Context.ofBytes_meas (bs : List Byte) : (Context.ofBytes bs).meas = ⟨getInt bs 144 4, getInt bs 148 2,
    getInt bs 150 2, byteAt bs 152, byteAt bs 153, BitVec.ofNat 32 (getLe bs 156 4)⟩ := rfl
theorem Context.ofBytes_counters (bs : List Byte) : (Context.ofBytes bs).counters = ⟨getLe bs 160 4, getLe bs 164 4,
    getLe bs 168 2, getLe bs 170 2, getLe bs 172 2, getLe bs 174 2, getLe bs 176 2⟩ := rfl

/-- Two contexts that agree in the front fields and in each block are one. -/
theorem Context.eq_of_front {x c : Context}
    (h : { x with taps := c.taps, pending := c.pending, meas := c.meas, counters := c.counters } = c)
    (ht : x.taps = c.taps) (hp : x.pending = c.pending) (hm : x.meas = c.meas) (hk : x.counters = c.counters) :
    x = c := by
  rw [← ht, ← hp, ← hm, ← hk] at h
  exact h

/-- Settles O56: each block of the record is read back behind those before it. -/
theorem contextRoundTrip : Obligations.ContextRoundTrip := by
  intro c h
  refine ⟨by simp [Context.toBytes_eq], ?_⟩
  set tail := pendingBytes c.pending ++ (c.meas.toBytes ++ (c.counters.toBytes ++ zeros 64)) with htail
  have whole : c.toBytes = c.frontBytes ++ (tapBytes c.taps ++ tail) := c.toBytes_eq
  have pending := pending_read (pre := c.frontBytes ++ tapBytes c.taps)
    (post := c.meas.toBytes ++ (c.counters.toBytes ++ zeros 64)) (by simp) h.pending
  have meas := measurement_read (pre := c.frontBytes ++ (tapBytes c.taps ++ pendingBytes c.pending))
    (post := c.counters.toBytes ++ zeros 64) (by simp) h.measured
  have counters := counters_read
    (pre := c.frontBytes ++ (tapBytes c.taps ++ (pendingBytes c.pending ++ c.meas.toBytes))) (post := zeros 64)
    (by simp) h.counters
  simp only [List.append_assoc, ← htail, ← whole] at pending meas counters
  have taps : getTaps c.toBytes 32 = c.taps := by
    rw [whole, getTaps_append_right (by simp), Context.frontBytes_length, Nat.sub_self, getTaps_tapBytes h.taps]
  have front := front_read (post := tapBytes c.taps ++ tail) h
  rw [← whole] at front
  exact Context.eq_of_front front ((Context.ofBytes_taps _).trans taps) ((Context.ofBytes_pending _).trans pending)
    ((Context.ofBytes_meas _).trans meas) ((Context.ofBytes_counters _).trans counters)

end Sys2Proof.Machine
end

section
/-!
PROOFS. What an applied update makes of its context (R9 to R14, R27 to R45, R75, R76).
-/

namespace Sys2Proof.Machine

/-! ## The figures (R27, R28, R33, R41) -/

/-- The relapse test (R27). -/
theorem relapses_iff {s : Snapshot} {r : List Byte} : relapses s r = true ↔
    s.policy.relapseTiming < (recTiming r).natAbs ∨ s.policy.relapsePower < (recPower r).natAbs := by
  simp only [relapses, within, Bool.not_and, Bool.or_eq_true, Bool.not_eq_true', decide_eq_false_iff_not, not_le]

/-- The tracking gains in TRACKING without a relapse (R27). -/
theorem captureGains_tracking {s : Snapshot} {r : List Byte} (hs : s.state = .tracking) (hr : relapses s r = false) :
    captureGains s r = s.policy.trk := if_pos ⟨hs, hr⟩

/-- The acquisition gains otherwise (R27). -/
theorem captureGains_acquire {s : Snapshot} {r : List Byte} (h : s.state ≠ .tracking ∨ relapses s r = true) :
    captureGains s r = s.policy.acq := if_neg fun ⟨hs, hr⟩ => h.elim (absurd hs) (by simp [hr])

theorem wantsTaps_iff {s : Snapshot} {r : List Byte} :
    wantsTaps s r = true ↔ recTapsPresent r = true ∧ s.freeze = false := by simp [wantsTaps]

/-- The tap stage runs on the record's taps where they are wanted and the SNR suffices (R33). -/
theorem figures_taps_run {s : Snapshot} {r : List Byte} (g : Gains) (hw : recTapsPresent r = true ∧ s.freeze = false)
    (hs : s.policy.snrMin ≤ recSnr r) : (figures s r g).tapsSkipped = false
      ∧ (figures s r g).tapStage = some (stageQ (recTaps r) s.taps s.policy.mainTap g.taps) := by
  simp [figures, runTaps, wantsTaps_iff.2 hw, hs]

/-- Below the SNR minimum the tap stage is skipped (R33). -/
theorem figures_taps_skipped {s : Snapshot} {r : List Byte} (g : Gains)
    (hw : recTapsPresent r = true ∧ s.freeze = false) (hs : recSnr r < s.policy.snrMin) :
    (figures s r g).tapsSkipped = true ∧ (figures s r g).tapStage = none := by
  simp [figures, runTaps, wantsTaps_iff.2 hw, hs]

/-- Without taps, or frozen, there is no tap stage and nothing is skipped (R33). -/
theorem figures_taps_absent {s : Snapshot} {r : List Byte} (g : Gains)
    (hw : ¬ (recTapsPresent r = true ∧ s.freeze = false)) :
    (figures s r g).tapsSkipped = false ∧ (figures s r g).tapStage = none := by
  have : wantsTaps s r = false := Bool.eq_false_iff.2 fun h => hw (wantsTaps_iff.1 h)
  simp [figures, runTaps, this]

/-- What no tap stage leaves. -/
theorem Figures.of_tapStage_none {f : Figures} (h : f.tapStage = none) :
    f.newTaps = none ∧ f.degenerate = false ∧ f.clipped = false := by
  simp [Figures.newTaps, Figures.degenerate, Figures.clipped, h]

/-- What the tap stage leaves. -/
theorem Figures.of_tapStage_some {f : Figures} {q : TapStage} (h : f.tapStage = some q) :
    f.newTaps = q.taps ∧ (f.degenerate = true ↔ q.taps = none) ∧ f.clipped = q.clipped := by
  simp [Figures.newTaps, Figures.degenerate, Figures.clipped, h]

/-- The health is that of the set left to issue (R39). -/
theorem figures_health (s : Snapshot) (r : List Byte) (g : Gains) : (figures s r g).health =
    healthOf (match (figures s r g).newTaps with | none => s.taps | some ts => ts) s.policy.mainTap := by
  simp only [figures, Figures.newTaps]
  cases h : runTaps s r g with
  | none => rfl
  | some q => cases hq : q.taps <;> simp [hq]

/-- The settle test (R41). -/
theorem figures_settles (s : Snapshot) (r : List Byte) (g : Gains) : (figures s r g).settles = true ↔
    (recTiming r).natAbs ≤ s.policy.settleTiming ∧ (recPower r).natAbs ≤ s.policy.settlePower
      ∧ (recFreq r).natAbs ≤ s.policy.settleFreq
      ∧ (s.freeze = true ∨ recTapsPresent r = false ∨ s.policy.settleHealth ≤ (figures s r g).health) := by
  simp only [figures, settleTest, within, Bool.and_eq_true, Bool.or_eq_true, decide_eq_true_eq, Bool.not_eq_true',
    and_assoc, or_assoc]

/-! ## The three ways an update is applied (R75) -/

/-- In HELD the update measures and forms no correction (R14). -/
theorem applyUpdate_held {s : Snapshot} (h : s.state = .held) (c : Context) (r : List Byte) (stamp : Tick)
    (tally : Nat) : applyUpdate c s r stamp tally = applyHeld c s r stamp tally := if_pos h

/-- A DEGENERATE update is rejected (R38). -/
theorem applyUpdate_rejected {s : Snapshot} {r : List Byte} (h : s.state ≠ .held)
    (hd : (figures s r (captureGains s r)).degenerate = true) (c : Context) (stamp : Tick) (tally : Nat) :
    applyUpdate c s r stamp tally = applyRejected c s r stamp tally
      (((figures s r (captureGains s r)).tapStage.map fun t => t.r).getD 0) := by
  simp only [applyUpdate, if_neg h, if_pos hd]

/-- The verdict of an update that forms a correction: R13 in TRACKING, R12 otherwise. -/
def verdictOf (c : Context) (s : Snapshot) (r : List Byte) : Verdict :=
  if s.state = .tracking then trackVerdict c (relapses s r) (figures s r (captureGains s r)).settles
  else acquireVerdict c s.policy (figures s r (captureGains s r)).settles

/-- Any other update forms a correction and brings the link where its verdict says (R12, R13, R43). -/
theorem applyUpdate_formed {s : Snapshot} {r : List Byte} (h : s.state ≠ .held)
    (hd : (figures s r (captureGains s r)).degenerate = false) (c : Context) (stamp : Tick) (tally : Nat) :
    applyUpdate c s r stamp tally
      = applyCorrection c s r stamp tally (figures s r (captureGains s r)) (verdictOf c s r) := by
  unfold applyUpdate verdictOf
  simp only [if_neg h, hd, Bool.false_eq_true, if_false]
  by_cases hs : s.state = .tracking
  · rw [if_pos hs, if_pos hs]
  · rw [if_neg hs, if_neg hs]

/-- What every applied update does, and what none changes (R9, R10, R75). -/
theorem applyUpdate_frame (c : Context) (s : Snapshot) (r : List Byte) (stamp : Tick) (tally : Nat) :
    let a := (applyUpdate c s r stamp tally).ctx
    a.counters.captures = min 4294967295 (c.counters.captures + 1)
    ∧ a.counters.superseded = min 65535 (c.counters.superseded + tally)
    ∧ a.counters.delivered = c.counters.delivered ∧ a.counters.lost = c.counters.lost
    ∧ a.hold = c.hold ∧ a.freeze = c.freeze ∧ a.taps = c.taps ∧ a.basis = c.basis
    ∧ a.offTiming = c.offTiming ∧ a.offPower = c.offPower ∧ a.offFreq = c.offFreq := by
  by_cases h : s.state = .held
  · rw [applyUpdate_held h]
    exact ⟨rfl, rfl, rfl, rfl, rfl, rfl, rfl, rfl, rfl, rfl, rfl⟩
  · cases hd : (figures s r (captureGains s r)).degenerate
    · rw [applyUpdate_formed h hd]
      exact ⟨rfl, rfl, rfl, rfl, rfl, rfl, rfl, rfl, rfl, rfl, rfl⟩
    · rw [applyUpdate_rejected h hd]
      exact ⟨rfl, rfl, rfl, rfl, rfl, rfl, rfl, rfl, rfl, rfl, rfl⟩

/-! ## Notices and hand-over (R40, R45, R76) -/

/-- The notice of the IMPAIRED flag (R40). -/
theorem impairedNotices_eq (old new : Bool) (health : Nat) : impairedNotices old new health =
    if old = new then [] else [(if new then .impaired else .restored, 0, health)] := by
  cases old <;> cases new <;> rfl

/-- The detail of ADJUST_CLAMPED is one bit for each clamped axis (R194). -/
theorem Correction.clampDetail_eq (k : Correction) : k.clampDetail =
    (if k.timingClamped then 1 else 0) + (if k.powerClamped then 2 else 0) + (if k.freqClamped then 4 else 0) := by
  simp [Correction.clampDetail, flagBit]

/-- The hand-over of a change of state (R76). -/
theorem handOverOf_ne {old new : CtxState} (h : old ≠ new) :
    (new = .tracking → handOverOf old new = .nowTracking) ∧ (new = .lapsed → handOverOf old new = .remove)
    ∧ (new = .acquiring → handOverOf old new = if old = .tracking then .nowAcquire else .nothing) := by
  refine ⟨?_, ?_, ?_⟩ <;> rintro rfl <;> simp only [handOverOf, if_neg h]

theorem handOverOf_self (st : CtxState) : handOverOf st st = .nothing := if_pos rfl

/-- The calendar is handed what the change of state makes (R76). -/
theorem applyUpdate_handOver (c : Context) (s : Snapshot) (r : List Byte) (stamp : Tick) (tally : Nat) :
    (applyUpdate c s r stamp tally).handOver = handOverOf c.state (applyUpdate c s r stamp tally).ctx.state := by
  by_cases h : s.state = .held
  · rw [applyUpdate_held h]
    exact (handOverOf_self c.state).symm
  · cases hd : (figures s r (captureGains s r)).degenerate
    · rw [applyUpdate_formed h hd]
      rfl
    · rw [applyUpdate_rejected h hd]
      exact (handOverOf_self c.state).symm

/-! ## The verdicts (R12, R13) -/

/-- The correction an update forms (R43, R44). -/
def formedCorrection (f : Figures) (status : CorrStatus) (basis id : Nat) : Correction :=
  if status = .abort then abortCorrection basis id else f.correction status basis id

theorem formedCorrection_status (f : Figures) (status : CorrStatus) (basis id : Nat) :
    (formedCorrection f status basis id).status = status ∧ (formedCorrection f status basis id).id = id
      ∧ (formedCorrection f status basis id).basis = basis := by
  unfold formedCorrection
  split
  · next h => exact ⟨h.symm, rfl, rfl⟩
  · exact ⟨rfl, rfl, rfl⟩

/-- R13 with a relapse. -/
theorem verdictOf_relapse {c : Context} {s : Snapshot} {r : List Byte} (hs : s.state = .tracking)
    (hr : relapses s r = true) : verdictOf c s r = ⟨.acquiring, .noReason, 0, 0, .continuing⟩ := by
  simp [verdictOf, hs, trackVerdict, hr]

/-- R13 without a relapse. -/
theorem verdictOf_tracking {c : Context} {s : Snapshot} {r : List Byte} (hs : s.state = .tracking)
    (hr : relapses s r = false) : verdictOf c s r = ⟨.tracking, .noReason, c.step, c.settle,
      if (figures s r (captureGains s r)).settles then .settled else .continuing⟩ := by
  simp [verdictOf, hs, trackVerdict, hr]

/-- R12: the settle count reaches its target. -/
theorem verdictOf_settled {c : Context} {s : Snapshot} {r : List Byte} {n : Nat} (hs : s.state ≠ .tracking)
    (hn : n = if (figures s r (captureGains s r)).settles then c.settle + 1 else 0) (ht : s.policy.settleTarget ≤ n) :
    verdictOf c s r = ⟨.tracking, .noReason, c.step, n, .settled⟩ := by
  rw [verdictOf, if_neg hs, acquireVerdict, ← hn, if_pos ht]

/-- R12: the step count reaches its limit. -/
theorem verdictOf_abort {c : Context} {s : Snapshot} {r : List Byte} {n : Nat} (hs : s.state ≠ .tracking)
    (hn : n = if (figures s r (captureGains s r)).settles then c.settle + 1 else 0) (ht : n < s.policy.settleTarget)
    (hl : s.policy.acquireLimit ≤ c.step + 1) :
    verdictOf c s r = ⟨.lapsed, .noSettle, c.step + 1, n, .abort⟩ := by
  rw [verdictOf, if_neg hs, acquireVerdict, ← hn, if_neg (by omega), if_pos hl]

/-- R12: the link goes on acquiring. -/
theorem verdictOf_continue {c : Context} {s : Snapshot} {r : List Byte} {n : Nat} (hs : s.state ≠ .tracking)
    (hn : n = if (figures s r (captureGains s r)).settles then c.settle + 1 else 0) (ht : n < s.policy.settleTarget)
    (hl : c.step + 1 < s.policy.acquireLimit) :
    verdictOf c s r = ⟨.acquiring, .noReason, c.step + 1, n, .continuing⟩ := by
  rw [verdictOf, if_neg hs, acquireVerdict, ← hn, if_neg (by omega), if_neg (by omega)]

/-- The notices of an update that formed a correction stand in their order (R45). -/
theorem applyCorrection_notices (c : Context) (s : Snapshot) (r : List Byte) (stamp : Tick) (tally : Nat) (f : Figures)
    (v : Verdict) {k : Correction} (hk : (applyCorrection c s r stamp tally f v).ctx.pending = some k) :
    (applyCorrection c s r stamp tally f v).notices =
      (if c.state = v.state then [] else [(.stateChange, c.state.code + 16 * v.state.code, v.lapse.code)])
        ++ (if k.timingClamped || k.powerClamped || k.freqClamped then
            [(.adjustClamped, (if k.timingClamped then 1 else 0) + (if k.powerClamped then 2 else 0)
              + (if k.freqClamped then 4 else 0), k.id)]
          else [])
        ++ impairedNotices c.impaired (decide (f.health < s.policy.impaired)) f.health := by
  have formed : formedCorrection f v.status s.basis ((c.corrSeq + 1) % 65536) = k := Option.some.inj hk
  have id := (formedCorrection_status f v.status s.basis ((c.corrSeq + 1) % 65536)).2.1
  rw [formed] at id
  rw [← Correction.clampDetail_eq]
  change _ ++ (if (formedCorrection f v.status s.basis ((c.corrSeq + 1) % 65536)).clamped = true then
    [(_, (formedCorrection f v.status s.basis ((c.corrSeq + 1) % 65536)).clampDetail, (c.corrSeq + 1) % 65536)]
      else []) ++ _ = _
  rw [formed, ← id]
  rfl

/-- Settles O54: the three ways an update is applied, each by the equation of its own, the last by its verdict. -/
theorem updateVerdicts : Obligations.UpdateVerdicts := by
  intro c s r stamp tally u a f settle relapse forms issued measured flagged moved limits verdict wants
  have hr : relapse ↔ relapses s r = true := relapses_iff.symm
  have hn : ¬ relapse ↔ relapses s r = false := by rw [hr, Bool.not_eq_true]
  obtain ⟨captures, superseded, delivered, lost, hold, freeze, taps, basis, offTiming, offPower, offFreq⟩ :=
    applyUpdate_frame c s r stamp tally
  have handed : u.handOver = handOverOf c.state a.state := applyUpdate_handOver c s r stamp tally
  -- an update in HELD, a rejected one, and one that formed a correction
  have held (h : s.state = .held) : u = applyHeld c s r stamp tally := applyUpdate_held h c r stamp tally
  have rejected (h : s.state ≠ .held) (hd : f.degenerate = true) : u = applyRejected c s r stamp tally
      ((f.tapStage.map fun t => t.r).getD 0) := applyUpdate_rejected h hd c stamp tally
  have formed (h : s.state ≠ .held) (hd : f.degenerate = false) :
      u = applyCorrection c s r stamp tally f (verdictOf c s r) := applyUpdate_formed h hd c stamp tally
  have judged {v : Verdict} (h : s.state ≠ .held) (hd : f.degenerate = false) (hv : verdictOf c s r = v) :
      verdict v.state v.lapse v.step v.settle v.status := by
    have hu := formed h hd
    rw [hv] at hu
    simp only [verdict, a, hu]
    refine ⟨rfl, rfl, rfl, rfl, rfl, formedCorrection f v.status s.basis ((c.corrSeq + 1) % 65536), rfl, ?_⟩
    obtain ⟨hs, hi, hb⟩ := formedCorrection_status f v.status s.basis ((c.corrSeq + 1) % 65536)
    refine ⟨hs, hi, hb, fun ha => ?_, fun ha => ?_⟩
    · rw [formedCorrection, if_pos ha]
      exact ⟨rfl, rfl, rfl, rfl, rfl, rfl, rfl, rfl, rfl⟩
    · rw [formedCorrection, if_neg ha]
      exact ⟨rfl, rfl, rfl, rfl, rfl, rfl, rfl, rfl, rfl⟩
  refine ⟨fun hs h => ?_, fun h => ?_, fun g => ?_, fun h => ?_, fun h => ?_, captures, superseded, delivered, lost, hold,
    freeze, taps, basis, offTiming, offPower, offFreq, figures_health s r _, figures_settles s r _, fun h => ?_,
    fun h => ?_, fun h hd => ?_, fun ⟨h, hd⟩ => ?_, fun hs hd => ⟨fun h => ?_, fun h => ?_⟩,
    fun hs h hd => ⟨fun ht => ?_, fun ht hl => ?_, fun ht hl => ?_⟩⟩
  · exact congrArg (figures s r) (captureGains_tracking hs (hn.1 h))
  · exact congrArg (figures s r) (captureGains_acquire (h.imp_right hr.1))
  · exact ⟨rfl, rfl, rfl, figures_taps_run g, figures_taps_skipped g, figures_taps_absent g,
      Figures.of_tapStage_none, fun q => Figures.of_tapStage_some⟩
  · rw [handed, ← h, handOverOf_self]
  · rw [handed]
    exact handOverOf_ne h
  · by_cases hh : s.state = .held
    · simp only [measured, limits, a, held hh]
      exact ⟨rfl, rfl, rfl, rfl, rfl, rfl, rfl, rfl, rfl, rfl, rfl⟩
    · simp only [measured, limits, a, rejected hh (h.resolve_left hh)]
      exact ⟨rfl, rfl, rfl, rfl, rfl, rfl, rfl, rfl, rfl, rfl, rfl⟩
  · simp only [flagged, moved, a, held h]
    exact ⟨rfl, rfl, impairedNotices_eq _ _ _⟩
  · simp only [a, rejected h hd]
    refine ⟨rfl, rfl, fun q hq => ?_⟩
    rw [hq]
    rfl
  · simp only [measured, flagged, moved, limits, a, formed h hd]
    refine ⟨rfl, ?_, rfl, rfl, rfl, ⟨rfl, rfl, rfl⟩, fun k hk => ?_⟩
    · cases hp : c.pending <;> simp [applyCorrection, Context.measured, hp, sat16]
    · rw [applyCorrection_notices c s r stamp tally f _ hk, impairedNotices_eq]
      rfl
  · exact judged (by simp [hs]) hd (verdictOf_relapse hs (hr.1 h))
  · exact judged (by simp [hs]) hd (verdictOf_tracking hs (hn.1 h))
  · exact judged h hd (verdictOf_settled hs rfl ht)
  · exact judged h hd (verdictOf_abort hs rfl ht hl)
  · exact judged h hd (verdictOf_continue hs rfl ht hl)

end Sys2Proof.Machine
end

section
/-!
PROOFS. What the operations of the cache, the calendar and the engine come to on a part at rest, each said as the
state it leaves, field by field.
-/

namespace Sys2Proof.Machine

/-! ## A part with nothing to go on -/

/-- An entry replaced by one no more faulted leaves an entry that is not faulted. -/
theorem sound_setEntry {s : State} {e : Nat} {x : Entry} (h : ∃ d, d < 32 ∧ (s.entry d).faulted = false)
    (hx : x.faulted = true → (s.entry e).faulted = true) : ∃ d, d < 32 ∧ ((s.setEntry e x).entry d).faulted = false := by
  obtain ⟨d, hd, hf⟩ := h
  refine ⟨d, hd, ?_⟩
  rcases entry_setEntry s e d x with ⟨hs, rfl, -⟩ | ⟨hs, -⟩ <;> rw [hs]
  · exact Bool.eq_false_iff.2 fun hc => by simp [hx hc] at hf
  · exact hf

/-- The same, for entries written out. -/
theorem sound_entriesWith {s t : State} {e : Nat} {x : Entry} (h : ∃ d, d < 32 ∧ (s.entry d).faulted = false)
    (ht : t.entries = s.entriesWith e x) (hx : x.faulted = true → (s.entry e).faulted = true) :
    ∃ d, d < 32 ∧ (t.entry d).faulted = false := by
  have hs := sound_setEntry h hx
  simpa only [State.entry, State.setEntry, ht, State.entriesWith] using hs

/-- Nothing goes on where the port, the waiting requests, the entries' faults and the transactions are as in a part
where nothing does. -/
theorem State.Quiet.of {s t : State} (h : s.Quiet) (hp : t.atPort = s.atPort) (hr : ∀ r ∈ t.reqs, r.wait ≠ .list)
    (hs : ∃ e, e < 32 ∧ (t.entry e).faulted = false) (ht : t.txns = s.txns) : t.Quiet :=
  ⟨hp.trans h.port, hr, hs, ht ▸ h.unanswered⟩

/-- The requests of the others wait for no entry where no request does. -/
theorem reqsWithout_wait {s : State} (h : ∀ r ∈ s.reqs, r.wait ≠ .list) (who : Requester) :
    ∀ r ∈ s.reqsWithout who, r.wait ≠ .list := fun r hr => h r (List.mem_filter.1 hr).1

/-- A requester whose request has left has none. -/
theorem reqOf_dropReq (s : State) (who : Requester) : (dropReq who s).reqOf who = none := by
  refine List.find?_eq_none.2 fun r hr => ?_
  simpa using (List.mem_filter.1 hr).2

/-! ## The engine's mark (R69, R71) -/

/-- The mark a job takes (R69). -/
theorem mark_eq (idx : Nat) (key : Key) (cause : LossCause) (j : Job) (m : Option LossCause) :
    (if j.isCapture && j.index == idx && j.key == key && m.isNone then some cause else m)
      = if j.isCapture = true ∧ j.index = idx ∧ j.key = key then m.or (some cause) else m := by
  by_cases hj : j.isCapture = true ∧ j.index = idx ∧ j.key = key
  · obtain ⟨h1, h2, h3⟩ := hj
    cases m <;> simp [h1, h2, h3]
  · have : (j.isCapture && j.index == idx && j.key == key) = false := by
      rw [Bool.eq_false_iff]
      simpa [and_assoc] using hj
    simp [this, hj]

/-- A mark changes the engine alone. -/
theorem markJob_eq (idx : Nat) (key : Key) (cause : LossCause) (s : State) :
    markJob idx key cause s = { s with engine := s.engineMarked idx key cause } := by
  have same : ∀ x, s.engine = x → s = { s with engine := x } := by rintro x rfl; rfl
  unfold markJob State.engineMarked
  cases he : s.engine with
  | idle => exact same _ he
  | obtaining j m =>
    simp only [← mark_eq]
    split
    · rfl
    · exact same _ he
  | computing j m snap =>
    simp only [← mark_eq]
    split
    · rfl
    · exact same _ he

/-! ## The calendar (R119) -/

/-- The period class a hold write gives changes the calendar alone. -/
theorem calClass_eq (idx : Nat) (cls : PeriodClass) (s : State) :
    calClass idx cls s = { s with calendar := s.calendarClassed idx cls } := by
  unfold calClass State.calendarClassed
  cases h : s.calEntry idx with
  | none => rfl
  | some e =>
    obtain ⟨rfl, -⟩ := calEntry_found h
    rfl

/-- The period class follows the state a hold write enters. -/
theorem holdClass_eq (idx : Nat) (old new : Context) (s : State) : holdClass idx old new s = { s with
    calendar := if old.state = new.state then s.calendar
      else s.calendarClassed idx (if new.state = CtxState.held then .tracking else .acquire) } := by
  unfold holdClass
  split
  · rfl
  · split <;> rw [calClass_eq]

/-! ## Requests (R86, R87) -/

/-- A requester whose request is ready makes the entry the most recently used (R86). -/
theorem touchFor_ready {s0 s : State} {who : Requester} {idx e : Nat} {key : Key} (h : s0.Ready who idx key)
    (hv : (s.entry e).cond = .valid) : touchFor who e s0 s = { s with recency := s.recencyWith e } := by
  rw [touchFor, h, ← touch_valid hv]
  rfl

/-- A ready requester is given its context. -/
theorem readyReq_of {s : State} {who : Requester} {idx : Nat} {key : Key} (h : s.Ready who idx key) :
    s.readyReq who = some ⟨who, idx, key, .ready⟩ := by
  rw [State.readyReq, h]
  rfl

/-! ## The SILENT lapse (R115, R116) -/

/-- With no link in the lapse list the calendar asks for none. -/
theorem startLapse_empty {s : State} (h : s.lapses = []) : startLapse s = s := by
  unfold startLapse
  rw [h]
  split <;> rfl

/-- A lapse applied on a VALID entry, with the request of the calendar gone (R115). -/
theorem applyLapse_valid {s : State} {e : Nat} {l : Lapse} {c : CalEntry} (he : e < 32)
    (hv : (s.entry e).cond = .valid) (hc : s.calEntry l.index = some c) :
    applyLapse l e s = notify
      ⟨.stateChange, stateChangeDetail (s.entry e).image.state .lapsed, l.key, l.stamp, LapseReason.silent.code⟩
      { s with
        entries := s.entriesWith e { s.entry e with
          image := (s.entry e).image.lapseSilent (some c), dirty := true }
        engine := s.engineMarked l.index l.key .lapsed
        calendar := s.calendar.filter fun x => x.index != l.index
        lapses := s.lapses.filter fun x => x.index != l.index } := by
  rw [applyLapse, modifyImage_valid he hv, hc, markJob_eq]
  rfl

/-- A notice leaves the lapse list as it is. -/
theorem notify_lapses (n : Notice) (s : State) : (notify n s).lapses = s.lapses := by
  obtain ⟨_, _, e⟩ := notify_with n s
  rw [e]

/-- The calendar is given the context of a lapse that stands (R115). -/
theorem giveLapse_stands {s : State} {r : Req} {e : Nat} {l : Lapse} (hr : s.reqOf .lapse = some r)
    (hg : s.givenEntry r.index r.key = some e) (hl : s.lapseStands r = some l) :
    giveLapse s = startLapse (applyLapse l e (touchFor .lapse e s (dropReq .lapse s))) := by
  simp only [giveLapse, hr, hg, hl]

/-- The calendar is given the context of a lapse that was cancelled (R116). -/
theorem giveLapse_cancelled {s : State} {r : Req} {e : Nat} (hr : s.reqOf .lapse = some r)
    (hg : s.givenEntry r.index r.key = some e) (hl : s.lapseStands r = none) :
    giveLapse s = startLapse (touchFor .lapse e s (dropReq .lapse s)) := by
  simp only [giveLapse, hr, hg, hl]

/-- Settles O30: the lapse that stands is applied on the entry given, and none follows it; one cancelled leaves its
context as it is. -/
theorem silentLapse : Obligations.SilentLapse := by
  intro s idx e key hs hready hserved x
  obtain ⟨hpresent, hfind, hvalid⟩ := hserved
  obtain ⟨he, hindex, -⟩ := findEntry_some hfind
  have ready : s.readyReq .lapse = some ⟨.lapse, idx, key, .ready⟩ := readyReq_of hready
  have given : s.givenEntry idx key = some e := State.ServedBy.given ⟨hpresent, hfind, hvalid⟩
  have touched : touchFor .lapse e s (dropReq .lapse s)
      = { s with recency := s.recencyWith e, reqs := s.reqsWithout .lapse } :=
    touchFor_ready (s := dropReq .lapse s) hready hvalid
  have gives (f : State → State) (hf : giveLapse s = f s) :
      (match s.readyReq .lapse with | some _ => giveLapse s | none => startLapse s) = f s := by rw [ready, ← hf]
  refine ⟨fun c stamp hl hc => ?_, fun hl => ?_⟩
  · have stands : s.lapseStands ⟨.lapse, idx, key, .ready⟩ = some ⟨idx, key, stamp⟩ := by
      simp [State.lapseStands, hl]
    have applied := applyLapse_valid (s := { s with recency := s.recencyWith e, reqs := s.reqsWithout .lapse })
      (l := ⟨idx, key, stamp⟩) he hvalid hc
    have empty : (s.lapses.filter fun y => y.index != idx) = [] := by simp [hl]
    have effect := giveLapse_stands hready given stands
    rw [touched, applied, startLapse_empty (by rw [notify_lapses]; exact empty)] at effect
    simp only [empty] at effect
    rw [markJob_eq]
    change NextIs (execSilentLapseApplied s) _ _
    unfold execSilentLapseApplied
    refine cacheEvent_silent hs.running ?_ ?_
    · exact gives (fun _ => _) effect
    · refine State.Quiet.notify ?_ _
      exact hs.quiet.of rfl (reqsWithout_wait hs.requests .lapse) (sound_entriesWith hs.sound rfl fun h => h) rfl
  · have stands : s.lapseStands ⟨.lapse, idx, key, .ready⟩ = none := by simp [State.lapseStands, hl]
    have effect := giveLapse_cancelled hready given stands
    rw [touched, startLapse_empty (by exact hl)] at effect
    change NextIs (execSilentLapseApplied s) _ _
    unfold execSilentLapseApplied
    refine cacheEvent_silent hs.running ?_ ?_
    · exact gives (fun _ => _) effect
    · exact hs.quiet.of rfl (reqsWithout_wait hs.requests .lapse) hs.sound rfl

end Sys2Proof.Machine
end

section
/-!
PROOFS. ADMIT: its checks as the spec lists them, the context it builds, and the end of its image write.
-/

namespace Sys2Proof.Machine

/-! ## The lowest free index (R4) -/

/-- The search from a number finds nothing exactly where every number it looks at fails. -/
theorem firstFrom_eq_none {q : Nat → Bool} {n i : Nat} (h : ∀ k, i ≤ k → k < i + n → q k = false) :
    firstFrom q n i = none := by
  induction n generalizing i with
  | zero => rfl
  | succ n ih =>
    rw [firstFrom, h i (Nat.le_refl i) (by omega)]
    exact ih fun k h1 h2 => h k (by omega) (by omega)

/-- The search finds the least number that passes. -/
theorem firstFrom_eq_some {q : Nat → Bool} {n i j : Nat} (hi : i ≤ j) (hj : j < i + n) (hq : q j = true)
    (h : ∀ k, i ≤ k → k < j → q k = false) : firstFrom q n i = some j := by
  induction n generalizing i with
  | zero => omega
  | succ n ih =>
    rw [firstFrom]
    by_cases he : i = j
    · rw [he, hq]
      rfl
    · rw [h i (Nat.le_refl i) (by omega)]
      exact ih (by omega) (by omega) fun k h1 h2 => h k (by omega) h2

/-- No key of the directory is held under an index (R2). -/
theorem keyAt_isNone (s : State) (i : Nat) : (s.keyAt i).isNone = true ↔ ∀ p ∈ s.kdir, p.2 ≠ i := by
  simp [State.keyAt]

/-- No job in flight is marked for discard against an index (R4). -/
theorem markedAgainst_eq_false (s : State) (i : Nat) : s.markedAgainst i = false
    ↔ ∀ j, s.engine.job = some j → s.engine.mark.isSome = true → j.index ≠ i := by
  unfold State.markedAgainst
  cases s.engine.job with
  | none => simp
  | some j => cases s.engine.mark <;> simp

/-- An index is free (R4). -/
theorem indexFree_iff (s : State) (i : Nat) : s.indexFree i = true ↔ (∀ p ∈ s.kdir, p.2 ≠ i)
    ∧ (∀ j, s.engine.job = some j → s.engine.mark.isSome = true → j.index ≠ i)
    ∧ (∀ e, s.findEntry i = some e → (s.entry e).cond ≠ .fetching) := by
  unfold State.indexFree
  rw [Bool.and_eq_true, Bool.and_eq_true, keyAt_isNone, Bool.not_eq_true', markedAgainst_eq_false, and_assoc]
  cases s.findEntry i <;> simp

/-! ## The checks of ADMIT (R19) -/

/-- A key is out of the directory where no pair of it holds the key. -/
theorem lookup_eq_none {s : State} {key : Key} (h : ∀ p ∈ s.kdir, p.1 ≠ key) : s.lookup key = none := by
  simpa [State.lookup] using fun a b hm => h (a, b) hm

/-- A key in the directory is found there. -/
theorem lookup_isSome {s : State} {key : Key} (h : ∃ p ∈ s.kdir, p.1 = key) : (s.lookup key).isSome = true := by
  obtain ⟨p, hp, hk⟩ := h
  simpa [State.lookup] using ⟨p.2, hk ▸ hp⟩

/-- A key ADMIT takes for a link (R1). -/
theorem admitKey_iff (k : Key) : (!channelValid k.channel || !stationValid k.station) = true
    ↔ 15 < k.channel ∨ k.station = 0 ∨ 16383 < k.station := by
  simp only [channelValid, stationValid, Bool.or_eq_true, Bool.not_eq_true', Bool.and_eq_false_iff, decide_eq_false_iff_not]
  omega

/-- The first check: a key that names no link. -/
theorem checkAdmit_key {s : State} {key : Key} (h : 15 < key.channel ∨ key.station = 0 ∨ 16383 < key.station) :
    s.checkAdmit key = .error .keyInvalid := by
  rw [State.checkAdmit, if_pos ((admitKey_iff key).2 h)]

/-- The second check: no context window. -/
theorem checkAdmit_window {s : State} {key : Key} (h : ¬ (15 < key.channel ∨ key.station = 0 ∨ 16383 < key.station))
    (hw : s.contextWindow = none) : s.checkAdmit key = .error .state := by
  rw [State.checkAdmit, if_neg (mt (admitKey_iff key).1 h), hw]
  rfl

/-- The third check: the channel is CLOSED. -/
theorem checkAdmit_closed {s : State} {key : Key} (h : ¬ (15 < key.channel ∨ key.station = 0 ∨ 16383 < key.station))
    (hw : s.contextWindow ≠ none) (hc : (s.channel key.channel).state = .closed) :
    s.checkAdmit key = .error .closed := by
  rw [State.checkAdmit, if_neg (mt (admitKey_iff key).1 h), if_neg (by simpa using hw), if_pos hc]

/-- The fourth check: the key is admitted. -/
theorem checkAdmit_duplicate {s : State} {key : Key} (h : ¬ (15 < key.channel ∨ key.station = 0 ∨ 16383 < key.station))
    (hw : s.contextWindow ≠ none) (hc : (s.channel key.channel).state ≠ .closed) (hd : ∃ p ∈ s.kdir, p.1 = key) :
    s.checkAdmit key = .error .duplicate := by
  rw [State.checkAdmit, if_neg (mt (admitKey_iff key).1 h), if_neg (by simpa using hw), if_neg hc,
    if_pos (lookup_isSome hd)]

/-- The last check is for a free index. -/
theorem checkAdmit_index {s : State} {key : Key} (h : ¬ (15 < key.channel ∨ key.station = 0 ∨ 16383 < key.station))
    (hw : s.contextWindow ≠ none) (hc : (s.channel key.channel).state ≠ .closed) (hd : ∀ p ∈ s.kdir, p.1 ≠ key) :
    s.checkAdmit key = match s.freeIndex with | none => .error .full | some i => .ok i := by
  rw [State.checkAdmit, if_neg (mt (admitKey_iff key).1 h), if_neg (by simpa using hw), if_neg hc,
    if_neg (by simp [lookup_eq_none hd])] <;> rfl

/-- An ADMIT that its checks refuse is answered so. -/
theorem admit_refused {s : State} {d : List Byte} {st : Status} (hs : s.Executing 0x10 d)
    (h : s.checkAdmit (cmdKey d) = .error st) : Answers (exec .admitLink s) s st := by
  change Answers (execAdmitLink s) s st
  unfold execAdmitLink
  exact event_answers hs.1 (by rw [onCommand_of (code := codeAdmit) hs]; simp only [h])

/-- An ADMIT that passes writes the image of its context. -/
theorem admit_allocates {s : State} {d : List Byte} {i : Nat} (hs : s.Executing 0x10 d)
    (h : s.checkAdmit (cmdKey d) = .ok i) : NextIs (exec .admitLink s)
      { s with cmu := s.cmuIn (.admitWrite (cmdKey d) i (s.contextFor d).anyAtLimit) }
      [ownWrite .admitImage (s.contextAddr i) (s.contextFor d).toBytes] := by
  change NextIs (execAdmitLink s) _ _
  unfold execAdmitLink
  exact event_submits hs.1 (o := none) (by rw [onCommand_of (code := codeAdmit) hs]; simp only [h])

/-- An offset beyond its range is the one its clamp changes (R20). -/
theorem clampSym_ne_iff (r : Nat) (v : Int) : clampSym r v ≠ v ↔ (r : Int) < v ∨ v < -r := by
  unfold clampSym
  split
  · omega
  · split <;> omega

/-! ## What waited for an ADMIT or RELEASE write (R97) -/

/-- A read part that waits for no such write is not judged again. -/
theorem rejudgePart_judged {s : State} (hj : s.Judged) (id k : Nat) : rejudgePart id k s = s := by
  unfold rejudgePart
  split
  · next t p ht hp =>
    have member : p ∈ t.readParts := List.mem_of_getElem? (by simpa [State.readPart, ht] using hp)
    have judged := hj t (List.mem_of_find?_eq_some ht) p member
    split
    · exact absurd ‹_› (judged _)
    · rfl
  · rfl

/-- With every transaction handled and every read judged, nothing goes on when such a write has ended. -/
theorem resume_idle {s : State} (hq : s.Quiet) (hh : ∀ t ∈ s.txns, t.handled = true) (hj : s.Judged) : resume s = s := by
  have one (id : Nat) : resumeOne (s, []) id = (s, []) := by
    have parts (ks : List Nat) : ks.foldl (fun x k => rejudgePart id k x) s = s :=
      List.foldlRecOn ks _ (motive := fun x => x = s) rfl fun x hx k _ => by rw [hx, rejudgePart_judged hj]
    unfold resumeOne
    simp only [parts, advanceOne]
    cases ht : s.txn id with
    | none => rfl
    | some t => simp [hh t (List.mem_of_find?_eq_some ht)]
  have all (ids : List Nat) : ids.foldl resumeOne (s, []) = (s, []) :=
    List.foldlRecOn ids _ (motive := fun x => x = (s, [])) rfl fun x hx id _ => by rw [hx, one]
  rw [resume, pump_quiet hq, all]

/-- The same, for a step whose effect leaves the open transactions of a part at rest as they were. -/
theorem resume_of {s u : State} (hs : s.Steady) (hj : s.Judged) (hu : u.Quiet) (ht : u.txns = s.txns) : resume u = u :=
  resume_idle hu (ht ▸ hs.handled) fun t h => hj t (ht ▸ h)

/-- A notice leaves the open transactions as they are. -/
theorem notify_txns (n : Notice) (s : State) : (notify n s).txns = s.txns := by
  obtain ⟨_, _, e⟩ := notify_with n s
  rw [e]

/-- A step that answers the descriptor, hands a notice to NW behind that (R96), and leaves the part at rest. -/
theorem cacheEvent_answers_told {s t : State} {f : State → State} {st : Status} {n : Notice} (h : s.inReset = false)
    (hf : f s = notify n (answer st t)) (hq : t.Quiet) : Answers (cacheEvent s f) (notify n t) st := by
  obtain ⟨m, hm, hg⟩ := notify_cmuSubmit n (t.statusAccess st) .statusWrite none t
  have status : (notify n t).statusAccess st = t.statusAccess st := by
    obtain ⟨_, _, e⟩ := notify_with n t
    rw [e]
    rfl
  have told := hq.notify n
  have effect : f s = { (notify n t).cmuSubmit (t.statusAccess st) .statusWrite with mem := m } := hf.trans hm
  refine cacheEvent_nextIs h f effect (told.of rfl told.requests told.sound rfl) rfl ?_
  rw [status]
  exact MemPort.gains_trans (submit_gains { notify n t with cmu := _ } .command _ none) hg

/-- ADMIT takes effect at the end of its image write (R20). -/
theorem admitEnded_admits {s : State} {key : Key} {idx : Nat} {clamped : Bool}
    (h : s.cmu.phase = .admitWrite key idx clamped) : admitEnded false s = ({ s with
      kdir := kdirInsert key idx s.kdir
      calendar := s.calendarWith ⟨idx, key, .offer, s.now, 0, .acquire, s.now, false⟩
      cmu := s.cmuIn (.resultWrite 1 (if clamped then .doneClamped else .done)) } : State).submit .command
        (ownWrite .resultField (s.controlBase + 0x2000 + 32 * s.cmu.consumer + 16) (le 2 idx)) := by
  rw [admitEnded, h]
  rfl

/-- An ADMIT whose image write failed is answered MEMORY, and the notice of the fault is handed to NW (R20, R96). -/
theorem admitEnded_fails {s : State} {key : Key} {idx : Nat} {clamped : Bool}
    (h : s.cmu.phase = .admitWrite key idx clamped) : admitEnded true s
      = notify ⟨.memoryFault, 3, key, s.now, 0⟩ (s.cmuSubmit (s.statusAccess .memory) .statusWrite) := by
  rw [admitEnded, h]
  rfl

/-- Settles O44: each check of ADMIT refuses where the spec says, the context built is the spec's, and the end of the
image write makes the key's entries or answers MEMORY. -/
theorem admitted : Obligations.Admitted := by
  refine ⟨fun s d hs => ?_, fun s key idx clamped a rest hs hj hphase hold => ?_⟩
  · intro key bad free
    have free_iff (i : Nat) : s.indexFree i = true ↔ free i := indexFree_iff s i
    refine ⟨fun hb => admit_refused hs (checkAdmit_key hb), fun hb => ?_⟩
    refine ⟨fun hw => admit_refused hs (checkAdmit_window hb hw), fun hw => ?_⟩
    refine ⟨fun hc => admit_refused hs (checkAdmit_closed hb hw hc), fun hc => ?_⟩
    refine ⟨fun hm => admit_refused hs (checkAdmit_duplicate hb hw hc hm), fun hm => ?_⟩
    have checks : s.checkAdmit (cmdKey d) = _ := checkAdmit_index hb hw hc hm
    refine ⟨fun hn => admit_refused hs ?_, fun i hi hf hleast => ?_⟩
    · rw [checks, State.freeIndex, firstFrom_eq_none fun k _ hk => ?_]
      exact Bool.eq_false_iff.2 fun h => hn k (by omega) ((free_iff k).1 h)
    · intro p limit beyond timing freq power c
      have found : s.checkAdmit (cmdKey d) = .ok i := by
        rw [checks, State.freeIndex, firstFrom_eq_some (Nat.zero_le i) (by omega) ((free_iff i).2 hf) fun k _ hk => ?_]
        exact Bool.eq_false_iff.2 fun h => hleast k hk ((free_iff k).1 h)
      have built : s.contextFor d = c := by
        simp only [State.contextFor, admittedContext, clampSym_ne_iff]
        rfl
      have next := admit_allocates hs found
      rw [built] at next
      exact next
  · have quiet := hs.quiet.ended rest
    have phase : (s.ended rest).cmu.phase = .admitWrite key idx clamped := hphase
    constructor
    · have effect := admitEnded_admits phase
      change NextIs (execAdmitImageWriteEnd false s) _ _
      unfold execAdmitImageWriteEnd
      refine cacheEvent_nextIs hs.running _ ?_ ?_ rfl
        (submit_gains _ .command _ none)
      · rw [ending_ended hold, effect]
        exact resume_of hs hj (quiet.of rfl quiet.requests quiet.sound rfl) rfl
      · exact quiet.of rfl quiet.requests quiet.sound rfl
    · have effect := admitEnded_fails phase
      have answered : (s.ended rest |> answer .memory).Quiet := quiet.of rfl quiet.requests quiet.sound rfl
      change Answers (execAdmitImageWriteEnd true s) _ _
      unfold execAdmitImageWriteEnd
      refine cacheEvent_answers_told hs.running ?_ quiet
      rw [ending_ended hold, effect]
      refine resume_of hs hj (answered.notify _) ?_
      exact notify_txns _ _

end Sys2Proof.Machine
end

section
/-!
PROOFS. REVIVE: the fetch of a context that is not cached, the walk over a channel's links, and the context given.
-/

namespace Sys2Proof.Machine

/-! ## A fetch issued for a request (R88, R90) -/

/-- An INVALID entry begins a fetch (R90). -/
theorem startFetch_invalid {s : State} {e : Nat} (h : (s.entry e).cond = .invalid) (idx : Nat) (key : Key) :
    startFetch e idx key s = ({ s with
      entries := s.entriesWith e { cond := .fetching, index := idx, key := key, merge := mergesOf idx s.reqs }
      reqs := (s.reqs.filter fun r => !(r.who.isWrite && r.index == idx && !r.wait.given)).map fun r =>
        if r.index = idx ∧ !r.wait.given then { r with wait := .fetch } else r } : State).submit .cache
          ⟨.fetch idx, s.contextAddr idx, .read 256⟩ (some s.takes) := by
  unfold startFetch
  rw [show invalidate e s = s by simp [invalidate, h]]
  rfl

/-- The free entry is INVALID. -/
theorem freeEntry_invalid {s : State} {e : Nat} (h : s.freeEntry = some e) : (s.entry e).cond = .invalid := by
  simpa using List.find?_some h

/-- A request for a context that no entry is of and none waits for takes the free entry (R88). -/
theorem request_places {s : State} {who : Requester} {i e : Nat} {k : Key} (hp : s.present i k = true)
    (hf : s.findEntry i = none) (hl : ∀ r ∈ s.reqs, r.wait ≠ .list) (hn : s.noneWaits i) (he : s.freeEntry = some e) :
    request who i k s = startFetch e i k (addReq who i k .list s) := by
  have others : s.reqs.find? (fun r => r.index == i && !r.wait.given && r.wait != .fetch) = none := by
    refine List.find?_eq_none.2 fun r hr hc => ?_
    simp only [Bool.and_eq_true, beq_iff_eq] at hc
    have := hn r hr hc.1.1
    simp [this, Wait.given] at hc
  have list : (s.reqs.any fun r => r.wait == .list) = false := by simpa using hl
  have free : (addReq who i k .list s).freeEntry = some e := he
  simp [request, hp, hf, requestFresh, others, list, place, free]

/-- Requests of which each one for a context has been given it: none changes when a fetch of that context begins. -/
theorem reqs_fetching {rs : List Req} {i : Nat} (h : ∀ r ∈ rs, r.index = i → r.wait = .ready) :
    ((rs.filter fun r => !(r.who.isWrite && r.index == i && !r.wait.given)).map fun r =>
      if r.index = i ∧ !r.wait.given then { r with wait := .fetch } else r) = rs := by
  have given (r : Req) (hr : r ∈ rs) (hi : r.index = i) : r.wait.given = true := by rw [h r hr hi]; rfl
  have kept : (rs.filter fun r => !(r.who.isWrite && r.index == i && !r.wait.given)) = rs :=
    List.filter_eq_self.2 fun r hr => by by_cases hi : r.index = i <;> simp [hi, given r hr]
  rw [kept]
  refine (List.map_congr_left fun r hr => ?_).trans (List.map_id rs)
  exact if_neg fun hc => by simp [given r hr hc.1] at hc

/-- No operator write waits for a context for which every request has been given it. -/
theorem mergesOf_none {rs : List Req} {i : Nat} (h : ∀ r ∈ rs, r.index = i → r.wait = .ready) : mergesOf i rs = [] := by
  refine List.filterMap_eq_nil_iff.2 fun r hr => ?_
  split
  · exact if_neg fun hc => by simp [h r hr hc.1, Wait.given] at hc
  · rfl

/-- A request that is no operator write has the context fetched and waits for it (R88, R90). -/
theorem request_fetches {s : State} {who : Requester} {i e : Nat} {k : Key} (hw : who.isWrite = false)
    (hp : s.present i k = true) (hf : s.findEntry i = none) (hl : ∀ r ∈ s.reqs, r.wait ≠ .list) (hn : s.noneWaits i)
    (he : s.freeEntry = some e) : request who i k s = ({ s with
      entries := s.entriesWith e { cond := .fetching, index := i, key := k }
      reqs := s.reqs ++ [⟨who, i, k, .fetch⟩] } : State).submit .cache
        ⟨.fetch i, s.contextAddr i, .read 256⟩ (some s.takes) := by
  have merges : mergesOf i (s.reqs ++ [⟨who, i, k, .list⟩]) = [] := by
    rw [mergesOf, List.filterMap_append]
    refine List.append_eq_nil_iff.2 ⟨mergesOf_none hn, ?_⟩
    cases who with
    | write => cases hw
    | _ => rfl
  have reqs := reqs_fetching hn
  rw [request_places hp hf hl hn he, startFetch_invalid (s := addReq who i k .list s) (freeEntry_invalid he)]
  simp only [addReq, merges, List.filter_append, List.map_append, reqs]
  simp [hw, Wait.given]
  rfl

/-! ## The walk of a REVIVE (R23) -/

/-- Links that are not LAPSED are passed over. -/
theorem reviveNext_passes {x : State} {pre rest : List (Key × Nat)} (failed : Bool)
    (h : ∀ p ∈ pre, x.calEntry p.2 ≠ none) : reviveNext (pre ++ rest) failed x = reviveNext rest failed x := by
  induction pre with
  | nil => rfl
  | cons p pre ih =>
    have here : (x.calEntry p.2).isSome = true := Option.isSome_iff_ne_none.2 (h p (by simp))
    rw [List.cons_append, reviveNext, if_pos here, ih fun q hq => h q (by simp [hq])]

/-- The context of a LAPSED link is asked for. -/
theorem reviveNext_asks {x : State} {k : Key} {i : Nat} {more : List (Key × Nat)} (failed : Bool)
    (h : x.calEntry i = none) : reviveNext ((k, i) :: more) failed x
      = request .revive i k { x with cmu := x.cmuIn (.reviving k i more failed) } := by
  rw [reviveNext, if_neg (by simp [h])]
  rfl

/-- A step whose effect is the walk on from a part at rest. -/
theorem revive_walks {s x : State} {f : State → State} {keys : List (Key × Nat)} {failed : Bool}
    (hr : s.inReset = false) (hf : f s = reviveNext keys failed x) (hq : x.Quiet) :
    ((∀ p ∈ keys, x.calEntry p.2 ≠ none) → Answers (cacheEvent s f) x (if failed then .memory else .done))
    ∧ ∀ pre k i more, keys = pre ++ (k, i) :: more → (∀ p ∈ pre, x.calEntry p.2 ≠ none) → x.calEntry i = none →
      let asks := fun (w : Wait) => { x with
        cmu := x.cmuIn (.reviving k i more failed), reqs := x.reqs ++ [⟨.revive, i, k, w⟩] }
      ((∃ e, x.ServedBy i k e) ∨ x.present i k = false → NextIs (cacheEvent s f) (asks .ready) [])
      ∧ ∀ e, x.present i k = true → x.findEntry i = none → x.noneWaits i → x.freeEntry = some e →
        NextIs (cacheEvent s f) { asks .fetch with entries := x.entriesWith e { cond := .fetching, index := i, key := k } }
          [⟨.fetch i, x.contextAddr i, .read 256⟩] := by
  refine ⟨fun hall => ?_, fun pre k i more hkeys hpre hi => ?_⟩
  · refine cacheEvent_answers hr ?_ hq
    have passes := reviveNext_passes (rest := []) failed hall
    rw [List.append_nil] at passes
    rw [hf, passes]
    rfl
  · have asked : f s = request .revive i k { x with cmu := x.cmuIn (.reviving k i more failed) } := by
      rw [hf, hkeys, reviveNext_passes failed hpre, reviveNext_asks failed hi]
    have waits (w : Wait) (hw : w ≠ .list) : ∀ r ∈ x.reqs ++ [⟨.revive, i, k, w⟩], r.wait ≠ .list := by
      intro r hr
      rcases List.mem_append.1 hr with hr | hr
      · exact hq.requests r hr
      · rw [List.mem_singleton.1 hr]
        exact hw
    refine ⟨fun hready => ?_, fun e hp hfind hn hfree => ?_⟩
    · have ready : request .revive i k { x with cmu := x.cmuIn (.reviving k i more failed) }
          = addReq .revive i k .ready { x with cmu := x.cmuIn (.reviving k i more failed) } := by
        rcases hready with ⟨e, hserved⟩ | hgone
        · exact request_served (s := { x with cmu := _ }) hserved
        · exact request_gone (s := { x with cmu := _ }) hgone
      refine cacheEvent_silent hr ?_ ?_
      · rw [asked, ready]
        rfl
      · exact hq.of rfl (waits .ready (by decide)) hq.sound rfl
    · have fetch := request_fetches (s := { x with cmu := x.cmuIn (.reviving k i more failed) }) (who := .revive)
        rfl hp hfind hq.requests hn hfree
      refine cacheEvent_nextIs hr f (asked.trans fetch) ?_ rfl (submit_gains _ .cache _ _)
      refine hq.of rfl ?_ ?_ rfl
      · exact waits .fetch (by decide)
      · exact sound_entriesWith hq.sound rfl fun h => absurd h Bool.false_ne_true

/-! ## REVIVE (R23) -/

/-- A key a command names (R1). -/
theorem keyValid_iff (k : Key) : k.valid = true ↔ k.channel ≤ 15 ∧ k.station ≤ 16383 := by
  simp [Key.valid, channelValid]

/-- The context given to REVIVE is revived and has a calendar entry, and the walk goes on (R23, R110). -/
theorem giveRevive_served {s : State} {key : Key} {idx e : Nat} {rest : List (Key × Nat)} {failed : Bool}
    (hphase : s.cmu.phase = .reviving key idx rest failed) (hready : s.Ready .revive idx key)
    (hserved : s.ServedBy idx key e) : giveRevive s = reviveNext rest failed { s with
      reqs := s.reqsWithout .revive
      entries := s.entriesWith e { s.entry e with image := (s.entry e).image.revived, dirty := true }
      recency := s.recencyWith e
      calendar := s.calendarWith
        ⟨idx, key, .offer, s.now, 0, if (s.entry e).image.hold then .tracking else .acquire, s.now, false⟩ } := by
  obtain ⟨he, -, -⟩ := findEntry_some hserved.2.1
  have touched : touchFor .revive e s (dropReq .revive s)
      = { s with recency := s.recencyWith e, reqs := s.reqsWithout .revive } :=
    touchFor_ready (s := dropReq .revive s) hready hserved.2.2
  have modified := modifyImage_valid (s := { s with recency := s.recencyWith e, reqs := s.reqsWithout .revive })
    (f := Context.revived) he hserved.2.2
  simp only [giveRevive, hphase, hserved.given, touched, modified]
  rfl

/-- REVIVE is told that the context is gone, and the walk goes on (R23). -/
theorem giveRevive_gone {s : State} {key : Key} {idx : Nat} {rest : List (Key × Nat)} {failed : Bool}
    (hphase : s.cmu.phase = .reviving key idx rest failed) (hgone : s.present idx key = false) :
    giveRevive s = reviveNext rest failed { s with reqs := s.reqsWithout .revive } := by
  have none : s.givenEntry idx key = none := by simp [State.givenEntry, hgone]
  simp only [giveRevive, hphase, none]
  rfl

/-- A REVIVE CMU holds makes its checks and begins its walk (R23). -/
theorem revive_begins {s : State} {d : List Byte} {key : Key} (h : s.Executing 0x12 d) (hk : cmdKey d = key) :
    ∃ f, execRevive s = cacheEvent s f ∧ f s =
      if ¬ (key.channel ≤ 15 ∧ key.station ≤ 16383) then answer .keyInvalid s
      else if key.station = 0 then reviveNext (s.keysOf key.channel) false s
      else
        match s.lookup key with
        | none => answer .notFound s
        | some idx => if s.calEntry idx ≠ none then answer .state s else reviveNext [(key, idx)] false s := by
  subst hk
  refine ⟨_, rfl, ?_⟩
  rw [onCommand_of (code := codeRevive) h]
  simp only [Bool.not_eq_true', Bool.eq_false_iff, ne_eq, keyValid_iff, ← Option.isSome_iff_ne_none] <;> rfl

/-- Settles O46: the checks of REVIVE, its walk from the links named and from those left when a context is given. -/
theorem revived : Obligations.Revived := by
  refine ⟨fun s d hs hd => ?_, fun s key idx e rest failed hs hphase hready => ?_⟩
  · intro key valid
    obtain ⟨f, event, begins⟩ := revive_begins (key := key) hd rfl
    have step : exec .revive s = cacheEvent s f := event
    rw [step]
    refine ⟨fun h => cacheEvent_answers hs.running (begins.trans (if_pos h)) hs.quiet,
      fun (hv : key.channel ≤ 15 ∧ key.station ≤ 16383) hk => ⟨fun hn => ?_, fun idx hi => ⟨fun hc => ?_, fun hc => ?_⟩⟩,
      fun (hv : key.channel ≤ 15 ∧ key.station ≤ 16383) hk => ?_⟩
    · refine cacheEvent_answers hs.running ?_ hs.quiet
      rw [begins, if_neg (not_not_intro hv), if_neg hk, hn]
    · refine cacheEvent_answers hs.running ?_ hs.quiet
      rw [begins, if_neg (not_not_intro hv), if_neg hk, hi]
      exact if_pos hc
    · refine revive_walks hs.running ?_ hs.quiet
      rw [begins, if_neg (not_not_intro hv), if_neg hk, hi]
      exact if_neg (not_not_intro hc)
    · refine revive_walks hs.running ?_ hs.quiet
      rw [begins, if_neg (not_not_intro hv), if_pos hk]
      rfl
  · intro x c y
    have ready := readyReq_of hready
    have gives (t : State) (h : giveRevive s = t) : giveIfReady .revive s = t := by simp [giveIfReady, ready, give, h]
    have others := reqsWithout_wait hs.requests .revive
    refine ⟨fun hserved => ?_, fun hgone => ?_⟩
    · refine revive_walks hs.running (gives _ (giveRevive_served hphase hready hserved)) ?_
      exact hs.quiet.of rfl others (sound_entriesWith hs.sound rfl fun h => h) rfl
    · refine revive_walks hs.running (gives _ (giveRevive_gone hphase hgone)) ?_
      exact hs.quiet.of rfl others hs.sound rfl

end Sys2Proof.Machine
end

section
/-!
PROOFS. RELEASE: what it does to the entry of a context in each of the entry's conditions, the header write behind
it, and the visit of the next context.
-/

namespace Sys2Proof.Machine

/-! ## Steps that let a waiting request go on (R89) -/

/-- A step after whose effect the waiting list is served, and then nothing goes on. -/
theorem cacheEvent_pumps {s t u v : State} {as : List Access} (h : s.inReset = false) {f : State → State}
    (hu : f s = u) (hp : pump u = v) (hv : v.Quiet) (ht : { v with mem := t.mem } = t) (hg : t.mem.gains v.mem as) :
    NextIs (cacheEvent s f) t as := by
  refine event_nextIs (u := v) h _ ?_ ht hg
  rw [hu, settle, hp, flush_quiet hv.unanswered, drainPort_empty hv.port]

/-- Serving the waiting list first changes nothing of what goes on when a write has ended (R97). -/
theorem resume_pumps {u v : State} (hp : pump u = v) (hv : v.Quiet) (ht : u.txns = v.txns)
    (hh : ∀ t ∈ v.txns, t.handled = true) (hj : v.Judged) : resume u = v := by
  have idle := resume_idle hv hh hj
  rw [resume, pump_quiet hv, ← ht] at idle
  rw [resume, hp, idle]

/-! ## The holds of reads (R98) -/

/-- Reads that hold a context no more are otherwise as they were. -/
theorem dropHolds_fields (idx : Nat) (t : Txn) : (t.dropHolds idx).id = t.id
    ∧ (t.dropHolds idx).result = t.result ∧ (t.dropHolds idx).responded = t.responded
    ∧ (t.dropHolds idx).handled = t.handled := by
  unfold Txn.dropHolds
  split <;> exact ⟨rfl, rfl, rfl, rfl⟩

/-- A read that waits for no ADMIT or RELEASE write does not when its holds are dropped. -/
theorem dropHolds_judged {idx : Nat} {t : Txn} (h : ∀ p ∈ t.readParts, ∀ i, p.owner ≠ .unjudged i) :
    ∀ p ∈ (t.dropHolds idx).readParts, ∀ i, p.owner ≠ .unjudged i := by
  obtain ⟨id, init, addr, run, body, handled, result, responded⟩ := t
  cases body with
  | write todo bytes dropped key => exact h
  | read len parts data =>
    intro p hp i
    obtain ⟨q, hq, rfl⟩ := List.mem_map.1 hp
    have judged := h q hq i
    split
    · split
      · simp
      · exact judged
    · exact judged

/-- Open transactions of which none is complete stay so when holds are dropped. -/
theorem unanswered_dropHolds {ts : List Txn} (idx : Nat) (h : ∀ t ∈ ts, t.result = none ∧ t.responded = false) :
    ∀ t ∈ ts.map (Txn.dropHolds idx), t.result = none ∧ t.responded = false := by
  intro t ht
  obtain ⟨u, hu, rfl⟩ := List.mem_map.1 ht
  obtain ⟨-, hr, hd, -⟩ := dropHolds_fields idx u
  exact hr ▸ hd ▸ h u hu

/-! ## What RELEASE does together (R21) -/

/-- RELEASE outside the cache, but for the requests, which it answers last. -/
theorem releaseContext_eq (key : Key) (idx : Nat) (x : State) : releaseContext key idx x
    = releaseRequests idx key (releaseEntry idx { x.leaving key idx with reqs := x.reqs }) := by
  rw [releaseContext, markJob_eq]
  rfl

/-- A context with no entry is released outside the cache alone. -/
theorem releaseContext_uncached {x : State} {idx : Nat} (h : x.findEntry idx = none) (key : Key) :
    releaseContext key idx x = x.leaving key idx := by
  have none : ({ x.leaving key idx with reqs := x.reqs } : State).findEntry idx = none := h
  rw [releaseContext_eq, releaseEntry, none]
  rfl

/-- RELEASE marks an entry that is pinned or FETCHING (R93). -/
theorem releaseEntry_marked {s : State} {idx e : Nat} (h : s.findEntry idx = some e)
    (hc : (s.entry e).cond = .fetching ∨ (s.entry e).pinned = true) :
    releaseEntry idx s = s.setEntry e { s.entry e with released := true } := by
  simp only [releaseEntry, h]
  exact if_pos hc

/-- It makes any other entry INVALID, and where it was RETIRING the allocations that wait for it choose again (R92). -/
theorem releaseEntry_invalidated {s : State} {idx e : Nat} (h : s.findEntry idx = some e)
    (hf : (s.entry e).cond ≠ .fetching) (hp : (s.entry e).pinned = false) : releaseEntry idx s
      = if (s.entry e).cond = .retiring then rechoose e (s.withoutEntry e idx) else s.withoutEntry e idx := by
  obtain ⟨-, hi, hv⟩ := findEntry_some h
  subst hi
  simp only [releaseEntry, h, hf, hp, invalidate_eq hv, Bool.false_eq_true, or_self, if_false]

/-- A context whose entry is pinned or FETCHING is released, the entry marked. -/
theorem releaseContext_marked {x : State} {idx e : Nat} (h : x.findEntry idx = some e)
    (hc : (x.entry e).cond = .fetching ∨ (x.entry e).pinned = true) (key : Key) : releaseContext key idx x
      = { x.leaving key idx with entries := x.entriesWith e { x.entry e with released := true } } := by
  rw [releaseContext_eq, releaseEntry_marked (s := { x.leaving key idx with reqs := x.reqs }) h hc]
  rfl

/-- A context is released, its entry INVALID. -/
theorem releaseContext_invalidated {x : State} {idx e : Nat} (h : x.findEntry idx = some e)
    (hf : (x.entry e).cond ≠ .fetching) (hp : (x.entry e).pinned = false) (key : Key) :
    let gone := ({ x.leaving key idx with reqs := x.reqs } : State).withoutEntry e idx
    releaseContext key idx x
      = releaseRequests idx key (if (x.entry e).cond = .retiring then rechoose e gone else gone) := by
  rw [releaseContext_eq, releaseEntry_invalidated (s := { x.leaving key idx with reqs := x.reqs }) h hf hp]
  rfl

/-- With no allocation waiting for an entry, none chooses again. -/
theorem rechoose_idle {s : State} {e : Nat} (h : ∀ r ∈ s.reqs, r.wait ≠ .writeBack e) : rechoose e s = s := by
  have waiting : (s.reqs.filter fun r => r.wait == .writeBack e) = [] :=
    List.filter_eq_nil_iff.2 fun r hr => by simpa using h r hr
  have others : (s.reqs.filter fun r => r.wait != .writeBack e) = s.reqs :=
    List.filter_eq_self.2 fun r hr => by simpa using h r hr
  rw [rechoose, waiting, others]
  rfl

/-- An entry for which no allocation waits becomes INVALID (R92). -/
theorem releaseContext_gone {x : State} {idx e : Nat} (h : x.findEntry idx = some e)
    (hf : (x.entry e).cond ≠ .fetching) (hp : (x.entry e).pinned = false)
    (hr : (x.entry e).cond = .retiring → ∀ r ∈ x.reqs, r.wait ≠ .writeBack e) (key : Key) :
    releaseContext key idx x = { x.leaving key idx with
      entries := x.entriesWith e {}
      recency := x.recency.filter fun d => d != e
      txns := x.txns.map (Txn.dropHolds idx) } := by
  rw [releaseContext_invalidated h hf hp]
  split
  · next hc =>
    rw [rechoose_idle (by exact hr hc)]
    rfl
  · rfl

/-- Requests none of which is for a context are as they were once it is released. -/
theorem releaseRequests_idle {s : State} {idx : Nat} (h : ∀ r ∈ s.reqs, r.index ≠ idx) (key : Key) :
    releaseRequests idx key s = s := by
  have kept : (s.reqs.filter fun r => !(r.who.isWrite && (r.index == idx && r.key == key && r.wait != .fetch)))
      = s.reqs := List.filter_eq_self.2 fun r hr => by simp [h r hr]
  have same : (s.reqs.map fun r =>
      if (r.index == idx && r.key == key && r.wait != .fetch) = true then { r with wait := .ready } else r) = s.reqs :=
    (List.map_congr_left fun r hr => by simp [h r hr]).trans (List.map_id _)
  simp only [releaseRequests, kept, same]

/-- The one allocation that waits for a RETIRING entry chooses again when the entry becomes INVALID (R92). -/
theorem releaseContext_rechosen {x : State} {idx e i : Nat} {who : Requester} {key k : Key} {pre post : List Req}
    (h : x.findEntry idx = some e) (hc : (x.entry e).cond = .retiring) (hp : (x.entry e).pinned = false)
    (hr : x.reqs = pre ++ ⟨who, i, key, .writeBack e⟩ :: post) (hi : i ≠ idx)
    (ho : ∀ r ∈ pre ++ post, r.index ≠ idx ∧ r.wait ≠ .writeBack e) :
    releaseContext k idx x = { x.leaving k idx with
      entries := x.entriesWith e {}
      recency := x.recency.filter fun d => d != e
      txns := x.txns.map (Txn.dropHolds idx)
      reqs := ⟨who, i, key, .list⟩ :: (pre ++ post) } := by
  have idle (rs : List Req) (hrs : ∀ r ∈ rs, r ∈ pre ++ post) :
      (rs.filter fun r => r.wait == .writeBack e) = [] ∧ (rs.filter fun r => r.wait != .writeBack e) = rs :=
    ⟨List.filter_eq_nil_iff.2 fun r hr => by simpa using (ho r (hrs r hr)).2,
      List.filter_eq_self.2 fun r hr => by simpa using (ho r (hrs r hr)).2⟩
  obtain ⟨waiting, others⟩ := idle pre fun r hr => List.mem_append_left post hr
  obtain ⟨waiting', others'⟩ := idle post fun r hr => List.mem_append_right pre hr
  have chosen : rechoose e (({ x.leaving k idx with reqs := x.reqs } : State).withoutEntry e idx)
      = { x.leaving k idx with
          entries := x.entriesWith e {}
          recency := x.recency.filter fun d => d != e
          txns := x.txns.map (Txn.dropHolds idx)
          reqs := ⟨who, i, key, .list⟩ :: (pre ++ post) } := by
    simp only [rechoose, State.withoutEntry, hr, List.filter_append, waiting, others,
      List.filter_cons, waiting', others', beq_self_eq_true, bne_self_eq_false]
    rfl
  rw [releaseContext_invalidated h (by rw [hc]; decide) hp, if_pos hc, chosen]
  refine releaseRequests_idle (fun r hr => ?_) k
  rcases List.mem_cons.1 hr with rfl | hr
  · exact hi
  · exact (ho r hr).1

/-! ## The allocation that takes the entry (R88, R92) -/

/-- The first INVALID entry is the free one. -/
theorem freeEntry_first {s : State} {e : Nat} (he : e < 32) (hi : (s.entry e).cond = .invalid)
    (hl : ∀ d, d < e → (s.entry d).cond ≠ .invalid) : s.freeEntry = some e := by
  refine List.find?_range_eq_some.2 ⟨by simp [hi], List.mem_range.2 he, fun d hd => by simpa using hl d hd⟩

/-- The one request of the waiting list takes the free entry, and its fetch is issued (R88, R90). -/
theorem pump_takes {s : State} {who : Requester} {i e : Nat} {key : Key} {rest : List Req}
    (hr : s.reqs = ⟨who, i, key, .list⟩ :: rest) (hw : who.isWrite = false)
    (ho : ∀ r ∈ rest, r.index ≠ i ∧ r.wait ≠ .list) (hf : s.freeEntry = some e) : pump s = ({ s with
      entries := s.entriesWith e { cond := .fetching, index := i, key := key }
      reqs := ⟨who, i, key, .fetch⟩ :: rest } : State).submit .cache
        ⟨.fetch i, s.contextAddr i, .read 256⟩ (some s.takes) := by
  have given : ∀ r ∈ rest, r.index = i → r.wait = .ready := fun r h hi => absurd hi (ho r h).1
  have merges : mergesOf i s.reqs = [] := by
    rw [hr, mergesOf, List.filterMap_cons]
    cases who with
    | write => cases hw
    | _ => exact mergesOf_none given
  have fetching := startFetch_invalid (freeEntry_invalid hf) i key
  have others := reqs_fetching given
  have waits : Wait.list.given = false := rfl
  rw [merges, hr] at fetching
  simp only [List.filter_cons, hw, Bool.false_and, Bool.not_false, if_true, List.map_cons, others, waits, and_self] at fetching
  have placed : place i key s = some (startFetch e i key s) := by simp [place, hf]
  have served : serveList s = startFetch e i key s := by
    have first : s.reqs.find? (fun r => r.wait == .list) = some ⟨who, i, key, .list⟩ := by simp [hr]
    have length : s.reqs.length = rest.length + 1 := by simp [hr]
    rw [serveList, length, pumpLoop, first]
    simp only [placed]
    refine pumpLoop_quiet _ ?_
    rw [fetching]
    intro r hm
    rcases List.mem_cons.1 hm with rfl | hm
    · exact fun h => by cases h
    · exact (ho r hm).2
  have sound : (startFetch e i key s).allFaulted = false := by
    have he := freeEntry_lt hf
    refine List.all_eq_false.2 ⟨e, List.mem_range.2 he, ?_⟩
    have new := entry_setEntry_self s e { cond := .fetching, index := i, key := key } he
    rw [fetching]
    change ¬ ((s.setEntry e _).entry e).faulted = true
    rw [new]
    exact Bool.false_ne_true
  rw [pump, served]
  simp only [sound]
  rw [if_neg Bool.false_ne_true, fetching]

/-! ## A visit of RELEASE (R21, R22) -/

/-- The requests of a released context wait no longer for an entry (R89). -/
theorem reqsReleased_wait {x : State} (h : ∀ r ∈ x.reqs, r.wait ≠ .list) (idx : Nat) (key : Key) :
    ∀ r ∈ x.reqsReleased idx key, r.wait ≠ .list := by
  intro r hr
  obtain ⟨q, hq, rfl⟩ := List.mem_map.1 hr
  have := h q (List.mem_filter.1 hq).1
  split
  · exact fun h => by cases h
  · exact this

/-- A part at rest is at rest when a context has left it. -/
theorem State.Quiet.leaving {x : State} (h : x.Quiet) (key : Key) (idx : Nat) : (x.leaving key idx).Quiet :=
  h.of rfl (reqsReleased_wait h.requests idx key) h.sound rfl

/-- It is at rest when an entry has become INVALID. -/
theorem State.Quiet.gone {x y : State} (h : x.Quiet) {e idx : Nat} (hp : y.atPort = x.atPort)
    (hr : ∀ r ∈ y.reqs, r.wait ≠ .list) (he : y.entries = x.entriesWith e {})
    (ht : y.txns = x.txns.map (Txn.dropHolds idx)) : y.Quiet :=
  ⟨hp.trans h.port, hr, sound_entriesWith h.sound he fun hf => absurd hf Bool.false_ne_true,
    ht ▸ unanswered_dropHolds idx h.unanswered⟩

section
variable {o : Host.Outcome State Fault Refusal} {x : State} {k : Key} {idx : Nat} {more : List (Key × Nat)} {failed : Bool}

/-- A step that goes on with a visit answers what the visit and the waiting list behind it come to. -/
def Visits (o : Host.Outcome State Fault Refusal) (x : State) (k : Key) (idx : Nat) (more : List (Key × Nat))
    (failed : Bool) : Prop :=
  ∀ (t v : State) (as : List Access), pump (releaseNext ((k, idx) :: more) failed x) = v → v.Quiet →
    (releaseNext ((k, idx) :: more) failed x).txns = v.txns → (v.txns = x.txns ∨ v.txns = x.txns.map (Txn.dropHolds idx)) → { v with mem := t.mem } = t →
    t.mem.gains v.mem as → NextIs o t as

/-- With no write-back of the context outstanding the header is written at once (R92). -/
theorem visits_writes (ho : Visits o x k idx more failed) {z : State} (hz : releaseContext k idx x = z)
    (hi : z.inProgress (isWriteBack idx) = false) (hq : z.Quiet)
    (ht : z.txns = x.txns ∨ z.txns = x.txns.map (Txn.dropHolds idx)) :
    NextIs o { z with cmu := z.cmuIn (.releaseWrite k idx more failed) }
      [ownWrite .releaseHeader (z.contextAddr idx) (List.replicate 16 0)] := by
  have visit : releaseNext ((k, idx) :: more) failed x = writeHeader k idx more failed z := by
    rw [releaseNext, hz]
    exact if_neg (by rw [hi]; exact Bool.false_ne_true)
  have quiet : (writeHeader k idx more failed z).Quiet := hq.of rfl hq.requests hq.sound rfl
  exact ho _ _ _ (by rw [visit, pump_quiet quiet]) quiet (by rw [visit]) ht rfl
    (submit_gains _ .command _ none)

/-- The write-back outstanding is awaited first; meanwhile the waiting list goes on (R92). -/
theorem visits_drains (ho : Visits o x k idx more failed) {z v : State} {as : List Access}
    (hz : releaseContext k idx x = z) (hi : z.inProgress (isWriteBack idx) = true)
    (hp : pump { z with cmu := z.cmuIn (.releaseDrain k idx more failed) } = v) (hq : v.Quiet)
    (hk : z.txns = v.txns) (ht : v.txns = x.txns ∨ v.txns = x.txns.map (Txn.dropHolds idx)) {t : State} (hv : { v with mem := t.mem } = t)
    (hg : t.mem.gains v.mem as) : NextIs o t as := by
  have visit : releaseNext ((k, idx) :: more) failed x = { z with cmu := z.cmuIn (.releaseDrain k idx more failed) } := by
    rw [releaseNext, hz]
    exact if_pos hi
  exact ho t v as (by rw [visit, hp]) hq (by rw [visit]; exact hk) ht hv hg

/-- The same where no request goes on. -/
theorem visits_drains_idle (ho : Visits o x k idx more failed) {z : State} (hz : releaseContext k idx x = z)
    (hi : z.inProgress (isWriteBack idx) = true) (hq : z.Quiet)
    (ht : z.txns = x.txns ∨ z.txns = x.txns.map (Txn.dropHolds idx)) :
    NextIs o { z with cmu := z.cmuIn (.releaseDrain k idx more failed) } [] :=
  have quiet : ({ z with cmu := z.cmuIn (.releaseDrain k idx more failed) } : State).Quiet :=
    hq.of rfl hq.requests hq.sound rfl
  visits_drains ho hz hi (pump_quiet quiet) quiet rfl ht rfl (MemPort.gains_refl _)

end

/-- One visit of RELEASE, by the condition of the context's entry and the write-back outstanding (R21, R92, R93). -/
theorem release_visits {o : Host.Outcome State Fault Refusal} {x : State} {k : Key} {idx : Nat}
    {more : List (Key × Nat)} {failed : Bool} (hx : x.Quiet) (ho : Visits o x k idx more failed) :
    let header := [ownWrite .releaseHeader (x.contextAddr idx) (List.replicate 16 0)]
    let y := x.leaving k idx
    let writes := { y with cmu := x.cmuIn (.releaseWrite k idx more failed) }
    let drains := { y with cmu := x.cmuIn (.releaseDrain k idx more failed) }
    let gone := fun (z : State) (e : Nat) => { z with
      entries := x.entriesWith e {}
      recency := x.recency.filter fun d => d != e
      txns := x.txns.map (Txn.dropHolds idx) }
    let marked := fun (e : Nat) => x.entriesWith e { x.entry e with released := true }
    (x.inProgress (isWriteBack idx) = false →
      (x.findEntry idx = none → NextIs o writes header)
      ∧ (∀ e, x.findEntry idx = some e →
        ((x.entry e).cond = .fetching ∨ (x.entry e).pinned = true →
          NextIs o { writes with entries := marked e } header)
        ∧ ((x.entry e).cond ≠ .fetching → (x.entry e).pinned = false →
          ((x.entry e).cond = .retiring → ∀ r ∈ x.reqs, r.wait ≠ .writeBack e) →
          NextIs o (gone writes e) header)))
    ∧ (x.inProgress (isWriteBack idx) = true → x.findEntry idx = none → NextIs o drains [])
    ∧ (x.inProgress (isWriteBack idx) = true → ∀ e, x.findEntry idx = some e → (x.entry e).cond = .retiring →
      ((x.entry e).pinned = true → NextIs o { drains with entries := marked e } [])
      ∧ ((x.entry e).pinned = false →
        ((∀ r ∈ x.reqs, r.wait ≠ .writeBack e) → NextIs o (gone drains e) [])
        ∧ (∀ pre post who i key, x.reqs = pre ++ ⟨who, i, key, .writeBack e⟩ :: post → who.isWrite = false →
          i ≠ idx → (∀ r ∈ pre ++ post, r.index ≠ i ∧ r.index ≠ idx ∧ r.wait ≠ .writeBack e) →
          (∀ d, d < e → (x.entry d).cond ≠ .invalid) →
          NextIs o
            { gone drains e with
              entries := x.entriesWith e { cond := .fetching, index := i, key := key }
              reqs := ⟨who, i, key, .fetch⟩ :: (pre ++ post) }
            [⟨.fetch i, x.contextAddr i, .read 256⟩]))) := by
  intro header y writes drains gone marked
  have left := hx.leaving k idx
  have markedQuiet (e : Nat) : ({ x.leaving k idx with entries := marked e } : State).Quiet :=
    left.of rfl left.requests (sound_entriesWith hx.sound rfl fun h => h) rfl
  have goneQuiet (e : Nat) : (gone (x.leaving k idx) e).Quiet := hx.gone rfl left.requests rfl rfl
  refine ⟨fun hi => ⟨fun hf => ?_, fun e hf => ⟨fun hc => ?_, fun hc hp hr => ?_⟩⟩, fun hi hf => ?_,
    fun hi e hf hc => ⟨fun hp => ?_, fun hp => ⟨fun hr => ?_, fun pre post who i key hr hw hne hothers hfirst => ?_⟩⟩⟩
  · exact visits_writes ho (releaseContext_uncached hf k) hi left (.inl rfl)
  · exact visits_writes ho (releaseContext_marked hf hc k) hi (markedQuiet e) (.inl rfl)
  · exact visits_writes ho (releaseContext_gone hf hc hp hr k) hi (goneQuiet e) (.inr rfl)
  · exact visits_drains_idle ho (releaseContext_uncached hf k) hi left (.inl rfl)
  · exact visits_drains_idle ho (releaseContext_marked hf (.inr hp) k) hi (markedQuiet e) (.inl rfl)
  · have notFetching : (x.entry e).cond ≠ .fetching := by rw [hc]; decide
    exact visits_drains_idle ho (releaseContext_gone hf notFetching hp (fun _ => hr) k) hi (goneQuiet e) (.inr rfl)
  · obtain ⟨he, -, -⟩ := findEntry_some hf
    have released := releaseContext_rechosen (k := k) hf hc hp hr hne fun r hm => (hothers r hm).2
    have waits : ∀ r ∈ pre ++ post, r.index ≠ i ∧ r.wait ≠ .list := fun r hm => by
      refine ⟨(hothers r hm).1, hx.requests r ?_⟩
      rw [hr]
      rcases List.mem_append.1 hm with hm | hm
      · exact List.mem_append_left _ hm
      · exact List.mem_append_right _ (List.mem_cons_of_mem _ hm)
    let u : State := { gone drains e with reqs := ⟨who, i, key, .list⟩ :: (pre ++ post) }
    have entries (d : Nat) : u.entry d = (x.setEntry e {}).entry d := rfl
    have free : u.freeEntry = some e := by
      refine freeEntry_first he ?_ fun d hd => ?_
      · rw [entries, entry_setEntry_self x e {} he]
      · rw [entries, entry_setEntry_ne x e d {} (Nat.ne_of_gt hd)]
        exact hfirst d hd
    have taken := pump_takes (s := u) rfl hw waits free
    have twice (f : Entry) : u.entriesWith e f = x.entriesWith e f := by
      simp [u, gone, State.entriesWith]
    rw [twice] at taken
    refine visits_drains ho released hi taken ?_ rfl (.inr rfl) rfl (submit_gains _ .cache _ _)
    refine ⟨hx.port, ?_, ?_, unanswered_dropHolds idx hx.unanswered⟩
    · intro r hm
      rcases List.mem_cons.1 hm with rfl | hm
      · exact fun h => by cases h
      · exact (waits r hm).2
    · exact sound_entriesWith hx.sound rfl fun h => absurd h Bool.false_ne_true

/-! ## The command and the ends of its writes -/

/-- A RELEASE CMU holds makes its checks and begins its visits (R21, R22). -/
theorem release_begins {s : State} {d : List Byte} {key : Key} (h : s.Executing 0x11 d) (hk : cmdKey d = key) :
    ∃ f, execRelease s = cacheEvent s f ∧ f s =
      if ¬ (key.channel ≤ 15 ∧ key.station ≤ 16383) then answer .keyInvalid s
      else if key.station = 0 then releaseNext (s.keysOf key.channel) false s
      else
        match s.lookup key with
        | none => answer .notFound s
        | some idx => releaseNext [(key, idx)] false s := by
  subst hk
  refine ⟨_, rfl, ?_⟩
  rw [onCommand_of (code := codeRelease) h]
  simp only [Bool.not_eq_true', Bool.eq_false_iff, ne_eq, keyValid_iff] <;> rfl

/-- A step whose effect is a visit. -/
theorem visits_of {s x : State} {f : State → State} {k : Key} {idx : Nat} {more : List (Key × Nat)} {failed : Bool}
    (hr : s.inReset = false) (hf : f s = releaseNext ((k, idx) :: more) failed x) :
    Visits (cacheEvent s f) x k idx more failed :=
  fun _ _ _ hp hq _ _ ht hg => cacheEvent_pumps hr hf hp hq ht hg

/-- A notice told where something went wrong leaves the open transactions as they are, and a part at rest at rest. -/
theorem noticeIf_quiet {s : State} (h : s.Quiet) (b : Bool) (n : Notice) :
    (noticeIf b n s).Quiet ∧ (noticeIf b n s).txns = s.txns := by
  cases b
  · exact ⟨h, rfl⟩
  · exact ⟨h.notify n, notify_txns n s⟩

/-- Such a notice changes NW and the memory port alone. -/
theorem noticeIf_with (b : Bool) (n : Notice) (s : State) : ∃ w m, noticeIf b n s = { s with nw := w, mem := m } := by
  cases b
  · exact ⟨_, _, rfl⟩
  · exact notify_with n s

/-- What the end of a RELEASE header write goes on with (R21, R22, R96). -/
theorem releaseEnded_next {s : State} {key : Key} {idx : Nat} {rest : List (Key × Nat)} {failed : Bool} (error : Bool)
    (h : s.cmu.phase = .releaseWrite key idx rest failed) : releaseEnded error s
      = releaseNext rest (failed || error) (noticeIf error ⟨.memoryFault, 4, key, s.now, idx⟩ s) := by
  rw [releaseEnded, h]
  rfl

/-- The transactions a visit leaves are handled and judged as those before it. -/
theorem visited_txns {s v : State} {idx : Nat} (hs : s.Steady) (hj : s.Judged)
    (h : v.txns = s.txns ∨ v.txns = s.txns.map (Txn.dropHolds idx)) :
    (∀ t ∈ v.txns, t.handled = true) ∧ v.Judged := by
  unfold State.Judged
  rcases h with h | h <;> rw [h]
  · exact ⟨hs.handled, hj⟩
  · refine ⟨fun t ht => ?_, fun t ht => ?_⟩ <;> obtain ⟨u, hu, rfl⟩ := List.mem_map.1 ht
    · obtain ⟨-, -, -, same⟩ := dropHolds_fields idx u
      exact same.trans (hs.handled u hu)
    · exact dropHolds_judged (hj u hu)

/-- The end of a write-back of a context that no entry is of lets the RELEASE that waited for it go on (R92, R95). -/
theorem writeBackEnded_drains {s : State} {idx : Nat} {key : Key} {rest : List (Key × Nat)} {failed : Bool}
    (hf : s.findEntry idx = none) (hp : s.cmu.phase = .releaseDrain key idx rest failed) (k : Key) (error : Bool) :
    writeBackEnded idx k error s
      = writeHeader key idx rest failed (noticeIf error ⟨.memoryFault, 2, k, s.now, idx⟩ s) := by
  have none : s.retiringEntry idx k = none := by simp only [State.retiringEntry, hf]
  have drains (t : State) (ht : t.cmu.phase = .releaseDrain key idx rest failed) :
      drainRelease idx t = writeHeader key idx rest failed t := by
    simp [drainRelease, ht]
  simp only [writeBackEnded, none]
  refine drains (noticeIf error ⟨.memoryFault, 2, k, s.now, idx⟩ s) ?_
  obtain ⟨w, m, told⟩ := noticeIf_with error ⟨.memoryFault, 2, k, s.now, idx⟩ s
  rw [told]
  exact hp

/-- Settles O45: the visit of each context, from the command and from the end of the header write before it. -/
theorem released : Obligations.Released := by
  refine ⟨fun s d hs hd => ?_, fun s key idx failed error a rest hs => ?_⟩
  · intro key valid
    obtain ⟨f, event, begins⟩ := release_begins (key := key) hd rfl
    have step : exec .release s = cacheEvent s f := event
    rw [step]
    refine ⟨fun h => cacheEvent_answers hs.running (begins.trans (if_pos h)) hs.quiet,
      fun (hv : key.channel ≤ 15 ∧ key.station ≤ 16383) hk hn => ?_,
      fun (hv : key.channel ≤ 15 ∧ key.station ≤ 16383) hk hn => ?_,
      fun idx (hv : key.channel ≤ 15 ∧ key.station ≤ 16383) hk hi => ?_,
      fun k idx more (hv : key.channel ≤ 15 ∧ key.station ≤ 16383) hk hkeys => ?_⟩
    · refine cacheEvent_answers hs.running ?_ hs.quiet
      rw [begins, if_neg (not_not_intro hv), if_neg hk, hn]
    · refine cacheEvent_answers hs.running ?_ hs.quiet
      have none : s.keysOf key.channel = [] := List.filter_eq_nil_iff.2 fun p hp => by simpa using hn p hp
      rw [begins, if_neg (not_not_intro hv), if_pos hk, none]
      rfl
    · refine release_visits hs.quiet (visits_of hs.running ?_)
      rw [begins, if_neg (not_not_intro hv), if_neg hk, hi]
    · refine release_visits hs.quiet (visits_of hs.running ?_)
      rw [begins, if_neg (not_not_intro hv), if_pos hk, State.keysOf, hkeys]
  · intro ended
    obtain ⟨quiet, txns⟩ := noticeIf_quiet (hs.quiet.ended rest) error ⟨.memoryFault, 4, key, s.now, idx⟩
    refine ⟨fun hj hold => ⟨fun hphase => ?_, fun k i more hphase => ?_⟩, fun more hphase hold hf => ?_⟩
    · have effect := releaseEnded_next (s := s.ended rest) error hphase
      change Answers (execReleaseHeaderWriteEnd error s) ended _
      unfold execReleaseHeaderWriteEnd
      refine cacheEvent_answers hs.running ?_ quiet
      rw [ending_ended hold, effect]
      exact resume_of hs hj (quiet.of rfl quiet.requests quiet.sound rfl) txns
    · have effect := releaseEnded_next (s := s.ended rest) error hphase
      have visits : Visits (execReleaseHeaderWriteEnd error s) ended k i more (failed || error) := by
        intro t v as hp hq hk htx ht hg
        unfold execReleaseHeaderWriteEnd
        obtain ⟨handled, judged⟩ := visited_txns hs hj (htx.imp (·.trans txns) (·.trans (congrArg _ txns)))
        refine cacheEvent_nextIs (u := v) hs.running _ ?_ hq ht hg
        rw [ending_ended hold, effect]
        exact resume_pumps hp hq hk handled judged
      exact release_visits quiet visits
    · obtain ⟨w, m, told⟩ := noticeIf_with error ⟨.memoryFault, 2, a.writeBackKey, s.now, idx⟩ (s.ended rest)
      obtain ⟨quiet, -⟩ := noticeIf_quiet (hs.quiet.ended rest) error ⟨.memoryFault, 2, a.writeBackKey, s.now, idx⟩
      have effect : writeBackEnded idx a.writeBackKey error (s.ended rest) = writeHeader key idx more failed
          (noticeIf error ⟨.memoryFault, 2, a.writeBackKey, s.now, idx⟩ (s.ended rest)) :=
        writeBackEnded_drains (s := s.ended rest) hf hphase a.writeBackKey error
      change NextIs (execWriteBackEnd idx error s) _ _
      unfold execWriteBackEnd
      have writes := cacheEvent_submits (o := none)
        (f := fun x => x.ending (isWriteBack idx) fun a y => writeBackEnded idx a.writeBackKey error y)
        hs.running ((ending_ended hold _).trans effect) quiet
      rw [told] at writes ⊢
      exact writes

end Sys2Proof.Machine
end

section
/-!
PROOFS. The operator write: what it makes of a context, what it leaves when it is taken on an entry, and its passage
from the system port to the memory port.
-/

namespace Sys2Proof.Machine

/-! ## The context after an operator write (R100) -/

/-- The operator bytes of a write replace those of the context (R100, step 1). -/
theorem putOperator_eq (c : Context) (bs : List (Nat × Byte)) : c.putOperator bs = { c with
    hold := match bs.find? fun b => b.1 == 23 with | none => c.hold | some b => b.2.toNat.testBit 0
    freeze := match bs.find? fun b => b.1 == 23 with | none => c.freeze | some b => b.2.toNat.testBit 1
    taps := if coversTaps bs then
        getTaps (putBytes (tapBytes c.taps) ((bs.filter fun b => isTapOffset b.1).map fun b => (b.1 - 32, b.2))) 0
      else c.taps } := by
  have covers : ((bs.filter fun p => isTapOffset p.1).map fun p => (p.1 - 32, p.2)).isEmpty = !coversTaps bs := by
    rw [List.isEmpty_map, Bool.eq_iff_iff]
    simp [coversTaps]
  unfold Context.putOperator
  simp only [covers]
  cases coversTaps bs <;> cases hc : bs.find? (fun b => b.1 == controlOffset) <;>
    simp only [show (fun b : Nat × Byte => b.1 == 23) = fun b => b.1 == controlOffset from rfl, hc] <;> rfl

/-- The state follows the hold flag where it has changed (R16). -/
theorem followHold_changed (c : Context) (was : Bool) : (if c.hold = was then c else c.followHold) =
    let frees := was && !c.hold && decide (c.state = .held)
    { c with
      state := if !was && c.hold && decide (c.state ∈ [CtxState.initial, .acquiring, .tracking]) then .held
        else if frees then .acquiring else c.state
      step := if frees then 0 else c.step
      settle := if frees then 0 else c.settle } := by
  obtain ⟨_, state, _, _, _, _, _, _, _, _, _, _, _, _, _, hold, _, _, _, _, _, _, _⟩ := c
  cases was <;> cases hold <;> cases state <;> rfl

/-- The whole effect of an operator write on a context (R16, R18, R100). -/
theorem operatorWrite_eq (c : Context) (bs : List (Nat × Byte)) :
    let control := bs.find? fun b => b.1 == 23
    let hold := match control with | none => c.hold | some b => b.2.toNat.testBit 0
    let freeze := match control with | none => c.freeze | some b => b.2.toNat.testBit 1
    let holds := !c.hold && hold && decide (c.state ∈ [CtxState.initial, .acquiring, .tracking])
    let frees := c.hold && !hold && decide (c.state = .held)
    c.operatorWrite bs = { c with
      hold := hold
      freeze := freeze
      state := if holds then .held else if frees then .acquiring else c.state
      step := if frees then 0 else c.step
      settle := if frees then 0 else c.settle
      taps := if coversTaps bs then
          getTaps (putBytes (tapBytes c.taps) ((bs.filter fun b => isTapOffset b.1).map fun b => (b.1 - 32, b.2))) 0
        else c.taps
      basis := if coversTaps bs then (c.basis + 1) % 65536 else c.basis
      pending := if coversTaps bs then none else c.pending } := by
  intro control hold freeze holds frees
  have put : c.putOperator bs = { c with hold := hold, freeze := freeze, taps := _ } := putOperator_eq c bs
  unfold Context.operatorWrite
  cases hcovers : coversTaps bs <;> simp only [hcovers, put, if_true, if_false, Bool.false_eq_true] at put ⊢
  · exact followHold_changed { c with hold := hold, freeze := freeze } c.hold
  · exact followHold_changed (Context.moveBasis { c with hold := hold, freeze := freeze, taps := _ }) c.hold

/-! ## The write taken on an entry (R71, R86, R92, R100, R119) -/

/-- The notices of an operator write, PENDING_DISCARDED first (R11, R18). -/
def operatorNotices (c : Context) (bs : List (Nat × Byte)) (now : Tick) : List Notice :=
  discardNotice c bs now ++ holdNotice c (c.operatorWrite bs) now

/-- What an operator write does outside the cache (R71, R119). -/
def State.operatorMarked (s : State) (x : Entry) (c' : Context) : State := { s with
  calendar := if x.image.state = c'.state then s.calendar
    else s.calendarClassed x.index (if c'.state = CtxState.held then .tracking else .acquire)
  engine := s.engineMarked x.index x.key .operator }

/-- A write taken is the change of its image, then what it does outside the cache, then its notices. -/
theorem takeOperatorWrite_eq {e : Nat} {bs : List (Nat × Byte)} {s t : State}
    (h : modifyImage e (fun _ => (s.entry e).image.operatorWrite bs) (touch e s) = t) :
    takeOperatorWrite e bs s = notifyAll (operatorNotices (s.entry e).image bs s.now)
      (t.operatorMarked (s.entry e) ((s.entry e).image.operatorWrite bs)) := by
  simp only [takeOperatorWrite, h, holdClass_eq, markJob_eq]
  rfl

/-- On a VALID entry (R86). -/
theorem takeOperatorWrite_valid {s : State} {e : Nat} (he : e < 32) (hc : (s.entry e).cond = .valid)
    (bs : List (Nat × Byte)) : takeOperatorWrite e bs s
      = notifyAll (operatorNotices (s.entry e).image bs s.now)
        (({ s with
          entries := s.entriesWith e { s.entry e with image := (s.entry e).image.operatorWrite bs, dirty := true }
          recency := s.recencyWith e } : State).operatorMarked (s.entry e) ((s.entry e).image.operatorWrite bs)) := by
  refine takeOperatorWrite_eq ?_
  rw [touch_valid hc]
  exact modifyImage_valid (s := { s with recency := s.recencyWith e }) he hc

/-- A RETIRING entry is not moved (R86). -/
theorem touch_retiring {s : State} {e : Nat} (hc : (s.entry e).cond = .retiring) : touch e s = s := by
  simp [touch, hc]

/-- The image of a RETIRING entry changes before the end of its write-back (R92). -/
theorem modifyImage_retiring {s : State} {e : Nat} {f : Context → Context} (he : e < 32)
    (hc : (s.entry e).cond = .retiring) (hr : (s.entry e).retire.ended = false) :
    modifyImage e f s = s.setEntry e { s.entry e with
      image := f (s.entry e).image, dirty := true, retire := { (s.entry e).retire with changed := true } } := by
  simp [modifyImage, cancelIfEnded, hc, hr, he]

/-- The image of a RETIRING entry changes after the end of its write-back: its reuse is cancelled (R92). -/
theorem modifyImage_ended {s : State} {e : Nat} {f : Context → Context} (he : e < 32)
    (hc : (s.entry e).cond = .retiring) (hr : (s.entry e).retire.ended = true)
    (hw : ∀ r ∈ s.reqs, r.wait ≠ .writeBack e) : modifyImage e f s
      = s.setEntry e { s.entry e with image := f (s.entry e).image, dirty := true, cond := .valid, retire := {} } := by
  simp only [modifyImage, cancelIfEnded, cancelReuse, hc, if_true, entry_setEntry_self _ _ _ he, hr, and_self]
  rw [rechoose_idle (by exact hw)]
  simp [State.setEntry]

/-- The write taken on a RETIRING entry before the end of its write-back (R92). -/
theorem takeOperatorWrite_retiring {s : State} {e : Nat} (he : e < 32) (hc : (s.entry e).cond = .retiring)
    (hr : (s.entry e).retire.ended = false) (bs : List (Nat × Byte)) : takeOperatorWrite e bs s
      = notifyAll (operatorNotices (s.entry e).image bs s.now)
        ((s.setEntry e { s.entry e with
            image := (s.entry e).image.operatorWrite bs, dirty := true
            retire := { (s.entry e).retire with changed := true } }).operatorMarked (s.entry e)
          ((s.entry e).image.operatorWrite bs)) := by
  refine takeOperatorWrite_eq ?_
  rw [touch_retiring hc]
  exact modifyImage_retiring he hc hr

/-- The write taken after the end of the write-back (R92). -/
theorem takeOperatorWrite_ended {s : State} {e : Nat} (he : e < 32) (hc : (s.entry e).cond = .retiring)
    (hr : (s.entry e).retire.ended = true) (hw : ∀ r ∈ s.reqs, r.wait ≠ .writeBack e) (bs : List (Nat × Byte)) :
    takeOperatorWrite e bs s = notifyAll (operatorNotices (s.entry e).image bs s.now)
      ((s.setEntry e { s.entry e with
          image := (s.entry e).image.operatorWrite bs, dirty := true, cond := .valid, retire := {} }).operatorMarked
        (s.entry e) ((s.entry e).image.operatorWrite bs)) := by
  refine takeOperatorWrite_eq ?_
  rw [touch_retiring hc]
  exact modifyImage_ended he hc hr hw

/-- The notices of an operator write as the spec gives them (R184). -/
theorem operatorNotices_eq (c : Context) (bs : List (Nat × Byte)) (now : Tick) : operatorNotices c bs now =
    (match c.pending with
      | none => []
      | some p => if coversTaps bs then
          [(⟨.pendingDiscarded, 1, c.key, now, p.id % 65536 + 65536 * 255⟩ : Notice)] else [])
    ++ if c.state = (c.operatorWrite bs).state then [] else
      [(⟨.stateChange, c.state.code + 16 * (c.operatorWrite bs).state.code, c.key, now, 0⟩ : Notice)] := by
  unfold operatorNotices discardNotice holdNotice
  cases c.pending <;> rfl

/-! ## The passage of the write (R99, R160) -/

/-- Notices are said alike where nothing but the takes, the open transactions and the memory port differ, and the port
gains the same accesses (R181). -/
theorem notifyAll_apart (ns : List Notice) (s : State) (n : Nat) (ts : List Txn) (m : MemPort) :
    ∃ as m', notifyAll ns { s with takes := n, txns := ts, mem := m }
        = { notifyAll ns s with takes := n, txns := ts, mem := m' }
      ∧ s.mem.gains (notifyAll ns s).mem as ∧ m.gains m' as := by
  induction ns generalizing s m with
  | nil => exact ⟨[], m, rfl, MemPort.gains_refl _, MemPort.gains_refl _⟩
  | cons x ns ih =>
    have one : ∃ as m', notify x { s with takes := n, txns := ts, mem := m }
          = { notify x s with takes := n, txns := ts, mem := m' }
        ∧ s.mem.gains (notify x s).mem as ∧ m.gains m' as := by
      rcases notify_cases x s with ⟨h, eq⟩ | ⟨h, eq⟩ <;>
        rcases notify_cases x { s with takes := n, txns := ts, mem := m } with ⟨h', eq'⟩ | ⟨h', eq'⟩
      · refine ⟨_, _, by rw [eq, eq']; rfl, ?_, submit_gains { s with takes := n, txns := ts, mem := m, nw := _ } .notice _ none⟩
        rw [eq]
        exact submit_gains { s with nw := _ } .notice _ none
      · exact absurd h h'
      · exact absurd h' h
      · refine ⟨[], m, by rw [eq, eq'], ?_, MemPort.gains_refl _⟩
        rw [eq]
        exact MemPort.gains_refl _
    obtain ⟨as, m1, eq, hs, hm⟩ := one
    obtain ⟨bs, m2, eq', hs', hm'⟩ := ih (notify x s) m1
    refine ⟨as ++ bs, m2, ?_, MemPort.gains_trans hs hs', MemPort.gains_trans hm hm'⟩
    change notifyAll ns (notify x _) = _
    rw [eq, eq']
    rfl

/-- Notices change NW and the memory port alone. -/
theorem notifyAll_with (ns : List Notice) (s : State) : ∃ w m, notifyAll ns s = { s with nw := w, mem := m } := by
  induction ns generalizing s with
  | nil => exact ⟨_, _, rfl⟩
  | cons x ns ih =>
    obtain ⟨w, m, eq⟩ := notify_with x s
    obtain ⟨w', m', eq'⟩ := ih (notify x s)
    refine ⟨w', m', ?_⟩
    change notifyAll ns (notify x s) = _
    rw [eq', eq]

/-- Ports that gained the same accesses over one differ in the order of what waits alone. -/
theorem MemPort.gains_apart {m a b : MemPort} {as : List Access} (ha : m.gains a as) (hb : m.gains b as) :
    a.gains b [] := by
  unfold MemPort.gains at *
  simpa using hb.trans ha.symm

/-- An operator write is taken alike whatever the takes and the open transactions are, and changes of the entry no
fault. -/
theorem takeOperatorWrite_serving {s : State} {e : Nat} (he : e < 32) (hv : (s.entry e).serves = true)
    (hr : (s.entry e).cond = .retiring → (s.entry e).retire.ended = false) (bs : List (Nat × Byte)) :
    ∃ x r, x.faulted = (s.entry e).faulted ∧ ∀ n ts, takeOperatorWrite e bs { s with takes := n, txns := ts }
      = notifyAll (operatorNotices (s.entry e).image bs s.now)
        (({ s with entries := s.entriesWith e x, recency := r, takes := n, txns := ts } : State).operatorMarked
          (s.entry e) ((s.entry e).image.operatorWrite bs)) := by
  have cond : (s.entry e).cond = .valid ∨ (s.entry e).cond = .retiring := by simpa [Entry.serves] using hv
  rcases cond with hc | hc
  · exact ⟨{ s.entry e with image := (s.entry e).image.operatorWrite bs, dirty := true }, s.recencyWith e, rfl,
      fun n ts => takeOperatorWrite_valid (s := { s with takes := n, txns := ts }) he hc bs⟩
  · exact ⟨{ s.entry e with
        image := (s.entry e).image.operatorWrite bs, dirty := true
        retire := { (s.entry e).retire with changed := true } }, s.recency, rfl,
      fun n ts => takeOperatorWrite_retiring (s := { s with takes := n, txns := ts }) he hc (hr hc) bs⟩

/-- A write taken and the notices behind it come to the same among other takes and open transactions, but for the
order at the memory port, and leave a part at rest at rest. -/
theorem operatorTaken_apart {s : State} (hq : s.Quiet) {e : Nat} (he : e < 32) (hv : (s.entry e).serves = true)
    (hr : (s.entry e).cond = .retiring → (s.entry e).retire.ended = false) (bs : List (Nat × Byte))
    (more : List Notice) (n : Nat) (ts : List Txn) :
    ∃ m, notifyAll more (takeOperatorWrite e bs { s with takes := n, txns := ts })
        = { notifyAll more (takeOperatorWrite e bs s) with takes := n, txns := ts, mem := m }
      ∧ (notifyAll more (takeOperatorWrite e bs s)).mem.gains m []
      ∧ (notifyAll more (takeOperatorWrite e bs s)).Quiet
      ∧ (notifyAll more (takeOperatorWrite e bs s)).now = s.now := by
  obtain ⟨x, r, hx, taken⟩ := takeOperatorWrite_serving he hv hr bs
  have here : takeOperatorWrite e bs s = _ := taken s.takes s.txns
  have joined (a b : List Notice) (t : State) : notifyAll b (notifyAll a t) = notifyAll (a ++ b) t :=
    (List.foldl_append ..).symm
  obtain ⟨as, m, eq, hs, hm⟩ := notifyAll_apart (operatorNotices (s.entry e).image bs s.now ++ more)
    (({ s with entries := s.entriesWith e x, recency := r } : State).operatorMarked
      (s.entry e) ((s.entry e).image.operatorWrite bs)) n ts s.mem
  obtain ⟨w, m', told⟩ := notifyAll_with (operatorNotices (s.entry e).image bs s.now ++ more)
    (({ s with entries := s.entriesWith e x, recency := r } : State).operatorMarked
      (s.entry e) ((s.entry e).image.operatorWrite bs))
  have quiet : (notifyAll (operatorNotices (s.entry e).image bs s.now ++ more)
      (({ s with entries := s.entriesWith e x, recency := r } : State).operatorMarked
        (s.entry e) ((s.entry e).image.operatorWrite bs))).Quiet := by
    rw [told]
    exact hq.of rfl hq.requests (sound_entriesWith hq.sound rfl fun h => hx ▸ h) rfl
  have now := congrArg State.now told
  rw [taken n ts, here, joined, joined]
  exact ⟨m, eq, MemPort.gains_apart hs hm, quiet, now⟩

/-! ## The bytes of the write (R99) -/

/-- A byte is carried at an offset where the write has it. -/
theorem mem_carriedAt {off : Nat} {bytes : List WByte} {o : Nat} {v : Byte} :
    (o, v) ∈ carriedAt off bytes ↔ ∃ i, (some v, i) ∈ bytes.zipIdx ∧ o = off + i := by
  simp only [carriedAt, carriedBytes, List.mem_map, List.mem_filterMap, Option.map_eq_some_iff]
  constructor
  · rintro ⟨_, ⟨⟨b, i⟩, hm, w, rfl, rfl⟩, heq⟩
    cases heq
    exact ⟨i, hm, rfl⟩
  · rintro ⟨i, hm, rfl⟩
    exact ⟨(i, v), ⟨(some v, i), hm, v, rfl, rfl⟩, rfl⟩

/-- The bytes of a write of a context as they go out: guarded bytes disabled (R99). -/
def operatorBytes (off : Nat) (bytes : List WByte) : List WByte :=
  bytes.zipIdx.map fun b => if isOperatorOffset (off + b.2) then b.1 else none

/-- They are what the handling of the part makes of them. -/
theorem rewrite_operator (o : Owner) (off : Nat) (bytes : List WByte) :
    Part.rewrite ⟨o, 0, bytes.length, off⟩ (fun k b => if isOperatorOffset k then some b else none) bytes
      = operatorBytes off bytes := by
  refine List.map_congr_left fun b hb => ?_
  have lt : b.2 < 0 + bytes.length := by simpa using (List.mem_zipIdx hb).2.1
  rw [if_pos ⟨Nat.zero_le _, lt⟩, Nat.sub_zero]
  cases b.1 <;> by_cases h : isOperatorOffset (off + b.2) = true <;> simp [h]

/-- A write of operator bytes alone goes out as it came. -/
theorem operatorBytes_whole {off : Nat} {bytes : List WByte}
    (h : ((carriedAt off bytes).filter fun b => !isOperatorOffset b.1) = []) : operatorBytes off bytes = bytes := by
  have kept : operatorBytes off bytes = bytes.zipIdx.map Prod.fst := by
    refine List.map_congr_left fun ⟨b, i⟩ hb => ?_
    cases b with
    | none => simp
    | some v =>
      have := List.filter_eq_nil_iff.1 h (off + i, v) (mem_carriedAt.2 ⟨i, hb, rfl⟩)
      simpa using this
  rw [kept, List.zipIdx_map_fst]

/-- A write with an enabled operator byte goes out with one. -/
theorem operatorBytes_some {off : Nat} {bytes : List WByte}
    (h : ((carriedAt off bytes).filter fun b => isOperatorOffset b.1) ≠ []) :
    (operatorBytes off bytes).all Option.isNone = false := by
  obtain ⟨⟨o, v⟩, hm⟩ := List.exists_mem_of_ne_nil _ h
  obtain ⟨hc, ho⟩ := List.mem_filter.1 hm
  obtain ⟨i, hi, rfl⟩ := mem_carriedAt.1 hc
  refine List.all_eq_false.2 ⟨some v, List.mem_map.2 ⟨(some v, i), hi, if_pos ho⟩, by simp⟩

/-- A write with an enabled byte, and none of them guarded, carries operator bytes. -/
theorem operator_carried {off : Nat} {bytes : List WByte} (hb : bytes.any Option.isSome = true)
    (h : ((carriedAt off bytes).filter fun b => !isOperatorOffset b.1) = []) :
    ((carriedAt off bytes).filter fun b => isOperatorOffset b.1) ≠ [] := by
  obtain ⟨b, hm, hs⟩ := List.any_eq_true.1 hb
  obtain ⟨v, rfl⟩ := Option.isSome_iff_exists.1 hs
  rw [← List.zipIdx_map_fst 0 bytes] at hm
  obtain ⟨⟨_, i⟩, hi, rfl⟩ := List.mem_map.1 hm
  have carried : (off + i, v) ∈ carriedAt off bytes := mem_carriedAt.2 ⟨i, hi, rfl⟩
  have operator : isOperatorOffset (off + i) = true := by simpa using List.filter_eq_nil_iff.1 h _ carried
  exact List.ne_nil_of_mem (List.mem_filter.2 ⟨carried, operator⟩)

/-! ## The part of the write (R99 to R101) -/

/-- The part of a write in an admitted context is handled at once where no ADMIT or RELEASE write of the context is
outstanding (R97, R169). -/
theorem handlePart_operator {s : State} {init : Initiator} {addr idx off : Nat} {key : Key} {bytes : List WByte}
    (h : s.Steady) (hi : idx < s.capacity) (hh : s.heldIndex ≠ some idx) (hk : s.keyAt idx = some key) :
    let all := (carriedAt off bytes).filter fun b => isOperatorOffset b.1
    let guarded := (carriedAt off bytes).filter fun b => !isOperatorOffset b.1
    let t := s.taking init addr bytes
    handlePart s.run s.takes ⟨.context idx, 0, bytes.length, off⟩ bytes t
      = some ⟨if all.isEmpty then t else operatorWrite idx key s.takes all t, operatorBytes off bytes, guarded.length,
          if guarded.length = 0 then none else some key⟩ := by
  intro all guarded t
  have ahead : t.behind s.takes (.context idx) = false := taking_behind h init addr bytes _
  have room : ¬ t.capacity ≤ idx := Nat.not_le.2 hi
  have free : ¬ t.heldIndex = some idx := hh
  have admitted : t.keyAt idx = some key := hk
  simp only [handlePart, ahead, room, free, admitted, contextWrite, carried_whole, rewrite_operator,
    Bool.false_eq_true, if_false]
  rfl

/-- A write on an entry that serves its context is taken on it. -/
theorem operatorWrite_serving {s : State} {idx e : Nat} (hf : s.findEntry idx = some e)
    (hv : (s.entry e).serves = true) (key : Key) (txn : Nat) (bs : List (Nat × Byte)) :
    operatorWrite idx key txn bs s = takeOperatorWrite e bs s := by
  have notFetching : (s.entry e).cond ≠ .fetching := fun hc => by simp [Entry.serves, hc] at hv
  simp only [operatorWrite, hf, notFetching, if_false]

/-- A write on an entry that is FETCHING joins its merge list (R101). -/
theorem operatorWrite_fetching {s : State} {idx e : Nat} (hf : s.findEntry idx = some e)
    (hc : (s.entry e).cond = .fetching) (key : Key) (txn : Nat) (bs : List (Nat × Byte)) :
    operatorWrite idx key txn bs s
      = s.setEntry e { s.entry e with merge := (s.entry e).merge ++ [⟨txn, bs⟩] } := by
  simp only [operatorWrite, hf, hc, if_true]

/-- A key an index is held under makes the context present (R3). -/
theorem present_of_keyAt {s : State} {idx : Nat} {key : Key} (h : s.keyAt idx = some key) : s.present idx key = true := by
  obtain ⟨p, hp, rfl⟩ := Option.map_eq_some_iff.1 h
  have index : p.2 = idx := by simpa using List.find?_some hp
  exact List.any_eq_true.2 ⟨p, List.mem_of_find?_eq_some hp, by simp [index]⟩

/-- A write of a context that is not cached has it fetched, and joins the merge list of its entry (R101). -/
theorem operatorWrite_uncached {s : State} {idx e : Nat} {key : Key} (hk : s.keyAt idx = some key)
    (hf : s.findEntry idx = none) (hl : ∀ r ∈ s.reqs, r.wait ≠ .list) (hn : s.noneWaits idx) (he : s.freeEntry = some e)
    (txn : Nat) (bs : List (Nat × Byte)) : operatorWrite idx key txn bs s
      = (s.setEntry e { cond := .fetching, index := idx, key := key, merge := [⟨txn, bs⟩] }).submit .cache
          ⟨.fetch idx, s.contextAddr idx, .read 256⟩ (some s.takes) := by
  have merges : mergesOf idx (s.reqs ++ [⟨.write txn idx bs, idx, key, .list⟩]) = [⟨txn, bs⟩] := by
    have others : mergesOf idx s.reqs = [] := mergesOf_none hn
    rw [mergesOf] at others ⊢
    rw [List.filterMap_append, others]
    simp [Wait.given]
  have reqs := reqs_fetching hn
  simp only [operatorWrite, hf]
  rw [request_places (present_of_keyAt hk) hf hl hn he,
    startFetch_invalid (s := addReq (.write txn idx bs) idx key .list s) (freeEntry_invalid he)]
  simp only [addReq, merges, List.filter_append, List.map_append, reqs]
  simp [Requester.isWrite, Wait.given]
  rfl

/-- A write that reaches a part at rest and whose parts are all handled, some bytes of it dropped, is told of, and goes
out with the others (R99, R160). -/
theorem write_taken_dropping {s s1 : State} {init : Initiator} {addr dropped : Nat} {bytes out : List WByte}
    {k : Option Key} (h : s.Steady) (hl : s.txns.length < Config.openLimit)
    (hp : handleParts s.run s.takes (s.partsOf addr bytes.length) ⟨s.partsOf addr bytes.length, bytes, 0, none⟩
        (s.taking init addr bytes) = (⟨[], out, dropped, k⟩, s1))
    (hd : 0 < dropped) (ho : out.all Option.isNone = false) (ht : s1.txns = (s.taking init addr bytes).txns)
    (hq : ({ s1 with txns := s.txns } : State).Quiet) :
    let n : Notice := ⟨.guardedWrite, 0, k.getD {}, s1.now, dropped⟩
    ∃ m, cacheEvent s (arrive (.write init addr bytes)) = .next { notify n s1 with
          txns := s.txns ++ [⟨s.takes, init, addr, s.run, .write [] out dropped k, true, none, false⟩], mem := m }
      ∧ (notify n s1).mem.gains m [⟨.passing s.takes, addr, .write out⟩] := by
  intro n
  have ids : ∀ x ∈ s.txns, x.id ≠ s.takes := fun x hx => Nat.ne_of_lt (h.numbered x hx)
  let opened : Txn := ⟨s.takes, init, addr, s.run, .write (s.partsOf addr bytes.length) bytes 0 none, false, none, false⟩
  let gone : Txn := ⟨s.takes, init, addr, s.run, .write [] out dropped k, true, none, false⟩
  have told : (notify n s1).txns = s.txns ++ [opened] := (notify_txns n s1).trans ht
  have finished : finishWrite s.takes init addr ⟨[], out, dropped, k⟩ s1
      = ({ notify n s1 with txns := s.txns ++ [gone] } : State).pass s.takes init addr (.write out) := by
    have passed := modifyTxn_last (t := opened) told ids fun t =>
      { t with body := .write [] out dropped k, handled := true }
    simp only [finishWrite, hd, ho, Bool.false_eq_true, and_false, if_true, if_false]
    exact congrArg (fun x : State => x.pass s.takes init addr (.write out)) passed
  have effect : advance (takeTxn (.write init addr bytes) s)
      = grantAll (({ notify n s1 with txns := s.txns ++ [gone] } : State).pass s.takes init addr (.write out)) := by
    refine (advance_last (s := s.taking init addr bytes) (ts := s.txns) (t := opened) rfl h.handled rfl ids).trans ?_
    simp only [handleTxn, opened, hp, finished]
  obtain ⟨m0, hm0, hg0⟩ := grantAll_eq
    (({ notify n s1 with txns := s.txns ++ [gone] } : State).pass s.takes init addr (.write out))
  have unanswered : ∀ t ∈ s.txns ++ [gone], t.result = none ∧ t.responded = false := by
    intro t hx
    rcases List.mem_append.1 hx with hx | hx
    · exact h.unanswered t hx
    · rw [List.mem_singleton.1 hx]
      exact ⟨rfl, rfl⟩
  have quiet : ({ ({ notify n s1 with txns := s.txns ++ [gone] } : State).pass s.takes init addr (.write out) with
      mem := m0 } : State).Quiet := by
    obtain ⟨w, m1, same⟩ := notify_with n s1
    refine ⟨?_, ?_, ?_, unanswered⟩
    · exact (congrArg State.atPort same).trans hq.port
    · exact fun r hr => hq.requests r ((congrArg State.reqs same) ▸ hr)
    · obtain ⟨e, he, hf⟩ := hq.sound
      exact ⟨e, he, (congrArg (fun x => (State.entry x e).faulted) same).trans hf⟩
  obtain ⟨m, hm, hg⟩ := event_next h.running fun x => drainPort (settle (arrive (.write init addr bytes) x))
  rw [arrive_taken h hl, effect, hm0, settle, pump_quiet quiet, flush_quiet quiet.unanswered] at hm hg
  exact ⟨m, hm, by simpa using MemPort.gains_trans (MemPort.gains_trans (pass_gains _ _ _ _ _) hg0) hg⟩

/-- Out of reset a passing write reaches the system port (R159). -/
theorem exec_passingWrite {s : State} (hr : s.inReset = false) {init : Initiator} {addr : Nat} {bytes : List WByte}
    (hp : isPortRun addr bytes.length = true) :
    exec (.passingWrite init addr bytes) s = cacheEvent s (arrive (.write init addr bytes)) := by
  change execPassingWrite init addr bytes s = _
  simp [execPassingWrite, hp, arrival, hr]

/-- Settles O9: the passage of the write for each condition of the context's entry, the effect on the entry that takes
it, and the effect on the context. -/
theorem operatorWriteTaken : Obligations.OperatorWriteTaken := by
  refine ⟨?_, fun s e bs he => ?_, operatorWrite_eq⟩
  · intro s init addr idx off key bytes hs hl hrun hsome howner hcap hheld hkey all guarded takes
    have reaches := exec_passingWrite hs.running (init := init) hrun
    have length : 0 < bytes.length := by
      obtain ⟨b, hb, -⟩ := List.any_eq_true.1 hsome
      exact List.length_pos_of_mem hb
    have part := partsOf_run length howner
    have handled := handlePart_operator (init := init) (addr := addr) (off := off) (bytes := bytes) hs hcap hheld hkey
    have outcome (hne : all ≠ []) : handlePart s.run s.takes ⟨.context idx, 0, bytes.length, off⟩ bytes
        (s.taking init addr bytes) = some ⟨operatorWrite idx key s.takes all (s.taking init addr bytes),
          operatorBytes off bytes, guarded.length, if guarded.length = 0 then none else some key⟩ :=
      handled.trans (by rw [if_neg (mt List.isEmpty_iff.1 hne)])
    refine ⟨fun hg => ?_, fun hg hne e hf hv hr => ?_⟩
    · have hne : all ≠ [] := operator_carried hsome hg
      have length : guarded.length = 0 := by rw [hg]; rfl
      have whole : operatorBytes off bytes = bytes := operatorBytes_whole hg
      have passes (t : State) (ht : operatorWrite idx key s.takes all (s.taking init addr bytes) = t)
          (hx : t.txns = (s.taking init addr bytes).txns) (hq : ({ t with txns := s.txns } : State).Quiet) :
          ∃ m, exec (.passingWrite init addr bytes) s
              = .next { t with txns := s.txns ++ [s.openedWrite init addr bytes], mem := m }
            ∧ t.mem.gains m [s.passingAccess addr bytes] := by
        have result := outcome hne
        rw [ht, whole, length] at result
        rw [reaches]
        exact write_taken_part hs hl part result rfl rfl hx hq
      refine ⟨fun e hf hv hr => ?_, fun e hf hc => ?_, fun e hf hn he => ?_⟩
      · obtain ⟨he, -, -⟩ := findEntry_some hf
        obtain ⟨m, eq, hm, hq, -⟩ := operatorTaken_apart hs.quiet he hv hr all [] (s.takes + 1)
          (s.taking init addr bytes).txns
        obtain ⟨m', hx, hm'⟩ := passes _ ((operatorWrite_serving (s := s.taking init addr bytes) hf hv _ _ _).trans eq)
          rfl ⟨hq.port, hq.requests, hq.sound, hs.unanswered⟩
        exact ⟨m', hx, MemPort.gains_trans hm hm'⟩
      · obtain ⟨m, hx, hm⟩ := passes _ (operatorWrite_fetching (s := s.taking init addr bytes) hf hc _ _ _) rfl
          (hs.quiet.of rfl hs.requests (sound_entriesWith hs.sound rfl fun h => h) rfl)
        exact ⟨m, hx, hm⟩
      · obtain ⟨m, hx, hm⟩ := passes _
          (operatorWrite_uncached (s := s.taking init addr bytes) hkey hf hs.requests hn he _ _) rfl
          (hs.quiet.of rfl hs.requests (sound_entriesWith hs.sound rfl fun h => absurd h Bool.false_ne_true) rfl)
        refine ⟨m, hx, ?_⟩
        have both := MemPort.gains_trans (submit_gains ((s.taking init addr bytes).setEntry e _) .cache _ _) hm
        exact both.trans (List.Perm.append_left _ (List.Perm.swap _ _ _))
    · intro out t
      obtain ⟨he, -, -⟩ := findEntry_some hf
      have dropped : 0 < guarded.length := List.length_pos_of_ne_nil hg
      have serving := operatorWrite_serving (s := s.taking init addr bytes) hf hv key s.takes all
      have result := outcome hne
      rw [serving, if_neg (Nat.pos_iff_ne_zero.1 dropped)] at result
      obtain ⟨m0, eq0, -, quiet0, now0⟩ := operatorTaken_apart hs.quiet he hv hr all [] (s.takes + 1)
        (s.taking init addr bytes).txns
      obtain ⟨m1, eq1, told, -, -⟩ := operatorTaken_apart hs.quiet he hv hr all
        [⟨.guardedWrite, 0, key, s.now, guarded.length⟩] (s.takes + 1) (s.taking init addr bytes).txns
      change takeOperatorWrite e all (s.taking init addr bytes) = _ at eq0
      change notify _ (takeOperatorWrite e all (s.taking init addr bytes)) = _ at eq1
      have quiet : (takeOperatorWrite e all (s.taking init addr bytes)).Quiet := by
        rw [eq0]
        refine ⟨quiet0.port, quiet0.requests, quiet0.sound, fun x hx => ?_⟩
        rcases List.mem_append.1 hx with hx | hx
        · exact hs.unanswered x hx
        · rw [List.mem_singleton.1 hx]
          exact ⟨rfl, rfl⟩
      have now : (takeOperatorWrite e all (s.taking init addr bytes)).now = s.now := by
        rw [eq0]
        exact now0
      have parts : handleParts s.run s.takes (s.partsOf addr bytes.length)
          ⟨s.partsOf addr bytes.length, bytes, 0, none⟩ (s.taking init addr bytes)
          = (⟨[], out, guarded.length, some key⟩, takeOperatorWrite e all (s.taking init addr bytes)) := by
        rw [part]
        simp [handleParts, result, pump_quiet quiet, out, operatorBytes]
      obtain ⟨m, hx, hm⟩ := write_taken_dropping hs hl parts dropped (operatorBytes_some hne)
        (by rw [eq0]) ⟨quiet.port, quiet.requests, quiet.sound, hs.unanswered⟩
      simp only [now, Option.getD_some] at hx hm
      rw [eq1] at hx hm
      exact ⟨m, reaches.trans hx, MemPort.gains_trans told hm⟩
  · intro x c c' discarded changed taken said
    have notices (t : State) : notifyAll (operatorNotices c bs s.now) t = said t :=
      congrArg (fun ns => notifyAll ns t) (operatorNotices_eq c bs s.now)
    refine ⟨fun hc => ?_, fun hc => ⟨fun hr => ?_, fun hr hw => ?_⟩⟩
    · exact (takeOperatorWrite_valid he hc bs).trans (notices _)
    · exact (takeOperatorWrite_retiring he hc hr bs).trans (notices _)
    · exact (takeOperatorWrite_ended he hc hr hw bs).trans (notices _)

end Sys2Proof.Machine
end

section
/-!
PROOFS. What surrounds the end of a fetch: the reads that wait for it, notices said among other states, and what a
loaded entry keeps while merged writes are taken on it.
-/

namespace Sys2Proof.Machine

/-! ## Reads that wait on the entry of a context (R98) -/

/-- The parts of one transaction that wait on the entry of a context. -/
def Txn.waitsOn (idx : Nat) (t : Txn) : List (Nat × Nat × Key × Bool) :=
  if t.hasData ∧ t.result.isNone then
    t.readParts.zipIdx.filterMap fun p =>
      match p.1.owner with
      | .context i key held => if i = idx ∧ p.1.done = false then some (t.id, p.2, key, held) else none
      | _ => none
  else []

/-- The waiting parts are those of each transaction in turn. -/
theorem waitingReads_eq (s : State) (idx : Nat) : s.waitingReads idx = s.txns.flatMap (Txn.waitsOn idx) := rfl

/-- Transactions that wait alike, wait alike in all. -/
theorem waitingReads_map {s t : State} {idx : Nat} {f : Txn → Txn} (ht : t.txns = s.txns.map f)
    (h : ∀ x ∈ s.txns, (f x).waitsOn idx = x.waitsOn idx) : t.waitingReads idx = s.waitingReads idx := by
  rw [waitingReads_eq, waitingReads_eq, ht, List.flatMap_map]
  exact List.flatMap_congr h

/-- What a part of a read that waits on the entry of a context is listed as. -/
def ReadPart.waitsAs (idx id : Nat) (p : ReadPart × Nat) : Option (Nat × Nat × Key × Bool) :=
  match p.1.owner with
  | .context i key held => if i = idx ∧ p.1.done = false then some (id, p.2, key, held) else none
  | _ => none

/-- The waiting parts of a read whose data is back. -/
theorem waitsOn_read {idx id addr len : Nat} {init : Initiator} {run : RunState} {parts : List ReadPart}
    {data : Option (List Byte)} {handled responded : Bool} {result : Option Response}
    (h : data.isSome = true ∧ result.isNone = true) :
    Txn.waitsOn idx ⟨id, init, addr, run, .read len parts data, handled, result, responded⟩
      = parts.zipIdx.filterMap (ReadPart.waitsAs idx id) := if_pos h

/-- A read that is answered, or whose data is not back, waits on no entry. -/
theorem waitsOn_none {idx : Nat} {t : Txn} (h : ¬ (t.hasData = true ∧ t.result.isNone = true)) :
    t.waitsOn idx = [] := if_neg h

/-- A waiting part waits without a hold once the holds of its context are dropped. -/
theorem waitsOn_dropHolds (idx : Nat) (t : Txn) :
    (t.dropHolds idx).waitsOn idx = (t.waitsOn idx).map fun w => (w.1, w.2.1, w.2.2.1, false) := by
  obtain ⟨id, init, addr, run, body, handled, result, responded⟩ := t
  cases body with
  | write todo bytes dropped key => simp [Txn.waitsOn, Txn.dropHolds, Txn.hasData]
  | read len parts data =>
    by_cases hw : data.isSome = true ∧ result.isNone = true
    · change Txn.waitsOn idx ⟨id, init, addr, run, .read len (parts.map _) data, handled, result, responded⟩ = _
      rw [waitsOn_read hw, waitsOn_read hw, List.zipIdx_map, List.filterMap_map, List.map_filterMap]
      refine List.filterMap_congr fun p _ => ?_
      obtain ⟨⟨owner, start, len, off, done⟩, k⟩ := p
      cases owner with
      | context i key held => by_cases hi : i = idx <;> by_cases hd : done = false <;> simp [ReadPart.waitsAs, hi, hd]
      | _ => rfl
    · let t : Txn := ⟨id, init, addr, run, .read len parts data, handled, result, responded⟩
      rw [waitsOn_none (t := t) hw, waitsOn_none (t := t.dropHolds idx) hw]
      rfl

/-- The waiting parts of a part whose reads hold a context no more. -/
theorem waitingReads_dropHolds {s t : State} {idx : Nat} (ht : t.txns = s.txns.map (Txn.dropHolds idx)) :
    t.waitingReads idx = (s.waitingReads idx).map fun w => (w.1, w.2.1, w.2.2.1, false) := by
  rw [waitingReads_eq, waitingReads_eq, ht, List.flatMap_map, List.map_flatMap]
  exact List.flatMap_congr fun x _ => waitsOn_dropHolds idx x

/-- A read that waits for its hold has no data, and waits on no entry before or after it is placed. -/
theorem waitsOn_hold {idx : Nat} {key : Key} {t : Txn} (h : t.wantsHold idx key = true) :
    (t.hold idx key).waitsOn idx = t.waitsOn idx := by
  obtain ⟨id, init, addr, run, body, handled, result, responded⟩ := t
  cases body with
  | write todo bytes dropped k => rfl
  | read len parts data =>
    simp only [Txn.wantsHold, Txn.hasData, Bool.and_eq_true, Bool.not_eq_true'] at h
    simp [Txn.waitsOn, Txn.hold, Txn.hasData, h.1.1]

/-- A hold placed leaves what the return of a read looks at. -/
theorem hold_unanswered {idx : Nat} {key : Key} {t : Txn} (h : t.result = none ∧ t.responded = false) :
    (t.hold idx key).result = none ∧ (t.hold idx key).responded = false := by
  unfold Txn.hold
  split <;> exact h

/-! ## Notices among other states (R181) -/

/-- A notice leaves the requests, the engine, the slots, the promotions and the lapse list out of account. -/
theorem notify_apart (n : Notice) (s : State) (reqs : List Req) (engine : Engine) (slots : Vector Slot 64)
    (promotions : List Promotion) (lapses : List Lapse) :
    notify n { s with reqs := reqs, engine := engine, slots := slots, promotions := promotions, lapses := lapses }
      = { notify n s with
          reqs := reqs, engine := engine, slots := slots, promotions := promotions, lapses := lapses } := by
  unfold notify
  split <;> rfl

/-- Another set of open transactions changes the order at the memory port alone. -/
theorem notify_txns_apart (n : Notice) (s : State) (ts : List Txn) (rs : List Returned) :
    ∃ m, { notify n s with txns := ts, returned := rs } = { notify n { s with txns := ts, returned := rs } with mem := m }
      ∧ (notify n { s with txns := ts, returned := rs }).mem.gains m [] := by
  rcases notify_cases n s with ⟨h, eq⟩ | ⟨h, eq⟩ <;>
    rcases notify_cases n { s with txns := ts, returned := rs } with ⟨h', eq'⟩ | ⟨h', eq'⟩
  · refine ⟨_, by rw [eq, eq']; rfl, ?_⟩
    rw [eq']
    exact MemPort.gains_apart (submit_gains _ _ _ _) (submit_gains _ _ _ _)
  · exact absurd h h'
  · exact absurd h' h
  · refine ⟨_, by rw [eq, eq'], ?_⟩
    rw [eq']
    exact MemPort.gains_refl _

/-- What a notice makes of NW and the port, it makes of them among other requests, engines, slots, promotions and lapse
lists. -/
theorem notify_beside {n : Notice} {s : State} {w : Nw} {m : MemPort} (h : notify n s = { s with nw := w, mem := m })
    (reqs : List Req) (engine : Engine) (slots : Vector Slot 64) (promotions : List Promotion) (lapses : List Lapse) :
    notify n { s with reqs := reqs, engine := engine, slots := slots, promotions := promotions, lapses := lapses }
      = { s with nw := w, mem := m, reqs := reqs, engine := engine, slots := slots, promotions := promotions, lapses := lapses } := by
  rw [notify_apart, h]

/-! ## One read among the open transactions (R160) -/

/-- An open transaction of its own number is the one found. -/
theorem txn_mid {s : State} {pre post : List Txn} {t : Txn} (h : s.txns = pre ++ t :: post)
    (hi : ∀ x ∈ pre ++ post, x.id ≠ t.id) : s.txn t.id = some t := by
  have none : pre.find? (fun x => x.id == t.id) = none :=
    List.find?_eq_none.2 fun x hx => by simpa using hi x (List.mem_append_left post hx)
  simp [State.txn, h, List.find?_append, none]

/-- The one part of a read is its part 0. -/
theorem readPart_single {s : State} {pre post : List Txn} {t : Txn} {p : ReadPart} {len : Nat}
    {data : Option (List Byte)} (h : s.txns = pre ++ t :: post) (hi : ∀ x ∈ pre ++ post, x.id ≠ t.id)
    (hb : t.body = .read len [p] data) : s.readPart t.id 0 = some p := by
  simp [State.readPart, txn_mid h hi, Txn.readParts, hb]

/-- The one part of a read whose data is back is completed, and the read with it (R160). -/
theorem completePart_single {s : State} {pre post : List Txn} {t : Txn} {owner : ReadOwner} {off len : Nat}
    {got : List Byte} (h : s.txns = pre ++ t :: post) (hi : ∀ x ∈ pre ++ post, x.id ≠ t.id)
    (hb : t.body = .read len [⟨owner, 0, got.length, off, false⟩] (some got)) (f : Nat → Byte → Byte) :
    s.completePart t.id 0 f = { s with txns := pre ++
      { t with
        body := .read len [⟨owner, 0, got.length, off, true⟩] (some (patchedFrom off f got))
        result := some (.normal (patchedFrom off f got)) } :: post } := by
  have part := readPart_single h hi hb
  have patched : patchBytes 0 got.length off f got = patchedFrom off f got := by
    refine List.map_congr_left fun b hm => ?_
    have lt : b.2 < 0 + got.length := by simpa using (List.mem_zipIdx hm).2.1
    rw [if_pos ⟨Nat.zero_le _, lt⟩, Nat.sub_zero]
  simp only [State.completePart, part]
  rw [modifyTxn_mid h hi]
  simp [Txn.mapData, Txn.mapPart, hb, patched]

/-! ## A fetch that fails (R94) -/

/-- The end of a fetch in an error, on the entry it was issued for. -/
theorem fetchFailed_eq {y : State} {idx e : Nat} (hf : y.findEntry idx = some e) (hc : (y.entry e).cond = .fetching) :
    fetchFailed idx y = failWaiting idx (startLapse ((y.fetchWaiters idx).foldl (fun acc w => abandon w acc)
      (notify ⟨.memoryFault, 1, (y.entry e).key, y.now, idx⟩ (y.withoutEntry e idx)))) := by
  obtain ⟨-, hi, hv⟩ := findEntry_some hf
  have gone : invalidate e y = y.withoutEntry e idx := (invalidate_eq hv).trans (by rw [hi])
  simp only [fetchFailed, hf, hc, if_true, gone]
  rfl

/-- FETCH_DATA_ARRIVAL with an error. -/
theorem fetch_fails {s : State} {idx : Nat} {a : Access} {rest : List Access} (h : s.oldest (isFetch idx) a rest) :
    ∃ f, exec (.fetchDataArrival idx none) s = cacheEvent s f ∧ f s = fetchFailed idx (s.ended rest) :=
  ⟨fun x => x.ending (isFetch idx) fun _ y => fetchFailed idx y, rfl, ending_ended h _⟩

/-- FETCH_DATA_ARRIVAL with the data of a context. -/
theorem fetch_arrives {s : State} {idx : Nat} {a : Access} {rest : List Access} {data : List Byte}
    (h : s.oldest (isFetch idx) a rest) (hd : data.length = 256) :
    ∃ f, exec (.fetchDataArrival idx (some data)) s = cacheEvent s f ∧ f s = fetchArrived idx data (s.ended rest) := by
  refine ⟨fun x => x.ending (isFetch idx) fun _ y => fetchArrived idx data y, ?_, ending_ended h _⟩
  change execFetchDataArrival idx (some data) s = _
  exact if_pos (by simpa [isAnswer] using hd)

/-- With no read waiting, none is returned with an error. -/
theorem failWaiting_none {s : State} {idx : Nat} (h : s.waitingReads idx = []) : failWaiting idx s = s := by
  rw [failWaiting, h]
  rfl

/-- With no read waiting, none is patched. -/
theorem patchWaiting_none {s : State} {idx : Nat} (h : s.waitingReads idx = []) : patchWaiting idx s = s := by
  rw [patchWaiting, h]
  rfl

/-! ## What each requester abandons (R94) -/

/-- A CAPTURE job ends without a context (R72). -/
theorem abandonEngine_capture {s : State} {j : Job} {m : Option LossCause} (h : s.engine = .obtaining j m)
    (hj : j.isCapture = true) :
    abandonEngine s = { s with reqs := s.reqsWithout .engine, engine := .idle } := by
  simp only [abandonEngine, h, hj, if_true]
  rfl

/-- A TRIAL is answered MEMORY (R81). -/
theorem abandonEngine_trial {s : State} {j : Job} {m : Option LossCause} (h : s.engine = .obtaining j m)
    (hj : j.isCapture = false) :
    abandonEngine s = answer .memory { s with reqs := s.reqsWithout .engine, engine := .idle } := by
  simp only [abandonEngine, h, hj, Bool.false_eq_true, if_false]
  rfl

/-- A slot with no header write held back is as it was when they are released (R129). -/
theorem releaseHeld_none {s : State} {n : Nat} (h : (s.slot n).heldWrites = []) : releaseHeld n s = s := by
  have same : s.setSlot n { s.slot n with heldWrites := [] } = s := by
    have slots : s.slots.setIfInBounds n (s.slot n) = s.slots := by
      apply Vector.ext
      intro i hi
      by_cases hn : n = i
      · subst hn
        simp [State.slot, Vector.getD, hi]
      · simp [hn]
    conv => lhs; rw [← h]
    exact congrArg (fun v => ({ s with slots := v } : State)) slots
  unfold releaseHeld
  split
  · rfl
  · rw [h, List.foldl_nil, same]

/-- With no promotion on the list none is begun. -/
theorem startPromotion_empty {s : State} (h : s.promotions = []) : startPromotion s = s := by
  unfold startPromotion
  rw [h]
  split <;> rfl

/-- The only promotion is abandoned (R141). -/
theorem abandonPromotion_only {s : State} {p : Promotion} (h : s.promotions = [p])
    (hw : (s.slot p.slot).heldWrites = []) : abandonPromotion s
      = notify ⟨.deliveryStale, 4, p.key, s.now, p.corr.id % 65536 + 65536 * p.slot⟩
          { s with reqs := s.reqsWithout .promotion, promotions := [] } := by
  have told : abandonPromotion s = nextPromotion p.slot
      (notify ⟨.deliveryStale, 4, p.key, s.now, p.corr.id % 65536 + 65536 * p.slot⟩
        { s with reqs := s.reqsWithout .promotion, promotions := [] }) := by
    simp only [abandonPromotion, h]
    rfl
  obtain ⟨w, m, hv⟩ := notify_with ⟨.deliveryStale, 4, p.key, s.now, p.corr.id % 65536 + 65536 * p.slot⟩
    { s with reqs := s.reqsWithout .promotion, promotions := [] }
  rw [told, hv, nextPromotion, releaseHeld_none (by exact hw), startPromotion_empty rfl]

/-- The last visit of a REVIVE is answered MEMORY (R23). -/
theorem abandonRevive_last {s : State} {k : Key} {i : Nat} {failed : Bool}
    (h : s.cmu.phase = .reviving k i [] failed) :
    abandonRevive s = answer .memory { s with reqs := s.reqsWithout .revive } := by
  simp only [abandonRevive, h]
  rfl

/-- READ_CONTEXTS ends with what it has copied (R105). -/
theorem abandonCopy_eq {s : State} {k : Key} {i : Nat} {w : CopyWork} (h : s.cmu.phase = .copying k i w) :
    let result := s.controlBase + 0x2000 + 32 * s.cmu.consumer
    abandonCopy s = (({ s with
        reqs := s.reqsWithout .copy, cmu := s.cmuIn (.resultWrite 2 .memory) } : State).submit .command
      (ownWrite .resultField (result + 20) (le 2 (w.count - w.made)))).submit .command
        (ownWrite .resultField (result + 24) w.last.toBytes) := by
  simp only [abandonCopy, h]
  rfl

/-- The link whose lapse waited goes to the tail of the lapse list (R115). -/
theorem abandonLapse_head {s : State} {r : Req} {l : Lapse} {more : List Lapse} (h : s.reqOf .lapse = some r)
    (hl : s.lapses = l :: more) (hi : l.index = r.index) (hk : l.key = r.key) :
    abandonLapse s = { s with reqs := s.reqsWithout .lapse, lapses := more ++ [l] } := by
  simp only [abandonLapse, h, State.lapseStands, hl, hi, hk, and_self, if_true]
  simp [dropReq, hl]
  rfl

/-- A slot with a copy that has no source is delivered (R136). -/
theorem deliver_noChange {s : State} {n : Nat} {x : Slot} (h : s.slot n = x) (hc : x.copy = some .noChange) :
    deliver n s = s.setSlot n { x with state := .delivered } := by
  simp only [deliver, h, hc]

/-- The binding of a slot that one read waits on is made NOCHANGE, and the read is patched with it (R134, R136, R141). -/
theorem abandonSlot_read {s : State} {n off : Nat} {pre post : List Txn} {t : Txn} {got : List Byte} (hn : n < 64)
    (h : s.txns = pre ++ t :: post) (hi : ∀ x ∈ pre ++ post, x.id ≠ t.id)
    (hb : t.body = .read got.length [⟨.slot n, 0, got.length, off, false⟩] (some got))
    (hw : (s.slot n).waiting = [(t.id, 0)]) (hh : (s.slot n).heldWrites = []) :
    let out := patchedFrom off (fun o b => if 8 ≤ o then 0 else b) got
    abandonSlot n s = { s with
      reqs := s.reqsWithout (.slot n)
      slots := s.slotsWith n { s.slot n with
        state := if 60 < off + got.length then .delivered else .bound
        copy := some .noChange
        binding := false
        waiting := [] }
      txns := pre ++ { t with
        body := .read got.length [⟨.slot n, 0, got.length, off, true⟩] (some out), result := some (.normal out) } :: post } := by
  intro out
  let bound : Slot := { s.slot n with state := .bound, copy := some .noChange, binding := false }
  let y : State := { s with reqs := s.reqsWithout (.slot n) }
  let z : State := y.setSlot n { bound with waiting := [] }
  have begun : (y.setSlot n bound).slot n = bound := slot_setSlot_self y n bound hn
  have here : z.slot n = { bound with waiting := [] } := slot_setSlot_self y n _ hn
  have twice (a b : Slot) : (y.setSlot n a).setSlot n b = y.setSlot n b := by simp [State.setSlot]
  have answered : abandonSlot n s = releaseHeld n (patchSlot n t.id 0 z) := by
    change answerWaiting n (y.setSlot n bound) = _
    have waits : bound.waiting = [(t.id, 0)] := hw
    simp only [answerWaiting, begun, waits, List.foldl_cons, List.foldl_nil, twice]
    rfl
  have completed := completePart_single (s := z) h hi hb fun o b => if 8 ≤ o then 0 else b
  have bytes : (fun (o : Nat) (b : Byte) => if 8 ≤ o then BoundCopy.noChange.toBytes.getD o 0 else b)
      = fun o b => if 8 ≤ o then 0 else b := by
    funext o b
    have zero : BoundCopy.noChange.toBytes.getD o 0 = 0 := by
      simp only [BoundCopy.toBytes, zeros, List.getD_eq_getElem?_getD, List.getElem?_replicate]
      split <;> rfl
    rw [zero]
  have patched : patchSlot n t.id 0 z = { z with
      slots := s.slotsWith n { bound with
        state := if 60 < off + got.length then .delivered else .bound, waiting := [] }
      txns := pre ++ { t with
        body := .read got.length [⟨.slot n, 0, got.length, off, true⟩] (some out), result := some (.normal out) } :: post } := by
    have part := readPart_single (s := z) h hi hb
    simp only [patchSlot, part, here, ReadPart.coversLast, bound, bytes, completed]
    by_cases hl : 60 < off + got.length
    · rw [if_pos ⟨by simpa using hl, trivial⟩, deliver_noChange (by exact here) rfl]
      simp only [if_pos hl]
      simp [z, y, bound, out, State.setSlot, State.slotsWith]
    · rw [if_neg (by simpa using hl)]
      simp only [if_neg hl]
      rfl
  rw [answered, patched, releaseHeld_none]
  · rfl
  · exact (congrArg Slot.heldWrites (slot_setSlot_self y n _ hn)).trans hh

end Sys2Proof.Machine
end

section
/-!
PROOFS. The end of a fetch: the entry loaded, or the fetch failed, and each requester that waited for it.
-/

namespace Sys2Proof.Machine

/-! ## A fetch that fails (R94) -/

/-- The state in which a fetch has failed and its requesters have still to be told. -/
def State.fetchFault (s : State) (rest : List Access) (idx e : Nat) : State :=
  notify ⟨.memoryFault, 1, (s.entry e).key, s.now, idx⟩ ((s.ended rest).withoutEntry e idx)

section
variable {s : State} {idx e : Nat} {a : Access} {rest : List Access}

/-- With the entry gone a part at rest is at rest. -/
theorem fetchGone_quiet (hs : s.Steady) : ((s.ended rest).withoutEntry e idx).Quiet :=
  (hs.quiet.ended rest).gone rfl hs.requests rfl rfl

/-- A fetch fails, and what its requesters abandon leaves nothing to go on. -/
theorem fetch_fails_next (hs : s.Steady) (ha : s.oldest (isFetch idx) a rest) (hf : s.findEntry idx = some e)
    (hc : (s.entry e).cond = .fetching) {u t : State} {as : List Access}
    (hu : startLapse ((s.fetchWaiters idx).foldl (fun acc w => abandon w acc) (s.fetchFault rest idx e)) = u)
    (hx : u.waitingReads idx = []) (hq : u.Quiet) (ht : { u with mem := t.mem } = t) (hg : t.mem.gains u.mem as) :
    NextIs (exec (.fetchDataArrival idx none) s) t as := by
  obtain ⟨f, event, effect⟩ := fetch_fails ha
  have failed := fetchFailed_eq (y := s.ended rest) hf hc
  rw [event]
  refine cacheEvent_nextIs hs.running f (effect.trans (failed.trans ?_)) hq ht hg
  exact (congrArg (failWaiting idx) hu).trans (failWaiting_none hx)

/-- One requester abandons its operation, and no lapse is asked for behind it. -/
theorem fetch_fails_one {who : Requester} {u : State} (hn : s.fetchWaiters idx = [who])
    (hu : abandon who (s.fetchFault rest idx e) = u) (hl : u.lapses = []) :
    startLapse ((s.fetchWaiters idx).foldl (fun acc w => abandon w acc) (s.fetchFault rest idx e)) = u := by
  rw [hn]
  exact (congrArg startLapse hu).trans (startLapse_empty hl)

/-- No read waits once the entry is gone where none did. -/
theorem fetchGone_waiting (h : s.waitingReads idx = []) {u : State}
    (hu : u.txns = s.txns.map (Txn.dropHolds idx)) : u.waitingReads idx = [] := by
  rw [waitingReads_dropHolds hu, h]
  rfl

end

/-- FETCH_DATA_ARRIVAL with an error, but for a lapse that waits and a read that does. -/
theorem fetchEnds_failed {s : State} {idx e : Nat} {a : Access} {rest : List Access} (hs : s.Steady)
    (ha : s.oldest (isFetch idx) a rest) (hf : s.findEntry idx = some e) (hc : (s.entry e).cond = .fetching)
    (hw : s.waitingReads idx = []) (hl : s.lapses = []) :
    let y := s.ended rest
    let fault : Notice := ⟨.memoryFault, 1, (s.entry e).key, s.now, idx⟩
    let failed := exec (.fetchDataArrival idx none) s
    let gone := fun (who : Requester) => { y.withoutEntry e idx with reqs := s.reqsWithout who }
    (s.fetchWaiters idx = [] → NextIs failed (notify fault (y.withoutEntry e idx)) [])
    ∧ (∀ j mark, s.fetchWaiters idx = [.engine] → s.engine = .obtaining j mark → j.isCapture = true →
      NextIs failed (notify fault { y.withoutEntry e idx with engine := .idle, reqs := s.reqsWithout .engine }) [])
    ∧ (∀ j mark, s.fetchWaiters idx = [.engine] → s.engine = .obtaining j mark → j.isCapture = false →
      Answers failed (notify fault { gone .engine with engine := .idle }) .memory)
    ∧ (∀ p, s.fetchWaiters idx = [.promotion] → s.promotions = [p] → (s.slot p.slot).heldWrites = [] →
      NextIs failed
        (notify ⟨.deliveryStale, 4, p.key, s.now, p.corr.id % 65536 + 65536 * p.slot⟩
          (notify fault { gone .promotion with promotions := [] })) [])
    ∧ (∀ k i more, s.fetchWaiters idx = [.revive] → s.cmu.phase = .reviving k i [] more →
      Answers failed (notify fault (gone .revive)) .memory)
    ∧ (∀ k i w, s.fetchWaiters idx = [.copy] → s.cmu.phase = .copying k i w →
      let result := s.controlBase + 0x2000 + 32 * s.cmu.consumer
      NextIs failed
        { notify fault (gone .copy) with cmu := s.cmuIn (.resultWrite 2 .memory) }
        [ownWrite .resultField (result + 20) (le 2 (w.count - w.made)),
          ownWrite .resultField (result + 24) w.last.toBytes]) := by
  intro y fault failed gone
  obtain ⟨w, m, hv⟩ := notify_with fault (y.withoutEntry e idx)
  have fetchFault : s.fetchFault rest idx e = { y.withoutEntry e idx with nw := w, mem := m } := hv
  have quiet : (y.withoutEntry e idx).Quiet := fetchGone_quiet hs
  have beside (reqs engine slots promotions) := notify_beside hv reqs engine slots promotions s.lapses
  have others (who : Requester) := reqsWithout_wait hs.requests who
  have quietBeside (who : Requester) (u : State) (hp : u.atPort = s.atPort) (hr : u.reqs = s.reqsWithout who)
      (he : u.entries = s.entriesWith e {}) (ht : u.txns = s.txns.map (Txn.dropHolds idx)) : u.Quiet :=
    hs.quiet.gone hp (hr ▸ others who) he ht
  refine ⟨fun hn => ?_, fun j mark hn he hj => ?_, fun j mark hn he hj => ?_, fun p hn hp hh => ?_,
    fun k i more hn hp => ?_, fun k i w' hn hp => ?_⟩
  · refine fetch_fails_next hs ha hf hc ?_ (fetchGone_waiting hw ?_) (quiet.notify fault) rfl (MemPort.gains_refl _)
    · rw [hn]
      exact startLapse_empty ((congrArg State.lapses hv).trans hl)
    · exact congrArg State.txns hv
  · have target := beside (s.reqsWithout .engine) .idle s.slots s.promotions
    have told := fetch_fails_one hn ((congrArg abandonEngine fetchFault).trans (abandonEngine_capture (by exact he) hj)) hl
    refine (congrArg (NextIs failed · []) target).mpr ?_
    exact fetch_fails_next hs ha hf hc told (fetchGone_waiting hw rfl) (quietBeside .engine _ rfl rfl rfl rfl) rfl
      (MemPort.gains_refl _)
  · have target := beside (s.reqsWithout .engine) .idle s.slots s.promotions
    have told := fetch_fails_one hn ((congrArg abandonEngine fetchFault).trans (abandonEngine_trial (by exact he) hj)) hl
    refine (congrArg (Answers failed · .memory) target).mpr ?_
    exact fetch_fails_next hs ha hf hc told (fetchGone_waiting hw rfl) (quietBeside .engine _ rfl rfl rfl rfl) rfl
      (submit_gains _ .command _ none)
  · have target := beside (s.reqsWithout .promotion) s.engine s.slots []
    have abandoned := (congrArg abandonPromotion fetchFault).trans (abandonPromotion_only (by exact hp) (by exact hh))
    obtain ⟨w', m', told'⟩ := notify_with ⟨.deliveryStale, 4, p.key, s.now, p.corr.id % 65536 + 65536 * p.slot⟩
      { y.withoutEntry e idx with nw := w, mem := m, reqs := s.reqsWithout .promotion, promotions := [] }
    have told := fetch_fails_one hn (abandoned.trans told') hl
    refine (congrArg (fun t => NextIs failed (notify _ t) []) target).mpr ?_
    refine (congrArg (NextIs failed · []) told').mpr ?_
    exact fetch_fails_next hs ha hf hc told (fetchGone_waiting hw rfl) (quietBeside .promotion _ rfl rfl rfl rfl) rfl
      (MemPort.gains_refl _)
  · have target := beside (s.reqsWithout .revive) s.engine s.slots s.promotions
    have told := fetch_fails_one hn ((congrArg abandonRevive fetchFault).trans (abandonRevive_last (by exact hp))) hl
    refine (congrArg (Answers failed · .memory) target).mpr ?_
    exact fetch_fails_next hs ha hf hc told (fetchGone_waiting hw rfl) (quietBeside .revive _ rfl rfl rfl rfl) rfl
      (submit_gains _ .command _ none)
  · have target := beside (s.reqsWithout .copy) s.engine s.slots s.promotions
    have told := fetch_fails_one hn ((congrArg abandonCopy fetchFault).trans (abandonCopy_eq (by exact hp))) hl
    refine (congrArg (fun t => NextIs failed { t with cmu := s.cmuIn (.resultWrite 2 .memory) } _) target).mpr ?_
    exact fetch_fails_next hs ha hf hc told (fetchGone_waiting hw rfl) (quietBeside .copy _ rfl rfl rfl rfl) rfl
      (MemPort.gains_trans (submit_gains _ .command _ none) (submit_gains _ .command _ none))

/-! ## A lapse that waited (R115) -/

/-- With no request of the calendar the head of the lapse list is asked for. -/
theorem startLapse_asks {s : State} {l : Lapse} {more : List Lapse} (hr : s.reqOf .lapse = none)
    (hl : s.lapses = l :: more) : startLapse s = request .lapse l.index l.key s := by
  simp only [startLapse, hr, hl]

/-- The entry that serves another reference serves it when this one is gone. -/
theorem servedBy_gone {s t : State} {i e d : Nat} {k : Key} (h : s.ServedBy i k d) (hc : (s.entry e).cond ≠ .valid)
    (hk : t.kdir = s.kdir) (he : t.entries = s.entriesWith e {}) : t.ServedBy i k d := by
  obtain ⟨hp, hf, hv⟩ := h
  have apart : e ≠ d := fun h => hc (h ▸ hv)
  have entry (j : Nat) : t.entry j = (s.setEntry e {}).entry j := by simp [State.entry, he, State.setEntry, State.entriesWith]
  have same (j : Nat) (hj : e ≠ j) : t.entry j = s.entry j := (entry j).trans (entry_setEntry_ne s e j {} hj)
  obtain ⟨found, hd, first⟩ := List.find?_range_eq_some.1 hf
  refine ⟨by simpa [State.present, hk] using hp, List.find?_range_eq_some.2 ⟨?_, hd, fun j hj => ?_⟩, ?_⟩
  · rw [same d apart]
    exact found
  · rcases entry_setEntry s e j {} with ⟨gone, -, -⟩ | ⟨other, -⟩
    · rw [entry j, gone]
      rfl
    · rw [entry j, other]
      exact first j hj
  · rw [same d apart]
    exact hv

/-- FETCH_DATA_ARRIVAL with an error where the calendar waits: the lapse goes to the tail, and the other link's context
is asked for. -/
theorem fetchEnds_lapse {s : State} {idx e : Nat} {a : Access} {rest : List Access} (hs : s.Steady)
    (ha : s.oldest (isFetch idx) a rest) (hf : s.findEntry idx = some e) (hc : (s.entry e).cond = .fetching)
    (hw : s.waitingReads idx = []) {l next : Lapse} {d : Nat} (hn : s.fetchWaiters idx = [.lapse])
    (hl : s.lapses = [l, next]) (hi : l.index = idx) (hk : l.key = (s.entry e).key)
    (hr : s.reqOf .lapse = some ⟨.lapse, idx, (s.entry e).key, .fetch⟩) (hd : s.ServedBy next.index next.key d) :
    NextIs (exec (.fetchDataArrival idx none) s)
      (notify ⟨.memoryFault, 1, (s.entry e).key, s.now, idx⟩ { (s.ended rest).withoutEntry e idx with
        lapses := [next, l], reqs := s.reqsWithout .lapse ++ [⟨.lapse, next.index, next.key, .ready⟩] }) [] := by
  obtain ⟨w, m, hv⟩ := notify_with ⟨.memoryFault, 1, (s.entry e).key, s.now, idx⟩ ((s.ended rest).withoutEntry e idx)
  have target := notify_beside hv (s.reqsWithout .lapse ++ [⟨.lapse, next.index, next.key, .ready⟩]) s.engine s.slots
    s.promotions [next, l]
  let u : State := { (s.ended rest).withoutEntry e idx with
    nw := w, mem := m, reqs := s.reqsWithout .lapse, lapses := [next, l] }
  have abandoned : abandonLapse (s.fetchFault rest idx e) = u :=
    (congrArg abandonLapse hv).trans (abandonLapse_head
      (s := { (s.ended rest).withoutEntry e idx with nw := w, mem := m }) hr hl hi hk)
  have none : u.reqOf .lapse = none := reqOf_dropReq s .lapse
  have served : u.ServedBy next.index next.key d := servedBy_gone hd (by rw [hc]; decide) rfl rfl
  have told : startLapse ((s.fetchWaiters idx).foldl (fun acc w => abandon w acc) (s.fetchFault rest idx e))
      = addReq .lapse next.index next.key .ready u := by
    rw [hn]
    exact (congrArg startLapse abandoned).trans ((startLapse_asks none rfl).trans (request_served served))
  refine (congrArg (NextIs _ · []) target).mpr ?_
  refine fetch_fails_next hs ha hf hc told (fetchGone_waiting hw rfl) ?_ rfl (MemPort.gains_refl _)
  refine hs.quiet.gone rfl (fun r hm => ?_) rfl rfl
  rcases List.mem_append.1 hm with hm | hm
  · exact reqsWithout_wait hs.requests .lapse r hm
  · rw [List.mem_singleton.1 hm]
    exact fun h => by cases h

/-! ## A read that waited (R98, R168) -/

/-- A transaction awaits no operator write where it awaited none, no request is new, and no merge list is longer. -/
theorem awaits_less {s t : State} {id : Nat} (h : s.awaits id = false) (hr : ∀ r ∈ t.reqs, r ∈ s.reqs)
    (he : ∀ d, (t.entry d).merge = [] ∨ (t.entry d).merge = (s.entry d).merge) : t.awaits id = false := by
  simp only [State.awaits, Bool.or_eq_false_iff, List.any_eq_false] at h ⊢
  refine ⟨fun r hm => h.1 r (hr r hm), fun d hd => ?_⟩
  rcases he d with hn | hs
  · simp [hn]
  · rw [hs]
    exact h.2 d hd

/-- No merge list is longer where an entry is replaced by one with none. -/
theorem merge_entriesWith {s t : State} {e : Nat} {x : Entry} (hx : x.merge = []) (he : t.entries = s.entriesWith e x)
    (d : Nat) : (t.entry d).merge = [] ∨ (t.entry d).merge = (s.entry d).merge := by
  have entry : t.entry d = (s.setEntry e x).entry d := by simp [State.entry, he, State.setEntry, State.entriesWith]
  rw [entry]
  rcases entry_setEntry s e d x with ⟨new, -, -⟩ | ⟨old, -⟩
  · exact .inl (by rw [new]; exact hx)
  · exact .inr (congrArg Entry.merge old)

/-- Dropped holds leave a transaction its initiator. -/
theorem dropHolds_init (idx : Nat) (t : Txn) : (t.dropHolds idx).init = t.init := by
  unfold Txn.dropHolds
  split <;> rfl

section
variable {s : State} {idx e : Nat} {a : Access} {rest : List Access} {pre post : List Txn} {t : Txn}

/-- The open transactions among which one stands, once the holds of a context are dropped. -/
theorem opens_dropHolds (ho : s.Opens pre t post) (ht : t.dropHolds idx = t) :
    s.txns.map (Txn.dropHolds idx) = pre.map (Txn.dropHolds idx) ++ t :: post.map (Txn.dropHolds idx)
    ∧ (∀ x ∈ pre.map (Txn.dropHolds idx) ++ post.map (Txn.dropHolds idx), x.id ≠ t.id)
    ∧ ∀ x ∈ pre.map (Txn.dropHolds idx), x.init ≠ t.init := by
  refine ⟨by rw [ho.place, List.map_append, List.map_cons, ht], fun x hx => ?_, fun x hx => ?_⟩
  · rw [← List.map_append] at hx
    obtain ⟨u, hu, rfl⟩ := List.mem_map.1 hx
    exact (dropHolds_fields idx u).1 ▸ ho.alone u hu
  · obtain ⟨u, hu, rfl⟩ := List.mem_map.1 hx
    exact dropHolds_init idx u ▸ ho.first u hu

/-- A fetch fails, and behind what its requester abandons one read is returned. -/
theorem fetch_fails_returns (hs : s.Steady) (ha : s.oldest (isFetch idx) a rest) (ho : s.Opens pre t post) {reqs : List Req} {slots : Vector Slot 64} {t' : Txn}
    {r : Response} (hreqs : ∀ q ∈ reqs, q ∈ s.reqs)
    (hu : ∀ w m, s.fetchFault rest idx e = { (s.ended rest).withoutEntry e idx with nw := w, mem := m } →
      fetchFailed idx (s.ended rest) = { (s.ended rest).withoutEntry e idx with
        nw := w, mem := m, reqs := reqs, slots := slots
        txns := pre.map (Txn.dropHolds idx) ++ t' :: post.map (Txn.dropHolds idx) })
    (hid : t'.id = t.id) (hinit : t'.init = t.init) (hr : t'.result = some r) (hd : t'.responded = false)
    (hk : t.dropHolds idx = t) :
    NextIs (exec (.fetchDataArrival idx none) s)
      (notify ⟨.memoryFault, 1, (s.entry e).key, s.now, idx⟩ { (s.ended rest).withoutEntry e idx with
        reqs := reqs, slots := slots
        txns := (pre ++ post).map (Txn.dropHolds idx), returned := s.returns t r }) [] := by
  obtain ⟨w, m, hv⟩ := notify_with ⟨.memoryFault, 1, (s.entry e).key, s.now, idx⟩ ((s.ended rest).withoutEntry e idx)
  have target := notify_beside hv reqs s.engine slots s.promotions s.lapses
  obtain ⟨m', moved, gained⟩ := notify_txns_apart ⟨.memoryFault, 1, (s.entry e).key, s.now, idx⟩
    { (s.ended rest).withoutEntry e idx with reqs := reqs, slots := slots }
    ((pre ++ post).map (Txn.dropHolds idx)) (s.returns t r)
  obtain ⟨f, event, effect⟩ := fetch_fails ha
  obtain ⟨-, -, first⟩ := opens_dropHolds (idx := idx) ho hk
  let u : State := { (s.ended rest).withoutEntry e idx with
    nw := w, mem := m, reqs := reqs, slots := slots
    txns := pre.map (Txn.dropHolds idx) ++ t' :: post.map (Txn.dropHolds idx) }
  have awaits : u.awaits t'.id = false := by
    rw [hid]
    exact awaits_less ho.taken hreqs (merge_entriesWith rfl rfl)
  have unanswered : ∀ x ∈ pre.map (Txn.dropHolds idx) ++ post.map (Txn.dropHolds idx),
      x.result = none ∧ x.responded = false := by
    rw [← List.map_append]
    refine unanswered_dropHolds idx fun x hx => hs.unanswered x ?_
    rw [ho.place]
    rcases List.mem_append.1 hx with hx | hx
    · exact List.mem_append_left _ hx
    · exact List.mem_append_right _ (List.mem_cons_of_mem _ hx)
  have quiet : ({ u with txns := pre.map (Txn.dropHolds idx) ++ post.map (Txn.dropHolds idx) } : State).Quiet :=
    ⟨hs.port, fun q hq => hs.requests q (hreqs q hq), (fetchGone_quiet (e := e) (idx := idx) (rest := rest) hs).sound,
      unanswered⟩
  have settles := settled_one (s := u) rfl hr hd (fun x hx => hinit ▸ first x hx) awaits quiet
  have last := settles.trans (congrArg₂ (fun ts rs => ({ u with txns := ts, returned := rs } : State))
    (List.map_append (f := Txn.dropHolds idx) (l₁ := pre) (l₂ := post)).symm
    (show u.returned ++ [⟨t'.init, t'.id, r⟩] = s.returns t r by rw [hid, hinit]; rfl))
  have placed := (congrArg (fun x : State => ({ x with
    txns := (pre ++ post).map (Txn.dropHolds idx), returned := s.returns t r } : State)) target).symm.trans moved
  rw [event]
  refine event_nextIs (u := { notify ⟨.memoryFault, 1, (s.entry e).key, s.now, idx⟩ { (s.ended rest).withoutEntry e idx with
        reqs := reqs, slots := slots
        txns := (pre ++ post).map (Txn.dropHolds idx), returned := s.returns t r } with mem := m' }) hs.running _ ?_ rfl gained
  exact (congrArg (fun x => drainPort (settle x)) (effect.trans (hu w m hv))).trans (last.trans placed)

/-- Where no read waits, no transaction waits. -/
theorem waitsOn_of_none (h : s.waitingReads idx = []) : ∀ x ∈ s.txns, x.waitsOn idx = [] := by
  rw [waitingReads_eq] at h
  exact List.flatMap_eq_nil_iff.1 h

/-- A read that waited is returned with an error (R94). -/
theorem fetchEnds_read_failed (hs : s.Steady) (ha : s.oldest (isFetch idx) a rest) (hf : s.findEntry idx = some e)
    (hc : (s.entry e).cond = .fetching) (ho : s.Opens pre t post) (hn : s.fetchWaiters idx = []) {off : Nat}
    {got : List Byte} {key : Key}
    (hb : t.body = .read got.length [⟨.context idx key false, 0, got.length, off, false⟩] (some got))
    (hw : s.waitingReads idx = [(t.id, 0, key, false)]) (hl : s.lapses = []) :
    NextIs (exec (.fetchDataArrival idx none) s)
      (notify ⟨.memoryFault, 1, (s.entry e).key, s.now, idx⟩ { (s.ended rest).withoutEntry e idx with
        txns := (pre ++ post).map (Txn.dropHolds idx), returned := s.returns t .error }) [] := by
  have hk : t.dropHolds idx = t := by
    obtain ⟨id, init, addr, run, body, handled, result, responded⟩ := t
    cases hb
    simp [Txn.dropHolds]
  obtain ⟨-, hd⟩ := hs.unanswered t (by rw [ho.place]; simp)
  obtain ⟨place, alone, -⟩ := opens_dropHolds (idx := idx) ho hk
  refine fetch_fails_returns (e := e) (t' := { t with result := some .error }) hs ha ho (fun q hq => hq)
    (fun w m hv => ?_) rfl rfl rfl hd hk
  have failed := fetchFailed_eq (y := s.ended rest) hf hc
  let v : State := { (s.ended rest).withoutEntry e idx with nw := w, mem := m }
  have waits : v.waitingReads idx = [(t.id, 0, key, false)] := by
    rw [waitingReads_dropHolds (s := s) (t := v) rfl, hw]
    rfl
  have told : startLapse (((s.ended rest).fetchWaiters idx).foldl (fun acc w => abandon w acc)
      (s.fetchFault rest idx e)) = v := by
    rw [show (s.ended rest).fetchWaiters idx = [] from hn]
    exact (congrArg startLapse hv).trans (startLapse_empty hl)
  refine failed.trans ((congrArg (failWaiting idx) told).trans ?_)
  rw [failWaiting, waits]
  exact modifyTxn_mid (s := v) place alone fun x => { x with result := some .error }

/-- The read that waited for a binding is returned with the binding's NOCHANGE (R141). -/
theorem fetchEnds_slot (hs : s.Steady) (ha : s.oldest (isFetch idx) a rest) (hf : s.findEntry idx = some e)
    (hc : (s.entry e).cond = .fetching) (ho : s.Opens pre t post) {n : Nat} (hlt : n < 64)
    (hn : s.fetchWaiters idx = [.slot n]) {off : Nat} {got : List Byte}
    (hb : t.body = .read got.length [⟨.slot n, 0, got.length, off, false⟩] (some got))
    (hw : s.waitingReads idx = []) (hl : s.lapses = []) (hwait : (s.slot n).waiting = [(t.id, 0)])
    (hh : (s.slot n).heldWrites = []) :
    NextIs (exec (.fetchDataArrival idx none) s)
      (notify ⟨.memoryFault, 1, (s.entry e).key, s.now, idx⟩ { (s.ended rest).withoutEntry e idx with
        reqs := s.reqsWithout (.slot n)
        slots := s.slotsWith n { s.slot n with
          state := if 60 < off + got.length then .delivered else .bound
          copy := some .noChange
          binding := false
          waiting := [] }
        txns := (pre ++ post).map (Txn.dropHolds idx)
        returned := s.returns t (.normal (patchedFrom off (fun o b => if 8 ≤ o then 0 else b) got)) }) [] := by
  have hk : t.dropHolds idx = t := by
    obtain ⟨id, init, addr, run, body, handled, result, responded⟩ := t
    cases hb
    simp [Txn.dropHolds]
  obtain ⟨-, hd⟩ := hs.unanswered t (by rw [ho.place]; simp)
  obtain ⟨place, alone, -⟩ := opens_dropHolds (idx := idx) ho hk
  let out := patchedFrom off (fun o b => if 8 ≤ o then 0 else b) got
  let t' : Txn := { t with
    body := .read got.length [⟨.slot n, 0, got.length, off, true⟩] (some out), result := some (.normal out) }
  refine fetch_fails_returns (e := e) (t' := t') hs ha ho (fun q hq => (List.mem_filter.1 hq).1)
    (fun w m hv => ?_) rfl rfl rfl hd hk
  have failed := fetchFailed_eq (y := s.ended rest) hf hc
  have abandoned := (congrArg (abandonSlot n) hv).trans (abandonSlot_read
    (s := { (s.ended rest).withoutEntry e idx with nw := w, mem := m }) hlt place alone hb hwait hh)
  have told := (fetch_fails_one (rest := rest) (e := e) hn abandoned hl)
  refine failed.trans ((congrArg (failWaiting idx) told).trans (failWaiting_none ?_))
  have none : ∀ x ∈ s.txns, (x.dropHolds idx).waitsOn idx = [] := fun x hx => by
    rw [waitsOn_dropHolds, waitsOn_of_none hw x hx]
    rfl
  have mem (x : Txn) (hx : x ∈ pre ∨ x ∈ post) : x ∈ s.txns := by
    rw [ho.place]
    exact hx.elim (List.mem_append_left _) fun h => List.mem_append_right _ (List.mem_cons_of_mem _ h)
  have pres : (pre.map (Txn.dropHolds idx)).flatMap (Txn.waitsOn idx) = [] := by
    rw [List.flatMap_map]
    exact List.flatMap_eq_nil_iff.2 fun x hx => none x (mem x (.inl hx))
  have posts : (post.map (Txn.dropHolds idx)).flatMap (Txn.waitsOn idx) = [] := by
    rw [List.flatMap_map]
    exact List.flatMap_eq_nil_iff.2 fun x hx => none x (mem x (.inr hx))
  have own : t'.waitsOn idx = [] := waitsOn_none fun h => by simp [t'] at h
  change List.flatMap (Txn.waitsOn idx) (_ ++ t' :: _) = []
  rw [List.flatMap_append, List.flatMap_cons, pres, posts, own]
  rfl

end

end Sys2Proof.Machine
end

section
/-!
PROOFS. The data of a fetch: the entry loaded and reconciled, the merged writes taken, the holds placed, and the
requester or the read that waited served. With this the end of a fetch is settled whole.
-/

namespace Sys2Proof.Machine

/-! ## The entry loaded (R91) -/

/-- The state once the data of a context has become the image of its entry (R86, R91). -/
def State.loadedEntry (y : State) (e : Nat) (image : Context) : State := { y with
  entries := y.entriesWith e { y.entry e with cond := .valid, image := image, dirty := false, merge := [] }
  recency := y.recencyWith e }

/-- The loaded entry. -/
theorem loadedEntry_entry {y : State} {e : Nat} (he : e < 32) (image : Context) : (y.loadedEntry e image).entry e
    = { y.entry e with cond := .valid, image := image, dirty := false, merge := [] } :=
  entry_setEntry_self y e _ he

/-- An entry replaced twice is the last. -/
theorem entriesWith_twice (y : State) (e : Nat) (a b : Entry) :
    ({ y with entries := y.entriesWith e a } : State).entriesWith e b = y.entriesWith e b := by
  simp [State.entriesWith]

/-- An entry replaced by one as faulted changes no fault. -/
theorem faulted_entriesWith {s t : State} {e : Nat} {x : Entry} (ht : t.entries = s.entriesWith e x)
    (hx : x.faulted = (s.entry e).faulted) (d : Nat) : (t.entry d).faulted = (s.entry d).faulted := by
  have entry : t.entry d = (s.setEntry e x).entry d := by
    simp [State.entry, ht, State.setEntry, State.entriesWith]
  rw [entry]
  rcases entry_setEntry s e d x with ⟨new, rfl, -⟩ | ⟨old, -⟩
  · rw [new, hx]
  · rw [old]

/-- The hold flag of an image that agrees with its state, or is of a LAPSED link, is not reconciled (R91). -/
theorem reconcileHold_agrees {s : State} {e : Nat}
    (h : (s.entry e).image.state = .lapsed ∨ ((s.entry e).image.hold = true ↔ (s.entry e).image.state = .held)) :
    reconcileHold e s = s := by
  have agrees : (s.entry e).image.holdDisagrees = false := by
    unfold Context.holdDisagrees
    rcases h with h | h
    · simp [h]
    · cases hh : (s.entry e).image.hold <;> simp_all
  simp [reconcileHold, agrees]

/-- One that disagrees is taken as a write of the flag (R91, R100). -/
theorem reconcileHold_disagrees {s : State} {e : Nat} {c : Context} (he : e < 32) (hv : (s.entry e).cond = .valid)
    (hd : (s.entry e).image.holdDisagrees = true) (hc : (s.entry e).image.followHold = c)
    (hs : (s.entry e).image.state ≠ c.state) : reconcileHold e s
      = notify ⟨.stateChange, (s.entry e).image.state.code + 16 * c.state.code, (s.entry e).image.key, s.now, 0⟩
          { s with
            entries := s.entriesWith e { s.entry e with image := c, dirty := true }
            calendar := s.calendarClassed (s.entry e).index (if c.state = .held then .tracking else .acquire)
            engine := s.engineMarked (s.entry e).index (s.entry e).key .operator } := by
  have modified := modifyImage_valid (s := s) (f := fun _ => c) he hv
  have said : holdNotice (s.entry e).image c s.now
      = [⟨.stateChange, (s.entry e).image.state.code + 16 * c.state.code, (s.entry e).image.key, s.now, 0⟩] :=
    if_neg hs
  simp only [reconcileHold, hd, if_true, hc, said, modified, holdClass_eq, hs, if_false, markJob_eq]
  rfl

/-- An entry is loaded, reconciled, given its merged writes, and the holds are placed. -/
theorem loadEntry_eq (y : State) (e : Nat) (data : List Byte) : loadEntry e data y
    = placeHolds e ((y.entry e).merge.foldl (fun acc w => takeOperatorWrite e w.bytes acc)
        (reconcileHold e (y.loadedEntry e (Context.ofBytes data)))) := rfl

/-- What is taken on a VALID entry leaves of the rest: the open transactions, the requests, the system port, the faults,
and whose the entry is. -/
structure Keeps (e : Nat) (s t : State) : Prop where
  txns : t.txns = s.txns
  reqs : t.reqs = s.reqs
  atPort : t.atPort = s.atPort
  faulted : ∀ d, (t.entry d).faulted = (s.entry d).faulted
  valid : (t.entry e).cond = .valid
  index : (t.entry e).index = (s.entry e).index
  key : (t.entry e).key = (s.entry e).key

/-- A VALID entry keeps itself. -/
theorem Keeps.refl {e : Nat} {s : State} (h : (s.entry e).cond = .valid) : Keeps e s s :=
  ⟨rfl, rfl, rfl, fun _ => rfl, h, rfl, rfl⟩

/-- What is kept in two turns is kept in all. -/
theorem Keeps.trans {e : Nat} {s t u : State} (h : Keeps e s t) (k : Keeps e t u) : Keeps e s u :=
  ⟨k.txns.trans h.txns, k.reqs.trans h.reqs, k.atPort.trans h.atPort, fun d => (k.faulted d).trans (h.faulted d),
    k.valid, k.index.trans h.index, k.key.trans h.key⟩

/-- An entry replaced by a VALID one of the same context keeps the rest. -/
theorem Keeps.of_entry {e : Nat} {s t : State} {x : Entry} (he : e < 32) (ht : t.entries = s.entriesWith e x)
    (hx : x.cond = .valid ∧ x.index = (s.entry e).index ∧ x.key = (s.entry e).key ∧ x.faulted = (s.entry e).faulted)
    (h1 : t.txns = s.txns) (h2 : t.reqs = s.reqs) (h3 : t.atPort = s.atPort) : Keeps e s t := by
  obtain ⟨hv, hi, hk, hf⟩ := hx
  have own : t.entry e = x := by
    have entry : t.entry e = (s.setEntry e x).entry e := by
      simp [State.entry, ht, State.setEntry, State.entriesWith]
    exact entry.trans (entry_setEntry_self s e x he)
  exact ⟨h1, h2, h3, faulted_entriesWith ht hf, by rw [own, hv], by rw [own, hi], by rw [own, hk]⟩

/-- An operator write taken on a VALID entry. -/
theorem keeps_takeOperatorWrite {e : Nat} {s : State} (he : e < 32) (hv : (s.entry e).cond = .valid)
    (bs : List (Nat × Byte)) : Keeps e s (takeOperatorWrite e bs s) := by
  obtain ⟨w, m, told⟩ := notifyAll_with (operatorNotices (s.entry e).image bs s.now)
    (({ s with
      entries := s.entriesWith e { s.entry e with image := (s.entry e).image.operatorWrite bs, dirty := true }
      recency := s.recencyWith e } : State).operatorMarked (s.entry e) ((s.entry e).image.operatorWrite bs))
  rw [takeOperatorWrite_valid he hv, told]
  exact Keeps.of_entry he rfl ⟨hv, rfl, rfl, rfl⟩ rfl rfl rfl

/-- Merged writes taken one after another. -/
theorem keeps_merged {e : Nat} {s : State} (he : e < 32) (hv : (s.entry e).cond = .valid) (ws : List MergeWrite) :
    Keeps e s (ws.foldl (fun acc w => takeOperatorWrite e w.bytes acc) s) := by
  induction ws generalizing s with
  | nil => exact Keeps.refl hv
  | cons w ws ih =>
    have first := keeps_takeOperatorWrite he hv w.bytes
    exact first.trans (ih first.valid)

/-! ## The data of a fetch with no one waiting (R91) -/

/-- Without a request that waits on a fetch of the context, none is woken. -/
theorem wakeFetch_none {s t : State} {idx : Nat} (h : s.fetchWaiters idx = []) (ht : t.reqs = s.reqs) :
    wakeFetch idx t = t := by
  have waits : ∀ r ∈ s.reqs, ¬ (r.index = idx ∧ r.wait = .fetch) := fun r hr => by
    simpa using List.filter_eq_nil_iff.1 (List.map_eq_nil_iff.1 h) r hr
  have same : t.reqs.map (fun r => if r.index = idx ∧ r.wait = .fetch then { r with wait := .ready } else r) = t.reqs :=
    (List.map_congr_left fun r hr => if_neg (waits r (ht ▸ hr))).trans (List.map_id _)
  simp only [wakeFetch, same]

/-- The end of a fetch with its data, on the entry it was issued for. -/
theorem fetchArrived_eq {y : State} {idx e : Nat} (hf : y.findEntry idx = some e) (hc : (y.entry e).cond = .fetching)
    (data : List Byte) : fetchArrived idx data y = patchWaiting idx ((y.fetchWaiters idx).foldl
      (fun acc w => giveIfReady w acc) (wakeFetch idx
        (if (y.entry e).released then y.withoutEntry e idx else loadEntry e data y))) := by
  obtain ⟨-, hi, hv⟩ := findEntry_some hf
  have gone : invalidate e y = y.withoutEntry e idx := (invalidate_eq hv).trans (by rw [hi])
  simp only [fetchArrived, hf, hc, if_true, gone]

/-- The holds the reads outstanding place (R98). -/
theorem placeHolds_keeps {s t : State} {e : Nat} (h : Keeps e s t) : placeHolds e t = { t with
    entries := t.entriesWith e { t.entry e with
      holds := (t.entry e).holds + (s.txns.filter (Txn.wantsHold (s.entry e).index (s.entry e).key)).length }
    txns := s.txns.map fun x => if x.wantsHold (s.entry e).index (s.entry e).key then
      x.hold (s.entry e).index (s.entry e).key else x } := by
  rw [← h.index, ← h.key, ← h.txns]
  rfl

/-- Holds placed on reads that wait for one leave the parts that wait on an entry as they are. -/
theorem waitingReads_held {s t : State} {idx : Nat} {key : Key}
    (ht : t.txns = s.txns.map fun x => if x.wantsHold idx key then x.hold idx key else x) :
    t.waitingReads idx = s.waitingReads idx := by
  refine waitingReads_map ht fun x _ => ?_
  split
  · exact waitsOn_hold ‹_›
  · rfl

/-- A part at rest is at rest when an entry has been loaded and the holds placed. -/
theorem State.Quiet.loaded {s t : State} {idx : Nat} {key : Key} (h : s.Quiet) (hp : t.atPort = s.atPort)
    (hr : t.reqs = s.reqs) (he : ∀ d, (t.entry d).faulted = (s.entry d).faulted)
    (ht : t.txns = s.txns.map fun x => if x.wantsHold idx key then x.hold idx key else x) : t.Quiet := by
  obtain ⟨d, hd, hf⟩ := h.sound
  refine ⟨hp.trans h.port, hr ▸ h.requests, ⟨d, hd, (he d).trans hf⟩, fun x hx => ?_⟩
  rw [ht] at hx
  obtain ⟨u, hu, rfl⟩ := List.mem_map.1 hx
  split
  · exact hold_unanswered (h.unanswered u hu)
  · exact h.unanswered u hu

/-- The data of a fetch, no read and no requester waiting for it. -/
theorem fetchArrived_alone {y z : State} {idx e : Nat} {data : List Byte} (hf : y.findEntry idx = some e)
    (hc : (y.entry e).cond = .fetching) (hr : (y.entry e).released = false) (hn : y.fetchWaiters idx = [])
    (hl : loadEntry e data y = z) (hq : z.reqs = y.reqs) (hw : z.waitingReads idx = []) :
    fetchArrived idx data y = z := by
  rw [fetchArrived_eq hf hc, hr, if_neg Bool.false_ne_true, hl, hn, List.foldl_nil, wakeFetch_none hn hq,
    patchWaiting_none hw]

section
variable {s : State} {idx e : Nat} {data : List Byte} {a : Access} {rest : List Access}

/-- A context is loaded, the merged writes are taken on it, and the holds are placed. -/
theorem fetchEnds_loaded (hs : s.Steady) (ha : s.oldest (isFetch idx) a rest) (hf : s.findEntry idx = some e)
    (hc : (s.entry e).cond = .fetching) (hd : data.length = 256) (hw : s.waitingReads idx = [])
    (hn : s.fetchWaiters idx = []) (hr : (s.entry e).released = false) {z : State}
    (hz : reconcileHold e ((s.ended rest).loadedEntry e (Context.ofBytes data)) = z)
    (hk : Keeps e ((s.ended rest).loadedEntry e (Context.ofBytes data)) z) :
    let merged := (s.entry e).merge.foldl (fun acc w => takeOperatorWrite e w.bytes acc) z
    NextIs (exec (.fetchDataArrival idx (some data)) s)
      { merged with
        entries := merged.entriesWith e { merged.entry e with
          holds := (merged.entry e).holds + (s.txns.filter (Txn.wantsHold idx (s.entry e).key)).length }
        txns := s.txns.map fun t => if t.wantsHold idx (s.entry e).key then t.hold idx (s.entry e).key else t } [] := by
  intro merged
  obtain ⟨he, hi, -⟩ := findEntry_some hf
  obtain ⟨f, event, effect⟩ := fetch_arrives (s := s) ha hd
  have own := loadedEntry_entry (y := s.ended rest) he (Context.ofBytes data)
  have keeps : Keeps e ((s.ended rest).loadedEntry e (Context.ofBytes data)) merged := hk.trans (keeps_merged he hk.valid _)
  have index := congrArg Entry.index own
  have key := congrArg Entry.key own
  have loaded : loadEntry e data (s.ended rest) = placeHolds e merged := by
    rw [loadEntry_eq, hz]
    rfl
  have placed := placeHolds_keeps keeps
  rw [index, key] at placed
  change placeHolds e merged = { merged with
    entries := merged.entriesWith e { merged.entry e with
      holds := (merged.entry e).holds + (s.txns.filter (Txn.wantsHold (s.entry e).index (s.entry e).key)).length }
    txns := s.txns.map fun t => if t.wantsHold (s.entry e).index (s.entry e).key then
      t.hold (s.entry e).index (s.entry e).key else t } at placed
  rw [hi] at placed
  have arrived := fetchArrived_alone (y := s.ended rest) hf hc hr hn (loaded.trans placed) keeps.reqs
    ((waitingReads_held (s := s) rfl).trans hw)
  rw [event]
  refine cacheEvent_silent hs.running (effect.trans arrived) ?_
  have loadedFaults := faulted_entriesWith (s := s) (t := (s.ended rest).loadedEntry e (Context.ofBytes data)) (e := e) rfl rfl
  have heldFaults (d : Nat) := faulted_entriesWith (s := merged) (e := e) (t := { merged with
    entries := merged.entriesWith e { merged.entry e with
      holds := (merged.entry e).holds + (s.txns.filter (Txn.wantsHold idx (s.entry e).key)).length } }) rfl rfl d
  exact hs.quiet.loaded keeps.atPort keeps.reqs
    (fun d => (heldFaults d).trans ((keeps.faulted d).trans (loadedFaults d))) rfl

/-- A context released meanwhile is not loaded (R91). -/
theorem fetchEnds_released (hs : s.Steady) (ha : s.oldest (isFetch idx) a rest) (hf : s.findEntry idx = some e)
    (hc : (s.entry e).cond = .fetching) (hd : data.length = 256) (hw : s.waitingReads idx = [])
    (hn : s.fetchWaiters idx = []) (hr : (s.entry e).released = true) :
    NextIs (exec (.fetchDataArrival idx (some data)) s) ((s.ended rest).withoutEntry e idx) [] := by
  obtain ⟨f, event, effect⟩ := fetch_arrives (s := s) ha hd
  have arrived := fetchArrived_eq (y := s.ended rest) hf hc data
  have gone : fetchArrived idx data (s.ended rest) = (s.ended rest).withoutEntry e idx := by
    rw [arrived, if_pos (by exact hr), show (s.ended rest).fetchWaiters idx = [] from hn, List.foldl_nil,
      wakeFetch_none (s := s) (t := (s.ended rest).withoutEntry e idx) hn rfl, patchWaiting_none (fetchGone_waiting hw rfl)]
  rw [event]
  exact cacheEvent_silent hs.running (effect.trans gone) (fetchGone_quiet hs)

end

/-! ## A context loaded as it came (R91) -/

/-- Where no read wants a hold none is placed. -/
theorem placeHolds_none {t : State} {e : Nat}
    (h : ∀ x ∈ t.txns, x.wantsHold (t.entry e).index (t.entry e).key = false) : placeHolds e t = t := by
  have wants : t.txns.filter (Txn.wantsHold (t.entry e).index (t.entry e).key) = [] :=
    List.filter_eq_nil_iff.2 fun x hx => by simp [h x hx]
  have same : (t.txns.map fun x => if x.wantsHold (t.entry e).index (t.entry e).key then
      x.hold (t.entry e).index (t.entry e).key else x) = t.txns :=
    (List.map_congr_left fun x hx => if_neg (by simp [h x hx])).trans (List.map_id _)
  have entries : t.entries.setIfInBounds e (t.entry e) = t.entries := by
    apply Vector.ext
    intro i hi
    by_cases hn : e = i
    · subst hn
      simp [State.entry, Vector.getD, hi]
    · simp [hn]
  simp only [placeHolds, wants, same, List.length_nil, Nat.add_zero]
  exact congrArg (fun v => ({ t with entries := v } : State)) entries

/-- An image that agrees with its state, and for which no write and no read waits, is loaded as it came. -/
theorem loadEntry_plain {y : State} {idx e : Nat} {data : List Byte} (hf : y.findEntry idx = some e)
    (hg : (Context.ofBytes data).state = .lapsed ∨ ((Context.ofBytes data).hold = true ↔ (Context.ofBytes data).state = .held))
    (hm : (y.entry e).merge = []) (hw : ∀ t ∈ y.txns, t.wantsHold idx (y.entry e).key = false) :
    loadEntry e data y = y.loadedEntry e (Context.ofBytes data) := by
  obtain ⟨he, hi, -⟩ := findEntry_some hf
  have own := loadedEntry_entry (y := y) he (Context.ofBytes data)
  have agrees := reconcileHold_agrees (s := y.loadedEntry e (Context.ofBytes data)) (e := e) (by rw [own]; exact hg)
  rw [loadEntry_eq, agrees, hm, List.foldl_nil, placeHolds_none]
  rw [own]
  exact hi ▸ hw

/-- The loaded entry serves its context. -/
theorem loadedEntry_served {y : State} {idx e : Nat} {key : Key} (image : Context) (hf : y.findEntry idx = some e)
    (hp : y.present idx key = true) : (y.loadedEntry e image).ServedBy idx key e := by
  obtain ⟨he, hi, -⟩ := findEntry_some hf
  have own := loadedEntry_entry (y := y) he image
  obtain ⟨-, hm, first⟩ := List.find?_range_eq_some.1 hf
  refine ⟨hp, List.find?_range_eq_some.2 ⟨?_, hm, fun j hj => ?_⟩, by rw [own]⟩
  · rw [own]
    simpa using hi
  · have other : (y.loadedEntry e image).entry j = y.entry j := entry_setEntry_ne y e j _ (Nat.ne_of_gt hj)
    rw [other]
    exact first j hj

/-- An entry made the most recently used twice stands where it did. -/
theorem recencyWith_twice (y : State) (e : Nat) (image : Context) :
    (y.loadedEntry e image).recencyWith e = y.recencyWith e := by
  simp [State.recencyWith, State.loadedEntry, List.filter_append]

/-- A context loaded is supplied with its calendar's own values (R98). -/
theorem loadedEntry_bytes {y : State} {idx e : Nat} (image : Context) (hf : y.findEntry idx = some e) :
    (y.loadedEntry e image).contextBytes e = (y.supply idx image).toBytes := by
  obtain ⟨he, hi, -⟩ := findEntry_some hf
  rw [State.contextBytes, loadedEntry_entry he]
  exact congrArg (fun i => (y.supply i image).toBytes) hi

/-! ## The read that waited (R98) -/

/-- A part without a hold is completed by the entry that serves its context. -/
theorem completeContext_served {s : State} {idx e id k : Nat} {key : Key} (h : s.ServedBy idx key e) :
    completeContext idx key false id k s
      = touch e (s.completePart id k fun o b => (s.contextBytes e).getD o b) := by
  obtain ⟨hp, hf, hv⟩ := h
  simp [completeContext, hp, hf, Entry.serves, hv]

section
variable {s : State} {idx e : Nat} {data : List Byte} {a : Access} {rest : List Access}

/-- The read that waited is patched and returned. -/
theorem fetchEnds_read (hs : s.Steady) (ha : s.oldest (isFetch idx) a rest) (hf : s.findEntry idx = some e)
    (hc : (s.entry e).cond = .fetching) (hd : data.length = 256) {pre post : List Txn} {t : Txn} {off : Nat}
    {got : List Byte} {key : Key} (ho : s.Opens pre t post) (hn : s.fetchWaiters idx = [])
    (hb : t.body = .read got.length [⟨.context idx key false, 0, got.length, off, false⟩] (some got))
    (hw : s.waitingReads idx = [(t.id, 0, key, false)])
    (hwants : ∀ u ∈ s.txns, u.wantsHold idx (s.entry e).key = false) (hr : (s.entry e).released = false)
    (hg : (Context.ofBytes data).state = .lapsed ∨ ((Context.ofBytes data).hold = true ↔ (Context.ofBytes data).state = .held))
    (hm : (s.entry e).merge = []) (hp : s.present idx key = true) :
    NextIs (exec (.fetchDataArrival idx (some data)) s) { (s.ended rest).loadedEntry e (Context.ofBytes data) with
      txns := pre ++ post
      returned := s.returns t
        (.normal (patchedFrom off (fun o b => (s.supply idx (Context.ofBytes data)).toBytes.getD o b) got)) } [] := by
  have plain := loadEntry_plain (y := s.ended rest) hf hg hm hwants
  have arrived := fetchArrived_eq (y := s.ended rest) hf hc data
  obtain ⟨f, event, effect⟩ := fetch_arrives (s := s) ha hd
  generalize Context.ofBytes data = image at hg plain ⊢
  have served := loadedEntry_served (y := s.ended rest) image hf hp
  have bytes := loadedEntry_bytes (y := s.ended rest) image hf
  have recent := recencyWith_twice (s.ended rest) e image
  let z := (s.ended rest).loadedEntry e image
  let out := patchedFrom off (fun o b => (s.supply idx image).toBytes.getD o b) got
  let t' : Txn := { t with
    body := .read got.length [⟨.context idx key false, 0, got.length, off, true⟩] (some out), result := some (.normal out) }
  have completed : z.completePart t.id 0 (fun o b => (z.contextBytes e).getD o b) = { z with txns := pre ++ t' :: post } := by
    rw [show z.contextBytes e = (s.supply idx image).toBytes from bytes]
    exact completePart_single (s := z) ho.place ho.alone hb _
  have touched : touch e ({ z with txns := pre ++ t' :: post } : State) = { z with txns := pre ++ t' :: post } := by
    rw [touch_valid (by exact served.2.2)]
    exact congrArg (fun r => ({ z with txns := pre ++ t' :: post, recency := r } : State)) recent
  have patched : fetchArrived idx data (s.ended rest) = { z with txns := pre ++ t' :: post } := by
    have waits : z.waitingReads idx = [(t.id, 0, key, false)] := hw
    rw [arrived, if_neg (by rw [show ((s.ended rest).entry e).released = false from hr]; exact Bool.false_ne_true),
      plain, show (s.ended rest).fetchWaiters idx = [] from hn, List.foldl_nil,
      wakeFetch_none (s := s) (t := z) hn rfl, patchWaiting, waits, List.foldl_cons, List.foldl_nil,
      completeContext_served served, completed, touched]
  have others : ∀ x ∈ pre ++ post, x.result = none ∧ x.responded = false := fun x hx => by
    refine hs.unanswered x ?_
    rw [ho.place]
    exact (List.mem_append.1 hx).elim (List.mem_append_left _) fun h => List.mem_append_right _ (List.mem_cons_of_mem _ h)
  obtain ⟨-, unresponded⟩ := hs.unanswered t (by rw [ho.place]; simp)
  have sound : ∃ d, d < 32 ∧ (z.entry d).faulted = false := sound_entriesWith hs.sound rfl fun h => h
  have awaits : ({ z with txns := pre ++ t' :: post } : State).awaits t'.id = false :=
    awaits_less ho.taken (fun r hr => hr) (merge_entriesWith rfl rfl)
  have settles := settled_one (s := { z with txns := pre ++ t' :: post }) rfl rfl unresponded ho.first awaits
    ⟨hs.port, hs.requests, sound, others⟩
  rw [event]
  exact event_silent hs.running ((congrArg (fun x => drainPort (settle x)) (effect.trans patched)).trans settles)

end

/-! ## The job that waited (R69, R72) -/

/-- The engine begins to compute on the context it is given (R72). -/
theorem giveEngine_computes {s : State} {j : Job} {e : Nat} (he : s.engine = .obtaining j none)
    (hready : s.Ready .engine j.index j.key) (hserved : s.ServedBy j.index j.key e)
    (hl : (s.entry e).image.state ≠ .lapsed) : giveEngine s = { s with
      reqs := s.reqsWithout .engine
      recency := s.recencyWith e
      entries := s.entriesWith e { s.entry e with pinned := true }
      engine := .computing j none (snapshotOf (s.entry e).image (s.policyOf j.key)) } := by
  have touched : touchFor .engine e s (dropReq .engine s)
      = { s with recency := s.recencyWith e, reqs := s.reqsWithout .engine } :=
    touchFor_ready (s := dropReq .engine s) hready hserved.2.2
  simp only [giveEngine, he, hserved.given, touched, Option.isSome_none, Bool.false_eq_true, and_false, if_false, hl]
  rfl

/-- The one request that waits on a fetch is ready when it is woken, and no other changes. -/
theorem wakeFetch_one {s : State} {who : Requester} {idx : Nat} {key : Key} (hn : s.fetchWaiters idx = [who])
    (hr : s.reqOf who = some ⟨who, idx, key, .fetch⟩) :
    (wakeFetch idx s).Ready who idx key ∧ (wakeFetch idx s).reqsWithout who = s.reqsWithout who := by
  have waits (r : Req) (hm : r ∈ s.reqs) (hi : r.index = idx) (hf : r.wait = .fetch) : r.who = who := by
    have : r.who ∈ s.fetchWaiters idx := List.mem_map.2 ⟨r, List.mem_filter.2 ⟨hm, by simp [hi, hf]⟩, rfl⟩
    simpa [hn] using this
  constructor
  · have found : (s.reqs.find? fun r => r.who == who) = some ⟨who, idx, key, .fetch⟩ := hr
    have same : ((fun r : Req => r.who == who) ∘ fun r : Req =>
        if r.index = idx ∧ r.wait = .fetch then { r with wait := .ready } else r) = fun r => r.who == who := by
      funext r
      simp only [Function.comp_apply]
      split <;> rfl
    change (s.reqs.map _).find? _ = _
    rw [List.find?_map, same, found]
    simp
  · have filtered : ((fun r : Req => r.who != who) ∘ fun r : Req =>
        if r.index = idx ∧ r.wait = .fetch then { r with wait := .ready } else r) = fun r => r.who != who := by
      funext r
      simp only [Function.comp_apply]
      split <;> rfl
    change (s.reqs.map _).filter _ = s.reqs.filter _
    rw [List.filter_map, filtered]
    refine (List.map_congr_left fun r hm => if_neg fun hw => ?_).trans (List.map_id _)
    obtain ⟨hr, hne⟩ := List.mem_filter.1 hm
    simp [waits r hr hw.1 hw.2] at hne

section
variable {s : State} {idx e : Nat} {data : List Byte} {a : Access} {rest : List Access}

/-- The CAPTURE job that waited is given its context. -/
theorem fetchEnds_engine (hs : s.Steady) (ha : s.oldest (isFetch idx) a rest) (hf : s.findEntry idx = some e)
    (hc : (s.entry e).cond = .fetching) (hd : data.length = 256) (hw : s.waitingReads idx = []) {j : Job}
    (hn : s.fetchWaiters idx = [.engine]) (he : s.engine = .obtaining j none) (hr : (s.entry e).released = false)
    (hg : (Context.ofBytes data).state = .lapsed ∨ ((Context.ofBytes data).hold = true ↔ (Context.ofBytes data).state = .held))
    (hm : (s.entry e).merge = []) (hwants : ∀ t ∈ s.txns, t.wantsHold idx (s.entry e).key = false)
    (hreq : s.reqOf .engine = some ⟨.engine, idx, (s.entry e).key, .fetch⟩) (hi : j.index = idx)
    (hk : j.key = (s.entry e).key) (hp : s.present idx (s.entry e).key = true)
    (hl : (Context.ofBytes data).state ≠ .lapsed) :
    NextIs (exec (.fetchDataArrival idx (some data)) s) { (s.ended rest).loadedEntry e (Context.ofBytes data) with
      entries := s.entriesWith e { s.entry e with
        cond := .valid, image := Context.ofBytes data, dirty := false, merge := [], pinned := true }
      reqs := s.reqsWithout .engine
      engine := .computing j none (snapshotOf (Context.ofBytes data) (s.policyOf j.key)) } [] := by
  have plain := loadEntry_plain (y := s.ended rest) hf hg hm hwants
  have arrived := fetchArrived_eq (y := s.ended rest) hf hc data
  obtain ⟨f, event, effect⟩ := fetch_arrives (s := s) ha hd
  generalize Context.ofBytes data = image at hg plain hl ⊢
  obtain ⟨hlt, -, -⟩ := findEntry_some hf
  have served := loadedEntry_served (y := s.ended rest) image hf hp
  have recent := recencyWith_twice (s.ended rest) e image
  have own := loadedEntry_entry (y := s.ended rest) hlt image
  let z := (s.ended rest).loadedEntry e image
  obtain ⟨ready, others⟩ := wakeFetch_one (s := z) hn hreq
  have same : (wakeFetch idx z).entry e = { s.entry e with cond := .valid, image := image, dirty := false, merge := [] } := own
  have recency : (wakeFetch idx z).recencyWith e = z.recency := recent
  have entries (x : Entry) : (wakeFetch idx z).entriesWith e x = s.entriesWith e x := entriesWith_twice (s.ended rest) e _ x
  have computes := giveEngine_computes (s := wakeFetch idx z) (j := j) (e := e) he (by rw [hi, hk]; exact ready)
    (by rw [hi, hk]; exact served) (by rw [same]; exact hl)
  rw [same, recency, entries, others] at computes
  have gives : giveIfReady .engine (wakeFetch idx z) = giveEngine (wakeFetch idx z) := by
    simp only [giveIfReady, readyReq_of ready]
    rfl
  let u : State := { z with
    entries := s.entriesWith e { s.entry e with
      cond := .valid, image := image, dirty := false, merge := [], pinned := true }
    reqs := s.reqsWithout .engine
    engine := .computing j none (snapshotOf image (s.policyOf j.key)) }
  have given : fetchArrived idx data (s.ended rest) = u := by
    rw [arrived, if_neg (by rw [show ((s.ended rest).entry e).released = false from hr]; exact Bool.false_ne_true),
      plain, show (s.ended rest).fetchWaiters idx = [.engine] from hn, List.foldl_cons, List.foldl_nil, gives, computes]
    exact patchWaiting_none hw
  rw [event]
  refine cacheEvent_silent hs.running (effect.trans given) ?_
  refine ⟨hs.port, reqsWithout_wait hs.requests .engine, ?_, hs.unanswered⟩
  exact sound_entriesWith hs.sound rfl fun h => h

end

/-! ## The hold flag reconciled (R91) -/

/-- A hold flag set where the state does not have it puts the context in HELD (R16). -/
theorem followHold_holds {c : Context} (h : c.hold = true) (hs : c.state ∈ [CtxState.initial, .acquiring, .tracking]) :
    c.holdDisagrees = true ∧ c.followHold = { c with state := .held } ∧ c.state ≠ .held := by
  simp only [List.mem_cons, List.not_mem_nil, or_false] at hs
  rcases hs with hs | hs | hs <;> simp [Context.holdDisagrees, Context.followHold, h, hs]

/-- One clear where the state is HELD puts it in ACQUIRING (R16). -/
theorem followHold_frees {c : Context} (h : c.hold = false) (hs : c.state = .held) :
    c.holdDisagrees = true ∧ c.followHold = { c with state := .acquiring, step := 0, settle := 0 }
      ∧ c.state ≠ .acquiring := by
  simp [Context.holdDisagrees, Context.followHold, h, hs]

/-- A loaded image whose hold flag disagrees is reconciled, and the rest is kept. -/
theorem reconcileHold_loaded {y : State} {idx e : Nat} {image c : Context} (hf : y.findEntry idx = some e)
    (hd : image.holdDisagrees = true) (hc : image.followHold = c) (hs : image.state ≠ c.state) :
    let z := notify ⟨.stateChange, image.state.code + 16 * c.state.code, image.key, y.now, 0⟩ { y.loadedEntry e image with
      entries := y.entriesWith e { y.entry e with cond := .valid, image := c, dirty := true, merge := [] }
      calendar := y.calendarClassed idx (if c.state = .held then .tracking else .acquire)
      engine := y.engineMarked idx (y.entry e).key .operator }
    reconcileHold e (y.loadedEntry e image) = z ∧ Keeps e (y.loadedEntry e image) z := by
  intro z
  obtain ⟨he, hi, -⟩ := findEntry_some hf
  have own := loadedEntry_entry (y := y) he image
  have said := reconcileHold_disagrees (s := y.loadedEntry e image) (c := c) he (by rw [own]) (by rw [own]; exact hd)
    (by rw [own]; exact hc) (by rw [own]; exact hs)
  have twice (x : Entry) : (y.loadedEntry e image).entriesWith e x = y.entriesWith e x := entriesWith_twice y e _ x
  rw [own, twice] at said
  obtain ⟨w, m, told⟩ := notify_with ⟨.stateChange, image.state.code + 16 * c.state.code, image.key, y.now, 0⟩
    { y.loadedEntry e image with
      entries := y.entriesWith e { y.entry e with cond := .valid, image := c, dirty := true, merge := [] }
      calendar := y.calendarClassed idx (if c.state = .held then .tracking else .acquire)
      engine := y.engineMarked idx (y.entry e).key .operator }
  subst hi
  refine ⟨said, ?_⟩
  rw [show z = _ from told]
  exact Keeps.of_entry he (twice _).symm ⟨rfl, by rw [own], by rw [own], by rw [own]⟩ rfl rfl rfl

/-- Settles O19: the entry loaded, given up or failed, and who waited for it served, each by its own lemma. -/
theorem fetchEnds : Obligations.FetchEnds := by
  intro s idx e data a rest hs ha hf hc hd x y image fault agrees loaded reconciled arrives
  obtain ⟨he, -, -⟩ := findEntry_some hf
  have valid : (loaded.entry e).cond = .valid :=
    congrArg Entry.cond (loadedEntry_entry (y := y) he image)
  refine ⟨fun hw hn => ⟨fun hr => ⟨fun hg => ?_, fun hh hst => ?_, fun hh hst => ?_⟩, fun hr => ?_, fun hl => ?_⟩,
    fun j mark hw hn hj hcap => ⟨fun hl => ?_, fun hr hg hm hwants hreq hi hk hp hmark hl => ?_⟩,
    fun pre post t off got key ho hn hb hw hwants => ⟨fun hr hg hm hp => ?_, fun hl => ?_⟩,
    fun hw => ⟨fun hl => ?_, fun l next d hn hl hi hk hr hserved => ?_⟩⟩
  · have own := loadedEntry_entry (y := y) he image
    have same : reconcileHold e loaded = loaded := reconcileHold_agrees (by
      rw [show loaded.entry e = _ from own]
      exact hg)
    exact fetchEnds_loaded hs ha hf hc hd hw hn hr same (Keeps.refl valid)
  · obtain ⟨disagrees, follows, changed⟩ := followHold_holds hh hst
    obtain ⟨hz, hk⟩ := reconcileHold_loaded (y := y) hf disagrees follows changed
    exact fetchEnds_loaded hs ha hf hc hd hw hn hr hz hk
  · obtain ⟨disagrees, follows, changed⟩ := followHold_frees hh hst
    obtain ⟨hz, hk⟩ := reconcileHold_loaded (y := y) hf disagrees follows changed
    exact fetchEnds_loaded hs ha hf hc hd hw hn hr hz hk
  · exact fetchEnds_released hs ha hf hc hd hw hn hr
  · exact (fetchEnds_failed hs ha hf hc hw hl).1 hn
  · exact (fetchEnds_failed hs ha hf hc hw hl).2.1 j mark hn hj hcap
  · subst hmark
    exact fetchEnds_engine hs ha hf hc hd hw hn hj hr hg hm hwants hreq hi hk hp hl
  · exact fetchEnds_read hs ha hf hc hd ho hn hb hw hwants hr hg hm hp
  · exact fetchEnds_read_failed hs ha hf hc ho hn hb hw hl
  · obtain ⟨-, -, trial, promotion, revive, copy⟩ := fetchEnds_failed hs ha hf hc hw hl
    refine ⟨trial, fun n pre post t off got hn ho hb hlast hwait hheld => ?_, promotion, revive, copy⟩
    exact fetchEnds_slot hs ha hf hc ho n.isLt hn hb hw hl hwait hheld
  · exact fetchEnds_lapse hs ha hf hc hw hn hl hi hk hr hserved

end Sys2Proof.Machine
end

section
/-!
PROOFS. The correction arithmetic (02_correction_arithmetic.md): the rounding, the scalar stages, the tap stage and the
health.
-/

namespace Sys2Proof.Machine

/-! ## Rounding (R26) -/

/-- The magnitude of a rounded quotient, times the divisor, is within half a divisor of the dividend's, and where it is
half a divisor away it lies above it. -/
theorem roundDiv_quotient {d : Nat} (hd : 0 < d) (a : Nat) :
    2 * ((2 * a + d) / (2 * d) * d) ≤ 2 * a + d ∧ 2 * a < 2 * ((2 * a + d) / (2 * d) * d) + d := by
  have below := Nat.div_mul_le_self (2 * a + d) (2 * d)
  have above := Nat.lt_div_mul_add (a := 2 * a + d) (b := 2 * d) (by omega)
  rw [Nat.mul_left_comm] at below above
  omega

/-- A dividend that is not negative has a quotient that is not. -/
theorem roundDiv_natCast (a d : Nat) : roundDiv a d = ((2 * a + d) / (2 * d) : Nat) := by
  simp only [roundDiv, Int.natAbs_natCast, if_neg (Int.not_lt.2 (Int.natCast_nonneg a))]

/-- Settles O51: the two bounds of the quotient's magnitude, on either side of zero. -/
theorem roundsHalfAway : Obligations.RoundsHalfAway := by
  intro n d hd
  obtain ⟨below, above⟩ := roundDiv_quotient hd n.natAbs
  unfold roundDiv
  generalize (2 * n.natAbs + d) / (2 * d) = q at below above ⊢
  have product : ((q * d : Nat) : Int) = (q : Int) * d := Int.natCast_mul q d
  dsimp only
  split
  · rw [Int.natAbs_neg, Int.natAbs_natCast, Int.neg_mul, ← product]
    omega
  · rw [Int.natAbs_natCast, ← product]
    omega

/-! ## The scalar stages (R29 to R31) -/

/-- A value within the bounds stays as it is. -/
theorem clampSym_within {r : Nat} {v : Int} (h : |v| ≤ r) : clampSym r v = v := by
  rw [abs_le] at h
  rw [clampSym, if_neg (by omega), if_neg (by omega)]

/-- A value above the bounds is brought to the upper one. -/
theorem clampSym_above {r : Nat} {v : Int} (h : (r : Int) < v) : clampSym r v = r := if_pos h

/-- A value below the bounds is brought to the lower one. -/
theorem clampSym_below {r : Nat} {v : Int} (h : v < -(r : Int)) : clampSym r v = -r := by
  rw [clampSym, if_neg (by omega), if_pos h]

/-- The range clamp of a stage acts exactly where the offset would leave the range. -/
theorem axisStage_ranged (step : Int) (limit range : Nat) (offset : Int) :
    (axisStage step limit range offset).ranged = true ↔ (range : Int) < |offset + clampSym limit step| := by
  rw [lt_abs, lt_neg]
  exact decide_eq_true_iff.trans (clampSym_ne_iff range _)

/-- In range a stage delivers its limited step. -/
theorem axisStage_inRange {step offset : Int} {limit range : Nat} (h : |offset + clampSym limit step| ≤ range) :
    (axisStage step limit range offset).adjust = clampSym limit step
      ∧ (axisStage step limit range offset).ranged = false := by
  refine ⟨?_, Bool.eq_false_iff.2 fun hr => ?_⟩
  · simp only [axisStage, clampSym_within h, add_sub_cancel_left]
  · exact absurd ((axisStage_ranged ..).1 hr) (not_lt.2 h)

/-- Above the range it delivers what brings the offset to the upper bound. -/
theorem axisStage_above {step offset : Int} {limit range : Nat} (h : (range : Int) < offset + clampSym limit step) :
    (axisStage step limit range offset).adjust = range - offset
      ∧ (axisStage step limit range offset).ranged = true := by
  refine ⟨?_, (axisStage_ranged ..).2 (lt_abs.2 (.inl h))⟩
  simp only [axisStage, clampSym_above h]

/-- Below the range it delivers what brings the offset to the lower bound. -/
theorem axisStage_below {step offset : Int} {limit range : Nat} (h : offset + clampSym limit step < -(range : Int)) :
    (axisStage step limit range offset).adjust = -(range : Int) - offset
      ∧ (axisStage step limit range offset).ranged = true := by
  refine ⟨?_, (axisStage_ranged ..).2 (lt_abs.2 (.inr (lt_neg.2 h)))⟩
  simp only [axisStage, clampSym_below h]

/-- A stage is clamped exactly where its step or its range clamp acted. -/
theorem axisStage_clamped (step : Int) (limit range : Nat) (offset : Int) :
    (axisStage step limit range offset).clamped = true ↔
      (limit : Int) < |step| ∨ (axisStage step limit range offset).ranged = true := by
  have limited : clampSym limit step ≠ step ↔ (limit : Int) < |step| := by
    rw [clampSym_ne_iff, lt_abs, lt_neg]
  rw [← limited]
  exact (Bool.or_eq_true _ _).to_iff.trans (or_congr_left decide_eq_true_iff)

/-- Settles O52: the three stages are one, on the rounded error that each divides. -/
theorem axisStages : Obligations.AxisStages := by
  unfold Obligations.AxisStages
  intro delivers p e offset shift
  have stage (step : Int) (limit range : Nat) :
      delivers (axisStage step limit range offset) step limit range offset :=
    ⟨axisStage_inRange, axisStage_above, axisStage_below, axisStage_clamped step limit range offset⟩
  exact ⟨stage _ _ _, stage _ _ _, stage _ _ _⟩

/-! ## The blend and the convolution (R34, R35) -/

/-- A tap of a set given by number. -/
theorem tapAt_map_range (f : Nat → Tap) {k : Nat} (hk : k < 12) : tapAt ((List.range 12).map f) k = f k := by
  simp [tapAt, List.getD_eq_getElem?_getD, hk]

/-- The blend moves a captured tap towards the identity set (R34). -/
theorem tapAt_blend (captured : List Tap) (m shift : Nat) {k : Nat} (hk : k < 12) :
    tapAt (blend captured m shift) k =
      ⟨(if k = m then 8192 else 0) + roundDiv ((tapAt captured k).re - (if k = m then 8192 else 0)) (2 ^ shift),
        roundDiv (tapAt captured k).im (2 ^ shift)⟩ := by
  have identity : tapAt (identityTaps m) k = ⟨if k = m then 8192 else 0, 0⟩ := by
    rw [identityTaps, tapAt_map_range _ hk]
    split <;> rfl
  simp only [blend, tapAt_map_range _ hk, identity, blendOne, Int.sub_zero, Int.zero_add]

/-- Taps added up one after another are the sums of their components. -/
theorem tapSum_eq (f : Nat → Tap) (ks : List Nat) (a : Tap) :
    ks.foldl (fun acc k => (⟨acc.re + (f k).re, acc.im + (f k).im⟩ : Tap)) a
      = ⟨a.re + (ks.map fun k => (f k).re).sum, a.im + (ks.map fun k => (f k).im).sum⟩ := by
  induction ks generalizing a with
  | nil => simp
  | cons k ks ih => simp only [List.foldl_cons, ih, List.map_cons, List.sum_cons, Int.add_assoc]

/-- One component of the convolution's sum for tap `n`: a product of the issued taps with others, the main tap's index
aligned (R35). -/
def alignedSum (issued : List Tap) (d : Nat → Tap) (m n : Nat) (product : Tap → Tap → Int) : Int :=
  ((List.range 12).map fun k =>
    if k ≤ n + m ∧ n + m - k < 12 then product (tapAt issued k) (d (n + m - k)) else 0).sum

/-- Taps beyond the twelfth do not count. -/
theorem alignedSum_congr {d e : Nat → Tap} (h : ∀ k, k < 12 → d k = e k) (issued : List Tap) (m n : Nat)
    (product : Tap → Tap → Int) : alignedSum issued d m n product = alignedSum issued e m n product := by
  refine congrArg List.sum (List.map_congr_left fun k _ => ?_)
  split
  · next hk => rw [h _ hk.2]
  · rfl

/-- The convolution's sum for a tap is that of the complex products' components (R35). -/
theorem convSum_eq (issued d : List Tap) (m n : Nat) : convSum issued d m n =
    ⟨alignedSum issued (tapAt d) m n fun i e => i.re * e.re - i.im * e.im,
      alignedSum issued (tapAt d) m n fun i e => i.re * e.im + i.im * e.re⟩ := by
  have term (k : Nat) : convTerm issued d m n k =
      ⟨if k ≤ n + m ∧ n + m - k < 12 then (tapMul (tapAt issued k) (tapAt d (n + m - k))).re else 0,
        if k ≤ n + m ∧ n + m - k < 12 then (tapMul (tapAt issued k) (tapAt d (n + m - k))).im else 0⟩ := by
    unfold convTerm
    split <;> rfl
  rw [convSum, tapSum_eq]
  simp only [Int.zero_add, term]
  rfl

/-! ## The normalisation (R36, R37) -/

/-- A main tap in range has a scale factor from 256 to 65,536 (R36). -/
theorem scaleFactor_bounds {r : Int} (hl : 1024 ≤ r) (hu : r ≤ 262143) :
    256 ≤ roundDiv 67108864 r.toNat ∧ roundDiv 67108864 r.toNat ≤ 65536 := by
  obtain ⟨v, rfl⟩ := Int.eq_ofNat_of_zero_le (show 0 ≤ r by omega)
  have quotient := roundDiv_natCast 67108864 v
  have lower : 256 ≤ (2 * 67108864 + v) / (2 * v) := (Nat.le_div_iff_mul_le (by omega)).2 (by omega)
  have upper : (2 * 67108864 + v) / (2 * v) < 65537 := (Nat.div_lt_iff_lt_mul (by omega)).2 (by omega)
  rw [Int.toNat_natCast, show (67108864 : Int) = (67108864 : Nat) from rfl, quotient]
  omega

/-- A component saturates to the bound on its side exactly where it does not fit 16 bits (R37). -/
theorem saturate16_cases (v : Int) :
    (¬ (v < -32768 ∨ 32767 < v) ∧ saturate16 v = v) ∨ (v < -32768 ∧ saturate16 v = -32768)
      ∨ (32767 < v ∧ saturate16 v = 32767) := by
  unfold saturate16
  split
  · next h => exact .inr (.inl ⟨h, rfl⟩)
  · split
    · next h => exact .inr (.inr ⟨h, rfl⟩)
    · next hl hu => exact .inl ⟨not_or.2 ⟨hl, hu⟩, rfl⟩

theorem saturate16_ne_iff (v : Int) : saturate16 v ≠ v ↔ v < -32768 ∨ 32767 < v := by
  rcases saturate16_cases v with ⟨h, e⟩ | ⟨h, e⟩ | ⟨h, e⟩ <;> rw [e] <;> omega

/-- CLIPPED says that a component of a scaled tap does not fit (R37). -/
theorem saturates_iff (q : List Tap) (f : Int) : saturates q f = true ↔ ∃ n, n < 12 ∧
    (((scaleTap f (tapAt q n)).re < -32768 ∨ 32767 < (scaleTap f (tapAt q n)).re)
      ∨ ((scaleTap f (tapAt q n)).im < -32768 ∨ 32767 < (scaleTap f (tapAt q n)).im)) := by
  simp only [saturates, tapSaturates, List.any_eq_true, List.mem_range, Bool.or_eq_true, decide_eq_true_eq,
    saturate16_ne_iff]

theorem isDegenerate_iff (r : Int) : isDegenerate r = true ↔ r < 1024 ∨ 262143 < r := by
  simp only [isDegenerate, Bool.or_eq_true, decide_eq_true_eq]

/-- The tap stage gives Q and its main tap, whatever comes of them (R35, R36). -/
theorem stageQ_q (captured issued : List Tap) (m shift : Nat) :
    (stageQ captured issued m shift).q = convolve issued (blend captured m shift) m
      ∧ (stageQ captured issued m shift).r = (tapAt (stageQ captured issued m shift).q m).re := by
  unfold stageQ
  dsimp only
  split <;> exact ⟨rfl, rfl⟩

/-- Outside its range the main tap leaves no tap set (R36). -/
theorem stageQ_taps_none (captured issued : List Tap) (m shift : Nat) :
    (stageQ captured issued m shift).taps = none
      ↔ (stageQ captured issued m shift).r < 1024 ∨ 262143 < (stageQ captured issued m shift).r := by
  rw [← isDegenerate_iff]
  unfold stageQ
  dsimp only
  split
  · next h => exact iff_of_true rfl h
  · next h => exact iff_of_false nofun h

/-- A tap set it leaves is the normalised Q, CLIPPED where a component saturated (R37). -/
theorem stageQ_taps_some {captured issued ts : List Tap} {m shift : Nat}
    (h : (stageQ captured issued m shift).taps = some ts) :
    let s := stageQ captured issued m shift
    ts = normalise s.q m (scaleFactor s.r) ∧ s.clipped = saturates s.q (scaleFactor s.r) := by
  unfold stageQ at h ⊢
  dsimp only at h ⊢
  split at h
  · cases h
  · next hd =>
    rw [if_neg hd]
    exact ⟨(Option.some.inj h).symm, rfl⟩

/-- A tap of the convolution is its two rounded sums (R35). -/
theorem tapAt_convolve (issued d : List Tap) (m : Nat) {n : Nat} (hn : n < 12) :
    tapAt (convolve issued d m) n
      = ⟨roundDiv (convSum issued d m n).re 8192, roundDiv (convSum issued d m n).im 8192⟩ :=
  tapAt_map_range _ hn

/-- A tap of the normalised set (R37). -/
theorem tapAt_normalise (q : List Tap) (m : Nat) (f : Int) {n : Nat} (hn : n < 12) :
    tapAt (normalise q m f) n = ⟨if n = m then 8192 else saturate16 (scaleTap f (tapAt q n)).re,
      saturate16 (scaleTap f (tapAt q n)).im⟩ := tapAt_map_range _ hn

/-! ## The health (R39) -/

/-- The energy of a tap is the sum of its components' squares. -/
theorem tapEnergy_cast (t : Tap) : (tapEnergy t : Int) = t.re ^ 2 + t.im ^ 2 := by
  simp [tapEnergy]

/-- The energy of a tap set is the sum of its taps'. -/
theorem totalEnergy_cast (ts : List Tap) :
    (totalEnergy ts : Int) = ((List.range 12).map fun k => (tapAt ts k).re ^ 2 + (tapAt ts k).im ^ 2).sum := by
  have fold (ks : List Nat) (a : Nat) : ((ks.foldl (fun acc k => acc + tapEnergy (tapAt ts k)) a : Nat) : Int)
      = a + (ks.map fun k => (tapAt ts k).re ^ 2 + (tapAt ts k).im ^ 2).sum := by
    induction ks generalizing a with
    | nil => simp
    | cons k ks ih =>
      simp only [List.foldl_cons, ih, List.map_cons, List.sum_cons, Nat.cast_add, tapEnergy_cast, add_assoc]
  exact (fold (List.range 12) 0).trans (Int.zero_add _)

/-- Settles O53: the blend and the convolution tap by tap, the normalisation by its equations, and the health by the
energies. -/
theorem tapsNormalised : Obligations.TapsNormalised := by
  refine ⟨?_, fun ts m => ?_⟩
  · intro captured issued m shift hm r d terms f scaled outside part
    obtain ⟨hq, hr⟩ : r.q = _ ∧ r.r = _ := stageQ_q captured issued m shift
    have none_iff : r.taps = none ↔ r.r < 1024 ∨ 262143 < r.r := stageQ_taps_none captured issued m shift
    have blended (k : Nat) (hk : k < 12) : tapAt (blend captured m shift) k = d k := tapAt_blend captured m shift hk
    have saturated (x : Int) : part x (saturate16 (scaled x)) := saturate16_cases (scaled x)
    refine ⟨fun n hn => ?_, hr, none_iff, fun ts hts => ?_⟩
    · rw [hq, tapAt_convolve _ _ _ hn, convSum_eq, alignedSum_congr blended, alignedSum_congr blended]
      exact ⟨rfl, rfl⟩
    · obtain ⟨rfl, hc⟩ : ts = normalise r.q m f ∧ r.clipped = saturates r.q f := stageQ_taps_some hts
      obtain ⟨hl, hu⟩ := not_or.1 fun h => nomatch hts.symm.trans (none_iff.2 h)
      obtain ⟨lower, upper⟩ : 256 ≤ f ∧ f ≤ 65536 := scaleFactor_bounds (not_lt.1 hl) (not_lt.1 hu)
      refine ⟨by simp [normalise], lower, upper, ?_, fun n hn => ?_, ?_⟩
      · rw [tapAt_normalise _ _ _ hm, if_pos rfl]
      · rw [tapAt_normalise _ _ _ hn]
        exact ⟨fun hne => by rw [if_neg hne]; exact saturated _, saturated _⟩
      · rw [hc]
        exact saturates_iff r.q f
  · intro energy total
    have total_eq : (totalEnergy ts : Int) = total := totalEnergy_cast ts
    have main : (tapEnergy (tapAt ts m) : Int) = energy m := tapEnergy_cast _
    rw [← total_eq]
    refine ⟨fun h => if_pos (by exact_mod_cast h), fun h => ?_⟩
    rw [healthOf, if_neg (by omega), ← main]
    push_cast
    rfl

end Sys2Proof.Machine
end

section
/-!
PROOFS. TRIAL: the job that completes, the end of its result write, and the result field by field (R81, R82, R196).
-/

namespace Sys2Proof.Machine

/-! ## Fields of a record laid out one behind another (R189) -/

/-- A field behind others is found by their length. -/
theorem field_append_right {pre post : List Byte} {off n : Nat} (h : pre.length ≤ off) :
    field (pre ++ post) off n = field post (off - pre.length) n := by
  rw [field, field, List.drop_append, List.drop_eq_nil_of_le h, List.nil_append]

/-- The first field is read whole. -/
theorem field_head {x post : List Byte} {n : Nat} (h : x.length = n) : field (x ++ post) 0 n = x := by
  rw [field, List.drop_zero, ← h, List.take_left]

/-- One of several equally long fields is found by its number. -/
theorem field_flatMap (g : Nat → List Byte) {w : Nat} (hw : ∀ k, (g k).length = w) {n k : Nat} (hk : k < n) :
    field ((List.range n).flatMap g) (w * k) w = g k := by
  have before (ks : List Nat) : (ks.flatMap g).length = w * ks.length := by
    rw [List.length_flatMap, List.map_congr_left fun k _ => hw k, List.map_const', List.sum_replicate, smul_eq_mul,
      Nat.mul_comm]
  obtain ⟨j, rfl⟩ := Nat.exists_eq_add_of_lt hk
  have split : List.range (k + j + 1) = List.range k ++ k :: (List.range j).map (k + 1 + ·) := by
    rw [show k + j + 1 = k + (1 + j) by omega, List.range_add, List.range_add]
    simp [List.range_one, Nat.add_assoc]
  have here : w * k - ((List.range k).flatMap g).length = 0 := by rw [before, List.length_range, Nat.sub_self]
  rw [split, List.flatMap_append, List.flatMap_cons, field_append_right (by rw [before, List.length_range]), here,
    field_head (hw k)]

/-! ## What a TRIAL reports (R81, R44) -/

/-- The number a TRIAL status is reported as (R189). -/
def trialCode (s : Snapshot) (f : Figures) : Nat := ((trialStatus s f).map CorrStatus.code).getD codeRejected

/-- The status by the tap stage, the settle test and the counts of R12. -/
theorem trialCode_eq (s : Snapshot) (f : Figures) : trialCode s f =
    if f.degenerate then 4
    else if s.state = .tracking then (if f.settles then 2 else 1)
    else if s.policy.settleTarget ≤ (if f.settles then s.settle + 1 else 0) then 2
    else if s.policy.acquireLimit ≤ s.step + 1 then 3
    else 1 := by
  unfold trialCode trialStatus
  dsimp only
  generalize (if f.settles = true then s.settle + 1 else 0) = settle
  split
  · rfl
  · split
    · split <;> rfl
    · split
      · rfl
      · split <;> rfl

/-- What a TRIAL reports as its correction, by its status: that of the figures, none, or what R81 leaves of a
REJECTED one. -/
theorem trialCorrection_cases (s : Snapshot) (f : Figures) :
    ((trialCode s f = 1 ∨ trialCode s f = 2) ∧ ∃ st, trialCorrection s f = f.correction st s.basis 0)
    ∨ (trialCode s f = 3 ∧ trialCorrection s f = abortCorrection s.basis 0)
    ∨ (trialCode s f = 4 ∧ trialCorrection s f = { abortCorrection s.basis 0 with
        timingClamped := f.timing.clamped, powerClamped := f.power.clamped, freqClamped := f.freq.clamped }) := by
  unfold trialCorrection trialCode
  rcases trialStatus s f with _ | _ | _ | _
  · exact .inr (.inr ⟨rfl, rfl⟩)
  · exact .inl ⟨.inl rfl, _, rfl⟩
  · exact .inl ⟨.inr rfl, _, rfl⟩
  · exact .inr (.inl ⟨rfl, rfl⟩)

/-- CONTINUE and SETTLED report the figures' correction, flags and all. -/
theorem trialCorrection_moves {s : Snapshot} {f : Figures} (h : trialCode s f = 1 ∨ trialCode s f = 2) :
    let c := trialCorrection s f
    c.flagsByte = correctionFlags f.newTaps.isSome f.clipped f.tapsSkipped f.timing.clamped f.power.clamped
      f.freq.clamped
    ∧ c.timing = f.timing.adjust ∧ c.freq = f.freq.adjust ∧ c.power = f.power.adjust ∧ c.taps = f.newTaps := by
  rcases trialCorrection_cases s f with ⟨-, st, hc⟩ | ⟨h', -⟩ | ⟨h', -⟩
  · rw [hc]
    exact ⟨rfl, rfl, rfl, rfl, rfl⟩
  · omega
  · omega

/-- ABORT and REJECTED report no adjustments and no taps. -/
theorem trialCorrection_stays {s : Snapshot} {f : Figures} (h : ¬ (trialCode s f = 1 ∨ trialCode s f = 2)) :
    let c := trialCorrection s f
    c.timing = 0 ∧ c.freq = 0 ∧ c.power = 0 ∧ c.taps = none := by
  rcases trialCorrection_cases s f with ⟨h', -⟩ | ⟨-, hc⟩ | ⟨-, hc⟩
  · exact absurd h' h
  · rw [hc]
    exact ⟨rfl, rfl, rfl, rfl⟩
  · rw [hc]
    exact ⟨rfl, rfl, rfl, rfl⟩

/-- An ABORT has no flags (R44). -/
theorem trialCorrection_abort_flags {s : Snapshot} {f : Figures} (h : trialCode s f = 3) :
    (trialCorrection s f).flagsByte = 0 := by
  rcases trialCorrection_cases s f with ⟨h', -⟩ | ⟨-, hc⟩ | ⟨h', -⟩
  · omega
  · rw [hc]
    rfl
  · omega

/-- A REJECTED one has the clamp flags alone (R81). -/
theorem trialCorrection_rejected_flags {s : Snapshot} {f : Figures} (h : trialCode s f = 4) :
    (trialCorrection s f).flagsByte
      = flagBit 3 f.timing.clamped + flagBit 4 f.power.clamped + flagBit 5 f.freq.clamped := by
  rcases trialCorrection_cases s f with ⟨h', -⟩ | ⟨h', -⟩ | ⟨-, hc⟩
  · omega
  · omega
  · rw [hc]
    simp [Correction.flagsByte, correctionFlags, flagBit, abortCorrection]

/-! ## The result field by field (R196) -/

/-- The tap set of a TRIAL result: zeros where there is none. -/
def trialTapBytes : Option (List Tap) → List Byte
  | none => zeros 48
  | some ts => tapBytes ts

@[simp] theorem trialTapBytes_length (ts : Option (List Tap)) : (trialTapBytes ts).length = 48 := by
  cases ts <;> simp [trialTapBytes]

/-- A TRIAL result of these values. -/
def trialLayout (key : Key) (stamp : Tick) (basis status mode health settled ranged : Nat) (c : Correction)
    (raw : List Byte) : List Byte :=
  le 1 1 ++ (le 1 status ++ (le 1 mode ++ (le 1 c.flagsByte ++ (key.toBytes ++ (leInt 4 c.timing ++ (leInt 2 c.freq
    ++ (leInt 1 c.power ++ (le 1 health ++ (le 1 settled ++ (le 1 ranged ++ (le 2 basis ++ (le 4 stamp.toNat
    ++ (zeros 8 ++ (trialTapBytes c.taps ++ (zeros 48 ++ raw)))))))))))))))

/-- The result of an update is laid out so (R196). -/
theorem trialResultBytes_eq (key : Key) (stamp : Tick) (s : Snapshot) (r : List Byte) (raw : Bool) :
    let f := figures s r (trialGains s)
    trialResultBytes key stamp s r raw = trialLayout key stamp s.basis (trialCode s f)
      (if s.state = .tracking then 2 else 1) f.health (flagBit 0 (f.settles && !f.degenerate))
      (flagBit 0 f.timing.ranged + flagBit 1 f.power.ranged + flagBit 2 f.freq.ranged) (trialCorrection s f)
      (if raw then rawBytes f else []) := by
  simp only [trialResultBytes, trialLayout, trialCode, List.append_assoc]
  cases trialStatus s (figures s r (trialGains s)) <;>
    cases (trialCorrection s (figures s r (trialGains s))).taps <;> rfl

@[simp] theorem Key.toBytes_length (k : Key) : k.toBytes.length = 4 := by simp [Key.toBytes]

section
variable {b raw : List Byte} {key : Key} {stamp : Tick} {basis status mode health settled ranged : Nat} {c : Correction}
  (laid : b = trialLayout key stamp basis status mode health settled ranged c raw)
include laid

/-- A result is 128 bytes and its raw part. -/
theorem trialLayout_length : b.length = 128 + raw.length := by
  simp only [laid, trialLayout, List.length_append, le_length, leInt_length, zeros_length, Key.toBytes_length,
    trialTapBytes_length]
  omega

/-- Each field stands at its offset. -/
theorem trialLayout_fields :
    field b 0 1 = le 1 1 ∧ field b 1 1 = le 1 status ∧ field b 2 1 = le 1 mode ∧ field b 3 1 = le 1 c.flagsByte
    ∧ field b 4 4 = key.toBytes ∧ field b 8 4 = leInt 4 c.timing ∧ field b 12 2 = leInt 2 c.freq
    ∧ field b 14 1 = leInt 1 c.power ∧ field b 15 1 = le 1 health ∧ field b 16 1 = le 1 settled
    ∧ field b 17 1 = le 1 ranged ∧ field b 18 2 = le 2 basis ∧ field b 20 4 = le 4 stamp.toNat
    ∧ field b 24 8 = zeros 8 ∧ field b 32 48 = trialTapBytes c.taps ∧ field b 80 48 = zeros 48 := by
  simp [laid, trialLayout, field_append_right, field_head]

/-- The three adjustments stand side by side. -/
theorem trialLayout_adjustments : field b 8 7 = leInt 4 c.timing ++ (leInt 2 c.freq ++ leInt 1 c.power) := by
  have grouped (post : List Byte) : leInt 4 c.timing ++ (leInt 2 c.freq ++ (leInt 1 c.power ++ post))
      = (leInt 4 c.timing ++ (leInt 2 c.freq ++ leInt 1 c.power)) ++ post := by simp only [List.append_assoc]
  have length : (leInt 4 c.timing ++ (leInt 2 c.freq ++ leInt 1 c.power)).length = 7 := by simp
  simp only [laid, trialLayout, field_append_right, le_length, Key.toBytes_length, Nat.reduceLeDiff, Nat.reduceSub]
  rw [grouped, field_head length]

/-- The raw part stands behind the 128 bytes. -/
theorem trialLayout_raw (off n : Nat) : field b (128 + off) n = field raw off n := by
  let head := trialLayout key stamp basis status mode health settled ranged c []
  have length : head.length = 128 := trialLayout_length (b := head) rfl
  have split : b = head ++ raw := by simp only [laid, head, trialLayout, List.append_assoc, List.append_nil]
  rw [split, field_append_right (by omega), length, Nat.add_sub_cancel_left]

end

/-- The raw part is r and the taps of Q, and zeros where stage Q did not run (R82). -/
theorem rawBytes_fields (f : Figures) : (rawBytes f).length = 100
    ∧ (f.tapStage = none → field (rawBytes f) 0 100 = zeros 100)
    ∧ ∀ q, f.tapStage = some q → field (rawBytes f) 0 4 = leInt 4 q.r
      ∧ ∀ k, k < 12 → field (rawBytes f) (4 + 8 * k) 8 = rawTapBytes (tapAt q.q k) := by
  have eight (t : Tap) : (rawTapBytes t).length = 8 := by simp [rawTapBytes]
  unfold rawBytes
  cases h : f.tapStage with
  | none => exact ⟨zeros_length 100, fun _ => rfl, nofun⟩
  | some t =>
    refine ⟨?_, nofun, ?_⟩
    · simp [List.length_flatMap, eight]
    · rintro _ ⟨⟩
      refine ⟨field_head (leInt_length 4 _), fun k hk => ?_⟩
      rw [field_append_right (by rw [leInt_length]; exact Nat.le_add_right ..), leInt_length, Nat.add_sub_cancel_left]
      exact field_flatMap _ (fun k => eight _) hk

/-! ## The steps of a TRIAL (R81, R82) -/

/-- A step that answers the descriptor and hands a notice to NW behind that (R96). -/
theorem event_answers_told {s t : State} {f : State → State} {st : Status} {n : Notice} (h : s.inReset = false)
    (hf : f s = notify n (answer st t)) : Answers (event s f) (notify n t) st := by
  obtain ⟨m, hm, hg⟩ := notify_cmuSubmit n (t.statusAccess st) .statusWrite none t
  have status : (notify n t).statusAccess st = t.statusAccess st := by
    obtain ⟨_, _, e⟩ := notify_with n t
    rw [e]
    rfl
  refine event_nextIs h f (hf.trans hm) rfl ?_
  rw [status]
  exact MemPort.gains_trans (submit_gains { notify n t with cmu := _ } .command _ none) hg

/-- A TRIAL job that completes unpins its entry and has its result written (R81, R82). -/
theorem trial_completes {s : State} {j : Job} {snap : Snapshot} {raw : Bool} {pos e : Nat} (hs : s.Steady)
    (he : s.engine = .computing j none snap) (hj : j.kind = .trial raw pos) (hp : s.PinnedOnly e) (hlt : e < 32) :
    NextIs (exec .jobCompletion s)
      { s with
        engine := .idle
        entries := s.entriesWith e { s.entry e with pinned := false }
        cmu := s.cmuIn (.trialWrite j.key) }
      [ownWrite .trialResult (s.controlBase + 0xA000) (trialResultBytes j.key j.stamp snap j.record raw)] := by
  have unpinned : unpin { s with engine := .idle }
      = { s with engine := .idle, entries := s.entriesWith e { s.entry e with pinned := false } } :=
    unpin_only (s := { s with engine := .idle }) hlt hp
  have effect : completeJob s = State.cmuSubmit
      { s with engine := .idle, entries := s.entriesWith e { s.entry e with pinned := false } }
      (ownWrite .trialResult (s.controlBase + 0xA000) (trialResultBytes j.key j.stamp snap j.record raw))
      (.trialWrite j.key) := by
    simp only [completeJob, he, hj, finishTrial, unpinned]
  exact cacheEvent_submits hs.running effect
    (hs.quiet.of rfl hs.requests (sound_entriesWith hs.sound rfl fun h => h) rfl)

/-- The end of the result's write answers the command (R82). -/
theorem trial_answered {s : State} {key : Key} {a : Access} {rest : List Access} (hs : s.inReset = false)
    (hc : s.cmu.phase = .trialWrite key) (ha : s.oldest (isPurpose .trialResult) a rest) :
    Answers (exec (.trialResultWriteEnd false) s) (s.ended rest) .done
    ∧ Answers (exec (.trialResultWriteEnd true) s) (notify ⟨.memoryFault, 6, key, s.now, 0⟩ (s.ended rest))
      .memory := by
  have ends (error : Bool) : (s.ending (isPurpose .trialResult) fun _ y => trialWriteEnded error y)
      = if error then notify ⟨.memoryFault, 6, key, s.now, 0⟩ (answer .memory (s.ended rest))
        else answer .done (s.ended rest) := by
    have phase : (s.ended rest).cmu.phase = .trialWrite key := hc
    rw [ending_ended ha, trialWriteEnded, phase]
    rfl
  constructor
  · exact event_answers (f := fun x => x.ending (isPurpose .trialResult) fun _ y => trialWriteEnded false y) hs
      (ends false)
  · exact event_answers_told (f := fun x => x.ending (isPurpose .trialResult) fun _ y => trialWriteEnded true y) hs
      (ends true)

/-- Settles O24: the job's completion, the end of its write, and the result laid out field by field with the
correction its status reports. -/
theorem trialReports : Obligations.TrialReports := by
  refine ⟨fun s j snap raw pos e hs he hj hp hlt => trial_completes hs he hj hp hlt,
    fun s key a rest hs hc ha => trial_answered hs hc ha, fun key stamp s r raw => ?_⟩
  intro b f bit settle status moves
  have code : trialCode s f = status := trialCode_eq s f
  have laid : b = _ := trialResultBytes_eq key stamp s r raw
  rw [show figures s r (trialGains s) = f from rfl, code] at laid
  obtain ⟨hversion, hstatus, hmode, hflags, hkey, htiming, hfreq, hpower, hhealth, hsettled, hranged, hbasis, hstamp,
    hgap, htaps, hrest⟩ := trialLayout_fields laid
  have length := trialLayout_length laid
  have adjustments := trialLayout_adjustments laid
  have rawField := trialLayout_raw laid
  obtain ⟨rawLength, rawNone, rawSome⟩ := rawBytes_fields f
  have moving (h : moves) := trialCorrection_moves (code ▸ h : trialCode s f = 1 ∨ trialCode s f = 2)
  have staying (h : ¬ moves) := trialCorrection_stays (code ▸ h : ¬ (trialCode s f = 1 ∨ trialCode s f = 2))
  refine ⟨?_, hversion, hstatus, hmode, fun h => ?_, fun h => ?_, fun h => ?_, hkey, fun h => ?_, fun h => ?_, hhealth,
    hsettled, hranged, hbasis, hstamp, hgap, fun ts h hts => ?_, fun h => ?_, hrest,
    fun h => ⟨fun hq => ?_, fun q hq => ?_⟩⟩
  · rw [length]
    cases raw
    · rfl
    · exact congrArg (128 + ·) rawLength
  · rw [hflags, (moving h).1]
    rfl
  · rw [hflags, trialCorrection_abort_flags (code.trans h)]
  · rw [hflags, trialCorrection_rejected_flags (code.trans h)]
    rfl
  · obtain ⟨-, timing, freq, power, -⟩ := moving h
    rw [htiming, hfreq, hpower, timing, freq, power]
    exact ⟨rfl, rfl, rfl⟩
  · obtain ⟨timing, freq, power, -⟩ := staying h
    rw [adjustments, timing, freq, power]
    rfl
  · obtain ⟨-, -, -, -, taps⟩ := moving h
    rw [htaps, taps, hts]
    rfl
  · have none : (trialCorrection s f).taps = none := by
      by_cases hm : moves
      · obtain ⟨-, -, -, -, taps⟩ := moving hm
        exact taps.trans (h.resolve_left (not_not_intro hm))
      · obtain ⟨-, -, -, taps⟩ := staying hm
        exact taps
    rw [htaps, none]
    rfl
  · subst h
    rw [rawField 0]
    exact rawNone hq
  · subst h
    obtain ⟨main, tap⟩ := rawSome q hq
    refine ⟨(rawField 0 4).trans main, fun k hk => ?_⟩
    rw [show 132 + 8 * k = 128 + (4 + 8 * k) by omega, rawField]
    exact tap k hk

end Sys2Proof.Machine
end

section
/-!
PROOFS. JOB_TAKE and JOB_CONTEXT_GIVEN: the entry a request takes, the waiting list, and the job given its context
(R70, R72, R87 to R90, R92).
-/

namespace Sys2Proof.Machine

/-! ## The entry that is reused (R86, R89) -/

theorem evictable_iff (s : State) (e : Nat) : s.evictable e = true ↔ s.reusable e := by
  have given (w : Wait) : w.given = true ↔ w = .ready ∨ w = .kept := by cases w <;> simp [Wait.given]
  simp only [State.evictable, State.owed, Bool.and_eq_true, Bool.not_eq_true', beq_iff_eq, List.any_eq_false, given,
    State.reusable, and_assoc, not_and]

/-- The first reusable entry of the recency order is the one chosen. -/
theorem lru_first {s : State} {pre post : List Nat} {e : Nat} (h : s.recency = pre ++ e :: post)
    (hpre : ∀ d ∈ pre, ¬ s.reusable d) (he : s.reusable e) : s.lru = some e := by
  rw [State.lru, h]
  exact List.find?_eq_some_iff_append.2 ⟨(evictable_iff s e).2 he, pre, post, rfl, fun d hd => by
    rw [Bool.not_eq_true', Bool.eq_false_iff]
    exact (evictable_iff s d).not.2 (hpre d hd)⟩

theorem lru_none {s : State} (h : ∀ e ∈ s.recency, ¬ s.reusable e) : s.lru = none :=
  List.find?_eq_none.2 fun d hd => (evictable_iff s d).not.2 (h d hd)

/-- With nothing to be had no request is placed (R89). -/
theorem place_none {s : State} (hf : s.freeEntry = none) (h : ∀ e ∈ s.recency, ¬ s.reusable e) (i : Nat) (k : Key) :
    place i k s = none := by
  simp only [place, hf, lru_none h]

/-- With no INVALID entry the chosen one is reused, at once or after its write-back (R88). -/
theorem place_reuses {s : State} {e : Nat} (hf : s.freeEntry = none) (hl : s.lru = some e) (i : Nat) (k : Key) :
    place i k s = if (s.entry e).dirty then some (startWriteBack e i s) else some (startFetch e i k s) := by
  simp only [place, hf, hl]

/-- A request that has just joined the waiting list owes no entry. -/
theorem reusable_addReq {s : State} {who : Requester} {i : Nat} {k : Key} (e : Nat) :
    (addReq who i k .list s).reusable e ↔ s.reusable e := by
  have reqs (P : Req → Prop) (h : P ⟨who, i, k, .list⟩) :
      (∀ r ∈ s.reqs ++ [⟨who, i, k, .list⟩], P r) ↔ ∀ r ∈ s.reqs, P r := by simp [or_imp, forall_and, h]
  simp only [State.reusable]
  exact and_congr_right' (and_congr_right' (and_congr_right' (and_congr_right' (reqs _ (by simp)))))

/-- A request for a context that no entry is of and none waits for takes an entry, or waits where none is to be had
(R88, R89). -/
theorem request_chooses {s : State} {who : Requester} {i : Nat} {k : Key} (hp : s.present i k = true)
    (hf : s.findEntry i = none) (hl : ∀ r ∈ s.reqs, r.wait ≠ .list) (hn : s.noneWaits i) :
    request who i k s = (place i k (addReq who i k .list s)).getD (addReq who i k .list s) := by
  have others : s.reqs.find? (fun r => r.index == i && !r.wait.given && r.wait != .fetch) = none := by
    refine List.find?_eq_none.2 fun r hr hc => ?_
    simp only [Bool.and_eq_true, beq_iff_eq] at hc
    have := hn r hr hc.1.1
    simp [this, Wait.given] at hc
  have list : (s.reqs.any fun r => r.wait == .list) = false := by simpa using hl
  simp [request, hp, hf, requestFresh, others, list]

/-! ## The fetch of an entry that was of another context (R88, R90) -/

/-- An entry invalidated and replaced is the one that replaces it. -/
theorem invalidate_entriesWith (s : State) (e : Nat) (x : Entry) :
    (invalidate e s).entriesWith e x = s.entriesWith e x := by
  by_cases h : (s.entry e).cond = .invalid
  · simp [invalidate, h]
  · rw [invalidate_eq h]
    exact entriesWith_twice s e {} x

/-- A fetch begun for the one request that waits for the context: that request waits on it, no other changes, and no
write is merged. -/
theorem startFetch_takes {s : State} {pre post : List Req} {r : Req} (hr : s.reqs = pre ++ r :: post)
    (hw : r.who.isWrite = false) (hg : r.wait.given = false)
    (ho : ∀ q ∈ pre ++ post, q.index = r.index → q.wait = .ready) (e : Nat) :
    startFetch e r.index r.key s = ({ invalidate e s with
      entries := s.entriesWith e { cond := .fetching, index := r.index, key := r.key }
      reqs := pre ++ { r with wait := .fetch } :: post } : State).submit .cache
        ⟨.fetch r.index, s.contextAddr r.index, .read 256⟩ (some s.takes) := by
  have before := fun q hq => ho q (List.mem_append_left post hq)
  have behind := fun q hq => ho q (List.mem_append_right pre hq)
  have own : mergesOf r.index [r] = [] := by
    obtain ⟨who, i, k, w⟩ := r
    cases who with
    | write => cases hw
    | _ => rfl
  have merges : mergesOf r.index s.reqs = [] := by
    rw [hr, ← List.singleton_append, mergesOf, List.filterMap_append, List.filterMap_append]
    exact List.append_eq_nil_iff.2 ⟨mergesOf_none before, List.append_eq_nil_iff.2 ⟨own, mergesOf_none behind⟩⟩
  have reqs : ((s.reqs.filter fun q => !(q.who.isWrite && q.index == r.index && !q.wait.given)).map fun q =>
      if q.index = r.index ∧ !q.wait.given then { q with wait := .fetch } else q)
        = pre ++ { r with wait := .fetch } :: post := by
    rw [hr, List.filter_append, List.map_append, reqs_fetching before, List.filter_cons_of_pos (by simp [hw]),
      List.map_cons, reqs_fetching behind, if_pos (by simp [hg])]
  rw [startFetch, reqs, merges, ← invalidate_entriesWith s e]
  rfl

/-! ## The request that reuses an entry (R88, R92) -/

/-- The requests with one more that waits for an entry, or is served, where none waited. -/
theorem wait_concat {rs : List Req} (h : ∀ r ∈ rs, r.wait ≠ .list) {r : Req} (hr : r.wait ≠ .list) :
    ∀ q ∈ rs ++ [r], q.wait ≠ .list := by
  intro q hq
  rcases List.mem_append.1 hq with hq | hq
  · exact h q hq
  · rw [List.mem_singleton.1 hq]
    exact hr

section
variable {s : State} {who : Requester} {i e : Nat} {k : Key}

/-- With nothing to be had the request joins the waiting list (R89). -/
theorem request_waits (hp : s.present i k = true) (hf : s.findEntry i = none) (hl : ∀ r ∈ s.reqs, r.wait ≠ .list)
    (hn : s.noneWaits i) (hnone : place i k (addReq who i k .list s) = none) :
    request who i k s = addReq who i k .list s := by
  rw [request_chooses hp hf hl hn, hnone, Option.getD_none]

variable {pre post : List Nat}

/-- The entry a request reuses is the first reusable one, and stays so when the request has joined the list. -/
theorem lru_addReq (hrec : s.recency = pre ++ e :: post) (hpre : ∀ d ∈ pre, ¬ s.reusable d) (he : s.reusable e) :
    (addReq who i k .list s).lru = some e :=
  lru_first (s := addReq who i k .list s) hrec (fun d hd => (reusable_addReq d).not.2 (hpre d hd))
    ((reusable_addReq e).2 he)

/-- A clean entry is reused at once (R88). -/
theorem request_refetches (hw : who.isWrite = false) (hp : s.present i k = true) (hf : s.findEntry i = none)
    (hl : ∀ r ∈ s.reqs, r.wait ≠ .list) (hn : s.noneWaits i) (hfree : s.freeEntry = none)
    (hrec : s.recency = pre ++ e :: post) (hpre : ∀ d ∈ pre, ¬ s.reusable d) (he : s.reusable e)
    (hd : (s.entry e).dirty = false) : request who i k s = ({ s.withoutEntry e (s.entry e).index with
      entries := s.entriesWith e { cond := .fetching, index := i, key := k }
      reqs := s.reqs ++ [⟨who, i, k, .fetch⟩] } : State).submit .cache
        ⟨.fetch i, s.contextAddr i, .read 256⟩ (some s.takes) := by
  let y := addReq who i k .list s
  have clean : (y.entry e).dirty = false := hd
  have valid : (y.entry e).cond ≠ .invalid := by rw [show (y.entry e).cond = .valid from he.1]; nofun
  have placed : place i k y = some (startFetch e i k y) := by
    rw [place_reuses (s := y) hfree (lru_addReq hrec hpre he), clean, if_neg Bool.false_ne_true]
  have taken := startFetch_takes (s := y) (pre := s.reqs) (post := []) rfl hw rfl
    (fun q hq => hn q (by simpa using hq)) e
  rw [invalidate_eq valid] at taken
  rw [request_chooses hp hf hl hn, placed, Option.getD_some]
  exact taken

/-- A dirty one is written back first, and the request waits for that (R88, R92). -/
theorem request_writes_back (hp : s.present i k = true) (hf : s.findEntry i = none)
    (hl : ∀ r ∈ s.reqs, r.wait ≠ .list) (hn : s.noneWaits i) (hfree : s.freeEntry = none)
    (hrec : s.recency = pre ++ e :: post) (hpre : ∀ d ∈ pre, ¬ s.reusable d) (he : s.reusable e)
    (hd : (s.entry e).dirty = true) : request who i k s = ({ s with
      entries := s.entriesWith e { s.entry e with cond := .retiring, retire := {} }
      reqs := s.reqs ++ [⟨who, i, k, .writeBack e⟩] } : State).submit .cache
        (ownWrite (.writeBack (s.entry e).index (s.entry e).key) (s.contextAddr (s.entry e).index)
          (s.contextBytes e)) := by
  let y := addReq who i k .list s
  have dirty : (y.entry e).dirty = true := hd
  have placed : place i k y = some (startWriteBack e i y) := by
    rw [place_reuses (s := y) hfree (lru_addReq hrec hpre he), dirty, if_pos rfl]
  have reqs : y.reqs.map (fun r => if r.index = i ∧ r.wait = .list then { r with wait := .writeBack e } else r)
      = s.reqs ++ [⟨who, i, k, .writeBack e⟩] := by
    refine List.map_append.trans (congrArg₂ _ ((List.map_congr_left fun r hr => ?_).trans (List.map_id _)) ?_)
    · exact if_neg fun h => hl r hr h.2
    · exact congrArg (fun r => [r]) (if_pos ⟨rfl, rfl⟩)
  rw [request_chooses hp hf hl hn, placed, Option.getD_some, startWriteBack, reqs]
  rfl

end

/-! ## The waiting list (R89) -/

/-- With nothing to be had the waiting list waits on. -/
theorem pumpLoop_full {s : State} (h : ∀ i k, place i k s = none) (n : Nat) : pumpLoop n s = s := by
  cases n with
  | zero => rfl
  | succ n =>
    unfold pumpLoop
    split
    · rfl
    · next r _ => rw [h r.index r.key]

/-- A step that leaves a request in a waiting list from which nothing can be placed. -/
theorem cacheEvent_full {s t : State} {f : State → State} (h : s.inReset = false) (hf : f s = t)
    (hfull : ∀ i k, place i k t = none) (hp : t.atPort = []) (hs : ∃ e, e < 32 ∧ (t.entry e).faulted = false)
    (ht : ∀ x ∈ t.txns, x.result = none ∧ x.responded = false) : NextIs (cacheEvent s f) t [] := by
  obtain ⟨e, he, hsound⟩ := hs
  have sound : t.allFaulted = false := List.all_eq_false.2 ⟨e, List.mem_range.2 he, by simp [hsound]⟩
  have pumped : pump t = t := by
    simp only [pump, serveList, pumpLoop_full hfull, sound, Bool.false_eq_true, if_false]
  refine event_silent h ?_
  rw [hf, settle, pumped, flush_quiet ht, drainPort_empty hp]

/-- The oldest request takes the one entry that is to be had, and the others wait on. -/
theorem serveList_takes {s : State} {pre post : List Req} {r : Req} {e : Nat} (hr : s.reqs = pre ++ r :: post)
    (hpre : ∀ q ∈ pre, q.wait ≠ .list) (hl : r.wait = .list) (hw : r.who.isWrite = false)
    (ho : ∀ q ∈ pre ++ post, q.index ≠ r.index) (hf : s.freeEntry = some e)
    (hfull : ∀ d, d < 32 → d ≠ e → (s.entry d).cond ≠ .invalid ∧ ¬ s.reusable d) :
    serveList s = ({ s with
      entries := s.entriesWith e { cond := .fetching, index := r.index, key := r.key }
      reqs := pre ++ { r with wait := .fetch } :: post } : State).submit .cache
        ⟨.fetch r.index, s.contextAddr r.index, .read 256⟩ (some s.takes) := by
  have given : r.wait.given = false := by rw [hl]; rfl
  have taken := startFetch_takes hr hw given (fun q hq hi => absurd hi (ho q hq)) e
  rw [show invalidate e s = s by simp [invalidate, freeEntry_invalid hf]] at taken
  have he := freeEntry_lt hf
  generalize ht : startFetch e r.index r.key s = t at taken
  have reqs : t.reqs = pre ++ { r with wait := .fetch } :: post := by rw [taken]; rfl
  have fetching : (t.entry e).cond = .fetching := by
    rw [taken]
    exact congrArg Entry.cond (entry_setEntry_self s e _ he)
  have other (d : Nat) (hd : d ≠ e) : t.entry d = s.entry d := by
    rw [taken]
    exact entry_setEntry_ne s e d _ (Ne.symm hd)
  have full : t.freeEntry = none := by
    refine List.find?_eq_none.2 fun d hd => ?_
    by_cases hde : d = e
    · simp [hde, fetching]
    · simpa [other d hde] using (hfull d (List.mem_range.1 hd) hde).1
  have none (d : Nat) : ¬ t.reusable d := by
    by_cases hde : d = e
    · simp [hde, fetching]
    · rw [State.reusable, other d hde, reqs]
      rintro ⟨valid, pinned, faulted, holds, owed⟩
      have hd : d < 32 := Nat.lt_of_not_le fun hge => by
        have : s.entry d = {} := by simp [State.entry, Vector.getD, Array.getD, Nat.not_lt.mpr hge]
        simp [this] at valid
      refine (hfull d hd hde).2 ⟨valid, pinned, faulted, holds, fun q hq hg => ?_⟩
      rw [hr, List.mem_append, List.mem_cons] at hq
      rcases hq with hq | rfl | hq
      · exact owed q (by simp [hq]) hg
      · simp [hl] at hg
      · exact owed q (by simp [hq]) hg
  have placed : place r.index r.key s = some t := by simp only [place, hf, ht]
  have oldest : s.reqs.find? (fun q => q.wait == .list) = some r :=
    List.find?_eq_some_iff_append.2 ⟨by simp [hl], pre, post, hr, fun q hq => by simpa using hpre q hq⟩
  have length : s.reqs.length = (pre ++ post).length + 1 := by simp [hr]; omega
  rw [serveList, length, pumpLoop, oldest]
  simp only [placed]
  rw [pumpLoop_full (place_none full fun d _ => none d), taken]

/-! ## JOB_TAKE (R70) -/

/-- CE asks the cache for the context of the head job. -/
theorem takeJob_asks {s : State} {j : Job} {rest : List Job} (hr : s.run ≠ .idle) (he : s.engine = .idle)
    (hq : s.queue = j :: rest) :
    takeJob s = request .engine j.index j.key { s with queue := rest, engine := .obtaining j none } := by
  rw [takeJob, if_neg hr, he, hq]

/-- With no job to take nothing changes. -/
theorem takeJob_idle {s : State} (h : s.run = .idle ∨ s.engine ≠ .idle ∨ s.queue = []) : takeJob s = s := by
  unfold takeJob
  split
  · rfl
  · next hr =>
    split
    · next he hq =>
      rcases h with h | h | h
      · exact absurd h hr
      · exact absurd he h
      · rw [hq] at h
        cases h
    · rfl

/-! ## JOB_CONTEXT_GIVEN (R72) -/

/-- The engine begins to compute on the context it is given, whatever its state is for a TRIAL job. -/
theorem giveEngine_begins {s : State} {j : Job} {mark : Option LossCause} {e : Nat} (he : s.engine = .obtaining j mark)
    (hready : s.Ready .engine j.index j.key) (hserved : s.ServedBy j.index j.key e)
    (hj : j.isCapture = true → mark = none ∧ (s.entry e).image.state ≠ .lapsed) : giveEngine s = { s with
      reqs := s.reqsWithout .engine
      recency := s.recencyWith e
      entries := s.entriesWith e { s.entry e with pinned := true }
      engine := .computing j none (snapshotOf (s.entry e).image (s.policyOf j.key)) } := by
  have touched : touchFor .engine e s (dropReq .engine s)
      = { s with recency := s.recencyWith e, reqs := s.reqsWithout .engine } :=
    touchFor_ready (s := dropReq .engine s) hready hserved.2.2
  have unmarked : ¬ (j.isCapture = true ∧ mark.isSome = true) := fun ⟨hc, hm⟩ => by simp [(hj hc).1] at hm
  have present : ¬ (j.isCapture = true ∧ (s.entry e).image.state = .lapsed) := fun ⟨hc, hl⟩ => (hj hc).2 hl
  simp only [giveEngine, he, hserved.given, touched, unmarked, present, if_false]
  rfl

/-- Settles O21: the request by what the cache has of the context, the waiting list, and the context given. -/
theorem jobTakenAndGiven : Obligations.JobTakenAndGiven := by
  refine ⟨fun s j rest hs hr he hq => ?_, fun s => ⟨fun hf hn => pumpLoop_full (place_none hf hn) _, ?_⟩,
    fun s hs h => cacheEvent_silent hs.running (takeJob_idle h) hs.quiet,
    fun s j mark e hs he hready hserved hj => ?_⟩
  · intro asked
    have asks := takeJob_asks hr he hq
    let x : State := { s with queue := rest, engine := .obtaining j none }
    have waits (w : Wait) (hw : w ≠ .list) : ∀ r ∈ (asked w).reqs, r.wait ≠ .list := wait_concat hs.requests hw
    refine ⟨fun h => ?_, fun e hp hf hn hfree => ?_, fun hp hf hn hfree =>
      ⟨fun pre e post hrec hpre hreuse => ⟨fun hd => ?_, fun hd => ?_⟩, fun hnone => ?_⟩⟩
    · have ready : request .engine j.index j.key x = asked .ready := by
        rcases h with ⟨e, hserved⟩ | hgone
        · exact request_served (s := x) hserved
        · exact request_gone (s := x) hgone
      exact cacheEvent_silent hs.running (asks.trans ready) (hs.quiet.of rfl (waits .ready nofun) hs.sound rfl)
    · have fetch := request_fetches (s := x) (who := .engine) rfl hp hf hs.requests hn hfree
      refine cacheEvent_nextIs hs.running _ (asks.trans fetch) ?_ rfl (submit_gains _ _ _ _)
      refine hs.quiet.of rfl (waits .fetch nofun) ?_ rfl
      exact sound_entriesWith hs.sound rfl nofun
    · have fetch := request_refetches (s := x) (who := .engine) rfl hp hf hs.requests hn hfree hrec hpre hreuse hd
      refine cacheEvent_nextIs hs.running _ (asks.trans fetch) ?_ rfl (submit_gains _ _ _ _)
      refine ⟨hs.port, waits .fetch nofun, ?_, unanswered_dropHolds _ hs.unanswered⟩
      exact sound_entriesWith hs.sound rfl nofun
    · have writeBack := request_writes_back (s := x) (who := .engine) hp hf hs.requests hn hfree hrec hpre hreuse hd
      refine cacheEvent_nextIs hs.running _ (asks.trans writeBack) ?_ rfl (submit_gains _ _ _ _)
      refine hs.quiet.of rfl (waits (.writeBack e) nofun) ?_ rfl
      exact sound_entriesWith hs.sound rfl fun h => h
    · have full := place_none (s := asked .list) hfree fun e he => (reusable_addReq (s := x) e).not.2 (hnone e he)
      have list := request_waits (s := x) (who := .engine) hp hf hs.requests hn (full _ _)
      exact cacheEvent_full hs.running (asks.trans list) full hs.port hs.sound hs.unanswered
  · intro pre r post e hr hpre hl hw ho hf hfull
    exact ⟨_, serveList_takes hr hpre hl hw ho hf hfull, submit_gains _ _ _ _⟩
  · have gives : giveIfReady .engine s = giveEngine s := by
      rw [giveIfReady, readyReq_of hready]
      rfl
    refine cacheEvent_silent hs.running (gives.trans (giveEngine_begins he hready hserved hj)) ?_
    refine hs.quiet.of rfl (reqsWithout_wait hs.requests _) ?_ rfl
    exact sound_entriesWith hs.sound rfl fun h => h

end Sys2Proof.Machine
end

section
/-!
PROOFS. Laws of capture intake: the discard of an assembly (R53, R54), and that what intake does is the same with
other transactions open and CMU in another phase.
-/

namespace Sys2Proof.Machine

/-! ## Torn assemblies (R53, R54) -/

/-- Discarding the assembly of an entry tears it with the detail's code. -/
theorem discardAssembly_eq (w : Nat) (why : TornDetail) (s : State) :
    discardAssembly w why s = s.torn w why.code := by
  unfold discardAssembly State.torn
  cases s.assembly w with
  | none => rfl
  | some a =>
    refine congrArg (notify _) ?_
    unfold Assembly.tornChannel
    cases a.bytes.getD 0 none with
    | none => rfl
    | some b => by_cases hb : b.toNat ≤ 15 <;> (simp only [hb, if_true, if_false]; rfl)

/-- An open assembly discarded, in the operations it is made of. -/
theorem discardAssembly_some {s : State} {w : Nat} {a : Assembly} (h : s.assembly w = some a) (why : TornDetail) :
    discardAssembly w why s = notify ⟨.captureTorn, why.code, recKey a.record, a.stamp, a.written⟩
      (countTorn a.tornChannel (s.setAssembly w none)) := by
  simp only [discardAssembly, h]

/-- With no assembly open there is none to discard (R54). -/
theorem discardAssembly_none {s : State} {w : Nat} (h : s.assembly w = none) (why : TornDetail) :
    discardAssembly w why s = s := by
  simp only [discardAssembly, h]

/-- With no assembly open nothing is torn. -/
theorem torn_none {s : State} {w : Nat} (h : s.assembly w = none) (detail : Nat) : s.torn w detail = s := by
  simp only [State.torn, h]

/-- A notice is the same with other quiet timers running. -/
theorem notify_quietTimers (n : Notice) (s : State) (q : Vector (Option QuietTimer) 16) :
    notify n { s with quietTimers := q } = { notify n s with quietTimers := q } := by
  unfold notify
  split <;> rfl

/-- So is the discard of an assembly. -/
theorem discardAssembly_quietTimers (w : Nat) (why : TornDetail) (s : State) (q : Vector (Option QuietTimer) 16) :
    discardAssembly w why { s with quietTimers := q } = { discardAssembly w why s with quietTimers := q } := by
  cases h : s.assembly w with
  | none => rw [discardAssembly_none h, discardAssembly_none (s := { s with quietTimers := q }) h]
  | some a =>
    rw [discardAssembly_some h, discardAssembly_some (s := { s with quietTimers := q }) h, ← notify_quietTimers]
    cases a.tornChannel <;> rfl

/-- A notice is the same with another window table. -/
theorem notify_setWindow (n : Notice) (s : State) (i : Nat) (v : Option Window) :
    notify n (s.setWindow i v) = (notify n s).setWindow i v := by
  by_cases h : s.nw.notices.held < Config.ringHeldLimit <;>
    (simp only [notify, setWindow_nw, h, if_true, if_false]; rfl)

/-- So is the discard of an assembly. -/
theorem discardAssembly_setWindow (w : Nat) (why : TornDetail) (s : State) (i : Nat) (v : Option Window) :
    discardAssembly w why (s.setWindow i v) = (discardAssembly w why s).setWindow i v := by
  cases h : s.assembly w with
  | none => rw [discardAssembly_none h, discardAssembly_none (s := s.setWindow i v) h]
  | some a =>
    rw [discardAssembly_some h, discardAssembly_some (s := s.setWindow i v) h, ← notify_setWindow]
    cases a.tornChannel <;> rfl

/-! ## Intake among other transactions -/

/-- A state with CMU, the cache and the transactions of another, none of which intake reaches, and another memory
port. -/
def State.among (s u : State) (m : MemPort) : State :=
  { s with
    cmu := u.cmu, entries := u.entries, reqs := u.reqs, atPort := u.atPort, takes := u.takes, txns := u.txns
    mem := m }

/-- Two states are the same but for what intake does not reach, which the second has of `u`, and the order at the
memory port. -/
def Likewise (u s t : State) : Prop := ∃ m, t = s.among u m ∧ s.mem.gains m []

/-- A state is alike itself. -/
theorem Likewise.refl (s : State) : Likewise s s s := ⟨s.mem, rfl, MemPort.gains_refl _⟩

/-- The second state has of `u` what intake does not reach. -/
theorem Likewise.among_self {u s t : State} (h : Likewise u s t) : t.among u t.mem = t := by
  obtain ⟨m, rfl, -⟩ := h
  rfl

/-- What reads neither what intake does not reach nor the memory port reads the same of both. -/
theorem Likewise.read {α : Type} {u s t : State} (h : Likewise u s t) {g : State → α}
    (hg : ∀ s m, g (s.among u m) = g s) : g t = g s := by
  obtain ⟨m, rfl, -⟩ := h
  exact hg s m

/-- An operation that neither reads nor writes what the two states differ in keeps them alike. -/
theorem Likewise.keep {u s t : State} (h : Likewise u s t) {f : State → State}
    (hf : ∀ s m, f (s.among u m) = (f s).among u m) (hm : ∀ s, (f s).mem = s.mem) : Likewise u (f s) (f t) := by
  obtain ⟨m, rfl, hg⟩ := h
  exact ⟨m, hf s m, (hm s).symm ▸ hg⟩

/-- A notice keeps them alike (R181). -/
theorem Likewise.notify {u s t : State} (h : Likewise u s t) (n : Notice) :
    Likewise u (Machine.notify n s) (Machine.notify n t) := by
  obtain ⟨m, rfl, hg⟩ := h
  rcases notify_cases n s with ⟨hn, eq⟩ | ⟨hn, eq⟩ <;>
    rcases notify_cases n (s.among u m) with ⟨hn', eq'⟩ | ⟨hn', eq'⟩
  · refine ⟨_, by rw [eq, eq']; rfl, ?_⟩
    rw [eq]
    exact MemPort.gains_apart (submit_gains { s with nw := _ } .notice _ none)
      (MemPort.gains_trans hg (submit_gains { s.among u m with nw := _ } .notice _ none))
  · exact absurd hn hn'
  · exact absurd hn' hn
  · exact ⟨m, by rw [eq, eq']; rfl, eq ▸ hg⟩

/-- The discard of an assembly keeps them alike. -/
theorem Likewise.discard {u s t : State} (h : Likewise u s t) (w : Nat) (why : TornDetail) :
    Likewise u (discardAssembly w why s) (discardAssembly w why t) := by
  have same : t.assembly w = s.assembly w := h.read (g := fun x => x.assembly w) fun _ _ => rfl
  cases hw : s.assembly w with
  | none => rwa [discardAssembly_none hw, discardAssembly_none (same.trans hw)]
  | some a =>
    rw [discardAssembly_some hw, discardAssembly_some (same.trans hw)]
    refine Likewise.notify (h.keep (f := fun x => countTorn a.tornChannel (x.setAssembly w none)) ?_ ?_) _
    · intro s m
      cases a.tornChannel <;> rfl
    · intro s
      cases a.tornChannel <;> rfl

/-- So does the discard of every assembly. -/
theorem Likewise.discardAll {u s t : State} (h : Likewise u s t) (why : TornDetail) :
    Likewise u (Machine.discardAll why s) (Machine.discardAll why t) := by
  unfold Machine.discardAll
  generalize List.range 6 = ws
  induction ws generalizing s t with
  | nil => exact h
  | cons w ws ih => exact ih (h.discard w why)

end Sys2Proof.Machine
end

section
/-!
PROOFS. The quiet timers and the run state: QUIET_TIMER_EXPIRY, START with the due order it keeps, STOP with the
assemblies it discards, and the end of the mirror write (R54, R62, R63, R65, R109, R121, R165, R166).
-/

namespace Sys2Proof.Machine

/-! ## Quiet timers (R62, R63) -/

/-- What QUIET_TIMER_EXPIRY does to a running quiet timer: nothing before its interval has run. -/
theorem quietTimerExpiry_next {s x : State} {ch : Fin 16} {t : QuietTimer} (hr : s.inReset = false)
    (ht : s.quietTimer ch.val = some t)
    (hx : (if t.interval ≤ elapsed s.now t.since then expireQuiet ch.val t s else s) = x) :
    NextIs (exec (.quietTimerExpiry ch) s) x [] := by
  change NextIs (execQuietTimerExpiry ch s) x []
  unfold execQuietTimerExpiry
  exact event_silent hr (by simp only [ht, hx])

/-- Settles O31: whether the interval has run, then the state of the channel. -/
theorem quietExpiry : Obligations.QuietExpiry := by
  intro s ch t hr ht stopped said
  refine ⟨fun hrun => ?_, fun hwait => quietTimerExpiry_next hr ht (if_neg (Nat.not_le.2 hwait))⟩
  have expires : (if t.interval ≤ elapsed s.now t.since then expireQuiet ch.val t s else s)
      = expireQuiet ch.val t s := if_pos hrun
  exact ⟨fun hc => quietTimerExpiry_next hr ht (expires.trans (by simp only [expireQuiet, hc]; rfl)),
    fun hc => quietTimerExpiry_next hr ht (expires.trans (by simp only [expireQuiet, hc]; rfl))⟩

/-- A quiet timer just replaced reads as the new one, and every other as before. -/
theorem quietTimer_setQuietTimer (s : State) {c : Nat} (hc : c < 16) (t : Option QuietTimer) (ch : Nat) :
    (s.setQuietTimer c t).quietTimer ch = if ch = c then t else s.quietTimer ch := by
  by_cases h : ch = c
  · subst h
    simp [State.quietTimer, State.setQuietTimer, Vector.getD, hc]
  · have ne : c ≠ ch := Ne.symm h
    simp [State.quietTimer, State.setQuietTimer, Vector.getD, Array.getD_eq_getD_getElem?,
      Array.getElem?_setIfInBounds_ne ne, h]

/-- Restarting the quiet timers of some channels changes the timers alone: of each that is not CLOSED it starts again
(R62). -/
theorem restartQuiet_fold (chs : List Nat) (hl : ∀ c ∈ chs, c < 16) (s : State) :
    ∃ timers : Vector (Option QuietTimer) 16,
      chs.foldl (fun acc ch => if (acc.channel ch).state = .closed then acc else restartQuiet ch acc) s
        = { s with quietTimers := timers }
    ∧ ∀ ch, timers.getD ch none = if ch ∈ chs ∧ (s.channel ch).state ≠ .closed
        then some ⟨quietInterval (s.policy ch).quiet, s.now⟩ else s.quietTimer ch := by
  induction chs generalizing s with
  | nil => exact ⟨s.quietTimers, rfl, fun ch => by simp [State.quietTimer]⟩
  | cons c cs ih =>
    have hcs : ∀ c ∈ cs, c < 16 := fun x hx => hl x (List.mem_cons_of_mem _ hx)
    rw [List.foldl_cons]
    by_cases hc : (s.channel c).state = .closed
    · obtain ⟨timers, eq, read⟩ := ih hcs s
      refine ⟨timers, by rw [if_pos hc, eq], fun ch => ?_⟩
      by_cases he : ch = c
      · subst he
        simp [read, hc]
      · simp [read, he]
    · obtain ⟨timers, eq, read⟩ := ih hcs (restartQuiet c s)
      refine ⟨timers, by rw [if_neg hc, eq]; rfl, fun ch => ?_⟩
      have head : (restartQuiet c s).quietTimer ch
          = if ch = c then some ⟨quietInterval (s.policy c).quiet, s.now⟩ else s.quietTimer ch :=
        quietTimer_setQuietTimer s (hl c List.mem_cons_self) _ ch
      have channel : (restartQuiet c s).channel ch = s.channel ch := rfl
      have policy : (restartQuiet c s).policy ch = s.policy ch := rfl
      rw [read, head, channel, policy, restartQuiet_now]
      by_cases he : ch = c
      · subst he
        simp [hc]
      · simp [he]

/-! ## The due order (R109) -/

/-- An entry placed in due order leaves the entries in due order. -/
theorem dueInsert_ordered {now : Tick} {e : CalEntry} {es : List CalEntry}
    (h : es.Pairwise fun a b => distance now a.due ≤ distance now b.due) :
    (dueInsert now e es).Pairwise fun a b => distance now a.due ≤ distance now b.due := by
  induction es with
  | nil => exact List.pairwise_singleton _ _
  | cons x rest ih =>
    obtain ⟨hx, hrest⟩ := List.pairwise_cons.1 h
    unfold dueInsert
    split
    · next hle =>
      refine List.pairwise_cons.2 ⟨fun y hy => ?_, ih hrest⟩
      rcases List.mem_cons.1 ((dueInsert_perm now e rest).subset hy) with rfl | hy
      · exact hle
      · exact hx y hy
    · next hgt =>
      refine List.pairwise_cons.2 ⟨fun y hy => ?_, h⟩
      rcases List.mem_cons.1 hy with rfl | hy
      · omega
      · have := hx y hy
        omega

/-- An entry placed in due order goes behind those of its distance. -/
theorem dueInsert_behind {now : Tick} {e : CalEntry} {es : List CalEntry}
    (h : es.Pairwise fun a b => distance now a.due ≤ distance now b.due) (d : Int) :
    (dueInsert now e es).filter (fun x => distance now x.due == d)
      = (es ++ [e]).filter fun x => distance now x.due == d := by
  induction es with
  | nil => rfl
  | cons x rest ih =>
    obtain ⟨hx, hrest⟩ := List.pairwise_cons.1 h
    unfold dueInsert
    split
    · rw [List.cons_append, List.filter_cons, List.filter_cons, ih hrest]
    · next hgt =>
      by_cases hd : distance now e.due = d
      · have later : (x :: rest).filter (fun y => distance now y.due == d) = [] := by
          refine List.filter_eq_nil_iff.2 fun y hy => ?_
          have : distance now x.due ≤ distance now y.due := by
            rcases List.mem_cons.1 hy with rfl | hy
            · exact Int.le_refl _
            · exact hx y hy
          simp only [beq_iff_eq]
          omega
        rw [List.filter_append, later, List.filter_cons, later]
        simp [hd]
      · simp [List.filter_append, List.filter_cons, hd]

/-- The due order is by ascending distance, entries of one distance in the order they had. -/
theorem dueOrder_stable (now : Tick) (es : List CalEntry) :
    ((dueOrder now es).Pairwise fun a b => distance now a.due ≤ distance now b.due)
    ∧ ∀ d, (dueOrder now es).filter (fun x => distance now x.due == d)
      = es.filter fun x => distance now x.due == d := by
  have fold : ∀ (es acc : List CalEntry), (acc.Pairwise fun a b => distance now a.due ≤ distance now b.due) →
      ((es.foldl (fun acc e => dueInsert now e acc) acc).Pairwise fun a b => distance now a.due ≤ distance now b.due)
      ∧ ∀ d, (es.foldl (fun acc e => dueInsert now e acc) acc).filter (fun x => distance now x.due == d)
        = (acc ++ es).filter fun x => distance now x.due == d := by
    intro es
    induction es with
    | nil => exact fun acc h => ⟨h, fun d => by rw [List.append_nil]; rfl⟩
    | cons e es ih =>
      intro acc h
      obtain ⟨ordered, kept⟩ := ih _ (dueInsert_ordered h)
      refine ⟨ordered, fun d => ?_⟩
      rw [List.foldl_cons, kept, List.filter_append, dueInsert_behind h, ← List.filter_append, List.append_assoc]
      rfl
  exact fold es [] List.Pairwise.nil

/-! ## START (R165) -/

/-- A START that passes its checks restarts timers and, from IDLE, the calendar, and writes the mirror word. -/
theorem startRun_eq (s : State) : ∃ timers : Vector (Option QuietTimer) 16,
    (∀ ch, ch < 16 → timers.getD ch none =
      if (s.channel ch).state = .closed then s.quietTimer ch else some ⟨quietInterval (s.policy ch).quiet, s.now⟩)
    ∧ startRun s = { s with
        run := .running
        quietTimers := timers
        calendar :=
          if s.run = .idle then (dueOrder s.now s.calendar).map fun e => { e with due := s.now, base := s.now }
          else s.calendar } := by
  let x : State := { (if s.run = .idle then calRebase s else s) with run := .running }
  have rebased : x = { s with
      run := .running
      calendar :=
        if s.run = .idle then (dueOrder s.now s.calendar).map fun e => { e with due := s.now, base := s.now }
        else s.calendar } := by
    dsimp only [x]
    split <;> rfl
  obtain ⟨timers, eq, read⟩ := restartQuiet_fold (List.range 16) (fun c hc => List.mem_range.1 hc) x
  refine ⟨timers, fun ch hch => ?_, ?_⟩
  · rw [read, rebased]
    by_cases hc : (s.channel ch).state = .closed
    · rw [if_pos hc, if_neg fun h => h.2 hc]
      rfl
    · rw [if_neg hc, if_pos ⟨List.mem_range.2 hch, hc⟩]
      rfl
  · change restartQuietAll x = _
    rw [restartQuietAll, eq, rebased]

/-- Settles O39: the two checks of START, its event, the due order, and the interval by cases of the policy field. -/
theorem startRuns : Obligations.StartRuns := by
  refine ⟨fun s d hs => ?_, fun now es => dueOrder_stable now es, fun q => ?_⟩
  · have begun := onCommand_of (code := codeStart) hs fun _ x =>
      if x.mayStart then writeMirror (startRun x) else answer .state x
    refine ⟨fun h => event_answers hs.1 (begun.trans (if_neg ?_)), fun hr hw => ?_⟩
    · rcases h with h | h <;> simp [State.mayStart, h]
    · have may : s.mayStart = true := by simp [State.mayStart, hr, Option.isSome_iff_ne_none, hw]
      obtain ⟨timers, read, eq⟩ := startRun_eq s
      exact ⟨timers, read, event_submits hs.1 (begun.trans ((if_pos may).trans (congrArg writeMirror eq)))⟩
  · by_cases hq : q = 0 <;> simp [quietInterval, msTicks, Config.ticksPerMs, hq, Nat.mul_comm]

/-! ## STOP (R166) -/

/-- Tearing entry after entry is discarding the assemblies of each. -/
theorem discardAll_eq (why : TornDetail) (s : State) :
    discardAll why s = [0, 1, 2, 3, 4, 5].foldl (fun x w => x.torn w why.code) s := by
  have each : (fun (acc : State) w => discardAssembly w why acc) = fun x w => x.torn w why.code :=
    funext fun x => funext fun w => discardAssembly_eq w why x
  unfold discardAll
  rw [each]
  rfl

/-- The discard of every assembly is the same with other quiet timers running. -/
theorem discardAll_quietTimers (why : TornDetail) (s : State) (q : Vector (Option QuietTimer) 16) :
    discardAll why { s with quietTimers := q } = { discardAll why s with quietTimers := q } := by
  unfold discardAll
  generalize List.range 6 = ws
  induction ws generalizing s with
  | nil => rfl
  | cons w ws ih => rw [List.foldl_cons, List.foldl_cons, discardAssembly_quietTimers, ih]

/-- A STOP in RUNNING discards every open assembly and writes the mirror word (R54, R166). -/
theorem stop_running {s : State} {d : List Byte} (hs : s.Executing 0x02 d) (hr : s.run = .running) :
    NextIs (exec .stop s)
      ([0, 1, 2, 3, 4, 5].foldl (fun x w => x.torn w 3)
        { s with run := .stopped, quietTimers := Vector.replicate 16 none, cmu := s.cmuIn .mirrorWrite })
      [ownWrite .mirror (s.controlBase + 0x18) (le 4 3)] := by
  let halted : State := { s with run := .stopped, quietTimers := Vector.replicate 16 none }
  let stopped : State := { halted with cmu := s.cmuIn .mirrorWrite }
  have effect : onCommand codeStop
      (fun _ x => if x.run = .running then writeMirror (stopRun x) else answer .state x) s
      = writeMirror (discardAll .stopped halted) := by
    rw [onCommand_of (code := codeStop) hs, if_pos hr, stopRun, ← discardAll_quietTimers]
  have others := ((Likewise.refl halted).discardAll .stopped).among_self
  have kept : (discardAll .stopped halted).fixed = halted.fixed := discardAll_fixed _ _
  have alike : Likewise stopped halted stopped := ⟨s.mem, rfl, MemPort.gains_refl _⟩
  have torn := alike.discardAll .stopped
  rw [discardAll_eq .stopped stopped] at torn
  change NextIs _ ([0, 1, 2, 3, 4, 5].foldl (fun x w => x.torn w 3) stopped) _
  change Likewise _ _ ([0, 1, 2, 3, 4, 5].foldl (fun x w => x.torn w 3) stopped) at torn
  generalize discardAll .stopped halted = y at *
  generalize [0, 1, 2, 3, 4, 5].foldl (fun x w => x.torn w 3) stopped = t at *
  obtain ⟨m, rfl, gained⟩ := torn
  simp only [State.fixed, Prod.mk.injEq] at kept
  obtain ⟨-, strap, run, -⟩ := kept
  have mirror : ownWrite .mirror (y.controlBase + 0x18) (le 4 y.run.code)
      = ownWrite .mirror (s.controlBase + 0x18) (le 4 3) := by
    rw [run, State.controlBase, strap]
    rfl
  rw [← mirror]
  refine event_nextIs hs.1 _ effect ?_ ?_
  · exact congrArg (fun z : State => { z with cmu := z.cmuIn .mirrorWrite, mem := m }) others.symm
  · exact MemPort.gains_trans (MemPort.gains_apart gained (MemPort.gains_refl _))
      (submit_gains { y with cmu := _ } _ _ _)

/-- The end of the mirror write answers START or STOP (R165, R166). -/
theorem mirror_answered {s : State} {a : Access} {rest : List Access} (hs : s.inReset = false)
    (hc : s.cmu.phase = .mirrorWrite) (ha : s.oldest (isPurpose .mirror) a rest) :
    Answers (exec (.mirrorWriteEnd false) s) (s.ended rest) .done
    ∧ Answers (exec (.mirrorWriteEnd true) s) (notify ⟨.memoryFault, 10, ⟨0, 0⟩, s.now, s.run.code⟩ (s.ended rest))
      .memory := by
  have ends (error : Bool) : (s.ending (isPurpose .mirror) fun _ y => mirrorWriteEnded error y)
      = if error then notify ⟨.memoryFault, 10, ⟨0, 0⟩, s.now, s.run.code⟩ (answer .memory (s.ended rest))
        else answer .done (s.ended rest) := by
    have phase : (s.ended rest).cmu.phase = .mirrorWrite := hc
    rw [ending_ended ha, mirrorWriteEnded, phase]
    rfl
  constructor
  · exact event_answers (f := fun x => x.ending (isPurpose .mirror) fun _ y => mirrorWriteEnded false y) hs
      (ends false)
  · exact event_answers_told (f := fun x => x.ending (isPurpose .mirror) fun _ y => mirrorWriteEnded true y) hs
      (ends true)

/-- Settles O40: the check of STOP, the assemblies it tears or finds none of, and the end of the mirror write. -/
theorem stopStops : Obligations.StopStops := by
  refine ⟨fun s d hs => ?_, fun s a rest hr hc ha => mirror_answered hr hc ha⟩
  intro stopped mirror
  refine ⟨fun hr => event_answers hs.1 ((onCommand_of (code := codeStop) hs _).trans (if_neg hr)), fun hr => ?_⟩
  refine ⟨stop_running hs hr, fun hn => ?_⟩
  have untorn : [0, 1, 2, 3, 4, 5].foldl (fun (x : State) w => x.torn w 3) stopped = stopped := by
    have entries : ∀ w ∈ [0, 1, 2, 3, 4, 5], w < 6 := by decide
    refine List.foldlRecOn (motive := fun x => x = stopped) _ _ rfl ?_
    rintro x rfl w hw
    exact torn_none (s := stopped) (hn w (entries w hw)) 3
  rw [← untorn]
  exact stop_running hs hr

end Sys2Proof.Machine
end

section
/-!
PROOFS. SET_WINDOW: each of its checks read off the window table, the directory and the cache, and the entry it sets
with the assembly it tears (R54, R162 to R164).
-/

namespace Sys2Proof.Machine

/-! ## The window table (R162) -/

/-- An entry that holds a window is one of the table's six. -/
theorem window_lt {s : State} {i : Nat} {w : Window} (h : s.window i = some w) : i < 6 := by
  by_contra hi
  simp [State.window, Vector.getD, Array.getD, hi] at h

/-- An entry is an enabled window of a kind. -/
def State.isKind (s : State) (k : WindowKind) (i : Nat) : Bool := (s.window i).any fun w => w.kind == k

/-- It holds one, and of that kind. -/
theorem isKind_iff {s : State} {k : WindowKind} {i : Nat} :
    s.isKind k i = true ↔ ∃ w, s.window i = some w ∧ w.kind = k := by
  simp [State.isKind, Option.any_eq_true]

/-- The other windows of a kind, counted entry by entry. -/
theorem otherWindows_eq (s : State) (n : Nat) (k : WindowKind) :
    s.otherWindows n k = (((List.range 6).filter fun i => i != n).filter (s.isKind k)).length := by
  unfold State.otherWindows State.windowsOf
  generalize List.range 6 = is
  induction is with
  | nil => rfl
  | cons i is ih =>
    cases hw : s.window i with
    | none =>
      have kind : s.isKind k i = false := by simp [State.isKind, hw]
      cases hn : i != n <;> simp [hw, hn, kind, ih]
    | some w =>
      have kind : s.isKind k i = (w.kind == k) := by simp [State.isKind, hw]
      cases hn : i != n <;> by_cases hk : w.kind = k <;> simp [hw, hn, hk, kind, ih]

/-- An entry that is the CONTEXT window. -/
theorem isContextEntry_iff {s : State} {n : Nat} :
    s.isContextEntry n = true ↔ ∃ w, s.window n = some w ∧ w.kind = .context := by
  unfold State.isContextEntry
  cases s.window n <;> simp

/-- The context window is in use where a key is admitted or a cache entry is not INVALID (R163). -/
theorem contextInUse_iff {s : State} :
    s.contextInUse = true ↔ s.kdir ≠ [] ∨ ∃ e, e < 32 ∧ (s.entry e).cond ≠ .invalid := by
  simp [State.contextInUse]

/-! ## The checks (R163) -/

/-- Two runs of bytes share one where each begins before the other ends. -/
theorem overlaps_iff {a n b m : Nat} : overlaps a n b m = true ↔ a < b + m ∧ b < a + n := by
  simp [overlaps]

/-- A window size is a power of two from 4 KiB to 1 GiB (R162). -/
theorem windowSize_iff {n : Nat} : windowSize n = true ↔ ∃ k, k < 19 ∧ n = 4096 * 2 ^ k := by
  simp [windowSize]

/-- A byte shared with the window of another entry. -/
theorem windowOverlaps_iff {s : State} {n : Nat} {w : Window} : s.windowOverlaps n w = true ↔
    ∃ i x, i ≠ n ∧ s.window i = some x ∧ w.base < x.base + x.size ∧ x.base < w.base + w.size := by
  simp only [State.windowOverlaps, List.any_eq_true, List.mem_range, Bool.and_eq_true, bne_iff_ne]
  constructor
  · rintro ⟨i, -, hn, h⟩
    split at h
    · cases h
    · next x hx => exact ⟨i, x, hn, hx, overlaps_iff.1 h⟩
  · rintro ⟨i, x, hn, hx, h⟩
    exact ⟨i, window_lt hx, hn, by simpa only [hx] using overlaps_iff.2 h⟩

/-- A second CONTEXT window: some other entry is one. -/
theorem windowCrowded_context {s : State} {n : Nat} :
    s.windowCrowded n .context = true ↔ ∃ i, i ≠ n ∧ ∃ w, s.window i = some w ∧ w.kind = .context := by
  simp only [State.windowCrowded, otherWindows_eq, decide_eq_true_eq, Nat.succ_le_iff, List.length_pos_iff_exists_mem,
    List.mem_filter, isKind_iff, bne_iff_ne, List.mem_range]
  constructor
  · rintro ⟨i, ⟨-, hn⟩, hw⟩
    exact ⟨i, hn, hw⟩
  · rintro ⟨i, hn, w, hw⟩
    exact ⟨i, ⟨window_lt hw.1, hn⟩, w, hw⟩

/-- A sixth CAPTURE window: every other entry is one. -/
theorem windowCrowded_capture {s : State} {n : Nat} (hn : n < 6) : s.windowCrowded n .capture = true ↔
    ∀ i, i < 6 → i ≠ n → i ≠ n ∧ ∃ w, s.window i = some w ∧ w.kind = .capture := by
  have five : ((List.range 6).filter fun i => i != n).length = 5 := by
    decide +revert
  have most := List.length_filter_le (s.isKind .capture) ((List.range 6).filter fun i => i != n)
  have all := List.length_filter_eq_length_iff (p := s.isKind .capture) (l := (List.range 6).filter fun i => i != n)
  have count : s.windowCrowded n .capture = true
      ↔ ∀ i ∈ (List.range 6).filter (fun i => i != n), s.isKind .capture i = true := by
    rw [← all, five, State.windowCrowded, otherWindows_eq, decide_eq_true_eq]
    omega
  rw [count]
  simp only [List.mem_filter, List.mem_range, bne_iff_ne, isKind_iff]
  exact ⟨fun h i hi hin => ⟨hin, h i ⟨hi, hin⟩⟩, fun h i hi => (h i hi.1 hi.2).2⟩

/-- A kind a SET_WINDOW names. -/
theorem windowKind_some {kind : Nat} (h : kind = 1 ∨ kind = 2) :
    windowKind kind = some (if kind = 1 then .capture else .context) := by
  rcases h with rfl | rfl <;> rfl

/-- Any other code names none. -/
theorem windowKind_none {kind : Nat} (h : ¬ (kind = 1 ∨ kind = 2)) : windowKind kind = none := by
  unfold windowKind
  split <;> simp_all

/-- An entry disabled (R163). -/
theorem checkWindow_disable {s : State} {n : Nat} (hn : n < 6) (kind base : Nat) : s.checkWindow n kind base 0
    = if s.isContextEntry n = true ∧ s.contextInUse = true then .error .inUse else .ok none := by
  simp only [State.checkWindow, Nat.not_lt.2 (Nat.le_of_lt_succ hn), if_false, if_true]

/-- An entry given a window: what is left of the checks once the descriptor names one (R163). -/
theorem checkWindow_enable {s : State} {n kind base size : Nat} {k : WindowKind} (hn : n < 6) (hz : size ≠ 0)
    (hk : windowKind kind = some k) (hl : windowSize size = true) (hb : base % size = 0) :
    s.checkWindow n kind base size =
      if s.windowOverlaps n ⟨k, base, size⟩ = true ∨ s.overlapsControl base size = true then .error .overlap
      else if s.windowCrowded n k = true then .error .inUse
      else if s.isContextEntry n = true ∧ s.window n ≠ some ⟨k, base, size⟩ ∧ s.contextInUse = true then .error .inUse
      else .ok (some ⟨k, base, size⟩) := by
  simp only [State.checkWindow, Nat.not_lt.2 (Nat.le_of_lt_succ hn), hz, hk, hl, hb, Bool.or_eq_true, Bool.not_true,
    bne_self_eq_false, Bool.or_self, Bool.false_eq_true, if_false]

/-- A descriptor that names no entry, or no window where it does not disable (R163). -/
theorem checkWindow_range {s : State} {n kind base size : Nat}
    (h : 5 < n ∨ size ≠ 0 ∧ (windowKind kind = none ∨ windowSize size = false ∨ base % size ≠ 0)) :
    s.checkWindow n kind base size = .error .range := by
  unfold State.checkWindow
  rcases h with hn | ⟨hz, hw⟩
  · rw [if_pos hn]
  · by_cases hn : 5 < n
    · rw [if_pos hn]
    · rw [if_neg hn, if_neg hz]
      cases hk : windowKind kind with
      | none => rfl
      | some k => rcases hw with hw | hw | hw <;> simp_all

/-! ## The entry set (R164) -/

/-- A SET_WINDOW that a check refuses. -/
theorem setWindow_refused {s : State} {d : List Byte} {st : Status} (hs : s.Executing 0x03 d)
    (h : s.checkWindow (byteAt d 8) (byteAt d 9) (getAddress d 12) (getLe d 20 4) = .error st) :
    Answers (exec .setWindow s) s st := by
  change Answers (execSetWindow s) s st
  unfold execSetWindow
  refine event_answers hs.1 ?_
  rw [onCommand_of (code := codeSetWindow) hs]
  simp only [h]

/-- A SET_WINDOW that passes its checks. -/
theorem setWindow_taken {s x : State} {d : List Byte} {w : Option Window} (hs : s.Executing 0x03 d)
    (h : s.checkWindow (byteAt d 8) (byteAt d 9) (getAddress d 12) (getLe d 20 4) = .ok w)
    (hx : applyWindow (byteAt d 8) w s = x) : Answers (exec .setWindow s) x .done := by
  change Answers (execSetWindow s) x .done
  unfold execSetWindow
  refine event_answers hs.1 ?_
  rw [onCommand_of (code := codeSetWindow) hs]
  simp only [h, hx]

/-- An entry that holds the value it is given is left as it stands. -/
theorem applyWindow_same {s : State} {n : Nat} {w : Option Window} (h : s.window n = w) : applyWindow n w s = s :=
  if_pos h

/-- An entry that changes loses its assembly (R54). -/
theorem applyWindow_changes {s : State} {n : Nat} {w : Option Window} (h : s.window n ≠ w) :
    applyWindow n w s = (s.setWindow n w).torn n 2 := by
  rw [applyWindow, if_neg h, ← discardAssembly_setWindow, discardAssembly_eq]
  rfl

/-- What follows a SET_WINDOW that passes its checks (R164). -/
theorem setWindow_sets {s : State} {d : List Byte} {w : Option Window} (hs : s.Executing 0x03 d)
    (h : s.checkWindow (byteAt d 8) (byteAt d 9) (getAddress d 12) (getLe d 20 4) = .ok w) :
    (s.window (byteAt d 8) = w → Answers (exec .setWindow s) s .done)
    ∧ (s.window (byteAt d 8) ≠ w →
      (s.assembly (byteAt d 8) = none → Answers (exec .setWindow s) (s.setWindow (byteAt d 8) w) .done)
      ∧ Answers (exec .setWindow s) ((s.setWindow (byteAt d 8) w).torn (byteAt d 8) 2) .done) := by
  refine ⟨fun hw => setWindow_taken hs h (applyWindow_same hw), fun hw => ⟨fun ha => ?_, ?_⟩⟩
  · refine setWindow_taken hs h ((applyWindow_changes hw).trans (torn_none ?_ 2))
    exact ha
  · exact setWindow_taken hs h (applyWindow_changes hw)

/-- Settles O41: the value SET_WINDOW's checks give in the order of R163, and the entry it sets. -/
theorem windowSet : Obligations.WindowSet := by
  intro s d hs n kind base size named others wrong shares crowds barred
  let k : WindowKind := if kind = 1 then .capture else .context
  have entry (h : ¬ wrong) : n < 6 := Nat.lt_of_not_le fun hn => h (.inl hn)
  have kinds (h : ¬ wrong) (hz : size ≠ 0) : kind = 1 ∨ kind = 2 := by_contra fun hk => h (.inr ⟨hz, .inl hk⟩)
  have sized (h : ¬ wrong) (hz : size ≠ 0) : ∃ k, k < 19 ∧ size = 4096 * 2 ^ k :=
    by_contra fun hl => h (.inr ⟨hz, .inr (.inl hl)⟩)
  have aligned (h : ¬ wrong) (hz : size ≠ 0) : base % size = 0 := by_contra fun hb => h (.inr ⟨hz, .inr (.inr hb)⟩)
  have disables (h : ¬ wrong) (hz : size = 0) : s.checkWindow n kind base size
      = if s.isContextEntry n = true ∧ s.contextInUse = true then .error .inUse else .ok none :=
    hz ▸ checkWindow_disable (entry h) kind base
  have enables (h : ¬ wrong) (hz : size ≠ 0) :=
    checkWindow_enable (s := s) (entry h) hz (windowKind_some (kinds h hz)) (windowSize_iff.2 (sized h hz))
      (aligned h hz)
  have value (hz : size ≠ 0) : named = some ⟨k, base, size⟩ := if_neg hz
  have sharesIff : s.windowOverlaps n ⟨k, base, size⟩ = true ∨ s.overlapsControl base size = true ↔ shares :=
    or_congr windowOverlaps_iff overlaps_iff
  have crowdsIff (h : ¬ wrong) (hz : size ≠ 0) : s.windowCrowded n k = true ↔ crowds := by
    rcases kinds h hz with hk | hk
    · have capture : k = .capture := if_pos hk
      rw [capture, windowCrowded_capture (entry h)]
      exact ⟨fun hc => .inr ⟨hk, hc⟩, fun hc => hc.elim (fun hc => by omega) And.right⟩
    · have context : k = .context := if_neg (by omega)
      rw [context, windowCrowded_context]
      exact ⟨fun hc => .inl ⟨hk, hc⟩, fun hc => hc.elim And.right fun hc => by omega⟩
  have barredIff : s.isContextEntry n = true ∧ s.window n ≠ named ∧ s.contextInUse = true ↔ barred :=
    and_congr isContextEntry_iff (and_congr Iff.rfl contextInUse_iff)
  refine ⟨fun h => setWindow_refused hs (checkWindow_range ?_), fun h hz hsh => setWindow_refused hs ?_,
    fun h hz hsh hc => setWindow_refused hs ?_, fun h hz hb => setWindow_refused hs ?_,
    fun h hz hb => setWindow_sets hs ?_⟩
  · refine h.imp_right fun ⟨hz, hw⟩ => ⟨hz, hw.imp windowKind_none (.imp_left fun hl => ?_)⟩
    exact Bool.eq_false_iff.2 (mt windowSize_iff.1 hl)
  · exact (enables h hz).trans (if_pos (sharesIff.2 hsh))
  · refine (enables h hz).trans ((if_neg (mt sharesIff.1 hsh)).trans ?_)
    by_cases hcr : crowds
    · exact if_pos ((crowdsIff h hz).2 hcr)
    · have hb := barredIff.2 (hc.resolve_left hcr)
      rw [value hz] at hb
      exact (if_neg (mt (crowdsIff h hz).1 hcr)).trans (if_pos hb)
  · obtain ⟨hcontext, -, huse⟩ := barredIff.2 hb
    exact (disables h hz).trans (if_pos ⟨hcontext, huse⟩)
  · by_cases hz0 : size = 0
    · have disabled : named = none := if_pos hz0
      rw [disabled]
      refine (disables h hz0).trans (if_neg fun ⟨hcontext, huse⟩ => hb (barredIff.1 ⟨hcontext, ?_, huse⟩))
      obtain ⟨w, hw, -⟩ := isContextEntry_iff.1 hcontext
      simp [hw, disabled]
    · obtain ⟨hsh, hcr⟩ := hz hz0
      rw [← barredIff, value hz0] at hb
      rw [value hz0]
      exact (enables h hz0).trans ((if_neg (mt sharesIff.1 hsh)).trans
        ((if_neg (mt (crowdsIff h hz0).1 hcr)).trans (if_neg hb)))

end Sys2Proof.Machine
end

section
/-!
PROOFS. The taking of a record: its checks in their order, the sign of life, and the heard effect with what the update
queue makes of the offer (R55 to R62, R117, R147).
-/

namespace Sys2Proof.Machine

/-! ## The sign of life (R56, R62) -/

/-- A record that passed the first check leaves its channel OPEN, its taken counter counted and its quiet timer
restarted. -/
def State.lively (s : State) (ch : Nat) : State := { s with
  channels := s.channels.setIfInBounds ch { s.channel ch with
    state := .opened
    counters := { (s.channel ch).counters with taken := min 4294967295 ((s.channel ch).counters.taken + 1) } }
  quietTimers := s.quietTimers.setIfInBounds ch (some ⟨quietInterval (s.policy ch).quiet, s.now⟩) }

/-- A channel record replaced by one with its policy leaves every policy. -/
theorem policy_setChannel {s : State} {ch : Nat} {x : Channel} (h : x.policy = s.policy ch) (c : Nat) :
    (s.setChannel ch x).policy c = s.policy c := by
  by_cases hc : ch = c
  · subst hc
    by_cases hl : ch < 16
    · rw [State.policy, channel_setChannel_self _ _ _ hl, h]
    · simp [State.policy, State.channel, State.setChannel, Vector.getD, Array.getD, hl]
  · rw [State.policy, channel_setChannel_ne _ _ _ _ hc, State.policy]

/-- A sign of life leaves every policy. -/
theorem policy_lively (s : State) (ch c : Nat) : (s.lively ch).policy c = s.policy c :=
  policy_setChannel (s := s) (x := { s.channel ch with state := .opened, counters := _ }) rfl c

/-- A channel's quiet timer restarted behind its taken counter. -/
theorem restartQuiet_countChannel (s : State) (ch : Nat) (f : ChanCounters → ChanCounters) :
    restartQuiet ch (s.countChannel ch f) = { s.countChannel ch f with
      quietTimers := s.quietTimers.setIfInBounds ch (some ⟨quietInterval (s.policy ch).quiet, s.now⟩) } := by
  have policy : (s.countChannel ch f).policy ch = s.policy ch :=
    policy_setChannel (x := { s.channel ch with counters := f (s.channel ch).counters }) rfl ch
  rw [restartQuiet, policy]
  rfl

/-- A channel record replaced and then opened. -/
theorem setChannel_opened {s : State} {ch : Nat} (hl : ch < 16) (c : Channel) (q : Vector (Option QuietTimer) 16) :
    ({ s.setChannel ch c with quietTimers := q } : State).setChannel ch
        { ({ s.setChannel ch c with quietTimers := q } : State).channel ch with state := .opened }
      = { s with channels := s.channels.setIfInBounds ch { c with state := .opened }, quietTimers := q } := by
  have replaced : ({ s.setChannel ch c with quietTimers := q } : State).channel ch = c :=
    channel_setChannel_self s ch c hl
  rw [replaced]
  exact congrArg (fun v => { s with channels := v, quietTimers := q }) (Vector.setIfInBounds_setIfInBounds c)

/-- On a channel that is not CLOSED a sign of life raises CHANNEL_ALIVE where the channel was QUIET (R56). -/
theorem signOfLife_eq {s : State} {key : Key} (hl : key.channel < 16) (hc : (s.channel key.channel).state ≠ .closed)
    (stamp : Tick) : signOfLife key stamp s
      = if (s.channel key.channel).state = .quiet then notify ⟨.channelAlive, 0, key, stamp, 0⟩ (s.lively key.channel)
        else s.lively key.channel := by
  unfold signOfLife
  dsimp only
  rw [restartQuiet_countChannel]
  split
  · refine congrArg (notify _) ?_
    exact setChannel_opened hl _ _
  · next hq =>
    have opened : (s.channel key.channel).state = .opened := by
      cases h : (s.channel key.channel).state <;> simp_all
    rw [State.lively, ← opened]
    rfl

/-- It changes, beside its channel, NW and the memory port alone. -/
theorem signOfLife_with {s : State} {key : Key} (hl : key.channel < 16)
    (hc : (s.channel key.channel).state ≠ .closed) (stamp : Tick) :
    ∃ w m, signOfLife key stamp s = { s.lively key.channel with nw := w, mem := m } := by
  rw [signOfLife_eq hl hc]
  split
  · exact notify_with _ _
  · exact ⟨_, _, rfl⟩

/-- So it leaves the directory. -/
theorem signOfLife_lookup {s : State} {key : Key} (hl : key.channel < 16)
    (hc : (s.channel key.channel).state ≠ .closed) (stamp : Tick) : (signOfLife key stamp s).lookup = s.lookup := by
  obtain ⟨w, m, life⟩ := signOfLife_with hl hc stamp
  rw [life]
  rfl

/-- And the calendar. -/
theorem signOfLife_calEntry {s : State} {key : Key} (hl : key.channel < 16)
    (hc : (s.channel key.channel).state ≠ .closed) (stamp : Tick) : (signOfLife key stamp s).calEntry = s.calEntry := by
  obtain ⟨w, m, life⟩ := signOfLife_with hl hc stamp
  rw [life]
  rfl

/-! ## The checks (R55 to R58) -/

/-- A channel is one of sixteen (R1). -/
theorem channelValid_iff {ch : Nat} : channelValid ch = true ↔ ch < 16 := by
  simp [channelValid, Nat.lt_succ_iff]

/-- A station of an admitted link (R1). -/
theorem stationValid_iff {st : Nat} : stationValid st = true ↔ 1 ≤ st ∧ st ≤ 16383 := by
  simp [stationValid]

/-- A channel above 15 (R55). -/
theorem takeRecord_badChannel {r : List Byte} (h : 15 < (recKey r).channel) (stamp : Tick) (s : State) :
    takeRecord r stamp s = notify ⟨.captureUnknown, 1, recKey r, stamp, 0⟩ s := by
  have bad : channelValid (recKey r).channel = false := Bool.eq_false_iff.2 (mt channelValid_iff.1 (by omega))
  simp only [takeRecord, bad, Bool.not_false, if_true]
  rfl

/-- A CLOSED channel (R55, R147). -/
theorem takeRecord_closed {s : State} {r : List Byte} (hl : (recKey r).channel < 16)
    (hc : (s.channel (recKey r).channel).state = .closed) (stamp : Tick) :
    takeRecord r stamp s = notify ⟨.captureUnknown, 2, recKey r, stamp, 0⟩ s := by
  simp only [takeRecord, channelValid_iff.2 hl, hc, Bool.not_true, Bool.false_eq_true, if_false, if_true]
  rfl

/-- A station out of range (R55). -/
theorem takeRecord_badStation {s : State} {r : List Byte} (hl : (recKey r).channel < 16)
    (hc : (s.channel (recKey r).channel).state ≠ .closed)
    (hst : ¬ (1 ≤ (recKey r).station ∧ (recKey r).station ≤ 16383)) (stamp : Tick) :
    takeRecord r stamp s = notify ⟨.captureUnknown, 1, recKey r, stamp, 0⟩ s := by
  have bad : stationValid (recKey r).station = false := Bool.eq_false_iff.2 (mt stationValid_iff.1 hst)
  simp only [takeRecord, channelValid_iff.2 hl, hc, bad, Bool.not_true, Bool.not_false,
    Bool.false_eq_true, if_false, if_true]
  rfl

section Ranged

variable {s : State} {r : List Byte} (hl : (recKey r).channel < 16)
  (hc : (s.channel (recKey r).channel).state ≠ .closed)
  (hst : 1 ≤ (recKey r).station ∧ (recKey r).station ≤ 16383)
include hl hc hst

/-- A key that is not admitted (R57). -/
theorem takeRecord_unadmitted (h : s.lookup (recKey r) = none) (stamp : Tick) : takeRecord r stamp s
    = notify ⟨.captureUnknown, 3, recKey r, stamp, 0⟩
      ((signOfLife (recKey r) stamp s).countChannel (recKey r).channel fun k =>
        { k with unknown := min 4294967295 (k.unknown + 1) }) := by
  simp only [takeRecord, channelValid_iff.2 hl, hc, stationValid_iff.2 hst, signOfLife_lookup hl hc, h, Bool.not_true,
    Bool.false_eq_true, if_false]
  rfl

/-- A LAPSED context (R58). -/
theorem takeRecord_lapsed {idx : Nat} (h : s.lookup (recKey r) = some idx) (he : s.calEntry idx = none)
    (stamp : Tick) : takeRecord r stamp s
      = (signOfLife (recKey r) stamp s).countChannel (recKey r).channel fun k =>
        { k with lapsedCapture := min 4294967295 (k.lapsedCapture + 1) } := by
  simp only [takeRecord, channelValid_iff.2 hl, hc, stationValid_iff.2 hst, signOfLife_lookup hl hc, h,
    signOfLife_calEntry hl hc, he, Bool.not_true, Bool.false_eq_true, if_false]
  rfl

/-- A record that passes every check is heard (R59). -/
theorem takeRecord_heard {idx : Nat} {x : CalEntry} (h : s.lookup (recKey r) = some idx)
    (he : s.calEntry idx = some x) (stamp : Tick) :
    takeRecord r stamp s = takeHeard idx (recKey r) r stamp (signOfLife (recKey r) stamp s) := by
  simp only [takeRecord, channelValid_iff.2 hl, hc, stationValid_iff.2 hst, signOfLife_lookup hl hc, h,
    signOfLife_calEntry hl hc, he, Bool.not_true, Bool.false_eq_true, if_false]

end Ranged

/-! ## The heard effect (R59 to R61, R117) -/

/-- The due time of a link heard at a stamp: one period on, or now where that has run (R117). -/
def State.heardDue (s : State) (x : CalEntry) (stamp : Tick) : Tick :=
  let period := 16384 * (match x.cls with
    | .acquire => (s.policyOf x.key).acquirePeriod
    | .tracking => (s.policyOf x.key).trackingPeriod)
  if period ≤ (s.now - stamp).toNat then s.now else stamp + BitVec.ofNat 32 period

/-- It is the due time the calendar gives. -/
theorem dueFrom_eq (s : State) (x : CalEntry) (stamp : Tick) :
    dueFrom s.now stamp (periodTicks (s.policy x.key.channel) x.cls) = s.heardDue x stamp := by
  unfold State.heardDue periodTicks
  cases x.cls <;> simp only [msTicks, Config.ticksPerMs, Nat.mul_comm _ 16384] <;> rfl

/-- The entry of a heard link is an OFFER at its due time, without misses or a lapse. -/
theorem calHeard_eq {s : State} {idx : Nat} {x : CalEntry} (h : s.calEntry idx = some x) (stamp : Tick) :
    calHeard idx stamp s = { s with
      calendar := s.calendarWith { x with
        kind := .offer, miss := 0, lapsing := false, base := stamp, due := s.heardDue x stamp }
      lapses := s.lapses.filter fun l => l.index != idx } := by
  simp only [calHeard, h, dueFrom_eq]
  rfl

/-- The same behind a sign of life. -/
theorem calHeard_lively {s y : State} {ch idx : Nat} {x : CalEntry} {w : Nw} {m : MemPort}
    (hy : y = { s.lively ch with nw := w, mem := m }) (h : s.calEntry idx = some x) (stamp : Tick) :
    calHeard idx stamp y = { y with
      calendar := s.calendarWith { x with
        kind := .offer, miss := 0, lapsing := false, base := stamp, due := s.heardDue x stamp }
      lapses := s.lapses.filter fun l => l.index != idx } := by
  subst hy
  have policy : ({ s.lively ch with nw := w, mem := m } : State).policy = s.policy := funext (policy_lively s ch)
  have due : ({ s.lively ch with nw := w, mem := m } : State).heardDue x stamp = s.heardDue x stamp := by
    unfold State.heardDue State.policyOf
    rw [policy]
    rfl
  rw [calHeard_eq (s := { s.lively ch with nw := w, mem := m }) h, due]
  rfl

/-- A heard record that is COLLIDED counts and is not queued (R60). -/
theorem takeHeard_collided {r : List Byte} (h : recCollided r = true) (idx : Nat) (key : Key) (stamp : Tick)
    (s : State) : takeHeard idx key r stamp s = (calHeard idx stamp s).countChannel key.channel fun k =>
      { k with collided := min 4294967295 (k.collided + 1) } := by
  simp only [takeHeard, h, if_true]
  rfl

/-- One that is not is offered to the update queue (R61). -/
theorem takeHeard_offers {r : List Byte} (h : recCollided r = false) (idx : Nat) (key : Key) (stamp : Tick)
    (s : State) : takeHeard idx key r stamp s = offerJob idx key r stamp (calHeard idx stamp s) := by
  simp only [takeHeard, h, Bool.false_eq_true, if_false]

/-- What the update queue makes of an offer is read off the queue alone (R61, R67). -/
theorem offerJob_cases {s y : State} (hq : y.queue = s.queue) (idx : Nat) (key : Key) (r : List Byte) (stamp : Tick) :
    (s.waitingJob idx = true → offerJob idx key r stamp y = { y with
      queue := s.queue.map fun j => if j.isCapture && j.index == idx then j.supersede r stamp else j })
    ∧ (s.waitingJob idx = false → s.queue.length < 64 →
      offerJob idx key r stamp y = { y with queue := s.queue ++ [⟨.capture 0, idx, key, r, stamp⟩] })
    ∧ (s.waitingJob idx = false → 64 ≤ s.queue.length →
      offerJob idx key r stamp y = notify ⟨.captureDropped, 0, key, stamp, idx⟩
        (y.countChannel key.channel fun k => { k with dropped := min 4294967295 (k.dropped + 1) })) := by
  have waiting : y.waitingJob idx = s.waitingJob idx := by rw [State.waitingJob, hq, State.waitingJob]
  unfold offerJob
  rw [waiting, hq]
  refine ⟨fun hw => if_pos hw, fun hw hl => ?_, fun hw hl => ?_⟩
  · rw [hw, if_neg Bool.false_ne_true]
    exact if_pos hl
  · rw [hw, if_neg Bool.false_ne_true]
    exact if_neg (Nat.not_lt.2 hl)

/-- Settles O11: the checks in their order, and for a record heard, COLLIDED and the three ways of the queue. -/
theorem recordChecks : Obligations.RecordChecks := by
  intro s r stamp key count ranged state sign alive
  refine ⟨fun h => takeRecord_badChannel h stamp s, fun hch => ?_⟩
  have hl : key.channel < 16 := Nat.lt_succ_of_le hch
  refine ⟨fun hc => takeRecord_closed hl hc stamp, fun hc hst => takeRecord_badStation hl hc hst stamp,
    fun hc hst => ?_⟩
  have life : signOfLife key stamp s = alive := signOfLife_eq hl hc stamp
  obtain ⟨w, m, lively⟩ := signOfLife_with hl hc stamp
  refine ⟨fun h => ?_, fun idx h he => ?_, fun idx x h he => ?_⟩
  · exact (takeRecord_unadmitted hl hc hst h stamp).trans (by rw [life]; rfl)
  · exact (takeRecord_lapsed hl hc hst h he stamp).trans (by rw [life]; rfl)
  · intro p period heard
    have taken := takeRecord_heard hl hc hst h he stamp
    rw [life] at taken lively
    have effect : calHeard idx stamp alive = heard := calHeard_lively lively he stamp
    have queue : heard.queue = s.queue := by
      change alive.queue = s.queue
      rw [lively]
      rfl
    have offered (hcol : recCollided r = false) : takeRecord r stamp s = offerJob idx key r stamp heard :=
      taken.trans ((takeHeard_offers hcol ..).trans (congrArg _ effect))
    obtain ⟨supersedes, joins, drops⟩ := offerJob_cases queue idx key r stamp
    refine ⟨fun hcol => ?_, fun hcol => ⟨fun hw => (offered hcol).trans (supersedes hw),
      fun hw hq => (offered hcol).trans (joins hw hq), fun hw hq => (offered hcol).trans (drops hw hq)⟩⟩
    exact taken.trans ((takeHeard_collided hcol ..).trans (by rw [effect]; rfl))

end Sys2Proof.Machine
end

section
/-!
PROOFS. The gathering of a capture write: the assembly a part opens or goes on with, the stamp its bytes go out with,
the record it completes, and the passage of the write (R49 to R54, R159).
-/

namespace Sys2Proof.Machine

/-! ## The bytes (R51, R52) -/

/-- The stamp bytes of a block, 12 to 15, carry the latched stamp. -/
theorem stamped_eq (stamp : Tick) (off : Nat) (b : Byte) : stamped stamp off b
    = if 12 ≤ off ∧ off < 16 then BitVec.ofNat 8 (stamp.toNat / 2 ^ (8 * (off - 12))) else b := by
  unfold stamped
  split
  · next h =>
    have lt : off - 12 < 4 := by omega
    simp [stampByte, le, lt]
  · rfl

/-- The bytes of a capture write as they go out. -/
theorem rewrite_stamped (o : Owner) (off : Nat) (stamp : Tick) (bytes : List WByte) :
    Part.rewrite ⟨o, 0, bytes.length, off⟩ (fun k b => some (stamped stamp k b)) bytes
      = bytes.zipIdx.map fun b => b.1.map (stamped stamp (off + b.2)) := by
  refine List.map_congr_left fun b hb => ?_
  have lt : b.2 < 0 + bytes.length := by simpa using (List.mem_zipIdx hb).2.1
  rw [if_pos ⟨Nat.zero_le _, lt⟩, Nat.sub_zero]
  cases b.1 <;> rfl

/-! ## The assembly (R49, R50, R53) -/

/-- A part of a window marked into an assembly, and the record taken where that fills it (R49, R52). -/
def State.gather (s : State) (w : Nat) (ps : List (Nat × Byte)) (a : Assembly) : State × Tick :=
  (if (a.mark ps).full then takeRecord (a.mark ps).record a.stamp (s.setAssembly w none)
    else s.setAssembly w (some (a.mark ps)), a.stamp)

/-- A capture part is gathered into the assembly it finds. -/
theorem capturePart_eq (w block : Nat) (ps : List (Nat × Byte)) (s : State) :
    capturePart w block ps s = (openAssembly w block s).1.gather w ps (openAssembly w block s).2 := by
  unfold capturePart State.gather
  dsimp only
  split <;> rfl

/-- The assembly that a part opens. -/
def State.fresh (s : State) (block : Nat) : Assembly := ⟨block, List.replicate 64 none, s.now⟩

/-- Where none is open. -/
theorem openAssembly_none {s : State} {w : Nat} (h : s.assembly w = none) (block : Nat) :
    openAssembly w block s = (s, s.fresh block) := by
  simp only [openAssembly, h]
  rfl

/-- Where one is open on the part's block. -/
theorem openAssembly_same {s : State} {w : Nat} {a : Assembly} (h : s.assembly w = some a) :
    openAssembly w a.block s = (s, a) := by
  simp only [openAssembly, h, if_true]

/-- Where one is open on another block, which is torn first. -/
theorem openAssembly_other {s : State} {w block : Nat} {a : Assembly} (h : s.assembly w = some a)
    (hb : a.block ≠ block) : openAssembly w block s = (discardAssembly w .newBlock s, s.fresh block) := by
  simp only [openAssembly, h, hb, if_false]
  rfl

/-! ## Capture among other transactions -/

/-- A sign of life keeps states alike in what intake reaches alike. -/
theorem Likewise.signOfLife {u s t : State} (h : Likewise u s t) (key : Key) (stamp : Tick) :
    Likewise u (Machine.signOfLife key stamp s) (Machine.signOfLife key stamp t) := by
  have restarted := h.keep (f := fun x => restartQuiet key.channel
    (x.countChannel key.channel fun k => { k with taken := sat32 (k.taken + 1) })) (fun _ _ => rfl) fun _ => rfl
  have state : t.channel key.channel = s.channel key.channel :=
    h.read (g := fun x => x.channel key.channel) fun _ _ => rfl
  unfold Machine.signOfLife
  dsimp only
  rw [state]
  split
  · refine Likewise.notify ?_ _
    exact restarted.keep (f := fun x => x.setChannel key.channel { x.channel key.channel with state := .opened })
      (fun _ _ => rfl) fun _ => rfl
  · exact restarted

/-- So does counting on a channel. -/
theorem Likewise.countChannel {u s t : State} (h : Likewise u s t) (ch : Nat) (f : ChanCounters → ChanCounters) :
    Likewise u (s.countChannel ch f) (t.countChannel ch f) :=
  h.keep (f := fun x => x.countChannel ch f) (fun _ _ => rfl) fun _ => rfl

/-- So does the opening, change or end of an assembly. -/
theorem Likewise.setAssembly {u s t : State} (h : Likewise u s t) (w : Nat) (a : Option Assembly) :
    Likewise u (s.setAssembly w a) (t.setAssembly w a) :=
  h.keep (f := fun x => x.setAssembly w a) (fun _ _ => rfl) fun _ => rfl

/-- So does the heard effect. -/
theorem Likewise.calHeard {u s t : State} (h : Likewise u s t) (idx : Nat) (stamp : Tick) :
    Likewise u (Machine.calHeard idx stamp s) (Machine.calHeard idx stamp t) := by
  refine h.keep (fun s m => ?_) fun s => ?_
  · cases he : s.calEntry idx with
    | none => simp only [Machine.calHeard, he, show (s.among u m).calEntry idx = none from he]
    | some x => rw [calHeard_eq he, calHeard_eq (s := s.among u m) he]; rfl
  · cases he : s.calEntry idx with
    | none => simp only [Machine.calHeard, he]
    | some x => rw [calHeard_eq he]

/-- So does the offer of a job to the update queue. -/
theorem Likewise.offerJob {u s t : State} (h : Likewise u s t) (idx : Nat) (key : Key) (r : List Byte) (stamp : Tick) :
    Likewise u (Machine.offerJob idx key r stamp s) (Machine.offerJob idx key r stamp t) := by
  have queue : t.queue = s.queue := h.read (g := State.queue) fun _ _ => rfl
  obtain ⟨supersedes, joins, drops⟩ := offerJob_cases (s := s) (y := s) rfl idx key r stamp
  obtain ⟨supersedes', joins', drops'⟩ := offerJob_cases queue idx key r stamp
  have queued (q : List Job) : Likewise u { s with queue := q } { t with queue := q } :=
    h.keep (f := fun x => { x with queue := q }) (fun _ _ => rfl) fun _ => rfl
  cases hw : s.waitingJob idx
  · by_cases hl : s.queue.length < 64
    · rw [joins hw hl, joins' hw hl]
      exact queued _
    · rw [drops hw (Nat.le_of_not_lt hl), drops' hw (Nat.le_of_not_lt hl)]
      exact (h.countChannel _ _).notify _
  · rw [supersedes hw, supersedes' hw]
    exact queued _

/-- So does the taking of a record. -/
theorem Likewise.takeRecord {u s t : State} (h : Likewise u s t) (r : List Byte) (stamp : Tick) :
    Likewise u (Machine.takeRecord r stamp s) (Machine.takeRecord r stamp t) := by
  have life := h.signOfLife (recKey r) stamp
  have channel : t.channel = s.channel := h.read (g := State.channel) fun _ _ => rfl
  have lookup := life.read (g := fun x => x.lookup (recKey r)) fun _ _ => rfl
  have entry := life.read (g := State.calEntry) fun _ _ => rfl
  unfold Machine.takeRecord
  dsimp only at lookup ⊢
  rw [channel, lookup, entry]
  split
  · exact h.notify _
  split
  · exact h.notify _
  split
  · exact h.notify _
  cases (Machine.signOfLife (recKey r) stamp s).lookup (recKey r) with
  | none => exact (life.countChannel _ _).notify _
  | some idx =>
    dsimp only
    cases (Machine.signOfLife (recKey r) stamp s).calEntry idx with
    | none => exact life.countChannel _ _
    | some x =>
      have heard := life.calHeard idx stamp
      cases hcol : recCollided r
      · dsimp only
        rw [takeHeard_offers hcol, takeHeard_offers hcol]
        exact heard.offerJob _ _ _ _
      · dsimp only
        rw [takeHeard_collided hcol, takeHeard_collided hcol]
        exact heard.countChannel _ _

/-- So does a capture part, which carries the same stamp out. -/
theorem Likewise.capturePart {u s t : State} (h : Likewise u s t) (w block : Nat) (ps : List (Nat × Byte)) :
    Likewise u (Machine.capturePart w block ps s).1 (Machine.capturePart w block ps t).1
    ∧ (Machine.capturePart w block ps t).2 = (Machine.capturePart w block ps s).2 := by
  have gathers {x y : State} (h : Likewise u x y) (a : Assembly) :
      Likewise u (x.gather w ps a).1 (y.gather w ps a).1 ∧ (y.gather w ps a).2 = (x.gather w ps a).2 := by
    refine ⟨?_, rfl⟩
    unfold State.gather
    split
    · exact (h.setAssembly w none).takeRecord _ _
    · exact h.setAssembly w _
  have assembly : t.assembly w = s.assembly w := h.read (g := fun x => x.assembly w) fun _ _ => rfl
  have fresh : t.fresh block = s.fresh block := h.read (g := fun x => x.fresh block) fun _ _ => rfl
  rw [capturePart_eq, capturePart_eq]
  cases ha : s.assembly w with
  | none =>
    rw [openAssembly_none ha, openAssembly_none (assembly.trans ha), fresh]
    exact gathers h _
  | some a =>
    by_cases hb : a.block = block
    · subst hb
      rw [openAssembly_same ha, openAssembly_same (assembly.trans ha)]
      exact gathers h _
    · rw [openAssembly_other ha hb, openAssembly_other (assembly.trans ha) hb, fresh]
      exact gathers (h.discard w .newBlock) _

/-! ## The passage of the write (R159) -/

/-- A write with an enabled byte carries one. -/
theorem carriedAt_ne_nil {bytes : List WByte} (h : bytes.any Option.isSome = true) (off : Nat) :
    carriedAt off bytes ≠ [] := by
  obtain ⟨b, hm, hs⟩ := List.any_eq_true.1 h
  obtain ⟨v, rfl⟩ := Option.isSome_iff_exists.1 hs
  rw [← List.zipIdx_map_fst 0 bytes] at hm
  obtain ⟨⟨_, i⟩, hi, rfl⟩ := List.mem_map.1 hm
  exact List.ne_nil_of_mem (mem_carriedAt.2 ⟨i, hi, rfl⟩)

/-- The part of a capture write in RUNNING is gathered at once (R48, R169). -/
theorem handlePart_capture {s : State} (h : s.Steady) (hr : s.run = .running) {init : Initiator}
    {addr w block off : Nat} {bytes : List WByte} (hb : bytes.any Option.isSome = true) :
    let t := s.taking init addr bytes
    let r := capturePart w block (carriedAt off bytes) t
    handlePart s.run s.takes ⟨.capture w block, 0, bytes.length, off⟩ bytes t
      = some ⟨r.1, bytes.zipIdx.map fun b => b.1.map (stamped r.2 (off + b.2)), 0, none⟩ := by
  intro t r
  have ahead : t.behind s.takes (.capture w block) = false := taking_behind h init addr bytes _
  have gathers : s.run = .running ∧ carriedAt off bytes ≠ [] := ⟨hr, carriedAt_ne_nil hb off⟩
  simp only [handlePart, ahead, captureWrite, carried_whole, Bool.false_eq_true, if_false]
  rw [if_pos gathers, rewrite_stamped]

/-- A capture write in RUNNING that lies in one block goes out with the latched stamp, and what it gathered is all that
changes (R49 to R51, R160). -/
theorem capture_passes {s : State} {init : Initiator} {addr w block off : Nat} {bytes : List WByte} (hs : s.Steady)
    (hl : s.txns.length < 32) (hrun : isPortRun addr bytes.length = true) (hsome : bytes.any Option.isSome = true)
    (howner : ∀ i, i < bytes.length → s.ownerOf (addr + i) = (.capture w block, off + i)) (hr : s.run = .running) :
    let r := capturePart w block (carriedAt off bytes) s
    let out := bytes.zipIdx.map fun b => b.1.map (stamped r.2 (off + b.2))
    ∃ m, exec (.passingWrite init addr bytes) s = .next { r.1 with
          takes := s.takes + 1, txns := s.txns ++ [s.openedWrite init addr out], mem := m }
      ∧ r.1.mem.gains m [s.passingAccess addr out] := by
  intro r out
  let t := s.taking init addr bytes
  have length : 0 < bytes.length := by
    obtain ⟨b, hb, -⟩ := List.any_eq_true.1 hsome
    exact List.length_pos_of_mem hb
  have alike : Likewise t s t := ⟨s.mem, rfl, MemPort.gains_refl _⟩
  obtain ⟨⟨m0, gathered, told⟩, stamp⟩ := alike.capturePart w block (carriedAt off bytes)
  have others : r.1.among s r.1.mem = r.1 := ((Likewise.refl s).capturePart w block (carriedAt off bytes)).1.among_self
  have handled := handlePart_capture (init := init) (addr := addr) (w := w) (block := block) (off := off) hs hr hsome
  dsimp only at handled
  rw [stamp, gathered] at handled
  obtain ⟨m, taken, gained⟩ := write_taken_part hs hl (partsOf_run length howner) handled rfl rfl rfl
    ⟨hs.port, hs.requests, hs.sound, hs.unanswered⟩
  refine ⟨m, ?_, MemPort.gains_trans told gained⟩
  rw [exec_passingWrite hs.running hrun, taken]
  exact congrArg (fun z : State => Host.Outcome.next { z with
    takes := s.takes + 1, txns := s.txns ++ [s.openedWrite init addr out], mem := m }) others

/-- Settles O10: the passage of the write, and the assembly the part opens, goes on with, or opens after a tear. -/
theorem captureWriteGathered : Obligations.CaptureWriteGathered := by
  unfold Obligations.CaptureWriteGathered
  intro stamped
  have latched : stamped = Machine.stamped := funext fun stamp => funext fun off => funext fun b =>
    (stamped_eq stamp off b).symm
  rw [latched]
  refine ⟨fun s init addr w block off bytes => capture_passes, ?_⟩
  intro s w block ps go fresh
  refine ⟨fun h => ?_, fun a h => ⟨fun hb => ?_, fun hb => ?_⟩⟩
  · rw [capturePart_eq, openAssembly_none h]
    rfl
  · subst hb
    rw [capturePart_eq, openAssembly_same h]
    rfl
  · rw [capturePart_eq, openAssembly_other h hb, discardAssembly_eq]
    rfl

end Sys2Proof.Machine
end

section
/-!
PROOFS. The update queue, the calendar and the open list (R66, R108, R158): every step of the part keeps the queue
within its places and with one CAPTURE job for a context, the calendar with one entry for a context, and the open list
within its 32 transactions.
-/

namespace Sys2Proof.Machine

/-! ## What leaves the calendar and the number of open transactions as they are -/

/-- What R108 and R158 speak of: the calendar entries, and how many transactions are open. -/
structure Ledger where
  calendar : List CalEntry
  opened : Nat

/-- The ledger of a state. -/
def State.ledger (s : State) : Ledger := ⟨s.calendar, s.txns.length⟩

/-- The ledger of a state written out. -/
@[simp] theorem State.mk_ledger (a1 a2 a3 a4 a5 a6 a7 a8 a9 a10 a11 a12 a13 a14 a15 a16 a17 a18 a19 a20 a21 a22 a23
    a24 a25 a26) :
    (State.mk a1 a2 a3 a4 a5 a6 a7 a8 a9 a10 a11 a12 a13 a14 a15 a16 a17 a18 a19 a20 a21 a22 a23 a24 a25 a26).ledger
      = ⟨a15, a21.length⟩ := rfl

/-- The ledger, field by field. -/
@[simp] theorem State.ledger_fields (s : State) : Ledger.mk s.calendar s.txns.length = s.ledger := rfl

@[simp] theorem setChannel_ledger (s : State) (ch : Nat) (c : Channel) : (s.setChannel ch c).ledger = s.ledger := rfl
@[simp] theorem setSlot_ledger (s : State) (n : Nat) (x : Slot) : (s.setSlot n x).ledger = s.ledger := rfl
@[simp] theorem setEntry_ledger (s : State) (e : Nat) (x : Entry) : (s.setEntry e x).ledger = s.ledger := rfl
@[simp] theorem setAssembly_ledger (s : State) (w : Nat) (a : Option Assembly) :
    (s.setAssembly w a).ledger = s.ledger := rfl
@[simp] theorem setQuietTimer_ledger (s : State) (ch : Nat) (t : Option QuietTimer) :
    (s.setQuietTimer ch t).ledger = s.ledger := rfl
@[simp] theorem submit_ledger (s : State) (src : Source) (a : Access) (o : Option Nat) :
    (s.submit src a o).ledger = s.ledger := rfl
@[simp] theorem pass_ledger (s : State) (id : Nat) (i : Initiator) (a : Nat) (b : Body) :
    (s.pass id i a b).ledger = s.ledger := rfl
@[simp] theorem wakePort_ledger (s : State) : (wakePort s).ledger = s.ledger := rfl
@[simp] theorem modifyTxn_ledger (s : State) (id : Nat) (f : Txn → Txn) : (s.modifyTxn id f).ledger = s.ledger := by
  simp [State.modifyTxn]
@[simp] theorem failTxn_ledger (s : State) (id : Nat) : (s.failTxn id).ledger = s.ledger :=
  modifyTxn_ledger s id _
@[simp] theorem countChannel_ledger (s : State) (ch : Nat) (f : ChanCounters → ChanCounters) :
    (s.countChannel ch f).ledger = s.ledger := rfl
@[simp] theorem grantAll_ledger (s : State) : (grantAll s).ledger = s.ledger := rfl
@[simp] theorem claimNotice_ledger (n : Notice) (s : State) : (claimNotice n s).ledger = s.ledger := rfl
@[simp] theorem claimOffer_ledger (e : CalEntry) (r : OfferReason) (s : State) :
    (claimOffer e r s).ledger = s.ledger := rfl
@[simp] theorem lapseDrop_ledger (i : Nat) (s : State) : (lapseDrop i s).ledger = s.ledger := rfl
@[simp] theorem restartQuiet_ledger (ch : Nat) (s : State) : (restartQuiet ch s).ledger = s.ledger := rfl
@[simp] theorem addReq_ledger (w : Requester) (i : Nat) (k : Key) (x : Wait) (s : State) :
    (addReq w i k x s).ledger = s.ledger := rfl
@[simp] theorem dropReq_ledger (w : Requester) (s : State) : (dropReq w s).ledger = s.ledger := rfl
@[simp] theorem rechoose_ledger (e : Nat) (s : State) : (rechoose e s).ledger = s.ledger := rfl
@[simp] theorem arrive_ledger (p : PortTxn) (s : State) : (arrive p s).ledger = s.ledger := rfl
@[simp] theorem startWriteBack_ledger (e i : Nat) (s : State) : (startWriteBack e i s).ledger = s.ledger := rfl
@[simp] theorem releaseJob_ledger (i : Nat) (s : State) : (releaseJob i s).ledger = s.ledger := rfl
@[simp] theorem bindCopy_ledger (n : Nat) (c : BoundCopy) (s : State) : (bindCopy n c s).ledger = s.ledger := rfl
@[simp] theorem armSlot_ledger (n : Nat) (ps : List (Nat × Byte)) (s : State) :
    (armSlot n ps s).ledger = s.ledger := rfl
@[simp] theorem wakeFetch_ledger (i : Nat) (s : State) : (wakeFetch i s).ledger = s.ledger := rfl
@[simp] theorem placeHolds_ledger (e : Nat) (s : State) : (placeHolds e s).ledger = s.ledger := by
  simp [placeHolds]
@[simp] theorem writeBackFault_ledger (e : Nat) (s : State) : (writeBackFault e s).ledger = s.ledger := rfl
@[simp] theorem cancelReuse_ledger (e : Nat) (s : State) : (cancelReuse e s).ledger = s.ledger := rfl
@[simp] theorem releaseRequests_ledger (i : Nat) (k : Key) (s : State) :
    (releaseRequests i k s).ledger = s.ledger := rfl
@[simp] theorem writeCompleted_ledger (i : Nat) (b : Bool) (s : State) : (writeCompleted i b s).ledger = s.ledger :=
  modifyTxn_ledger s i _
@[simp] theorem handDueConsumer_ledger (v : BitVec 32) (s : State) : (handDueConsumer v s).ledger = s.ledger := rfl
@[simp] theorem publishNotice_ledger (s : State) : (publishNotice s).ledger = s.ledger := rfl
@[simp] theorem publishOffer_ledger (s : State) : (publishOffer s).ledger = s.ledger := rfl
@[simp] theorem notify_ledger (n : Notice) (s : State) : (notify n s).ledger = s.ledger := by
  unfold notify
  split <;> simp
@[simp] theorem notifyAll_ledger (ns : List Notice) (s : State) : (notifyAll ns s).ledger = s.ledger :=
  foldl_keeps State.ledger _ (fun s n => notify_ledger n s) ns s
@[simp] theorem memoryFault_ledger (a : FaultAccess) (k : Key) (d : Nat) (s : State) :
    (memoryFault a k d s).ledger = s.ledger := by
  simp [memoryFault]
@[simp] theorem completePart_ledger (s : State) (id k : Nat) (f : Nat → Byte → Byte) :
    (s.completePart id k f).ledger = s.ledger := by
  unfold State.completePart
  split <;> simp
@[simp] theorem touch_ledger (e : Nat) (s : State) : (touch e s).ledger = s.ledger := by
  unfold touch
  split <;> simp
@[simp] theorem touchFor_ledger (w : Requester) (e : Nat) (s0 s : State) : (touchFor w e s0 s).ledger = s.ledger := by
  unfold touchFor
  (repeat' split) <;> simp
@[simp] theorem invalidate_ledger (e : Nat) (s : State) : (invalidate e s).ledger = s.ledger := by
  unfold invalidate
  dsimp only
  split <;> simp
@[simp] theorem markJob_ledger (i : Nat) (k : Key) (c : LossCause) (s : State) :
    (markJob i k c s).ledger = s.ledger := by
  unfold markJob
  (repeat' split) <;> simp
@[simp] theorem cancelIfEnded_ledger (e : Nat) (s : State) : (cancelIfEnded e s).ledger = s.ledger := by
  unfold cancelIfEnded
  dsimp only
  split <;> simp
@[simp] theorem modifyImage_ledger (e : Nat) (f : Context → Context) (s : State) :
    (modifyImage e f s).ledger = s.ledger := by
  simp [modifyImage]
@[simp] theorem startFetch_ledger (e i : Nat) (k : Key) (s : State) : (startFetch e i k s).ledger = s.ledger := by
  simp [startFetch]
@[simp] theorem passOn_ledger (e : Nat) (s : State) : (passOn e s).ledger = s.ledger := by
  unfold passOn
  split <;> simp
@[simp] theorem releaseHold_ledger (i : Nat) (k : Key) (s : State) : (releaseHold i k s).ledger = s.ledger := by
  unfold releaseHold
  dsimp only
  (repeat' split) <;> simp
theorem place_ledger {i : Nat} {k : Key} {s t : State} (h : place i k s = some t) : t.ledger = s.ledger := by
  unfold place at h
  split at h
  · cases h; simp
  · split at h
    · cases h
    · split at h <;> cases h <;> simp

@[simp] theorem requestFresh_ledger (w : Requester) (i : Nat) (k : Key) (s : State) :
    (requestFresh w i k s).ledger = s.ledger := by
  unfold requestFresh
  split
  · simp
  · dsimp only
    split
    · simp
    · cases hp : place i k (addReq w i k .list s) with
      | none => simp
      | some t => simp [place_ledger hp]
@[simp] theorem request_ledger (w : Requester) (i : Nat) (k : Key) (s : State) :
    (request w i k s).ledger = s.ledger := by
  unfold request
  (repeat' split) <;> simp
@[simp] theorem unpin_ledger (s : State) : (unpin s).ledger = s.ledger := by
  unfold unpin
  (repeat' split) <;> simp
@[simp] theorem discardJob_ledger (j : Job) (c : LossCause) (s : State) : (discardJob j c s).ledger = s.ledger := by
  unfold discardJob
  split <;> simp
@[simp] theorem takeJob_ledger (s : State) : (takeJob s).ledger = s.ledger := by
  unfold takeJob
  (repeat' split) <;> simp
@[simp] theorem takeHeader_ledger (n : Nat) (ps : List (Nat × Byte)) (s : State) :
    (takeHeader n ps s).ledger = s.ledger := by
  unfold takeHeader
  (repeat' split) <;> simp
@[simp] theorem releaseHeld_ledger (n : Nat) (s : State) : (releaseHeld n s).ledger = s.ledger := by
  unfold releaseHeld
  split
  · rfl
  · exact foldl_keeps_from State.ledger _ (fun s ps => armSlot_ledger n ps s) _ _ _ rfl
@[simp] theorem startPromotion_ledger (s : State) : (startPromotion s).ledger = s.ledger := by
  unfold startPromotion
  (repeat' split) <;> simp
@[simp] theorem deliver_ledger (n : Nat) (s : State) : (deliver n s).ledger = s.ledger := by
  unfold deliver
  dsimp only
  split <;> simp
@[simp] theorem promoteOn_ledger (p : Promotion) (e : Nat) (s : State) : (promoteOn p e s).ledger = s.ledger := by
  unfold promoteOn
  dsimp only
  (repeat' split) <;> simp
@[simp] theorem nextPromotion_ledger (n : Nat) (s : State) : (nextPromotion n s).ledger = s.ledger := by
  simp [nextPromotion]
@[simp] theorem givePromotion_ledger (s : State) : (givePromotion s).ledger = s.ledger := by
  unfold givePromotion
  (repeat' split) <;> simp
@[simp] theorem abandonPromotion_ledger (s : State) : (abandonPromotion s).ledger = s.ledger := by
  unfold abandonPromotion
  split <;> simp
@[simp] theorem patchSlot_ledger (n id k : Nat) (s : State) : (patchSlot n id k s).ledger = s.ledger := by
  unfold patchSlot
  (repeat' split) <;> simp
@[simp] theorem answerWaiting_ledger (n : Nat) (s : State) : (answerWaiting n s).ledger = s.ledger := by
  unfold answerWaiting
  dsimp only
  rw [releaseHeld_ledger]
  exact foldl_keeps_from State.ledger _ (fun s w => by simp) _ _ _ rfl
@[simp] theorem readSlot_ledger (n id k : Nat) (s : State) : (readSlot n id k s).ledger = s.ledger := by
  unfold readSlot
  dsimp only
  (repeat' split) <;> simp
@[simp] theorem giveSlot_ledger (n : Nat) (s : State) : (giveSlot n s).ledger = s.ledger := by
  unfold giveSlot
  (repeat' split) <;> simp
@[simp] theorem abandonSlot_ledger (n : Nat) (s : State) : (abandonSlot n s).ledger = s.ledger := by
  simp [abandonSlot]
@[simp] theorem startLapse_ledger (s : State) : (startLapse s).ledger = s.ledger := by
  unfold startLapse
  (repeat' split) <;> simp
@[simp] theorem abandonLapse_ledger (s : State) : (abandonLapse s).ledger = s.ledger := by
  unfold abandonLapse
  (repeat' split) <;> simp
@[simp] theorem releaseEntry_ledger (i : Nat) (s : State) : (releaseEntry i s).ledger = s.ledger := by
  unfold releaseEntry
  dsimp only
  (repeat' split) <;> simp
@[simp] theorem pumpLoop_ledger (n : Nat) (s : State) : (pumpLoop n s).ledger = s.ledger := by
  induction n generalizing s with
  | zero => rfl
  | succ n ih =>
    unfold pumpLoop
    split
    · rfl
    · split
      · rfl
      · next h => rw [ih, place_ledger h]
@[simp] theorem serveList_ledger (s : State) : (serveList s).ledger = s.ledger := by
  simp [serveList]
@[simp] theorem completeContext_ledger (i : Nat) (k : Key) (h : Bool) (id n : Nat) (s : State) :
    (completeContext i k h id n s).ledger = s.ledger := by
  unfold completeContext
  (repeat' split) <;> simp
@[simp] theorem patchWaiting_ledger (i : Nat) (s : State) : (patchWaiting i s).ledger = s.ledger :=
  foldl_keeps State.ledger _ (fun s w => by simp) _ s
@[simp] theorem failWaiting_ledger (i : Nat) (s : State) : (failWaiting i s).ledger = s.ledger :=
  foldl_keeps State.ledger _ (fun s w => by simp) _ s
@[simp] theorem writeBackDone_ledger (e : Nat) (s : State) : (writeBackDone e s).ledger = s.ledger := by
  unfold writeBackDone
  dsimp only
  (repeat' split) <;> simp
@[simp] theorem countTorn_ledger (c : Option Nat) (s : State) : (countTorn c s).ledger = s.ledger := by
  unfold countTorn
  split <;> simp
@[simp] theorem discardAssembly_ledger (w : Nat) (y : TornDetail) (s : State) :
    (discardAssembly w y s).ledger = s.ledger := by
  unfold discardAssembly
  split <;> simp
@[simp] theorem discardAll_ledger (y : TornDetail) (s : State) : (discardAll y s).ledger = s.ledger :=
  foldl_keeps State.ledger _ (fun s w => discardAssembly_ledger w y s) _ s
@[simp] theorem signOfLife_ledger (k : Key) (t : Tick) (s : State) : (signOfLife k t s).ledger = s.ledger := by
  unfold signOfLife
  dsimp only
  split <;> simp
@[simp] theorem placeHold_ledger (o : ReadOwner) (s : State) : (placeHold o s).ledger = s.ledger := by
  unfold placeHold
  (repeat' split) <;> simp
@[simp] theorem handNoticeConsumer_ledger (v : BitVec 32) (s : State) : (handNoticeConsumer v s).ledger = s.ledger := by
  unfold handNoticeConsumer
  dsimp only
  split <;> simp
@[simp] theorem finishWrite_ledger (i : Nat) (j : Initiator) (a : Nat) (w : WriteWork) (s : State) :
    (finishWrite i j a w s).ledger = s.ledger := by
  unfold finishWrite
  (repeat' split) <;> simp
@[simp] theorem releasePart_ledger (o : ReadOwner) (s : State) : (releasePart o s).ledger = s.ledger := by
  unfold releasePart
  split <;> simp
@[simp] theorem expireQuiet_ledger (c : Nat) (t : QuietTimer) (s : State) : (expireQuiet c t s).ledger = s.ledger := by
  unfold expireQuiet
  split <;> simp
@[simp] theorem offerFault_ledger (a : Access) (s : State) : (offerFault a s).ledger = s.ledger := by
  unfold offerFault
  split <;> simp
@[simp] theorem dueFault_ledger (a : Access) (s : State) : (dueFault a s).ledger = s.ledger := by
  unfold dueFault
  split <;> simp
@[simp] theorem restartQuietAll_ledger (s : State) : (restartQuietAll s).ledger = s.ledger :=
  foldl_keeps State.ledger _ (fun s ch => by split <;> simp) _ s
@[simp] theorem applyPolicy_ledger (c : Nat) (p : Policy) (s : State) : (applyPolicy c p s).ledger = s.ledger := by
  unfold applyPolicy
  dsimp only
  (repeat' split) <;> simp
@[simp] theorem cmuSubmit_ledger (s : State) (a : Access) (p : CmuPhase) (o : Option Nat) :
    (s.cmuSubmit a p o).ledger = s.ledger := rfl
@[simp] theorem answer_ledger (st : Status) (s : State) : (answer st s).ledger = s.ledger := rfl
@[simp] theorem answerWith_ledger (fs : List (Nat × List Byte)) (st : Status) (s : State) :
    (answerWith fs st s).ledger = s.ledger := by
  unfold answerWith
  split
  · rfl
  · exact foldl_keeps_from State.ledger _ (fun s p => submit_ledger s _ _ _) _ _ _ rfl
@[simp] theorem fetchDescriptor_ledger (s : State) : (fetchDescriptor s).ledger = s.ledger := rfl
@[simp] theorem writeMirror_ledger (s : State) : (writeMirror s).ledger = s.ledger := rfl
@[simp] theorem writeStatus_ledger (st : Status) (s : State) : (writeStatus st s).ledger = s.ledger := rfl
@[simp] theorem advanceConsumer_ledger (s : State) : (advanceConsumer s).ledger = s.ledger := rfl
@[simp] theorem kdirRemove_ledger (s : State) (k : Key) : (s.kdirRemove k).ledger = s.ledger := rfl
@[simp] theorem setWindow_ledger (s : State) (i : Nat) (w : Option Window) : (s.setWindow i w).ledger = s.ledger := rfl
@[simp] theorem writeHeader_ledger (k : Key) (i : Nat) (r : List (Key × Nat)) (f : Bool) (s : State) :
    (writeHeader k i r f s).ledger = s.ledger := rfl
@[simp] theorem finishTrial_ledger (j : Job) (raw : Bool) (sn : Snapshot) (s : State) :
    (finishTrial j raw sn s).ledger = s.ledger := by
  simp [finishTrial]
@[simp] theorem giveEngine_ledger (s : State) : (giveEngine s).ledger = s.ledger := by
  unfold giveEngine
  dsimp only
  (repeat' split) <;> simp
@[simp] theorem abandonEngine_ledger (s : State) : (abandonEngine s).ledger = s.ledger := by
  unfold abandonEngine
  dsimp only
  (repeat' split) <;> simp
@[simp] theorem drainRelease_ledger (i : Nat) (s : State) : (drainRelease i s).ledger = s.ledger := by
  unfold drainRelease
  (repeat' split) <;> simp
@[simp] theorem reviveNext_ledger (r : List (Key × Nat)) (f : Bool) (s : State) :
    (reviveNext r f s).ledger = s.ledger := by
  induction r with
  | nil => rfl
  | cons p r ih =>
    unfold reviveNext
    split
    · exact ih
    · simp
@[simp] theorem abandonRevive_ledger (s : State) : (abandonRevive s).ledger = s.ledger := by
  unfold abandonRevive
  split <;> simp
@[simp] theorem finishCopies_ledger (w : CopyWork) (st : Status) (s : State) :
    (finishCopies w st s).ledger = s.ledger := by
  simp [finishCopies]
@[simp] theorem copyNext_ledger (w : CopyWork) (s : State) : (copyNext w s).ledger = s.ledger := by
  unfold copyNext
  split <;> simp
@[simp] theorem giveCopy_ledger (s : State) : (giveCopy s).ledger = s.ledger := by
  unfold giveCopy
  dsimp only
  (repeat' split) <;> simp
@[simp] theorem abandonCopy_ledger (s : State) : (abandonCopy s).ledger = s.ledger := by
  unfold abandonCopy
  split <;> simp
@[simp] theorem abandon_ledger (w : Requester) (s : State) : (abandon w s).ledger = s.ledger := by
  cases w <;> simp [abandon]
@[simp] theorem abandonLoop_ledger (n : Nat) (s : State) : (abandonLoop n s).ledger = s.ledger := by
  induction n generalizing s with
  | zero => rfl
  | succ n ih =>
    unfold abandonLoop
    split
    · rfl
    · simp [ih]
@[simp] theorem pump_ledger (s : State) : (pump s).ledger = s.ledger := by
  unfold pump
  dsimp only
  split <;> simp
@[simp] theorem fetchFailed_ledger (i : Nat) (s : State) : (fetchFailed i s).ledger = s.ledger := by
  unfold fetchFailed
  split
  · rfl
  · dsimp only
    split
    · rw [failWaiting_ledger, startLapse_ledger]
      exact foldl_keeps_from State.ledger _ (fun s w => by simp) _ _ _ (by simp)
    · rfl
@[simp] theorem writeBackEnded_ledger (i : Nat) (k : Key) (b : Bool) (s : State) :
    (writeBackEnded i k b s).ledger = s.ledger := by
  unfold writeBackEnded
  (repeat' split) <;> simp
@[simp] theorem handProducer_ledger (i : Nat) (v : BitVec 32) (s : State) : (handProducer i v s).ledger = s.ledger := by
  unfold handProducer
  dsimp only
  split <;> simp
@[simp] theorem takeWord_ledger (w i : Nat) (ps : List (Nat × Byte)) (s : State) :
    (takeWord w i ps s).ledger = s.ledger := by
  cases ps with
  | nil => rfl
  | cons p ps =>
    by_cases h0 : w = 0
    · subst h0; rw [takeWord_producer, handProducer_ledger]
    by_cases h3 : w = 3
    · subst h3; rw [takeWord_noticeConsumer, handNoticeConsumer_ledger]
    by_cases h5 : w = 5
    · subst h5; rw [takeWord_dueConsumer, handDueConsumer_ledger]
    rw [takeWord_other w i h0 h3 h5]
@[simp] theorem completeReadPart_ledger (id k : Nat) (s : State) : (completeReadPart id k s).ledger = s.ledger := by
  unfold completeReadPart
  (repeat' split) <;> simp
@[simp] theorem readArrived_ledger (id : Nat) (data : List Byte) (s : State) :
    (readArrived id data s).ledger = s.ledger :=
  foldl_keeps_from State.ledger _ (fun s k => by simp) _ _ _ (modifyTxn_ledger s id _)
@[simp] theorem readFailed_ledger (id : Nat) (s : State) : (readFailed id s).ledger = s.ledger := by
  unfold readFailed
  split
  · rfl
  · exact foldl_keeps_from State.ledger _ (fun s p => by simp) _ _ _ (by simp)
@[simp] theorem rejudgePart_ledger (id k : Nat) (s : State) : (rejudgePart id k s).ledger = s.ledger := by
  unfold rejudgePart
  dsimp only
  (repeat' split) <;> simp
@[simp] theorem stopRun_ledger (s : State) : (stopRun s).ledger = s.ledger := by simp [stopRun]
@[simp] theorem applyWindow_ledger (i : Nat) (w : Option Window) (s : State) :
    (applyWindow i w s).ledger = s.ledger := by
  unfold applyWindow
  split <;> simp
@[simp] theorem descriptorArrived_ledger (d : List Byte) (s : State) : (descriptorArrived d s).ledger = s.ledger := by
  unfold descriptorArrived
  split <;> simp
@[simp] theorem descriptorFailed_ledger (s : State) : (descriptorFailed s).ledger = s.ledger := by
  simp [descriptorFailed]
@[simp] theorem policyReadEnded_ledger (data : Option (List Byte)) (s : State) :
    (policyReadEnded data s).ledger = s.ledger := by
  unfold policyReadEnded policyArrived
  dsimp only
  (repeat' split) <;> simp
@[simp] theorem channelWriteEnded_ledger (b : Bool) (s : State) : (channelWriteEnded b s).ledger = s.ledger := by
  unfold channelWriteEnded
  (repeat' split) <;> simp
@[simp] theorem trialReadEnded_ledger (data : Option (List Byte)) (s : State) :
    (trialReadEnded data s).ledger = s.ledger := by
  unfold trialReadEnded
  (repeat' split) <;> simp
@[simp] theorem trialWriteEnded_ledger (b : Bool) (s : State) : (trialWriteEnded b s).ledger = s.ledger := by
  unfold trialWriteEnded
  (repeat' split) <;> simp
@[simp] theorem copyWriteEnded_ledger (b : Bool) (s : State) : (copyWriteEnded b s).ledger = s.ledger := by
  unfold copyWriteEnded
  (repeat' split) <;> simp
@[simp] theorem identifyWriteEnded_ledger (b : Bool) (s : State) : (identifyWriteEnded b s).ledger = s.ledger := by
  unfold identifyWriteEnded
  (repeat' split) <;> simp
@[simp] theorem mirrorWriteEnded_ledger (b : Bool) (s : State) : (mirrorWriteEnded b s).ledger = s.ledger := by
  unfold mirrorWriteEnded
  (repeat' split) <;> simp
@[simp] theorem resultWriteEnded_ledger (b : Bool) (s : State) : (resultWriteEnded b s).ledger = s.ledger := by
  unfold resultWriteEnded
  dsimp only
  (repeat' split) <;> simp
@[simp] theorem statusWriteEnded_ledger (b : Bool) (s : State) : (statusWriteEnded b s).ledger = s.ledger := by
  unfold statusWriteEnded
  (repeat' split) <;> simp
@[simp] theorem indexWriteEnded_ledger (b : Bool) (s : State) : (indexWriteEnded b s).ledger = s.ledger := by
  unfold indexWriteEnded
  dsimp only
  (repeat' split) <;> simp

/-! ## What changes the calendar or the open list -/

/-- A calendar with one entry for a context where the other has one, and an open list within its 32 transactions where
the other is. -/
structure Ledger.KeptFrom (l l0 : Ledger) : Prop where
  calendar : (l0.calendar.map fun e => e.index).Nodup → (l.calendar.map fun e => e.index).Nodup
  opened : l0.opened ≤ 32 → l.opened ≤ 32

theorem Ledger.KeptFrom.of_eq {l l0 : Ledger} (h : l = l0) : l.KeptFrom l0 := by
  subst h
  exact ⟨id, id⟩

theorem Ledger.KeptFrom.trans {a b c : Ledger} (h : a.KeptFrom b) (k : b.KeptFrom c) : a.KeptFrom c :=
  ⟨h.calendar ∘ k.calendar, h.opened ∘ k.opened⟩

/-- An operation on the calendar alone keeps the ledger where it keeps the calendar (R108). -/
theorem Ledger.KeptFrom.of_calendar {s t : State} (ho : t.txns = s.txns) (hc : s.CalendarOk → t.CalendarOk) :
    t.ledger.KeptFrom s.ledger := ⟨hc, fun h => (congrArg List.length ho).trans_le h⟩

theorem calKeep_ledgerKept (e : CalEntry) (s : State) : (calKeep e s).ledger.KeptFrom s.ledger :=
  .of_calendar rfl fun h => calendarOk_calKeep h e

theorem calSet_ledgerKept (e : CalEntry) (s : State) : (calSet e s).ledger.KeptFrom s.ledger :=
  .of_calendar rfl fun h => calendarOk_calSet h e

theorem calRemove_ledgerKept (i : Nat) (s : State) : (calRemove i s).ledger.KeptFrom s.ledger :=
  .of_calendar rfl fun h => calendarOk_calRemove h i

theorem calMake_ledgerKept (i : Nat) (k : Key) (c : PeriodClass) (s : State) :
    (calMake i k c s).ledger.KeptFrom s.ledger := calSet_ledgerKept _ s

theorem calRebase_ledgerKept (s : State) :
    (calRebase s).ledger.KeptFrom s.ledger := .of_calendar rfl calendarOk_calRebase

theorem calHeard_ledgerKept (i : Nat) (t : Tick) (s : State) : (calHeard i t s).ledger.KeptFrom s.ledger := by
  unfold calHeard
  split
  · exact .of_eq rfl
  · exact calSet_ledgerKept _ s

theorem calReclass_ledgerKept (i : Nat) (c : PeriodClass) (s : State) :
    (calReclass i c s).ledger.KeptFrom s.ledger := by
  unfold calReclass
  split
  · exact .of_eq rfl
  · split
    · exact calSet_ledgerKept _ s
    · exact calKeep_ledgerKept _ s

theorem calClass_ledgerKept (i : Nat) (c : PeriodClass) (s : State) : (calClass i c s).ledger.KeptFrom s.ledger := by
  unfold calClass
  split
  · exact .of_eq rfl
  · exact calKeep_ledgerKept _ s

theorem calForce_ledgerKept (i : Nat) (s : State) : (calForce i s).ledger.KeptFrom s.ledger := by
  unfold calForce
  split
  · exact .of_eq rfl
  · split
    · exact .of_eq rfl
    · exact calSet_ledgerKept _ s

theorem holdClass_ledgerKept (i : Nat) (a b : Context) (s : State) : (holdClass i a b s).ledger.KeptFrom s.ledger := by
  unfold holdClass
  split
  · exact .of_eq rfl
  · split <;> exact calClass_ledgerKept _ _ s

theorem takeOperatorWrite_ledgerKept (e : Nat) (bs : List (Nat × Byte)) (s : State) :
    (takeOperatorWrite e bs s).ledger.KeptFrom s.ledger := by
  unfold takeOperatorWrite
  rw [notifyAll_ledger, markJob_ledger]
  exact (holdClass_ledgerKept _ _ _ _).trans (.of_eq (by simp))

theorem reconcileHold_ledgerKept (e : Nat) (s : State) : (reconcileHold e s).ledger.KeptFrom s.ledger := by
  unfold reconcileHold
  dsimp only
  split
  · rw [notifyAll_ledger, markJob_ledger]
    exact (holdClass_ledgerKept _ _ _ _).trans (.of_eq (by simp))
  · exact .of_eq rfl

theorem operatorWrite_ledgerKept (i : Nat) (k : Key) (t : Nat) (bs : List (Nat × Byte)) (s : State) :
    (operatorWrite i k t bs s).ledger.KeptFrom s.ledger := by
  unfold operatorWrite
  split
  · exact .of_eq (by simp)
  · split
    · exact .of_eq (by simp)
    · exact takeOperatorWrite_ledgerKept _ bs s

theorem handOver_ledgerKept (i e : Nat) (h : HandOver) (s : State) : (handOver i e h s).ledger.KeptFrom s.ledger := by
  cases h with
  | nothing => exact .of_eq rfl
  | nowTracking => exact calReclass_ledgerKept i _ s
  | nowAcquire => exact calReclass_ledgerKept i _ s
  | remove => exact (calRemove_ledgerKept i _).trans (.of_eq (by simp))

theorem applyJob_ledgerKept (j : Job) (snap : Snapshot) (e : Nat) (s : State) :
    (applyJob j snap e s).ledger.KeptFrom s.ledger := by
  have handed := (handOver_ledgerKept j.index e (applyUpdate (s.entry e).image snap j.record j.stamp j.tally).handOver
    (modifyImage e (fun _ => (applyUpdate (s.entry e).image snap j.record j.stamp j.tally).ctx) s)).trans
      (.of_eq (modifyImage_ledger e _ s))
  refine .trans (.of_eq ?_) handed
  simp [applyJob]

theorem completeJob_ledgerKept (s : State) : (completeJob s).ledger.KeptFrom s.ledger := by
  unfold completeJob
  split
  · split
    · exact .of_eq (by simp)
    · split
      · exact .of_eq (by simp)
      · split
        · exact .of_eq (by simp)
        · exact applyJob_ledgerKept _ _ _ s
  · exact .of_eq rfl

theorem applyLapse_ledgerKept (l : Lapse) (e : Nat) (s : State) : (applyLapse l e s).ledger.KeptFrom s.ledger := by
  unfold applyLapse
  rw [notify_ledger]
  exact (calRemove_ledgerKept _ _).trans (.of_eq (by simp))

theorem giveLapse_ledgerKept (s : State) : (giveLapse s).ledger.KeptFrom s.ledger := by
  unfold giveLapse
  split
  · exact .of_eq rfl
  · rw [startLapse_ledger]
    split
    · exact .of_eq (by simp)
    · split
      · exact .of_eq (by simp)
      · exact (applyLapse_ledgerKept _ _ _).trans (.of_eq (by simp))

theorem giveRevive_ledgerKept (s : State) : (giveRevive s).ledger.KeptFrom s.ledger := by
  unfold giveRevive
  split
  · rw [reviveNext_ledger]
    split
    · exact .of_eq (by simp)
    · exact (calMake_ledgerKept _ _ _ _).trans (.of_eq (by simp))
  · exact .of_eq (by simp)

theorem give_ledgerKept (w : Requester) (s : State) : (give w s).ledger.KeptFrom s.ledger := by
  cases w with
  | engine => exact .of_eq (giveEngine_ledger s)
  | slot n => exact .of_eq (giveSlot_ledger n s)
  | promotion => exact .of_eq (givePromotion_ledger s)
  | lapse => exact giveLapse_ledgerKept s
  | revive => exact giveRevive_ledgerKept s
  | copy => exact .of_eq (giveCopy_ledger s)
  | write t i bs => exact .of_eq rfl

theorem giveIfReady_ledgerKept (w : Requester) (s : State) : (giveIfReady w s).ledger.KeptFrom s.ledger := by
  unfold giveIfReady
  split
  · exact .of_eq rfl
  · exact give_ledgerKept w s

/-- What each step of a fold keeps the fold keeps. -/
theorem foldl_ledgerKept {α : Type} (f : State → α → State) (h : ∀ s x, (f s x).ledger.KeptFrom s.ledger) (xs : List α)
    (s : State) : (xs.foldl f s).ledger.KeptFrom s.ledger := by
  induction xs generalizing s with
  | nil => exact .of_eq rfl
  | cons x xs ih => exact (ih _).trans (h s x)

theorem loadEntry_ledgerKept (e : Nat) (d : List Byte) (s : State) : (loadEntry e d s).ledger.KeptFrom s.ledger := by
  unfold loadEntry
  dsimp only
  rw [placeHolds_ledger]
  refine (foldl_ledgerKept _ (fun s (m : MergeWrite) => takeOperatorWrite_ledgerKept e m.bytes s) _ _).trans ?_
  exact (reconcileHold_ledgerKept e _).trans (.of_eq (by simp))

theorem fetchArrived_ledgerKept (i : Nat) (d : List Byte) (s : State) :
    (fetchArrived i d s).ledger.KeptFrom s.ledger := by
  unfold fetchArrived
  split
  · exact .of_eq rfl
  · next e _ =>
    dsimp only
    split
    · rw [patchWaiting_ledger]
      refine (foldl_ledgerKept _ (fun s w => giveIfReady_ledgerKept w s) _ _).trans ?_
      rw [wakeFetch_ledger]
      split
      · exact .of_eq (by simp)
      · exact loadEntry_ledgerKept e d s
    · exact .of_eq rfl

theorem takeOffer_ledgerKept (e : CalEntry) (s : State) : (takeOffer e s).ledger.KeptFrom s.ledger := by
  unfold takeOffer
  split
  · exact (calSet_ledgerKept _ _).trans (.of_eq (by simp))
  · exact calSet_ledgerKept _ s

theorem takeGrace_ledgerKept (e : CalEntry) (s : State) : (takeGrace e s).ledger.KeptFrom s.ledger := by
  unfold takeGrace
  dsimp only
  split
  · split
    · exact calSet_ledgerKept _ s
    · rw [startLapse_ledger]
      exact calKeep_ledgerKept _ s
  · exact calSet_ledgerKept _ s

theorem forceNext_ledgerKept (r : List (Key × Nat)) (s : State) : (forceNext r s).ledger.KeptFrom s.ledger := by
  cases r with
  | nil => exact .of_eq rfl
  | cons p more => exact calForce_ledgerKept p.2 s

theorem forceDue_ledgerKept (m t : Nat) (s : State) : (forceDue m t s).ledger.KeptFrom s.ledger := by
  unfold forceDue
  split
  · exact .of_eq rfl
  · split
    · exact .of_eq rfl
    · split
      · exact forceNext_ledgerKept _ s
      · split
        · split
          · exact .of_eq rfl
          · split
            · exact .of_eq rfl
            · exact calForce_ledgerKept _ s
        · exact .of_eq rfl

theorem admitEnded_ledgerKept (b : Bool) (s : State) : (admitEnded b s).ledger.KeptFrom s.ledger := by
  unfold admitEnded
  split
  · split
    · exact .of_eq (by simp)
    · rw [answerWith_ledger]
      exact calMake_ledgerKept _ _ _ _
  · exact .of_eq rfl

theorem startRun_ledgerKept (s : State) : (startRun s).ledger.KeptFrom s.ledger := by
  unfold startRun
  rw [restartQuietAll_ledger]
  split
  · exact calRebase_ledgerKept s
  · exact .of_eq rfl

/-- The transactions kept by the return of responses are no more than those looked at (R168). -/
theorem flushFold_length (s : State) (ts : List Txn) (acc : Flushing) :
    (ts.foldl (flushOne s) acc).kept.length ≤ acc.kept.length + ts.length := by
  induction ts generalizing acc with
  | nil => exact Nat.le_refl _
  | cons t ts ih =>
    have one : (flushOne s acc t).kept.length ≤ acc.kept.length + 1 := by
      unfold flushOne
      (repeat' split) <;> simp
    have rest := ih (flushOne s acc t)
    rw [List.foldl_cons, List.length_cons]
    omega

/-- The return of responses opens no transaction (R168). -/
theorem flush_ledgerKept (s : State) : (flush s).ledger.KeptFrom s.ledger := by
  refine ⟨id, fun h => Nat.le_trans (flushFold_length s s.txns {}) ?_⟩
  rw [List.length_nil, Nat.zero_add]
  exact h

theorem settle_ledgerKept (s : State) : (settle s).ledger.KeptFrom s.ledger :=
  (flush_ledgerKept _).trans (.of_eq (pump_ledger s))

/-- The take opens one transaction (R159). -/
theorem takeTxn_ledger (p : PortTxn) (s : State) : (takeTxn p s).ledger = ⟨s.calendar, s.txns.length + 1⟩ := by
  cases p with
  | read init addr len =>
    refine (foldl_keeps State.ledger _ (fun s (q : ReadPart) => placeHold_ledger q.owner s) _ _).trans ?_
    exact congrArg (Ledger.mk s.calendar) (List.length_append (as := s.txns))
  | write init addr bytes => exact congrArg (Ledger.mk s.calendar) (List.length_append (as := s.txns))

/-! ## The update queue (R66, R67) -/

/-- A queue of jobs of another meets the rule where that does (R66). -/
theorem queueOk_of_sublist {s t : State} (h : s.QueueOk) (hs : t.queue.Sublist s.queue) : t.QueueOk :=
  ⟨hs.length_le.trans h.1, h.2.sublist ((hs.filter _).map _)⟩

/-- A job joins a queue that has a place, a CAPTURE job where none waits for its context (R66). -/
theorem queueOk_concat {s t : State} (h : s.QueueOk) (j : Job) (ht : t.queue = s.queue ++ [j])
    (hl : s.queue.length < Config.queuePlaces) (hj : j.isCapture = true → s.waitingJob j.index = false) :
    t.QueueOk := by
  obtain ⟨-, single⟩ := h
  unfold State.QueueOk
  rw [ht]
  refine ⟨by simpa using hl, ?_⟩
  rw [List.filter_append, List.map_append, List.nodup_append]
  refine ⟨single, (List.nodup_singleton j.index).sublist (List.filter_sublist.map _), fun i hi k hk hik => ?_⟩
  obtain ⟨x, hx, rfl⟩ := List.mem_map.1 hi
  obtain ⟨y, hy, rfl⟩ := List.mem_map.1 hk
  obtain ⟨hy, hcapture⟩ := List.mem_filter.1 hy
  obtain rfl := List.mem_singleton.1 hy
  obtain ⟨hx, hxc⟩ := List.mem_filter.1 hx
  have waits := List.any_eq_false.1 (hj hcapture) x hx
  simp [hxc, hik] at waits

/-- A job that takes a newer record stays a job of its kind for its context (R67). -/
theorem supersede_fields (j : Job) (r : List Byte) (stamp : Tick) :
    (j.supersede r stamp).isCapture = j.isCapture ∧ (j.supersede r stamp).index = j.index := by
  unfold Job.supersede
  split
  · next h => exact ⟨by simp [Job.isCapture, h], rfl⟩
  · exact ⟨rfl, rfl⟩

/-- Jobs changed where they stand, each staying of its kind and for its context, meet the rule as before (R66). -/
theorem queueOk_map {s t : State} (h : s.QueueOk) {f : Job → Job} (ht : t.queue = s.queue.map f)
    (hf : ∀ j, (f j).isCapture = j.isCapture ∧ (f j).index = j.index) : t.QueueOk := by
  have kind : Job.isCapture ∘ f = Job.isCapture := funext fun j => (hf j).1
  have index : (fun j : Job => j.index) ∘ f = fun j => j.index := funext fun j => (hf j).2
  unfold State.QueueOk
  rw [ht, List.length_map, List.filter_map, kind, List.map_map, index]
  exact h

@[simp] theorem startRun_queue (s : State) : (startRun s).queue = s.queue := by
  unfold startRun
  rw [restartQuietAll_queue]
  split <;> rfl

@[simp] theorem stopRun_queue (s : State) : (stopRun s).queue = s.queue := by simp [stopRun]

@[simp] theorem applyWindow_queue (i : Nat) (w : Option Window) (s : State) : (applyWindow i w s).queue = s.queue := by
  unfold applyWindow
  split <;> simp

/-! ## What changes the queue -/

/-- Each of the three rules is met by the first state where it is met by the second (R66, R108, R158). -/
structure State.KeptFrom (t s : State) : Prop where
  queue : s.QueueOk → t.QueueOk
  ledger : t.ledger.KeptFrom s.ledger

theorem State.KeptFrom.refl (s : State) : s.KeptFrom s := ⟨id, .of_eq rfl⟩

theorem State.KeptFrom.trans {a b c : State} (h : a.KeptFrom b) (k : b.KeptFrom c) : a.KeptFrom c :=
  ⟨h.queue ∘ k.queue, h.ledger.trans k.ledger⟩

/-- What leaves the queue alone keeps the three rules where it keeps the ledger. -/
theorem State.KeptFrom.of_ledger {s t : State} (hq : t.queue = s.queue) (hl : t.ledger.KeptFrom s.ledger) :
    t.KeptFrom s := ⟨fun h => queueOk_of_sublist h (hq ▸ .refl _), hl⟩

/-- What leaves the queue, the calendar and the number of open transactions alone keeps the three rules. -/
theorem State.KeptFrom.of_same {s t : State} (hq : t.queue = s.queue) (hl : t.ledger = s.ledger) : t.KeptFrom s :=
  .of_ledger hq (.of_eq hl)

theorem offerJob_kept (i : Nat) (k : Key) (r : List Byte) (stamp : Tick) (s : State) :
    (offerJob i k r stamp s).KeptFrom s := by
  unfold offerJob
  split
  · refine ⟨fun h => queueOk_map h rfl fun j => ?_, .of_eq rfl⟩
    split
    · exact supersede_fields j r stamp
    · exact ⟨rfl, rfl⟩
  · next hw =>
    split
    · next hl => exact ⟨fun h => queueOk_concat h _ rfl hl fun _ => Bool.eq_false_iff.2 hw, .of_eq rfl⟩
    · exact .of_same (by simp) (by simp)

theorem takeHeard_kept (i : Nat) (k : Key) (r : List Byte) (stamp : Tick) (s : State) :
    (takeHeard i k r stamp s).KeptFrom s := by
  have heard : (calHeard i stamp s).KeptFrom s := .of_ledger (by simp) (calHeard_ledgerKept i stamp s)
  unfold takeHeard
  dsimp only
  split
  · exact .trans (.of_same (countChannel_queue _ _ _) (countChannel_ledger _ _ _)) heard
  · exact (offerJob_kept i k r stamp _).trans heard

theorem takeRecord_kept (r : List Byte) (stamp : Tick) (s : State) : (takeRecord r stamp s).KeptFrom s := by
  unfold takeRecord
  dsimp only
  split
  · exact .of_same (by simp) (by simp)
  · split
    · exact .of_same (by simp) (by simp)
    · split
      · exact .of_same (by simp) (by simp)
      · split
        · exact .of_same (by simp) (by simp)
        · split
          · exact .of_same (by simp) (by simp)
          · exact (takeHeard_kept _ _ r stamp _).trans (.of_same (by simp) (by simp))

theorem openAssembly_kept (w block : Nat) (s : State) : (openAssembly w block s).1.KeptFrom s := by
  unfold openAssembly
  dsimp only
  split
  · exact .refl s
  · split
    · exact .refl s
    · exact .of_same (by simp) (by simp)

theorem capturePart_kept (w block : Nat) (ps : List (Nat × Byte)) (s : State) :
    (capturePart w block ps s).1.KeptFrom s := by
  unfold capturePart
  dsimp only
  refine .trans ?_ (openAssembly_kept w block s)
  split
  · exact (takeRecord_kept _ _ _).trans (.of_same rfl rfl)
  · exact .of_same rfl rfl

theorem captureWrite_kept (run : RunState) (w block : Nat) (p : Part) (bytes : List WByte) (s : State) :
    (captureWrite run w block p bytes s).state.KeptFrom s := by
  unfold captureWrite
  dsimp only
  split
  · exact capturePart_kept w block _ s
  · exact .refl s

theorem contextWrite_kept (i : Nat) (k : Key) (id : Nat) (p : Part) (bytes : List WByte) (s : State) :
    (contextWrite i k id p bytes s).state.KeptFrom s := by
  unfold contextWrite
  dsimp only
  split
  · exact .refl s
  · exact .of_ledger (by simp) (operatorWrite_ledgerKept i k id _ s)

theorem takeJob_kept (s : State) : (takeJob s).KeptFrom s := by
  refine ⟨fun h => ?_, .of_eq (takeJob_ledger s)⟩
  unfold takeJob
  split
  · exact h
  · split
    · next hq => exact queueOk_of_sublist h (by rw [request_queue, hq]; exact List.sublist_cons_self _ _)
    · exact h

/-- RELEASE takes the waiting job of its context out of the queue, and its entry out of the calendar (R21, R68). -/
theorem releaseContext_kept (k : Key) (i : Nat) (s : State) : (releaseContext k i s).KeptFrom s := by
  unfold releaseContext
  refine ⟨fun h => queueOk_of_sublist h ?_, ?_⟩
  · rw [releaseRequests_queue, releaseEntry_queue, markJob_queue]
    exact List.filter_sublist
  · rw [releaseRequests_ledger, releaseEntry_ledger, markJob_ledger, releaseJob_ledger]
    exact calRemove_ledgerKept i _

theorem releaseNext_kept (r : List (Key × Nat)) (f : Bool) (s : State) : (releaseNext r f s).KeptFrom s := by
  unfold releaseNext
  split
  · exact .of_same rfl rfl
  · next k i more =>
    refine .trans ?_ (releaseContext_kept k i s)
    dsimp only
    split <;> exact .of_same rfl rfl

theorem releaseEnded_kept (b : Bool) (s : State) : (releaseEnded b s).KeptFrom s := by
  unfold releaseEnded
  split
  · exact (releaseNext_kept _ _ _).trans (.of_same (by split <;> simp) (by split <;> simp))
  · exact .refl s

/-- The TRIAL job joins a queue that has a place, and is no CAPTURE job (R66, R80). -/
theorem trialReadEnded_kept (data : Option (List Byte)) (s : State) : (trialReadEnded data s).KeptFrom s := by
  refine ⟨fun h => ?_, .of_eq (trialReadEnded_ledger data s)⟩
  unfold trialReadEnded
  split
  · split
    · exact queueOk_of_sublist h (by simp)
    · split
      · next hl => exact queueOk_concat h _ rfl hl nofun
      · exact h
  · exact h

/-! ## The passage of traffic -/

theorem handlePart_kept {run : RunState} {id : Nat} {p : Part} {bytes : List WByte} {s : State} {o : PartOutcome}
    (h : handlePart run id p bytes s = some o) : o.state.KeptFrom s := by
  unfold handlePart at h
  split at h
  · cases h
  · split at h
    · cases h; exact .refl s
    · split at h <;> cases h
      exact .of_same (by simp) (by simp)
    · cases h
      dsimp only
      split
      · exact .refl s
      · exact .of_same (by simp) (by simp)
    · cases h; exact captureWrite_kept _ _ _ _ _ s
    · (repeat' split at h) <;> cases h
      · exact .refl s
      · exact .refl s
      · exact contextWrite_kept _ _ _ _ _ s

theorem pump_kept (s : State) : (pump s).KeptFrom s := .of_same (by simp) (by simp)

theorem handleParts_kept (run : RunState) (id : Nat) (ps : List Part) (w : WriteWork) (s : State) :
    (handleParts run id ps w s).2.KeptFrom s := by
  induction ps generalizing w s with
  | nil => exact .refl s
  | cons p ps ih =>
    unfold handleParts
    split
    · exact .refl s
    · next h => exact ((ih _ _).trans (pump_kept _)).trans (handlePart_kept h)

theorem handleTxn_kept (t : Txn) (s : State) : (handleTxn t s).KeptFrom s := by
  unfold handleTxn
  split
  · split
    · exact .refl s
    · exact .of_same (by simp) (by simp)
  · next todo bytes dropped key _ =>
    have parts := handleParts_kept t.run t.id todo ⟨todo, bytes, dropped, key⟩ s
    split
    · next h =>
      rw [h] at parts
      exact (State.KeptFrom.of_same (by simp) (by simp)).trans parts
    · next h =>
      rw [h] at parts
      exact (State.KeptFrom.of_same (by simp) (by simp)).trans parts

/-- The grants of the memory port change neither the queue, the calendar nor the open list. -/
theorem grantAll_kept (s : State) : (grantAll s).KeptFrom s := .of_same (grantAll_queue s) (grantAll_ledger s)

theorem advanceOne_kept (acc : State × List Initiator) (id : Nat) : (advanceOne acc id).1.KeptFrom acc.1 := by
  unfold advanceOne
  split
  · exact .refl _
  · next t _ =>
    split
    · exact .refl _
    · have handled : (grantAll (handleTxn t acc.1)).KeptFrom acc.1 :=
        (grantAll_kept _).trans (handleTxn_kept t acc.1)
      dsimp only
      split <;> exact handled

/-- A walk over the open transactions keeps what each of its steps does. -/
theorem walk_kept (f : State × List Initiator → Nat → State × List Initiator)
    (h : ∀ acc id, (f acc id).1.KeptFrom acc.1) (ids : List Nat) (acc : State × List Initiator) :
    (ids.foldl f acc).1.KeptFrom acc.1 := by
  induction ids generalizing acc with
  | nil => exact .refl _
  | cons id ids ih => exact (ih _).trans (h acc id)

theorem advance_kept (s : State) : (advance s).KeptFrom s := walk_kept _ advanceOne_kept _ (s, [])

theorem settle_kept (s : State) : (settle s).KeptFrom s := .of_ledger (by simp) (settle_ledgerKept s)

/-- The port takes a transaction while fewer than 32 are open (R159), so that no more than 32 are. -/
theorem takeTxn_kept (p : PortTxn) {s : State} (h : s.txns.length < Config.openLimit) : (takeTxn p s).KeptFrom s := by
  have queue : (takeTxn p s).queue = s.queue := by
    cases p with
    | read init addr len => exact foldl_keeps_from State.queue _ (fun s q => placeHold_queue _ s) _ _ _ rfl
    | write init addr bytes => rfl
  refine .of_ledger queue ?_
  rw [takeTxn_ledger]
  exact ⟨id, fun _ => h⟩

theorem drainLoop_kept (n : Nat) (s : State) : (drainLoop n s).KeptFrom s := by
  induction n generalizing s with
  | zero => exact .refl s
  | succ n ih =>
    unfold drainLoop
    split
    · exact .refl s
    · next p rest _ =>
      split
      · next hl =>
        have taken : (takeTxn p { s with atPort := rest }).KeptFrom s :=
          (takeTxn_kept p (s := { s with atPort := rest }) hl).trans (.of_same rfl rfl)
        exact (((ih _).trans (settle_kept _)).trans (advance_kept _)).trans taken
      · exact .refl s

theorem drainPort_kept (s : State) : (drainPort s).KeptFrom s := drainLoop_kept _ s

theorem resumeOne_kept (acc : State × List Initiator) (id : Nat) : (resumeOne acc id).1.KeptFrom acc.1 := by
  refine (advanceOne_kept _ id).trans (.of_same ?_ ?_)
  · exact foldl_keeps State.queue _ (fun s k => rejudgePart_queue id k s) _ acc.1
  · exact foldl_keeps State.ledger _ (fun s k => rejudgePart_ledger id k s) _ acc.1

theorem resume_kept (s : State) : (resume s).KeptFrom s :=
  (walk_kept _ resumeOne_kept _ (pump s, [])).trans (pump_kept s)

/-! ## Every step -/

/-- An event keeps the three rules where its effect does. -/
theorem kept_event {s t : State} {f : State → State} (hf : (f s).KeptFrom s) (ht : event s f = .next t) :
    t.KeptFrom s := by
  unfold event at ht
  split at ht <;> cases ht
  · exact .refl s
  · exact (grantAll_kept _).trans hf

theorem kept_cacheEvent {s t : State} {f : State → State} (hf : (f s).KeptFrom s) (ht : cacheEvent s f = .next t) :
    t.KeptFrom s := kept_event (f := fun x => drainPort (settle (f x)))
  (((drainPort_kept _).trans (settle_kept _)).trans hf) ht

theorem kept_arrival {s t : State} {p : PortTxn} (ht : arrival p s = .next t) : t.KeptFrom s := by
  unfold arrival at ht
  split at ht
  · cases ht; exact .of_same rfl rfl
  · exact kept_cacheEvent (.of_same rfl rfl) ht

theorem kept_controlWrite {s t : State} {init : Initiator} {off : Nat} {bytes : List WByte}
    (ht : controlWrite init off bytes s = .next t) : t.KeptFrom s := by
  unfold controlWrite at ht
  split at ht
  · exact kept_cacheEvent (.of_same rfl rfl) ht
  · cases ht

/-- The end of an access keeps the three rules where what goes on with it does. -/
theorem kept_ending {s : State} {p : Purpose → Bool} {k : Access → State → State} (hk : ∀ a x, (k a x).KeptFrom x) :
    (s.ending p k).KeptFrom s := by
  unfold State.ending
  split
  · exact .refl s
  · exact (hk _ _).trans (.of_same rfl rfl)

/-- A command CMU begins keeps the three rules where each command it may hold does. -/
theorem kept_onCommand {s : State} {code : Nat} {f : List Byte → State → State} (hf : ∀ d x, (f d x).KeptFrom x) :
    (onCommand code f s).KeptFrom s := by
  unfold onCommand
  split
  · split
    · exact hf _ s
    · exact .refl s
  · exact .refl s

/-- A step that ends an access. -/
theorem kept_eventEnding {s t : State} {p : Purpose → Bool} {k : Access → State → State}
    (hk : ∀ a x, (k a x).KeptFrom x) (ht : event s (fun x => x.ending p k) = .next t) : t.KeptFrom s :=
  kept_event (kept_ending hk) ht

theorem kept_cacheEnding {s t : State} {p : Purpose → Bool} {k : Access → State → State}
    (hk : ∀ a x, (k a x).KeptFrom x) (ht : cacheEvent s (fun x => x.ending p k) = .next t) : t.KeptFrom s :=
  kept_cacheEvent (kept_ending hk) ht

/-- A step at which CMU begins a command. -/
theorem kept_command {s t : State} {code : Nat} {f : List Byte → State → State} (hf : ∀ d x, (f d x).KeptFrom x)
    (ht : event s (onCommand code f) = .next t) : t.KeptFrom s := kept_event (kept_onCommand hf) ht

theorem kept_cacheCommand {s t : State} {code : Nat} {f : List Byte → State → State}
    (hf : ∀ d x, (f d x).KeptFrom x) (ht : cacheEvent s (onCommand code f) = .next t) : t.KeptFrom s :=
  kept_cacheEvent (kept_onCommand hf) ht

theorem answer_kept (st : Status) (s : State) : (answer st s).KeptFrom s := .of_same rfl rfl

theorem cmuSubmit_kept (s : State) (a : Access) (p : CmuPhase) (o : Option Nat) : (s.cmuSubmit a p o).KeptFrom s :=
  .of_same rfl rfl

theorem giveIfReady_kept (w : Requester) (s : State) : (giveIfReady w s).KeptFrom s :=
  .of_ledger (by simp) (giveIfReady_ledgerKept w s)

/-- The state after pin reset meets the three rules whatever came before (R172). -/
theorem kept_reset (s t : State) (hq : t.queue = []) (hc : t.calendar = []) (ho : t.txns = []) : t.KeptFrom s where
  queue _ := by simp [State.QueueOk, hq]
  ledger := ⟨fun _ => by simp [State.ledger, hc], fun _ => by simp [State.ledger, ho]⟩

/-- Every step of the part keeps the queue, the calendar and the open list (R66, R108, R158). -/
theorem kept_exec {s t : State} (i : Instr) (ht : exec i s = .next t) : t.KeptFrom s := by
  cases i with
  | pinReset => cases ht; exact kept_reset s _ rfl rfl rfl
  | pinResetDeassertion strap =>
    change execPinResetDeassertion strap s = _ at ht
    unfold execPinResetDeassertion at ht
    split at ht <;> cases ht
    · exact ((grantAll_kept _).trans (drainPort_kept _)).trans (.of_same rfl rfl)
    · exact .refl s
  | passingRead init addr len =>
    change execPassingRead init addr len s = _ at ht
    unfold execPassingRead at ht
    split at ht
    · exact kept_arrival ht
    · cases ht
  | passingWrite init addr bytes =>
    change execPassingWrite init addr bytes s = _ at ht
    unfold execPassingWrite at ht
    split at ht
    · exact kept_arrival ht
    · cases ht
  | readDataReturn txn data =>
    change execReadDataReturn txn data s = _ at ht
    unfold execReadDataReturn at ht
    split at ht
    · split at ht
      · exact kept_cacheEnding (fun _ x => .of_same (readFailed_queue txn x) (readFailed_ledger txn x)) ht
      · next bs =>
        split at ht
        · exact kept_cacheEnding (fun _ x => .of_same (readArrived_queue txn bs x) (readArrived_ledger txn bs x)) ht
        · cases ht
    · cases ht; exact .refl s
  | writeResponseReturn txn error =>
    change execWriteResponseReturn txn error s = _ at ht
    unfold execWriteResponseReturn at ht
    split at ht
    · exact kept_cacheEnding
        (fun _ x => .of_same (writeCompleted_queue txn error x) (writeCompleted_ledger txn error x)) ht
    · cases ht; exact .refl s
  | commandProducerWrite init bytes => exact kept_controlWrite ht
  | noticeConsumerWrite init bytes => exact kept_controlWrite ht
  | dueConsumerWrite init bytes => exact kept_controlWrite ht
  | partIndexWordWrite init word bytes => exact kept_controlWrite ht
  | slotHeaderWrite init slot bytes => exact kept_controlWrite ht
  | fetchDataArrival index data =>
    change execFetchDataArrival index data s = _ at ht
    unfold execFetchDataArrival at ht
    split at ht
    · refine kept_cacheEnding (fun _ x => ?_) ht
      cases data with
      | none => exact .of_same (fetchFailed_queue index x) (fetchFailed_ledger index x)
      | some bs => exact .of_ledger (by simp) (fetchArrived_ledgerKept index bs x)
    · cases ht
  | writeBackEnd index error =>
    exact kept_cacheEnding
      (fun _ x => .of_same (writeBackEnded_queue index _ error x) (writeBackEnded_ledger index _ error x)) ht
  | jobTake => exact kept_cacheEvent (takeJob_kept s) ht
  | jobContextGiven => exact kept_cacheEvent (giveIfReady_kept _ s) ht
  | jobCompletion => exact kept_cacheEvent (.of_ledger (by simp) (completeJob_ledgerKept s)) ht
  | offerTaking =>
    change execOfferTaking s = _ at ht
    unfold execOfferTaking at ht
    refine kept_event ?_ ht
    split
    · exact .refl s
    · split
      · exact .refl s
      · exact .of_ledger (by simp) (takeOffer_ledgerKept _ s)
  | graceExpiry =>
    change execGraceExpiry s = _ at ht
    unfold execGraceExpiry at ht
    refine kept_cacheEvent ?_ ht
    split
    · exact .refl s
    · split
      · exact .of_ledger (by simp) (takeGrace_ledgerKept _ s)
      · exact .refl s
  | silentLapseApplied =>
    change execSilentLapseApplied s = _ at ht
    unfold execSilentLapseApplied at ht
    refine kept_cacheEvent ?_ ht
    split
    · exact .of_ledger (by simp) (giveLapse_ledgerKept s)
    · exact .of_same (startLapse_queue s) (startLapse_ledger s)
  | quietTimerExpiry channel =>
    change execQuietTimerExpiry channel s = _ at ht
    unfold execQuietTimerExpiry at ht
    refine kept_event ?_ ht
    (repeat' split) <;> exact .of_same (by simp) (by simp)
  | coalescingTimerExpiry =>
    change execCoalescingTimerExpiry s = _ at ht
    unfold execCoalescingTimerExpiry at ht
    refine kept_event ?_ ht
    split <;> exact .of_same rfl rfl
  | slotBindingMade slot => exact kept_cacheEvent (giveIfReady_kept _ s) ht
  | promotion => exact kept_cacheEvent (giveIfReady_kept _ s) ht
  | noticeWriteEnd error =>
    refine kept_eventEnding (fun _ x => (State.KeptFrom.of_same rfl (publishNotice_ledger _)).trans ?_) ht
    split <;> exact .of_same rfl rfl
  | noticeProducerWriteEnd error => exact kept_eventEnding (fun _ x => .refl x) ht
  | offerWriteEnd error =>
    exact kept_eventEnding (fun _ x => .of_same (by split <;> simp) (by split <;> simp)) ht
  | dueProducerWriteEnd error =>
    exact kept_eventEnding (fun _ x => .of_same (by split <;> simp) (by split <;> simp)) ht
  | descriptorFetchEnd data =>
    change execDescriptorFetchEnd data s = _ at ht
    unfold execDescriptorFetchEnd at ht
    split at ht
    · refine kept_eventEnding (fun _ x => ?_) ht
      cases data with
      | none => exact .of_same (descriptorFailed_queue x) (descriptorFailed_ledger x)
      | some bs => exact .of_same (descriptorArrived_queue bs x) (descriptorArrived_ledger bs x)
    · cases ht
  | start =>
    refine kept_command (fun _ x => ?_) ht
    split
    · exact .of_ledger (by simp) ((Ledger.KeptFrom.of_eq (writeMirror_ledger _)).trans (startRun_ledgerKept x))
    · exact answer_kept _ x
  | stop =>
    refine kept_command (fun _ x => ?_) ht
    split
    · exact .of_same (by simp) (by simp)
    · exact answer_kept _ x
  | setWindow =>
    refine kept_command (fun d x => ?_) ht
    split
    · exact answer_kept _ x
    · exact .of_same (by simp) (by simp)
  | setPolicy =>
    refine kept_command (fun _ x => ?_) ht
    (repeat' split) <;> exact .of_same rfl rfl
  | readChannel =>
    refine kept_command (fun _ x => ?_) ht
    dsimp only
    split <;> exact .of_same rfl rfl
  | admitLink =>
    refine kept_command (fun _ x => ?_) ht
    split <;> exact .of_same rfl rfl
  | release =>
    refine kept_cacheCommand (fun _ x => ?_) ht
    dsimp only
    split
    · exact answer_kept _ x
    · split
      · exact releaseNext_kept _ _ x
      · split
        · exact answer_kept _ x
        · exact releaseNext_kept _ _ x
  | revive =>
    refine kept_cacheCommand (fun _ x => ?_) ht
    dsimp only
    (repeat' split) <;> exact .of_same (by simp) (by simp)
  | forceDue =>
    change execForceDue s = _ at ht
    unfold execForceDue at ht
    refine kept_event ?_ ht
    split
    · exact .of_ledger (by simp) (forceNext_ledgerKept _ s)
    · exact kept_onCommand fun _ x => .of_ledger (by simp) (forceDue_ledgerKept _ _ x)
  | trial =>
    refine kept_command (fun _ x => ?_) ht
    dsimp only
    (repeat' split) <;> exact .of_same rfl rfl
  | readContexts =>
    refine kept_cacheCommand (fun _ x => ?_) ht
    dsimp only
    (repeat' split) <;> exact .of_same (by simp) (by simp)
  | setNotify =>
    refine kept_command (fun _ x => ?_) ht
    exact .of_same rfl rfl
  | identify => exact kept_command (fun _ x => cmuSubmit_kept x _ _ _) ht
  | admitImageWriteEnd error =>
    exact kept_cacheEnding (fun _ x => (resume_kept _).trans (.of_ledger (by simp) (admitEnded_ledgerKept error x))) ht
  | releaseHeaderWriteEnd error =>
    exact kept_cacheEnding (fun _ x => (resume_kept _).trans (releaseEnded_kept error x)) ht
  | reviveContextGiven => exact kept_cacheEvent (giveIfReady_kept _ s) ht
  | policyBlockReadEnd data =>
    change execPolicyBlockReadEnd data s = _ at ht
    unfold execPolicyBlockReadEnd at ht
    split at ht
    · exact kept_eventEnding (fun _ x => .of_same (policyReadEnded_queue data x) (policyReadEnded_ledger data x)) ht
    · cases ht
  | channelRecordWriteEnd error =>
    exact kept_eventEnding (fun _ x => .of_same (channelWriteEnded_queue error x) (channelWriteEnded_ledger error x)) ht
  | trialRecordReadEnd data =>
    change execTrialRecordReadEnd data s = _ at ht
    unfold execTrialRecordReadEnd at ht
    split at ht
    · exact kept_eventEnding (fun _ x => trialReadEnded_kept data x) ht
    · cases ht
  | trialResultWriteEnd error =>
    exact kept_eventEnding (fun _ x => .of_same (trialWriteEnded_queue error x) (trialWriteEnded_ledger error x)) ht
  | contextCopyComposed => exact kept_cacheEvent (giveIfReady_kept _ s) ht
  | copyWriteEnd error =>
    exact kept_cacheEnding (fun _ x => .of_same (copyWriteEnded_queue error x) (copyWriteEnded_ledger error x)) ht
  | identifyWriteEnd error =>
    exact kept_eventEnding
      (fun _ x => .of_same (identifyWriteEnded_queue error x) (identifyWriteEnded_ledger error x)) ht
  | mirrorWriteEnd error =>
    exact kept_eventEnding (fun _ x => .of_same (mirrorWriteEnded_queue error x) (mirrorWriteEnded_ledger error x)) ht
  | resultWriteEnd error =>
    exact kept_eventEnding (fun _ x => .of_same (resultWriteEnded_queue error x) (resultWriteEnded_ledger error x)) ht
  | statusWriteEnd error =>
    exact kept_eventEnding (fun _ x => .of_same (statusWriteEnded_queue error x) (statusWriteEnded_ledger error x)) ht
  | commandIndexWriteEnd error =>
    exact kept_eventEnding (fun _ x => .of_same (indexWriteEnded_queue error x) (indexWriteEnded_ledger error x)) ht

/-- Settles O57: the step takes the front of the queue, or ticks, and every step of the part keeps the three rules. -/
theorem stepKeepsQueue : Obligations.StepKeepsQueue := by
  intro s t ht
  have kept : t.KeptFrom s := by
    unfold step at ht
    split at ht
    · cases ht
      unfold tick
      split
      · exact .refl s
      · exact .of_same rfl rfl
    · next i rest _ => exact (kept_exec (s := { s with pending := rest }) i ht).trans (.of_same rfl rfl)
  exact ⟨kept.queue, kept.ledger.calendar, kept.ledger.opened⟩

end Sys2Proof.Machine
end

section
/-!
PROOFS. TRIAL: its checks in order, the read of its record, and the job that joins the queue (R66, R79, R80).
-/

namespace Sys2Proof.Machine

/-- A TRIAL CMU holds answers by the first of its checks that fails, or reads its record (R79). -/
theorem trial_begins {s : State} {d : List Byte} {key : Key} {addr : Nat} (h : s.Executing 0x14 d)
    (hk : cmdKey d = key) (ha : getAddress d 8 = addr) : ∃ f, exec .trial s = event s f
      ∧ (15 < key.channel ∨ key.station = 0 ∨ 16383 < key.station → f s = answer .keyInvalid s)
      ∧ (¬ (15 < key.channel ∨ key.station = 0 ∨ 16383 < key.station) →
        (s.run = .idle → f s = answer .state s)
        ∧ (s.run ≠ .idle →
          (addr % 64 ≠ 0 → f s = answer .range s)
          ∧ (addr % 64 = 0 →
            (s.lookup key = none → f s = answer .notFound s)
            ∧ ∀ idx, s.lookup key = some idx → f s
              = s.cmuSubmit ⟨.trialRecord, addr, .read 64⟩ (.trialRead key idx (bitAt d 13 0)) (some s.takes)))) := by
  subst hk ha
  refine ⟨_, rfl, ?_⟩
  rw [onCommand_of (code := codeTrial) h]
  dsimp only
  refine ⟨fun hbad => if_pos ((admitKey_iff _).2 hbad), fun hbad => ?_⟩
  rw [if_neg (mt (admitKey_iff _).1 hbad)]
  refine ⟨fun hr => if_pos hr, fun hr => ?_⟩
  rw [if_neg hr]
  refine ⟨fun hm => if_pos hm, fun hm => ?_⟩
  rw [if_neg (not_not_intro hm)]
  exact ⟨fun hl => by rw [hl], fun idx hl => by rw [hl]⟩

/-- The end of the record's read goes on with TRIAL (R79). -/
theorem trial_record_ends {s : State} {a : Access} {rest : List Access} {data : Option (List Byte)}
    (ha : s.oldest (isPurpose .trialRecord) a rest) (hd : isAnswer 64 data = true) :
    ∃ f, exec (.trialRecordReadEnd data) s = event s f ∧ f s = trialReadEnded data (s.ended rest) :=
  ⟨fun x => x.ending (isPurpose .trialRecord) fun _ y => trialReadEnded data y, if_pos hd, ending_ended ha _⟩

section
variable {s : State} {key : Key} {idx : Nat} {raw : Bool}

/-- The record read makes a TRIAL job, which joins a queue that has a place (R66, R80). -/
theorem trialReadEnded_joins (h : s.cmu.phase = .trialRead key idx raw) (r : List Byte)
    (hl : s.queue.length < Config.queuePlaces) : trialReadEnded (some r) s = { s with
      queue := s.queue ++ [trialJob key idx raw s.cmu.consumer r]
      cmu := s.cmuIn .trialWait } := by
  simp only [trialReadEnded, h, hl, if_true]
  rfl

/-- A queue with no place answers FULL (R80). -/
theorem trialReadEnded_full (h : s.cmu.phase = .trialRead key idx raw) (r : List Byte)
    (hl : ¬ s.queue.length < Config.queuePlaces) : trialReadEnded (some r) s = answer .full s := by
  simp only [trialReadEnded, h, hl, if_false]

/-- A record that could not be read answers MEMORY, with MEMORY_FAULT (R79, R96). -/
theorem trialReadEnded_fails (h : s.cmu.phase = .trialRead key idx raw) :
    trialReadEnded none s = notify ⟨.memoryFault, 5, key, s.now, 0⟩ (answer .memory s) := by
  simp only [trialReadEnded, h]
  rfl

end

/-- Settles O48: the checks of TRIAL, and what the end of its record's read comes to. -/
theorem trialQueued : Obligations.TrialQueued := by
  refine ⟨fun s d hd => ?_, fun s key idx raw r a rest hs hphase ha hr => ?_⟩
  · intro key addr bad
    obtain ⟨f, step, invalid, valid⟩ := trial_begins (key := key) (addr := addr) hd rfl rfl
    rw [step]
    refine ⟨fun h => event_answers hd.1 (invalid h), fun h hrun => event_answers hd.1 ((valid h).1 hrun),
      fun h hrun haddr => ?_, fun h hrun haddr => ?_⟩ <;> obtain ⟨misplaced, placed⟩ := (valid h).2 hrun
    · exact event_answers hd.1 (misplaced haddr)
    · obtain ⟨unknown, admitted⟩ := placed haddr
      exact ⟨fun hl => event_answers hd.1 (unknown hl), fun idx hl => event_submits hd.1 (admitted idx hl)⟩
  · have phase : (s.ended rest).cmu.phase = .trialRead key idx raw := hphase
    obtain ⟨f, step, ends⟩ := trial_record_ends (data := some r) ha (by simp [isAnswer, hr])
    obtain ⟨g, failStep, fails⟩ := trial_record_ends (data := none) ha rfl
    rw [step, failStep]
    refine ⟨fun hl => ?_, fun hl => ?_, ?_⟩
    · exact event_silent hs (ends.trans (trialReadEnded_joins phase r hl))
    · exact event_answers hs (ends.trans (trialReadEnded_full phase r (Nat.not_lt.2 hl)))
    · exact event_answers_told hs (fails.trans (trialReadEnded_fails phase))

end Sys2Proof.Machine
end

section
/-!
PROOFS. JOB_COMPLETION of a CAPTURE job that is unmarked: the update applied, the calendar's part, the notices
(R75, R76, R110, R118).
-/

namespace Sys2Proof.Machine

/-! ## What the events of a job leave out of account -/

/-- A notice leaves the engine and the cache entries out of account. -/
theorem notify_entries_apart (n : Notice) (s : State) (engine : Engine) (entries : Vector Entry 32) :
    notify n { s with engine := engine, entries := entries }
      = { notify n s with engine := engine, entries := entries } := by
  unfold notify
  split <;> rfl

/-- So do several. -/
theorem notifyAll_entries_apart (ns : List Notice) (s : State) (engine : Engine) (entries : Vector Entry 32) :
    notifyAll ns { s with engine := engine, entries := entries }
      = { notifyAll ns s with engine := engine, entries := entries } := by
  induction ns generalizing s with
  | nil => rfl
  | cons n ns ih =>
    change notifyAll ns (notify n _) = _
    rw [notify_entries_apart, ih]
    rfl

/-- Several notices leave the cache entries as they are. -/
theorem notifyAll_entries (ns : List Notice) (s : State) : (notifyAll ns s).entries = s.entries := by
  obtain ⟨_, _, told⟩ := notifyAll_with ns s
  rw [told]

/-- Several notices leave a part at rest at rest. -/
theorem State.Quiet.notifyAll {s : State} (h : s.Quiet) (ns : List Notice) : (Machine.notifyAll ns s).Quiet := by
  obtain ⟨_, _, told⟩ := notifyAll_with ns s
  rw [told]
  exact ⟨h.port, h.requests, h.sound, h.unanswered⟩

/-- An entry replaced while it is pinned, unpinned where no RELEASE has been taken against it (R74). -/
theorem unpin_replaced {s u : State} {e : Nat} {x : Entry} (he : e < 32) (hs : s.PinnedOnly e)
    (hx : x.pinned = true ∧ x.released = false) (hu : u.entries = s.entriesWith e x) :
    unpin u = { u with entries := s.entriesWith e { x with pinned := false } } := by
  have entries (d : Nat) : u.entry d = (s.setEntry e x).entry d := by simp only [State.entry, hu]; rfl
  have self : u.entry e = x := (entries e).trans (entry_setEntry_self s e x he)
  have only : u.PinnedOnly e := by
    refine ⟨self ▸ hx.1, self ▸ hx.2, fun d hd hp => by_contra fun hne => hne (hs.2.2 d hd ?_)⟩
    rw [entries, entry_setEntry_ne s e d x (Ne.symm hne)] at hp
    exact hp
  rw [unpin_only he only, self]
  simp [State.setEntry, State.entriesWith, hu]

/-! ## The calendar's part (R76, R110, R118) -/

/-- The due time a change of period class gives an entry (R118). -/
theorem calReclass_offer {s : State} {idx : Nat} {c : CalEntry} (h : s.calEntry idx = some c) (hk : c.kind = .offer)
    (k : PeriodClass) : calReclass idx k s = { s with
      calendar := s.calendarWith { c with
        cls := k, due := dueFrom s.now c.base (periodTicks (s.policyOf c.key) k) } } := by
  simp only [calReclass, h, hk, if_true]
  rfl

/-- An entry of another kind keeps its due time and its place (R118). -/
theorem calReclass_other {s : State} {idx : Nat} {c : CalEntry} (h : s.calEntry idx = some c) (hk : c.kind ≠ .offer)
    (k : PeriodClass) : calReclass idx k s = { s with
      calendar := s.calendar.map fun y => if y.index = idx then { c with cls := k } else y } := by
  obtain ⟨rfl, -⟩ := calEntry_found h
  simp only [calReclass, h, hk, if_false]
  rfl

/-- A lapsing link loses its entry, whose values the image keeps (R110). -/
theorem handOver_remove {s : State} {idx e : Nat} {c : CalEntry} (h : s.calEntry idx = some c) (he : e < 32)
    (hv : (s.entry e).cond = .valid) : handOver idx e .remove s = { s with
      entries := s.entriesWith e { s.entry e with
        image := { (s.entry e).image with calKind := none, miss := c.miss, due := c.due }, dirty := true }
      calendar := s.calendar.filter fun y => y.index != idx
      lapses := s.lapses.filter fun l => l.index != idx } := by
  rw [handOver, modifyImage_valid he hv, h]
  rfl


/-- A change of period class changes the calendar alone, whatever the engine and the cache entries are. -/
theorem calReclass_with (idx : Nat) (k : PeriodClass) (s : State) (engine : Engine) (entries : Vector Entry 32) :
    calReclass idx k { s with engine := engine, entries := entries }
      = { s with engine := engine, entries := entries, calendar := (calReclass idx k s).calendar } := by
  have found : State.calEntry { s with engine := engine, entries := entries } idx = s.calEntry idx := rfl
  unfold calReclass
  rw [found]
  cases s.calEntry idx with
  | none => rfl
  | some c =>
    dsimp only
    split <;> rfl

/-- The calendar's part changes the calendar, the lapse list and the image of the entry, whatever the engine is and
whether the entry is pinned or not. -/
theorem handOver_with (idx : Nat) {e : Nat} (h : HandOver) {x : Entry} (he : e < 32) (hx : x.cond = .valid)
    (s : State) : ∃ image dirty calendar lapses, ∀ engine pinned,
    handOver idx e h { s with engine := engine, entries := s.entriesWith e { x with pinned := pinned } }
      = { s with
          engine := engine
          entries := s.entriesWith e { x with pinned := pinned, image := image, dirty := dirty }
          calendar := calendar
          lapses := lapses } := by
  cases h with
  | nothing => exact ⟨x.image, x.dirty, s.calendar, s.lapses, fun _ _ => rfl⟩
  | nowTracking =>
    exact ⟨x.image, x.dirty, (calReclass idx .tracking s).calendar, s.lapses, fun _ _ => calReclass_with idx _ s _ _⟩
  | nowAcquire =>
    exact ⟨x.image, x.dirty, (calReclass idx .acquire s).calendar, s.lapses, fun _ _ => calReclass_with idx _ s _ _⟩
  | remove =>
    refine ⟨x.image.leaveCalendar (s.calEntry idx), true, s.calendar.filter fun y => y.index != idx,
      s.lapses.filter fun l => l.index != idx, fun engine pinned => ?_⟩
    let y : State := { s with engine := engine, entries := s.entriesWith e { x with pinned := pinned } }
    have self : y.entry e = { x with pinned := pinned } := entry_setEntry_self s e _ he
    have modified := modifyImage_valid (s := y) (f := fun c => c.leaveCalendar (y.calEntry idx)) he (by rw [self]; exact hx)
    rw [self] at modified
    change calRemove idx (modifyImage e _ y) = _
    rw [modified, State.setEntry, show y.entries.setIfInBounds e _ = _ from entriesWith_twice s e _ _]
    rfl

/-! ## The job applied (R75, R76) -/

/-- An unmarked CAPTURE job on a context that is present is applied on the entry that serves it (R75). -/
theorem completeJob_applies {s : State} {j : Job} {snap : Snapshot} {e : Nat}
    (he : s.engine = .computing j none snap) (hj : j.isCapture = true) (hg : s.givenEntry j.index j.key = some e) :
    completeJob s = applyJob j snap e s := by
  cases hk : j.kind with
  | trial raw pos => simp [Job.isCapture, hk] at hj
  | capture tally => simp only [completeJob, he, hk, hg]

/-- The events of an applied job come to those of its update on an entry that is unpinned, with CE idle, and leave a
part at rest at rest. -/
theorem applyJob_eq {s : State} {j : Job} {snap : Snapshot} {e : Nat} (he : e < 32) (hv : (s.entry e).cond = .valid)
    (hp : s.PinnedOnly e) {r : Applied} (hr : applyUpdate (s.entry e).image snap j.record j.stamp j.tally = r) :
    applyJob j snap e s = notifyAll (updateNotices j r.notices) (handOver j.index e r.handOver { s with
      engine := .idle
      entries := s.entriesWith e { s.entry e with image := r.ctx, dirty := true, pinned := false } })
    ∧ (s.Quiet → (applyJob j snap e s).Quiet) := by
  let x : Entry := { s.entry e with image := r.ctx, dirty := true }
  obtain ⟨image, dirty, calendar, lapses, handed⟩ := handOver_with j.index r.handOver (x := x) he hv s
  have modified : modifyImage e (fun _ => r.ctx) s = { s with engine := s.engine, entries := s.entriesWith e x } :=
    modifyImage_valid he hv
  have before := handed s.engine (s.entry e).pinned
  have after := handed .idle false
  generalize hy : ({ s with
    engine := s.engine
    entries := s.entriesWith e { x with pinned := (s.entry e).pinned, image := image, dirty := dirty }
    calendar := calendar
    lapses := lapses } : State) = y at before
  have told := notifyAll_entries_apart (updateNotices j r.notices) y .idle
    (s.entriesWith e { x with pinned := false, image := image, dirty := dirty })
  have unpinned := unpin_replaced (u := { notifyAll (updateNotices j r.notices) y with engine := .idle })
    (x := { x with pinned := (s.entry e).pinned, image := image, dirty := dirty }) he hp ⟨hp.1, hp.2.1⟩
    ((notifyAll_entries _ y).trans (by rw [← hy]))
  have applied : applyJob j snap e s = notifyAll (updateNotices j r.notices)
      { y with
        engine := .idle
        entries := s.entriesWith e { x with pinned := false, image := image, dirty := dirty } } := by
    rw [applyJob, hr]
    dsimp only
    rw [modified]
    exact ((congrArg (fun z => unpin { notifyAll (updateNotices j r.notices) z with engine := .idle }) before).trans
      unpinned).trans told.symm
  refine ⟨applied.trans (congrArg _ ?_), fun hq => ?_⟩
  · rw [← hy]
    exact after.symm
  · rw [applied, ← hy]
    refine State.Quiet.notifyAll ?_ _
    refine hq.of rfl hq.requests ?_ rfl
    exact sound_entriesWith (x := { x with pinned := false, image := image, dirty := dirty }) hq.sound rfl fun h => h

/-- Settles O22: the update applied with its events in one, and the calendar's part by the entry the calendar has. -/
theorem jobApplied : Obligations.JobApplied := by
  refine ⟨fun s j snap e hs he hj hserved hp => ?_, fun s idx e c hc he hv => ?_⟩
  · intro x r t
    obtain ⟨hlt, -, -⟩ := findEntry_some hserved.2.1
    obtain ⟨applied, quiet⟩ := applyJob_eq (snap := snap) (j := j) hlt hserved.2.2 hp rfl
    have effect := (completeJob_applies he hj hserved.given).trans applied
    have rest := quiet hs.quiet
    rw [applied] at rest
    exact cacheEvent_silent hs.running effect rest
  · intro due
    refine ⟨fun k h hk => ?_, rfl, handOver_remove hc he hv⟩
    have reclassed : handOver idx e h s = calReclass idx k s := by
      simp only [List.mem_cons, Prod.mk.injEq, List.not_mem_nil, or_false] at hk
      rcases hk with ⟨rfl, rfl⟩ | ⟨rfl, rfl⟩ <;> rfl
    exact ⟨fun ho => reclassed.trans (calReclass_offer hc ho k), fun ho => reclassed.trans (calReclass_other hc ho k)⟩

end Sys2Proof.Machine
end

section
/-!
PROOFS. CAPTURE jobs that are lost: marked, on a LAPSED context or on one that is gone (R72, R74, R78), and the entry
that a RELEASE was taken against, which the allocation that chose it takes (R88, R92).
-/

namespace Sys2Proof.Machine

/-! ## The pinned entry of a released context (R92, R93) -/

/-- The one pinned entry becomes INVALID where a RELEASE has been taken against it, and the allocations that wait for it
choose again (R92, R93). -/
theorem unpin_released {s : State} {e : Nat} (he : e < 32) (hp : (s.entry e).pinned = true)
    (hr : (s.entry e).released = true) (hv : (s.entry e).cond ≠ .invalid)
    (ho : ∀ d, d < 32 → (s.entry d).pinned = true → d = e) : unpin s
      = if (s.entry e).cond = .retiring then rechoose e (s.withoutEntry e (s.entry e).index)
        else s.withoutEntry e (s.entry e).index := by
  have found : (List.range 32).find? (fun d => (s.entry d).pinned) = some e := by
    refine List.find?_range_eq_some.2 ⟨hp, List.mem_range.2 he, fun d hd => ?_⟩
    simpa using fun h : (s.entry d).pinned = true => Nat.ne_of_lt hd (ho d (hd.trans he) h)
  simp only [unpin, found, hr, if_true, invalidate_eq hv]

/-- The one allocation that waits for an entry chooses again, before every other (R92). -/
theorem rechoose_one {s : State} {e i : Nat} {who : Requester} {key : Key} {pre post : List Req}
    (hr : s.reqs = pre ++ ⟨who, i, key, .writeBack e⟩ :: post) (ho : ∀ r ∈ pre ++ post, r.wait ≠ .writeBack e) :
    rechoose e s = { s with reqs := ⟨who, i, key, .list⟩ :: (pre ++ post) } := by
  have waiting (rs : List Req) (h : ∀ r ∈ rs, r.wait ≠ .writeBack e) :
      (rs.filter fun r => r.wait == .writeBack e) = [] :=
    List.filter_eq_nil_iff.2 fun r hm => by simpa using h r hm
  have others (rs : List Req) (h : ∀ r ∈ rs, r.wait ≠ .writeBack e) :
      (rs.filter fun r => r.wait != .writeBack e) = rs :=
    List.filter_eq_self.2 fun r hm => by simpa using h r hm
  have before : ∀ r ∈ pre, r.wait ≠ .writeBack e := fun r hm => ho r (List.mem_append_left post hm)
  have behind : ∀ r ∈ post, r.wait ≠ .writeBack e := fun r hm => ho r (List.mem_append_right pre hm)
  simp only [rechoose, hr, List.filter_append, List.filter_cons, waiting _ before, waiting _ behind, others _ before,
    others _ behind, beq_self_eq_true, bne_self_eq_false]
  rfl

/-- What a notice makes of NW it makes of it in every state with the same NW and port; only the order at the port can
differ. -/
theorem notify_apart_port {s y : State} (n : Notice) (hw : y.nw = s.nw) (hm : y.mem = s.mem)
    (hb : y.controlBase = s.controlBase) :
    ∃ w m m', notify n s = { s with nw := w, mem := m } ∧ notify n y = { y with nw := w, mem := m' } ∧ m'.gains m [] := by
  rcases notify_cases n s with ⟨h, told⟩ | ⟨h, told⟩ <;> rcases notify_cases n y with ⟨h', told'⟩ | ⟨h', told'⟩
  · refine ⟨_, _, _, told, by rw [told', hw, hb]; rfl, ?_⟩
    exact MemPort.gains_apart (m := y.mem) (submit_gains _ _ _ _) (by rw [hm]; exact submit_gains _ _ _ _)
  · exact absurd (hw ▸ h) h'
  · exact absurd (hw ▸ h') h
  · exact ⟨_, _, _, told, by rw [told', hw], by rw [hm]; exact MemPort.gains_refl _⟩

/-! ## A job discarded (R74) -/

/-- Where the context is gone nothing counts. -/
theorem discardJob_gone {s : State} {j : Job} (h : s.present j.index j.key = false) (cause : LossCause) :
    discardJob j cause s = unpin (notify (lostNotice j cause) { s with engine := .idle }) := by
  have given : s.givenEntry j.index j.key = none := by simp [State.givenEntry, h]
  rw [discardJob, given]

/-- Where it is present its entry takes the counts. -/
theorem discardJob_served {s : State} {j : Job} {e : Nat} (h : s.ServedBy j.index j.key e) (cause : LossCause) :
    discardJob j cause s = unpin (notify (lostNotice j cause) { s with
      engine := .idle
      entries := s.entriesWith e { s.entry e with image := (s.entry e).image.countLost j.tally, dirty := true } }) := by
  obtain ⟨he, -, -⟩ := findEntry_some h.2.1
  rw [discardJob, h.given]
  dsimp only
  rw [modifyImage_valid he h.2.2]
  rfl

/-- The entry that takes the counts is unpinned where the job had pinned it. -/
theorem discardJob_pinned {s : State} {j : Job} {e : Nat} (h : s.ServedBy j.index j.key e) (hp : s.PinnedOnly e)
    (cause : LossCause) : discardJob j cause s = notify (lostNotice j cause) { s with
      engine := .idle
      entries := s.entriesWith e
        { s.entry e with image := (s.entry e).image.countLost j.tally, dirty := true, pinned := false } } := by
  obtain ⟨he, -, -⟩ := findEntry_some h.2.1
  let x : Entry := { s.entry e with image := (s.entry e).image.countLost j.tally, dirty := true }
  have told := notify_entries_apart (lostNotice j cause) s .idle
  rw [discardJob_served h, unpin_replaced (s := s) (x := x) he hp ⟨hp.1, hp.2.1⟩ (notifyAll_entries [_] _)]
  exact (congrArg (fun z : State => { z with entries := s.entriesWith e { x with pinned := false } })
    (told (s.entriesWith e x))).trans (told _).symm

/-- After a notice there is no entry to unpin where none was pinned. -/
theorem unpin_notify {s : State} (h : s.Unpinned) (n : Notice) : unpin (notify n s) = notify n s := by
  obtain ⟨_, _, told⟩ := notify_with n s
  rw [told]
  exact unpin_none h

/-- A job that has pinned no entry leaves every entry unpinned. -/
theorem discardJob_unpinned {s : State} {j : Job} {e : Nat} (h : s.ServedBy j.index j.key e) (hp : s.Unpinned)
    (cause : LossCause) : discardJob j cause s = notify (lostNotice j cause) { s with
      engine := .idle
      entries := s.entriesWith e { s.entry e with image := (s.entry e).image.countLost j.tally, dirty := true } } := by
  rw [discardJob_served h]
  refine unpin_notify (fun d hd => ?_) _
  rcases entry_setEntry s e d { s.entry e with image := (s.entry e).image.countLost j.tally, dirty := true } with
    ⟨new, rfl, -⟩ | ⟨old, -⟩
  · exact (congrArg Entry.pinned new).trans (hp d hd)
  · exact (congrArg Entry.pinned old).trans (hp d hd)

/-! ## JOB_COMPLETION of a lost job (R72, R74) -/

/-- A CAPTURE job that is marked, or whose context is gone, is discarded; one on a context that is gone carries the
cause of its mark. -/
theorem completeJob_lost {s : State} {j : Job} {mark : Option LossCause} {snap : Snapshot}
    (he : s.engine = .computing j mark snap) (hj : j.isCapture = true)
    (h : mark.isSome = true ∨ s.present j.index j.key = false) : completeJob s = discardJob j (mark.getD .released) s := by
  cases hk : j.kind with
  | trial raw pos => simp [Job.isCapture, hk] at hj
  | capture tally =>
    cases mark with
    | some cause => simp only [completeJob, he, hk, Option.getD_some]
    | none =>
      have gone : s.present j.index j.key = false := h.resolve_left Bool.false_ne_true
      have given : s.givenEntry j.index j.key = none := by simp [State.givenEntry, gone]
      simp only [completeJob, he, hk, given, Option.getD_none]

section
variable {s : State} {j : Job} {mark : Option LossCause} {snap : Snapshot} {e : Nat}
  (he : s.engine = .computing j mark snap) (hj : j.isCapture = true) (hg : s.present j.index j.key = false)
  (hl : e < 32) (hp : (s.entry e).pinned = true) (hr : (s.entry e).released = true)
  (ho : ∀ d, d < 32 → (s.entry d).pinned = true → d = e)
include he hj hg hl hp hr ho

/-- Its entry, pinned and with a RELEASE taken against it, becomes INVALID, and the allocations that wait for it choose
again; the notice has been told before. -/
theorem completeJob_gone (hv : (s.entry e).cond ≠ .invalid) {w : Nw} {m : MemPort}
    (told : notify (lostNotice j (mark.getD .released)) { s with engine := .idle }
      = { s with engine := .idle, nw := w, mem := m }) :
    let gone := { s.withoutEntry e (s.entry e).index with engine := .idle, nw := w, mem := m }
    completeJob s = if (s.entry e).cond = .retiring then rechoose e gone else gone := by
  rw [completeJob_lost he hj (.inr hg), discardJob_gone hg, told]
  exact unpin_released (s := { s with engine := .idle, nw := w, mem := m }) hl hp hr hv ho

/-- Nothing goes on where the entry that became INVALID has no allocation waiting for it. -/
theorem completeJob_gone_idle (hs : s.Steady) (hv : (s.entry e).cond ≠ .invalid)
    (hw : (s.entry e).cond = .retiring → ∀ r ∈ s.reqs, r.wait ≠ .writeBack e) :
    NextIs (exec .jobCompletion s) (notify (lostNotice j (mark.getD .released))
      { s.withoutEntry e (s.entry e).index with engine := .idle }) [] := by
  obtain ⟨w, m, m', told, told', gains⟩ := notify_apart_port (s := { s with engine := .idle })
    (y := { s.withoutEntry e (s.entry e).index with engine := .idle }) (lostNotice j (mark.getD .released)) rfl rfl rfl
  have effect := completeJob_gone he hj hg hl hp hr ho hv told
  have alone : completeJob s = { s.withoutEntry e (s.entry e).index with engine := .idle, nw := w, mem := m } := by
    rw [effect]
    split
    · next hc => exact rechoose_idle (by exact hw hc)
    · rfl
  rw [told']
  exact cacheEvent_nextIs hs.running _ alone (hs.quiet.gone rfl hs.requests rfl rfl) rfl gains

/-- The allocation that waits for the entry takes it, and its fetch is issued (R88, R92). -/
theorem completeJob_gone_taken (hs : s.Steady) (hc : (s.entry e).cond = .retiring) {pre post : List Req}
    {who : Requester} {i : Nat} {key : Key}
    (hq : s.reqs = pre ++ ⟨who, i, key, .writeBack e⟩ :: post) (hw : who.isWrite = false)
    (hothers : ∀ r ∈ pre ++ post, r.index ≠ i ∧ r.wait ≠ .writeBack e)
    (hfirst : ∀ d, d < e → (s.entry d).cond ≠ .invalid) :
    NextIs (exec .jobCompletion s) (notify (lostNotice j (mark.getD .released))
      { s.withoutEntry e (s.entry e).index with
        engine := .idle
        entries := s.entriesWith e { cond := .fetching, index := i, key := key }
        reqs := ⟨who, i, key, .fetch⟩ :: (pre ++ post) }) [⟨.fetch i, s.contextAddr i, .read 256⟩] := by
  obtain ⟨w, m, m', told, told', gains⟩ := notify_apart_port (s := { s with engine := .idle })
    (y := { s.withoutEntry e (s.entry e).index with
      engine := .idle
      entries := s.entriesWith e { cond := .fetching, index := i, key := key }
      reqs := ⟨who, i, key, .fetch⟩ :: (pre ++ post) }) (lostNotice j (mark.getD .released)) rfl rfl rfl
  let gone : State := { s.withoutEntry e (s.entry e).index with engine := .idle, nw := w, mem := m }
  let u : State := { gone with reqs := ⟨who, i, key, .list⟩ :: (pre ++ post) }
  have effect : completeJob s = u := by
    rw [completeJob_gone he hj hg hl hp hr ho (by rw [hc]; decide) told, if_pos hc]
    exact rechoose_one (s := gone) hq fun r hm => (hothers r hm).2
  have waits : ∀ r ∈ pre ++ post, r.index ≠ i ∧ r.wait ≠ .list := fun r hm => by
    refine ⟨(hothers r hm).1, hs.requests r ?_⟩
    rw [hq]
    rcases List.mem_append.1 hm with hm | hm
    · exact List.mem_append_left _ hm
    · exact List.mem_append_right _ (List.mem_cons_of_mem _ hm)
  have entries (d : Nat) : u.entry d = (s.setEntry e {}).entry d := rfl
  have free : u.freeEntry = some e := by
    refine freeEntry_first hl ?_ fun d hd => ?_
    · rw [entries, entry_setEntry_self s e {} hl]
    · rw [entries, entry_setEntry_ne s e d {} (Nat.ne_of_gt hd)]
      exact hfirst d hd
  have taken := pump_takes (s := u) rfl hw waits free
  rw [show u.entriesWith e _ = s.entriesWith e _ from entriesWith_twice s e _ _] at taken
  rw [told']
  refine cacheEvent_pumps hs.running effect taken ?_ rfl (MemPort.gains_trans gains (submit_gains _ .cache _ _))
  refine ⟨hs.port, fun r hm => ?_, sound_entriesWith hs.sound rfl nofun, unanswered_dropHolds _ hs.unanswered⟩
  rcases List.mem_cons.1 hm with rfl | hm
  · exact nofun
  · exact (waits r hm).2

end

/-! ## JOB_CONTEXT_GIVEN to a lost job (R72) -/

/-- A CAPTURE job given its context, which is gone, is discarded. -/
theorem giveEngine_gone {s : State} {j : Job} {mark : Option LossCause} (he : s.engine = .obtaining j mark)
    (hj : j.isCapture = true) (hg : s.present j.index j.key = false) :
    giveEngine s = discardJob j (mark.getD .released) (dropReq .engine s) := by
  have given : s.givenEntry j.index j.key = none := by simp [State.givenEntry, hg]
  simp only [giveEngine, he, given, hj, if_true]

/-- So is one given its context marked or LAPSED, the mark deciding first. -/
theorem giveEngine_lost {s : State} {j : Job} {mark : Option LossCause} {e : Nat} (he : s.engine = .obtaining j mark)
    (hj : j.isCapture = true) (hready : s.Ready .engine j.index j.key) (hserved : s.ServedBy j.index j.key e)
    (h : mark.isSome = true ∨ (s.entry e).image.state = .lapsed) : giveEngine s = discardJob j (mark.getD .lapsed)
      { s with recency := s.recencyWith e, reqs := s.reqsWithout .engine } := by
  have touched : touchFor .engine e s (dropReq .engine s)
      = { s with recency := s.recencyWith e, reqs := s.reqsWithout .engine } :=
    touchFor_ready (s := dropReq .engine s) hready hserved.2.2
  cases mark with
  | some cause => simp only [giveEngine, he, hserved.given, touched, hj, Option.isSome_some, and_self, if_true,
      Option.getD_some]
  | none =>
    have lapsed := h.resolve_left Bool.false_ne_true
    simp only [giveEngine, he, hserved.given, touched, hj, lapsed, Option.isSome_none, Bool.false_eq_true, and_false,
      if_false, and_self, if_true, Option.getD_none]

/-- Settles O23: the job discarded on a context that serves it and on one that is gone, at its completion and when it
is given its context. -/
theorem jobLost : Obligations.JobLost := by
  intro s j mark e hs hj lost x counted
  have sound (pinned : Bool) : ∃ d, d < 32 ∧
      ((s.setEntry e { x with image := counted, dirty := true, pinned := pinned }).entry d).faulted = false :=
    sound_setEntry hs.sound fun h => h
  refine ⟨fun cause snap he hserved hp => ?_, fun snap he hg hl hp hr hv ho =>
      ⟨completeJob_gone_idle he hj hg hl hp hr ho hs hv, fun pre post who i key hc hq hw hothers hfirst =>
        completeJob_gone_taken he hj hg hl hp hr ho hs hc hq hw hothers hfirst⟩,
    fun he hready hunpinned => ?_⟩
  · have effect := (completeJob_lost he hj (.inl rfl)).trans (discardJob_pinned hserved hp cause)
    refine cacheEvent_silent hs.running effect (State.Quiet.notify ?_ _)
    exact hs.quiet.of rfl hs.requests (sound false) rfl
  · have gives : giveIfReady .engine s = giveEngine s := by
      rw [giveIfReady, readyReq_of hready]
      rfl
    have requests := reqsWithout_wait hs.requests .engine
    refine ⟨fun hg => ?_, fun hserved h => ?_⟩
    · have discards : giveEngine s = notify (lost (mark.getD .released)) { dropReq .engine s with engine := .idle } :=
        ((giveEngine_gone he hj hg).trans (discardJob_gone (s := dropReq .engine s) hg _)).trans
          (unpin_notify (s := { dropReq .engine s with engine := .idle }) hunpinned _)
      refine cacheEvent_silent hs.running (gives.trans discards) (State.Quiet.notify ?_ _)
      exact hs.quiet.of rfl requests hs.sound rfl
    · have discards := (giveEngine_lost he hj hready hserved h).trans
        (discardJob_unpinned (s := { s with recency := s.recencyWith e, reqs := s.reqsWithout .engine }) hserved
          hunpinned _)
      refine cacheEvent_silent hs.running (gives.trans discards) (State.Quiet.notify ?_ _)
      exact hs.quiet.of rfl requests (sound x.pinned) rfl

end Sys2Proof.Machine
end

section
/-!
PROOFS. The cache's invariant and the window table over every step (R85, R88, R158, R162, R163): what leaves the cache
entries and the requests alone, what each operation that changes them leaves of the invariant, and the window table
that SET_WINDOW leaves.
-/

namespace Sys2Proof.Machine

/-! ## What leaves the entries and the requests as they are -/

/-- What the cache's invariant speaks of: the entries, and the requests made of the cache (R85, R88). -/
def State.cached (s : State) : Vector Entry 32 × List Req := (s.entries, s.reqs)

/-- A state with the entries and requests of one that meets the invariant meets it. -/
theorem State.CacheOk.same {s t : State} (h : s.CacheOk) (hc : t.cached = s.cached) : t.CacheOk := by
  obtain ⟨he, hr⟩ : t.entries = s.entries ∧ t.reqs = s.reqs := Prod.mk.inj hc
  have entry : ∀ d, t.entry d = s.entry d := fun d => by rw [State.entry, State.entry, he]
  exact cacheOk_of h (fun d hd => entry d ▸ ⟨hd, rfl⟩) fun r hm hw => ⟨r, hr ▸ hm, hw, rfl⟩

/-- The entries and requests of a state written out. -/
@[simp] theorem State.mk_cached (a1 a2 a3 a4 a5 a6 a7 a8 a9 a10 a11 a12 a13 a14 a15 a16 a17 a18 a19 a20 a21 a22 a23
    a24 a25 a26) :
    (State.mk a1 a2 a3 a4 a5 a6 a7 a8 a9 a10 a11 a12 a13 a14 a15 a16 a17 a18 a19 a20 a21 a22 a23 a24 a25 a26).cached
      = (a12, a14) := rfl

/-- The entries and requests, field by field. -/
@[simp] theorem State.cached_fields (s : State) : (s.entries, s.reqs) = s.cached := rfl

@[simp] theorem setChannel_cached (s : State) (ch : Nat) (c : Channel) : (s.setChannel ch c).cached = s.cached := rfl
@[simp] theorem setSlot_cached (s : State) (n : Nat) (x : Slot) : (s.setSlot n x).cached = s.cached := rfl
@[simp] theorem setAssembly_cached (s : State) (w : Nat) (a : Option Assembly) :
    (s.setAssembly w a).cached = s.cached := rfl
@[simp] theorem setQuietTimer_cached (s : State) (ch : Nat) (t : Option QuietTimer) :
    (s.setQuietTimer ch t).cached = s.cached := rfl
@[simp] theorem setWindow_cached (s : State) (i : Nat) (w : Option Window) : (s.setWindow i w).cached = s.cached := rfl
@[simp] theorem submit_cached (s : State) (src : Source) (a : Access) (o : Option Nat) :
    (s.submit src a o).cached = s.cached := rfl
@[simp] theorem pass_cached (s : State) (id : Nat) (i : Initiator) (a : Nat) (b : Body) :
    (s.pass id i a b).cached = s.cached := rfl
@[simp] theorem wakePort_cached (s : State) : (wakePort s).cached = s.cached := rfl
@[simp] theorem modifyTxn_cached (s : State) (id : Nat) (f : Txn → Txn) : (s.modifyTxn id f).cached = s.cached := rfl
@[simp] theorem failTxn_cached (s : State) (id : Nat) : (s.failTxn id).cached = s.cached := rfl
@[simp] theorem kdirRemove_cached (s : State) (k : Key) : (s.kdirRemove k).cached = s.cached := rfl
@[simp] theorem cmuSubmit_cached (s : State) (a : Access) (p : CmuPhase) (o : Option Nat) :
    (s.cmuSubmit a p o).cached = s.cached := rfl
@[simp] theorem countChannel_cached (s : State) (ch : Nat) (f : ChanCounters → ChanCounters) :
    (s.countChannel ch f).cached = s.cached := rfl
@[simp] theorem grantAll_cached (s : State) : (grantAll s).cached = s.cached := rfl
@[simp] theorem claimNotice_cached (n : Notice) (s : State) : (claimNotice n s).cached = s.cached := rfl
@[simp] theorem claimOffer_cached (e : CalEntry) (r : OfferReason) (s : State) :
    (claimOffer e r s).cached = s.cached := rfl
@[simp] theorem lapseDrop_cached (i : Nat) (s : State) : (lapseDrop i s).cached = s.cached := rfl
@[simp] theorem calKeep_cached (e : CalEntry) (s : State) : (calKeep e s).cached = s.cached := rfl
@[simp] theorem calSet_cached (e : CalEntry) (s : State) : (calSet e s).cached = s.cached := rfl
@[simp] theorem calRemove_cached (i : Nat) (s : State) : (calRemove i s).cached = s.cached := rfl
@[simp] theorem calMake_cached (i : Nat) (k : Key) (c : PeriodClass) (s : State) :
    (calMake i k c s).cached = s.cached := rfl
@[simp] theorem calRebase_cached (s : State) : (calRebase s).cached = s.cached := rfl
@[simp] theorem restartQuiet_cached (ch : Nat) (s : State) : (restartQuiet ch s).cached = s.cached := rfl
@[simp] theorem arrive_cached (p : PortTxn) (s : State) : (arrive p s).cached = s.cached := rfl
@[simp] theorem answer_cached (st : Status) (s : State) : (answer st s).cached = s.cached := rfl
@[simp] theorem writeStatus_cached (st : Status) (s : State) : (writeStatus st s).cached = s.cached := rfl
@[simp] theorem fetchDescriptor_cached (s : State) : (fetchDescriptor s).cached = s.cached := rfl
@[simp] theorem writeMirror_cached (s : State) : (writeMirror s).cached = s.cached := rfl
@[simp] theorem advanceConsumer_cached (s : State) : (advanceConsumer s).cached = s.cached := rfl
@[simp] theorem releaseJob_cached (i : Nat) (s : State) : (releaseJob i s).cached = s.cached := rfl
@[simp] theorem writeHeader_cached (k : Key) (i : Nat) (r : List (Key × Nat)) (f : Bool) (s : State) :
    (writeHeader k i r f s).cached = s.cached := rfl
@[simp] theorem bindCopy_cached (n : Nat) (c : BoundCopy) (s : State) : (bindCopy n c s).cached = s.cached := rfl
@[simp] theorem armSlot_cached (n : Nat) (ps : List (Nat × Byte)) (s : State) :
    (armSlot n ps s).cached = s.cached := rfl
@[simp] theorem writeCompleted_cached (i : Nat) (b : Bool) (s : State) : (writeCompleted i b s).cached = s.cached := rfl
@[simp] theorem flush_cached (s : State) : (flush s).cached = s.cached := rfl
@[simp] theorem handDueConsumer_cached (v : BitVec 32) (s : State) : (handDueConsumer v s).cached = s.cached := rfl
@[simp] theorem publishNotice_cached (s : State) : (publishNotice s).cached = s.cached := rfl
@[simp] theorem publishOffer_cached (s : State) : (publishOffer s).cached = s.cached := rfl
@[simp] theorem notify_cached (n : Notice) (s : State) : (notify n s).cached = s.cached := by
  unfold notify
  split <;> simp
@[simp] theorem notifyAll_cached (ns : List Notice) (s : State) : (notifyAll ns s).cached = s.cached :=
  foldl_keeps State.cached _ (fun s n => notify_cached n s) ns s
@[simp] theorem memoryFault_cached (a : FaultAccess) (k : Key) (d : Nat) (s : State) :
    (memoryFault a k d s).cached = s.cached := by
  simp [memoryFault]
@[simp] theorem completePart_cached (s : State) (id k : Nat) (f : Nat → Byte → Byte) :
    (s.completePart id k f).cached = s.cached := by
  unfold State.completePart
  split <;> simp
@[simp] theorem answerWith_cached (fs : List (Nat × List Byte)) (st : Status) (s : State) :
    (answerWith fs st s).cached = s.cached := by
  unfold answerWith
  split
  · rfl
  · exact foldl_keeps_from State.cached _ (fun s p => submit_cached s _ _ _) _ _ _ rfl
@[simp] theorem calHeard_cached (i : Nat) (t : Tick) (s : State) : (calHeard i t s).cached = s.cached := by
  unfold calHeard
  split <;> simp
@[simp] theorem calReclass_cached (i : Nat) (c : PeriodClass) (s : State) : (calReclass i c s).cached = s.cached := by
  unfold calReclass
  (repeat' split) <;> simp
@[simp] theorem calClass_cached (i : Nat) (c : PeriodClass) (s : State) : (calClass i c s).cached = s.cached := by
  unfold calClass
  split <;> simp
@[simp] theorem calForce_cached (i : Nat) (s : State) : (calForce i s).cached = s.cached := by
  unfold calForce
  (repeat' split) <;> simp
@[simp] theorem holdClass_cached (i : Nat) (a b : Context) (s : State) : (holdClass i a b s).cached = s.cached := by
  unfold holdClass
  (repeat' split) <;> simp
@[simp] theorem touch_cached (e : Nat) (s : State) : (touch e s).cached = s.cached := by
  unfold touch
  split <;> simp
@[simp] theorem touchFor_cached (w : Requester) (e : Nat) (s0 s : State) : (touchFor w e s0 s).cached = s.cached := by
  unfold touchFor
  (repeat' split) <;> simp
@[simp] theorem markJob_cached (i : Nat) (k : Key) (c : LossCause) (s : State) :
    (markJob i k c s).cached = s.cached := by
  unfold markJob
  (repeat' split) <;> simp
@[simp] theorem takeHeader_cached (n : Nat) (ps : List (Nat × Byte)) (s : State) :
    (takeHeader n ps s).cached = s.cached := by
  unfold takeHeader
  (repeat' split) <;> simp
@[simp] theorem releaseHeld_cached (n : Nat) (s : State) : (releaseHeld n s).cached = s.cached := by
  unfold releaseHeld
  split
  · rfl
  · exact foldl_keeps_from State.cached _ (fun s ps => armSlot_cached n ps s) _ _ _ rfl
@[simp] theorem drainRelease_cached (i : Nat) (s : State) : (drainRelease i s).cached = s.cached := by
  unfold drainRelease
  (repeat' split) <;> simp
@[simp] theorem finishCopies_cached (w : CopyWork) (st : Status) (s : State) :
    (finishCopies w st s).cached = s.cached := by
  simp [finishCopies]
@[simp] theorem failWaiting_cached (i : Nat) (s : State) : (failWaiting i s).cached = s.cached :=
  foldl_keeps State.cached _ (fun s w => by simp) _ s
@[simp] theorem countTorn_cached (c : Option Nat) (s : State) : (countTorn c s).cached = s.cached := by
  unfold countTorn
  split <;> simp
@[simp] theorem discardAssembly_cached (w : Nat) (y : TornDetail) (s : State) :
    (discardAssembly w y s).cached = s.cached := by
  unfold discardAssembly
  split <;> simp
@[simp] theorem discardAll_cached (y : TornDetail) (s : State) : (discardAll y s).cached = s.cached :=
  foldl_keeps State.cached _ (fun s w => discardAssembly_cached w y s) _ s
@[simp] theorem offerJob_cached (i : Nat) (k : Key) (r : List Byte) (t : Tick) (s : State) :
    (offerJob i k r t s).cached = s.cached := by
  unfold offerJob
  (repeat' split) <;> simp
@[simp] theorem takeHeard_cached (i : Nat) (k : Key) (r : List Byte) (t : Tick) (s : State) :
    (takeHeard i k r t s).cached = s.cached := by
  unfold takeHeard
  split <;> simp
@[simp] theorem signOfLife_cached (k : Key) (t : Tick) (s : State) : (signOfLife k t s).cached = s.cached := by
  unfold signOfLife
  dsimp only
  split <;> simp
@[simp] theorem takeRecord_cached (r : List Byte) (t : Tick) (s : State) : (takeRecord r t s).cached = s.cached := by
  unfold takeRecord
  dsimp only
  (repeat' split) <;> simp
@[simp] theorem openAssembly_cached (w block : Nat) (s : State) : (openAssembly w block s).1.cached = s.cached := by
  unfold openAssembly
  dsimp only
  (repeat' split) <;> simp
@[simp] theorem capturePart_cached (w block : Nat) (ps : List (Nat × Byte)) (s : State) :
    (capturePart w block ps s).1.cached = s.cached := by
  unfold capturePart
  dsimp only
  split <;> simp
@[simp] theorem captureWrite_cached (run : RunState) (w block : Nat) (p : Part) (bytes : List WByte) (s : State) :
    (captureWrite run w block p bytes s).state.cached = s.cached := by
  unfold captureWrite
  dsimp only
  split <;> simp
@[simp] theorem handProducer_cached (i : Nat) (v : BitVec 32) (s : State) : (handProducer i v s).cached = s.cached := by
  unfold handProducer
  dsimp only
  split <;> simp
@[simp] theorem handNoticeConsumer_cached (v : BitVec 32) (s : State) : (handNoticeConsumer v s).cached = s.cached := by
  unfold handNoticeConsumer
  dsimp only
  split <;> simp
@[simp] theorem takeWord_cached (w i : Nat) (ps : List (Nat × Byte)) (s : State) :
    (takeWord w i ps s).cached = s.cached := by
  cases ps with
  | nil => rfl
  | cons p ps =>
    by_cases h0 : w = 0
    · subst h0; rw [takeWord_producer, handProducer_cached]
    by_cases h3 : w = 3
    · subst h3; rw [takeWord_noticeConsumer, handNoticeConsumer_cached]
    by_cases h5 : w = 5
    · subst h5; rw [takeWord_dueConsumer, handDueConsumer_cached]
    rw [takeWord_other w i h0 h3 h5]
@[simp] theorem finishWrite_cached (i : Nat) (j : Initiator) (a : Nat) (w : WriteWork) (s : State) :
    (finishWrite i j a w s).cached = s.cached := by
  unfold finishWrite
  (repeat' split) <;> simp
@[simp] theorem takeOffer_cached (e : CalEntry) (s : State) : (takeOffer e s).cached = s.cached := by
  unfold takeOffer
  split <;> simp
@[simp] theorem expireQuiet_cached (c : Nat) (t : QuietTimer) (s : State) : (expireQuiet c t s).cached = s.cached := by
  unfold expireQuiet
  split <;> simp
@[simp] theorem offerFault_cached (a : Access) (s : State) : (offerFault a s).cached = s.cached := by
  unfold offerFault
  split <;> simp
@[simp] theorem dueFault_cached (a : Access) (s : State) : (dueFault a s).cached = s.cached := by
  unfold dueFault
  split <;> simp
@[simp] theorem restartQuietAll_cached (s : State) : (restartQuietAll s).cached = s.cached :=
  foldl_keeps State.cached _ (fun s ch => by split <;> simp) _ s
@[simp] theorem startRun_cached (s : State) : (startRun s).cached = s.cached := by
  unfold startRun
  rw [restartQuietAll_cached]
  split <;> rfl
@[simp] theorem stopRun_cached (s : State) : (stopRun s).cached = s.cached := by simp [stopRun]
@[simp] theorem applyWindow_cached (i : Nat) (w : Option Window) (s : State) :
    (applyWindow i w s).cached = s.cached := by
  unfold applyWindow
  split <;> simp
@[simp] theorem applyPolicy_cached (c : Nat) (p : Policy) (s : State) : (applyPolicy c p s).cached = s.cached := by
  unfold applyPolicy
  dsimp only
  (repeat' split) <;> simp
@[simp] theorem forceNext_cached (r : List (Key × Nat)) (s : State) : (forceNext r s).cached = s.cached := by
  cases r with
  | nil => rfl
  | cons p more => exact calForce_cached p.2 s
@[simp] theorem forceDue_cached (m t : Nat) (s : State) : (forceDue m t s).cached = s.cached := by
  unfold forceDue
  (repeat' split) <;> simp
@[simp] theorem descriptorArrived_cached (d : List Byte) (s : State) : (descriptorArrived d s).cached = s.cached := by
  unfold descriptorArrived
  split <;> simp
@[simp] theorem descriptorFailed_cached (s : State) : (descriptorFailed s).cached = s.cached := by
  simp [descriptorFailed]
@[simp] theorem admitEnded_cached (b : Bool) (s : State) : (admitEnded b s).cached = s.cached := by
  unfold admitEnded
  (repeat' split) <;> simp
@[simp] theorem policyReadEnded_cached (data : Option (List Byte)) (s : State) :
    (policyReadEnded data s).cached = s.cached := by
  unfold policyReadEnded policyArrived
  dsimp only
  (repeat' split) <;> simp
@[simp] theorem channelWriteEnded_cached (b : Bool) (s : State) : (channelWriteEnded b s).cached = s.cached := by
  unfold channelWriteEnded
  (repeat' split) <;> simp
@[simp] theorem trialReadEnded_cached (data : Option (List Byte)) (s : State) :
    (trialReadEnded data s).cached = s.cached := by
  unfold trialReadEnded
  (repeat' split) <;> simp
@[simp] theorem trialWriteEnded_cached (b : Bool) (s : State) : (trialWriteEnded b s).cached = s.cached := by
  unfold trialWriteEnded
  (repeat' split) <;> simp
@[simp] theorem identifyWriteEnded_cached (b : Bool) (s : State) : (identifyWriteEnded b s).cached = s.cached := by
  unfold identifyWriteEnded
  (repeat' split) <;> simp
@[simp] theorem mirrorWriteEnded_cached (b : Bool) (s : State) : (mirrorWriteEnded b s).cached = s.cached := by
  unfold mirrorWriteEnded
  (repeat' split) <;> simp
@[simp] theorem resultWriteEnded_cached (b : Bool) (s : State) : (resultWriteEnded b s).cached = s.cached := by
  unfold resultWriteEnded
  dsimp only
  (repeat' split) <;> simp
@[simp] theorem statusWriteEnded_cached (b : Bool) (s : State) : (statusWriteEnded b s).cached = s.cached := by
  unfold statusWriteEnded
  (repeat' split) <;> simp
@[simp] theorem indexWriteEnded_cached (b : Bool) (s : State) : (indexWriteEnded b s).cached = s.cached := by
  unfold indexWriteEnded
  dsimp only
  (repeat' split) <;> simp

end Sys2Proof.Machine
end

section
/-!
PROOFS. What the operations of the blocks leave of the cache's invariant (R85, R88): those that give a context to its
requester, that write an entry's image, and that take a request away.
-/

namespace Sys2Proof.Machine

/-! ## Entries and requests -/

/-- What each step of a fold keeps the fold keeps. -/
theorem cacheOk_foldl {α : Type} {f : State → α → State} (hf : ∀ s x, s.CacheOk → (f s x).CacheOk) (xs : List α)
    {s : State} (h : s.CacheOk) : (xs.foldl f s).CacheOk := by
  induction xs generalizing s with
  | nil => exact h
  | cons x xs ih => exact ih (hf s x h)

/-- Requests that have left, or wait no longer, keep the invariant. -/
theorem cacheOk_reqs {s t : State} (h : s.CacheOk) (he : t.entries = s.entries)
    (hr : ∀ r ∈ t.reqs, r.unplaced → r ∈ s.reqs) : t.CacheOk := by
  have entry : ∀ d, t.entry d = s.entry d := fun d => by rw [State.entry, State.entry, he]
  exact cacheOk_of h (fun d hd => entry d ▸ ⟨hd, rfl⟩) fun r hm hw => ⟨r, hr r hm hw, hw, rfl⟩

/-- An entry that keeps its condition and its context keeps the invariant. -/
theorem cacheOk_setEntry_same {s : State} (h : s.CacheOk) (e : Nat) (x : Entry) (hc : x.cond = (s.entry e).cond)
    (hi : x.index = (s.entry e).index) : (s.setEntry e x).CacheOk :=
  cacheOk_setEntry h e x fun hx => ⟨hc ▸ hx, hi⟩

theorem cacheOk_dropReq {s : State} (h : s.CacheOk) (who : Requester) : (dropReq who s).CacheOk :=
  cacheOk_reqs h rfl fun _ hm _ => List.mem_of_mem_filter hm

/-- A request that is answered, in whatever way, no longer waits for an entry. -/
theorem cacheOk_answered {s t : State} (h : s.CacheOk) (p : Req → Prop) [DecidablePred p] {rs : List Req}
    (he : t.entries = s.entries) (hs : rs ⊆ s.reqs)
    (ht : t.reqs = rs.map fun r => if p r then { r with wait := .ready } else r) : t.CacheOk := by
  refine cacheOk_reqs h he fun r hm hw => ?_
  rw [ht] at hm
  obtain ⟨q, hq, rfl⟩ := List.mem_map.1 hm
  split at hw
  · rcases hw with hw | ⟨e, hw⟩ <;> cases hw
  · next hp => rw [if_neg hp]; exact hs hq

theorem cacheOk_wakeFetch {s : State} (h : s.CacheOk) (idx : Nat) : (wakeFetch idx s).CacheOk :=
  cacheOk_answered h (fun r => r.index = idx ∧ r.wait = .fetch) rfl (List.Subset.refl _) rfl

theorem cacheOk_releaseRequests {s : State} (h : s.CacheOk) (idx : Nat) (key : Key) :
    (releaseRequests idx key s).CacheOk :=
  cacheOk_answered h (fun r => (r.index == idx && r.key == key && r.wait != .fetch) = true) rfl
    (List.filter_subset_self _) rfl

/-- A read's hold released keeps the invariant, with the entry passed on where it was the last (R92, R98). -/
theorem cacheOk_releaseHold {s : State} (h : s.CacheOk) (idx : Nat) (key : Key) : (releaseHold idx key s).CacheOk := by
  unfold releaseHold
  split
  · exact h
  · next e he =>
    dsimp only
    split
    · have held : (s.setEntry e { s.entry e with holds := (s.entry e).holds - 1 }).CacheOk :=
        cacheOk_setEntry_same h e _ rfl rfl
      split
      · next hr =>
        refine cacheOk_passOn held e ?_
        rcases entry_setEntry s e e { s.entry e with holds := (s.entry e).holds - 1 } with ⟨hs, -⟩ | ⟨hs, -⟩ <;>
          rw [hs] <;> simp [hr.1]
      · exact held
    · exact h

theorem cacheOk_placeHolds {s : State} (h : s.CacheOk) (e : Nat) : (placeHolds e s).CacheOk := by
  have held := cacheOk_setEntry_same h e { s.entry e with
    holds := (s.entry e).holds + (s.txns.filter (Txn.wantsHold (s.entry e).index (s.entry e).key)).length } rfl rfl
  exact held.same rfl

theorem cacheOk_placeHold {s : State} (h : s.CacheOk) (o : ReadOwner) : (placeHold o s).CacheOk := by
  unfold placeHold
  split
  · split
    · exact h
    · exact cacheOk_setEntry_same h _ _ rfl rfl
  · exact h

theorem cacheOk_releasePart {s : State} (h : s.CacheOk) (o : ReadOwner) : (releasePart o s).CacheOk := by
  unfold releasePart
  split
  · exact cacheOk_releaseHold h _ _
  · exact h

/-- RELEASE on the entry of a context (R21, R92, R93). -/
theorem cacheOk_releaseEntry {s : State} (h : s.CacheOk) (idx : Nat) : (releaseEntry idx s).CacheOk := by
  unfold releaseEntry
  split
  · exact h
  · dsimp only
    split
    · exact cacheOk_setEntry_same h _ _ rfl rfl
    · split
      · exact cacheOk_rechoose (cacheOk_invalidate h _) _
      · exact cacheOk_invalidate h _

theorem cacheOk_unpin {s : State} (h : s.CacheOk) : (unpin s).CacheOk := by
  unfold unpin
  split
  · exact h
  · split
    · split
      · exact cacheOk_rechoose (cacheOk_invalidate h _) _
      · exact cacheOk_invalidate h _
    · exact cacheOk_setEntry_same h _ _ rfl rfl

/-! ## Operator writes (R91, R100, R101) -/

theorem cacheOk_takeOperatorWrite {s : State} (h : s.CacheOk) (e : Nat) (bs : List (Nat × Byte)) :
    (takeOperatorWrite e bs s).CacheOk := by
  have touched : (touch e s).CacheOk := h.same (touch_cached e s)
  exact (cacheOk_modifyImage touched e fun _ => (s.entry e).image.operatorWrite bs).same (by simp [takeOperatorWrite])

theorem cacheOk_reconcileHold {s : State} (h : s.CacheOk) (e : Nat) : (reconcileHold e s).CacheOk := by
  unfold reconcileHold
  dsimp only
  split
  · exact (cacheOk_modifyImage h e fun _ => (s.entry e).image.followHold).same (by simp)
  · exact h

theorem cacheOk_operatorWrite {s : State} (h : s.CacheOk) (idx : Nat) (key : Key) (txn : Nat)
    (bs : List (Nat × Byte)) : (operatorWrite idx key txn bs s).CacheOk := by
  unfold operatorWrite
  split
  · exact cacheOk_request h _ _ _
  · split
    · exact cacheOk_setEntry_same h _ _ rfl rfl
    · exact cacheOk_takeOperatorWrite h _ _

/-! ## The engine (R72 to R76) -/

theorem cacheOk_discardJob {s : State} (h : s.CacheOk) (j : Job) (cause : LossCause) :
    (discardJob j cause s).CacheOk := by
  unfold discardJob
  dsimp only
  split
  · exact cacheOk_unpin (h.same (by simp))
  · next e _ => exact cacheOk_unpin ((cacheOk_modifyImage h e fun c => c.countLost j.tally).same (by simp))

theorem cacheOk_handOver {s : State} (h : s.CacheOk) (idx e : Nat) (o : HandOver) : (handOver idx e o s).CacheOk := by
  cases o with
  | nothing => exact h
  | nowTracking => exact h.same (calReclass_cached idx _ s)
  | nowAcquire => exact h.same (calReclass_cached idx _ s)
  | remove => exact (cacheOk_modifyImage h e _).same (calRemove_cached idx _)

theorem cacheOk_applyJob {s : State} (h : s.CacheOk) (j : Job) (snap : Snapshot) (e : Nat) :
    (applyJob j snap e s).CacheOk := by
  have applied := cacheOk_handOver (cacheOk_modifyImage h e fun _ =>
    (applyUpdate (s.entry e).image snap j.record j.stamp j.tally).ctx) j.index e
      (applyUpdate (s.entry e).image snap j.record j.stamp j.tally).handOver
  exact cacheOk_unpin (applied.same (by simp))

theorem cacheOk_finishTrial {s : State} (h : s.CacheOk) (j : Job) (raw : Bool) (snap : Snapshot) :
    (finishTrial j raw snap s).CacheOk :=
  (cacheOk_unpin (s := { s with engine := .idle }) (h.same rfl)).same rfl

theorem cacheOk_giveEngine {s : State} (h : s.CacheOk) : (giveEngine s).CacheOk := by
  have dropped := cacheOk_dropReq h .engine
  unfold giveEngine
  split
  · dsimp only
    split
    · split
      · exact cacheOk_discardJob dropped _ _
      · exact dropped.same rfl
    · next e _ =>
      have touched : (touchFor .engine e s (dropReq .engine s)).CacheOk := dropped.same (touchFor_cached _ _ _ _)
      split
      · exact cacheOk_discardJob touched _ _
      · split
        · exact cacheOk_discardJob touched _ _
        · exact (cacheOk_setEntry_same touched e
            { (touchFor .engine e s (dropReq .engine s)).entry e with pinned := true } rfl rfl).same rfl
  · exact dropped

theorem cacheOk_abandonEngine {s : State} (h : s.CacheOk) : (abandonEngine s).CacheOk := by
  have dropped := cacheOk_dropReq h .engine
  unfold abandonEngine
  split
  · dsimp only
    split <;> exact dropped.same rfl
  · exact dropped

theorem cacheOk_completeJob {s : State} (h : s.CacheOk) : (completeJob s).CacheOk := by
  unfold completeJob
  split
  · split
    · exact cacheOk_finishTrial h _ _ _
    · split
      · exact cacheOk_discardJob h _ _
      · split
        · exact cacheOk_discardJob h _ _
        · exact cacheOk_applyJob h _ _ _
  · exact h

theorem cacheOk_takeJob {s : State} (h : s.CacheOk) : (takeJob s).CacheOk := by
  unfold takeJob
  split
  · exact h
  · split
    · refine cacheOk_request ?_ _ _ _
      exact h.same rfl
    · exact h

/-! ## Slots and promotions (R129 to R141) -/

theorem cacheOk_startPromotion {s : State} (h : s.CacheOk) : (startPromotion s).CacheOk := by
  unfold startPromotion
  split
  · exact h
  · split
    · exact h
    · exact cacheOk_request h _ _ _

theorem cacheOk_deliver {s : State} (h : s.CacheOk) (n : Nat) : (deliver n s).CacheOk := by
  unfold deliver
  dsimp only
  split
  · refine cacheOk_startPromotion ?_
    exact h.same rfl
  · exact h.same rfl

theorem cacheOk_promoteOn {s : State} (h : s.CacheOk) (p : Promotion) (e : Nat) : (promoteOn p e s).CacheOk := by
  have promoted := cacheOk_modifyImage h e fun x => x.promoted p.corr
  unfold promoteOn
  dsimp only
  split
  · exact h.same (notify_cached _ s)
  · split
    · exact h.same (notify_cached _ s)
    · split
      · exact promoted
      · exact promoted.same (notify_cached _ _)

theorem cacheOk_nextPromotion {s : State} (h : s.CacheOk) (n : Nat) : (nextPromotion n s).CacheOk :=
  cacheOk_startPromotion (h.same (releaseHeld_cached n s))

/-- The promotion at the head of the list has left it with its request (R137). -/
theorem cacheOk_dropPromotion {s : State} (h : s.CacheOk) (rest : List Promotion) :
    ({ dropReq .promotion s with promotions := rest } : State).CacheOk := (cacheOk_dropReq h .promotion).same rfl

theorem cacheOk_givePromotion {s : State} (h : s.CacheOk) : (givePromotion s).CacheOk := by
  unfold givePromotion
  split
  · exact cacheOk_dropReq h _
  · refine cacheOk_nextPromotion ?_ _
    split
    · exact (cacheOk_dropPromotion h _).same (notify_cached _ _)
    · exact cacheOk_promoteOn ((cacheOk_dropPromotion h _).same (touchFor_cached _ _ _ _)) _ _

theorem cacheOk_abandonPromotion {s : State} (h : s.CacheOk) : (abandonPromotion s).CacheOk := by
  unfold abandonPromotion
  split
  · exact cacheOk_dropReq h _
  · exact cacheOk_nextPromotion ((cacheOk_dropPromotion h _).same (notify_cached _ _)) _

theorem cacheOk_patchSlot {s : State} (h : s.CacheOk) (n id k : Nat) : (patchSlot n id k s).CacheOk := by
  unfold patchSlot
  split
  · have patched := fun f => h.same (completePart_cached s id k f)
    dsimp only
    split
    · exact cacheOk_deliver (patched _) n
    · exact patched _
  · exact h.same (completePart_cached _ _ _ _)

theorem cacheOk_answerWaiting {s : State} (h : s.CacheOk) (n : Nat) : (answerWaiting n s).CacheOk := by
  have patched := cacheOk_foldl (fun s (w : Nat × Nat) hs => cacheOk_patchSlot (s := s) hs n w.1 w.2) (s.slot n).waiting
    (s := s.setSlot n { s.slot n with waiting := [] }) (h.same rfl)
  exact patched.same (releaseHeld_cached n _)

theorem cacheOk_readSlot {s : State} (h : s.CacheOk) (n id k : Nat) : (readSlot n id k s).CacheOk := by
  have returned := h.same (completePart_cached s id k asReturned)
  unfold readSlot
  split
  · exact h
  · dsimp only
    split
    · split
      · exact returned
      · split
        · exact h.same rfl
        · split
          · refine cacheOk_patchSlot ?_ n id k
            exact h.same rfl
          · refine cacheOk_request ?_ _ _ _
            exact h.same rfl
      · exact cacheOk_patchSlot h n id k
    · exact returned

theorem cacheOk_giveSlot {s : State} (h : s.CacheOk) (n : Nat) : (giveSlot n s).CacheOk := by
  have dropped := cacheOk_dropReq h (.slot n)
  unfold giveSlot
  split
  · exact h
  · refine cacheOk_answerWaiting ?_ n
    split
    · exact dropped.same rfl
    · exact dropped.same (by simp)

theorem cacheOk_abandonSlot {s : State} (h : s.CacheOk) (n : Nat) : (abandonSlot n s).CacheOk := by
  refine cacheOk_answerWaiting ?_ n
  exact (cacheOk_dropReq h (.slot n)).same rfl

/-! ## Lapses (R115, R116) -/

theorem cacheOk_startLapse {s : State} (h : s.CacheOk) : (startLapse s).CacheOk := by
  unfold startLapse
  split
  · exact h
  · split
    · exact h
    · exact cacheOk_request h _ _ _

theorem cacheOk_applyLapse {s : State} (h : s.CacheOk) (l : Lapse) (e : Nat) : (applyLapse l e s).CacheOk :=
  (cacheOk_modifyImage h e fun x => x.lapseSilent (s.calEntry l.index)).same (by simp [applyLapse])

theorem cacheOk_giveLapse {s : State} (h : s.CacheOk) : (giveLapse s).CacheOk := by
  have dropped := cacheOk_dropReq h .lapse
  have touched := fun e => dropped.same (touchFor_cached .lapse e s (dropReq .lapse s))
  unfold giveLapse
  split
  · exact h
  · refine cacheOk_startLapse ?_
    split
    · exact dropped
    · split
      · exact touched _
      · exact cacheOk_applyLapse (touched _) _ _

theorem cacheOk_abandonLapse {s : State} (h : s.CacheOk) : (abandonLapse s).CacheOk := by
  have dropped := cacheOk_dropReq h .lapse
  unfold abandonLapse
  split
  · exact h
  · dsimp only
    split
    · exact dropped
    · exact dropped.same rfl

theorem cacheOk_takeGrace {s : State} (h : s.CacheOk) (e : CalEntry) : (takeGrace e s).CacheOk := by
  unfold takeGrace
  dsimp only
  split
  · split
    · exact h.same rfl
    · exact cacheOk_startLapse (h.same rfl)
  · exact h.same rfl

/-! ## RELEASE, REVIVE and READ_CONTEXTS (R21 to R23, R103 to R105) -/

theorem cacheOk_releaseContext {s : State} (h : s.CacheOk) (key : Key) (idx : Nat) :
    (releaseContext key idx s).CacheOk := by
  unfold releaseContext
  exact cacheOk_releaseRequests (cacheOk_releaseEntry (h.same (by simp)) idx) idx key

theorem cacheOk_releaseNext {s : State} (h : s.CacheOk) (rest : List (Key × Nat)) (failed : Bool) :
    (releaseNext rest failed s).CacheOk := by
  unfold releaseNext
  split
  · exact h.same rfl
  · next key idx more =>
    have gone := cacheOk_releaseContext h key idx
    dsimp only
    split <;> exact gone.same rfl

theorem cacheOk_reviveNext {s : State} (h : s.CacheOk) (rest : List (Key × Nat)) (failed : Bool) :
    (reviveNext rest failed s).CacheOk := by
  induction rest with
  | nil => exact h.same rfl
  | cons p rest ih =>
    unfold reviveNext
    split
    · exact ih
    · refine cacheOk_request ?_ _ _ _
      exact h.same rfl

theorem cacheOk_giveRevive {s : State} (h : s.CacheOk) : (giveRevive s).CacheOk := by
  have dropped := cacheOk_dropReq h .revive
  unfold giveRevive
  split
  · refine cacheOk_reviveNext ?_ _ _
    split
    · exact dropped
    · exact (cacheOk_modifyImage (dropped.same (touchFor_cached _ _ _ _)) _ Context.revived).same rfl
  · exact dropped

theorem cacheOk_abandonRevive {s : State} (h : s.CacheOk) : (abandonRevive s).CacheOk := by
  have dropped := cacheOk_dropReq h .revive
  unfold abandonRevive
  split
  · exact cacheOk_reviveNext dropped _ _
  · exact dropped

theorem cacheOk_copyNext {s : State} (h : s.CacheOk) (w : CopyWork) : (copyNext w s).CacheOk := by
  unfold copyNext
  split
  · exact h.same (finishCopies_cached _ _ s)
  · refine cacheOk_request ?_ _ _ _
    exact h.same rfl

theorem cacheOk_giveCopy {s : State} (h : s.CacheOk) : (giveCopy s).CacheOk := by
  have dropped := cacheOk_dropReq h .copy
  unfold giveCopy
  split
  · dsimp only
    split
    · exact cacheOk_copyNext dropped _
    · exact dropped.same (by simp)
  · exact dropped

theorem cacheOk_abandonCopy {s : State} (h : s.CacheOk) : (abandonCopy s).CacheOk := by
  have dropped := cacheOk_dropReq h .copy
  unfold abandonCopy
  split
  · exact dropped.same (finishCopies_cached _ _ _)
  · exact dropped

/-! ## Giving, abandoning and the waiting list (R87, R89, R94, R95) -/

theorem cacheOk_give {s : State} (h : s.CacheOk) (who : Requester) : (give who s).CacheOk := by
  cases who with
  | engine => exact cacheOk_giveEngine h
  | slot n => exact cacheOk_giveSlot h n
  | promotion => exact cacheOk_givePromotion h
  | lapse => exact cacheOk_giveLapse h
  | revive => exact cacheOk_giveRevive h
  | copy => exact cacheOk_giveCopy h
  | write t i bs => exact h

theorem cacheOk_abandon {s : State} (h : s.CacheOk) (who : Requester) : (abandon who s).CacheOk := by
  cases who with
  | engine => exact cacheOk_abandonEngine h
  | slot n => exact cacheOk_abandonSlot h n
  | promotion => exact cacheOk_abandonPromotion h
  | lapse => exact cacheOk_abandonLapse h
  | revive => exact cacheOk_abandonRevive h
  | copy => exact cacheOk_abandonCopy h
  | write t i bs => exact cacheOk_dropReq h _

theorem cacheOk_giveIfReady {s : State} (h : s.CacheOk) (who : Requester) : (giveIfReady who s).CacheOk := by
  unfold giveIfReady
  split
  · exact h
  · exact cacheOk_give h who

theorem cacheOk_abandonLoop (n : Nat) {s : State} (h : s.CacheOk) : (abandonLoop n s).CacheOk := by
  induction n generalizing s with
  | zero => exact h
  | succ n ih =>
    unfold abandonLoop
    split
    · exact h
    · exact ih (cacheOk_abandon (h.same (memoryFault_cached _ _ _ s)) _)

theorem cacheOk_pump {s : State} (h : s.CacheOk) : (pump s).CacheOk := by
  have served := cacheOk_serveList h
  unfold pump
  dsimp only
  split
  · exact cacheOk_abandonLoop _ served
  · exact served

/-! ## The ends of fetches and write-backs (R91, R92, R94, R95, R98) -/

theorem cacheOk_completeContext {s : State} (h : s.CacheOk) (idx : Nat) (key : Key) (held : Bool) (id k : Nat) :
    (completeContext idx key held id k s).CacheOk := by
  have release : ∀ t : State, t.CacheOk → (if held then releaseHold idx key t else t).CacheOk := fun t ht => by
    split
    · exact cacheOk_releaseHold ht idx key
    · exact ht
  unfold completeContext
  dsimp only
  split
  · split
    · exact h.same (completePart_cached _ _ _ _)
    · split
      · exact release _ (h.same (by simp))
      · exact h
  · exact release _ (h.same (completePart_cached _ _ _ _))

theorem cacheOk_patchWaiting {s : State} (h : s.CacheOk) (idx : Nat) : (patchWaiting idx s).CacheOk :=
  cacheOk_foldl (fun _ w ht => cacheOk_completeContext ht idx w.2.2.1 w.2.2.2 w.1 w.2.1) _ h

/-- The data of a fetch loads the entry it was issued for, which was FETCHING (R91). -/
theorem cacheOk_loadEntry {s : State} (h : s.CacheOk) (e : Nat) (data : List Byte)
    (hx : (s.entry e).cond = .fetching) : (loadEntry e data s).CacheOk := by
  have loaded := cacheOk_setEntry h e { s.entry e with
    cond := .valid, image := Context.ofBytes data, dirty := false, merge := [] } fun _ => ⟨by simp [hx], rfl⟩
  refine cacheOk_placeHolds (cacheOk_foldl (fun _ (m : MergeWrite) ht => cacheOk_takeOperatorWrite ht e m.bytes) _ ?_) e
  refine cacheOk_reconcileHold ?_ e
  exact loaded.same rfl

theorem cacheOk_fetchArrived {s : State} (h : s.CacheOk) (idx : Nat) (data : List Byte) :
    (fetchArrived idx data s).CacheOk := by
  unfold fetchArrived
  split
  · exact h
  · next e _ =>
    dsimp only
    split
    · next hx =>
      refine cacheOk_patchWaiting (cacheOk_foldl (fun _ w ht => cacheOk_giveIfReady ht w) _
        (cacheOk_wakeFetch ?_ idx)) idx
      split
      · exact cacheOk_invalidate h e
      · exact cacheOk_loadEntry h e data hx
    · exact h

theorem cacheOk_fetchFailed {s : State} (h : s.CacheOk) (idx : Nat) : (fetchFailed idx s).CacheOk := by
  unfold fetchFailed
  split
  · exact h
  · next e _ =>
    dsimp only
    split
    · have noticed := (cacheOk_invalidate h e).same (memoryFault_cached .fetch (s.entry e).key idx _)
      exact (cacheOk_startLapse (cacheOk_foldl (fun _ w ht => cacheOk_abandon ht w) _ noticed)).same
        (failWaiting_cached idx _)
    · exact h

/-- The entry a write-back was issued for is RETIRING, and so not INVALID. -/
theorem retiringEntry_cond {s : State} {idx e : Nat} {key : Key} (h : s.retiringEntry idx key = some e) :
    (s.entry e).cond = .retiring := by
  unfold State.retiringEntry at h
  split at h
  · cases h
  · split at h <;> cases h
    next hc => exact hc.1

theorem cacheOk_writeBackFault {s : State} (h : s.CacheOk) (e : Nat) (hx : (s.entry e).cond ≠ .invalid) :
    (writeBackFault e s).CacheOk := by
  refine cacheOk_rechoose (cacheOk_setEntry h e _ ?_) e
  exact fun _ => ⟨hx, rfl⟩

theorem cacheOk_writeBackDone {s : State} (h : s.CacheOk) (e : Nat) (hx : (s.entry e).cond ≠ .invalid) :
    (writeBackDone e s).CacheOk := by
  unfold writeBackDone
  dsimp only
  split
  · exact cacheOk_cancelReuse h e hx
  · split
    · exact cacheOk_setEntry_same h e _ rfl rfl
    · exact cacheOk_passOn h e hx

theorem cacheOk_writeBackEnded {s : State} (h : s.CacheOk) (idx : Nat) (key : Key) (error : Bool) :
    (writeBackEnded idx key error s).CacheOk := by
  unfold writeBackEnded
  refine State.CacheOk.same ?_ (drainRelease_cached idx _)
  cases hr : s.retiringEntry idx key with
  | none =>
    cases error with
    | false => exact h
    | true => exact h.same (memoryFault_cached _ _ _ s)
  | some e =>
    have present : (s.entry e).cond ≠ .invalid := by rw [retiringEntry_cond hr]; decide
    cases error with
    | false => exact cacheOk_writeBackDone h e present
    | true => exact (cacheOk_writeBackFault h e present).same (memoryFault_cached _ _ _ _)

end Sys2Proof.Machine
end

section
/-!
PROOFS. Every step keeps the window table, the run state but for START, STOP and pin reset, and the cache's invariant
(R85, R88, R158, R162, R163, R165, R166).
-/

namespace Sys2Proof.Machine

/-! ## What every operation of the blocks keeps -/

/-- A state that differs from another in neither reset, strap base, run state, window table nor queue of steps, and
whose cache meets the invariant where that of the other does. -/
structure State.GuardedFrom (t s : State) : Prop where
  fixed : t.fixed = s.fixed
  cache : s.CacheOk → t.CacheOk

theorem State.GuardedFrom.refl (s : State) : s.GuardedFrom s := ⟨rfl, id⟩

theorem State.GuardedFrom.trans {a b c : State} (h : a.GuardedFrom b) (k : b.GuardedFrom c) : a.GuardedFrom c :=
  ⟨h.fixed.trans k.fixed, h.cache ∘ k.cache⟩

/-- What leaves the entries and the requests alone keeps the invariant. -/
theorem State.GuardedFrom.of_cached {s t : State} (hf : t.fixed = s.fixed) (hc : t.cached = s.cached) :
    t.GuardedFrom s := ⟨hf, fun h => h.same hc⟩

/-- What each step of a fold keeps the fold keeps. -/
theorem guarded_foldl {α : Type} {f : State → α → State} (hf : ∀ s x, (f s x).GuardedFrom s) (xs : List α)
    (s : State) : (xs.foldl f s).GuardedFrom s := by
  induction xs generalizing s with
  | nil => exact .refl s
  | cons x xs ih => exact (ih _).trans (hf s x)

/-! ## The passage of traffic -/

theorem pump_guarded (s : State) : (pump s).GuardedFrom s := ⟨pump_fixed s, cacheOk_pump⟩

theorem contextWrite_guarded (i : Nat) (k : Key) (id : Nat) (p : Part) (bytes : List WByte) (s : State) :
    (contextWrite i k id p bytes s).state.GuardedFrom s := by
  unfold contextWrite
  dsimp only
  split
  · exact .refl s
  · exact ⟨operatorWrite_fixed _ _ _ _ s, fun h => cacheOk_operatorWrite h _ _ _ _⟩

theorem captureWrite_guarded (run : RunState) (w block : Nat) (p : Part) (bytes : List WByte) (s : State) :
    (captureWrite run w block p bytes s).state.GuardedFrom s := by
  refine .of_cached ?_ (captureWrite_cached run w block p bytes s)
  unfold captureWrite capturePart openAssembly
  dsimp only
  (repeat' split) <;> simp

theorem handlePart_guarded {run : RunState} {id : Nat} {p : Part} {bytes : List WByte} {s : State} {o : PartOutcome}
    (h : handlePart run id p bytes s = some o) : o.state.GuardedFrom s := by
  unfold handlePart at h
  split at h
  · cases h
  · split at h
    · cases h; exact .refl s
    · split at h <;> cases h
      exact .of_cached (takeWord_fixed _ _ _ s) (takeWord_cached _ _ _ s)
    · cases h
      dsimp only
      split
      · exact .refl s
      · exact .of_cached (takeHeader_fixed _ _ s) (takeHeader_cached _ _ s)
    · cases h; exact captureWrite_guarded _ _ _ _ _ s
    · (repeat' split at h) <;> cases h
      · exact .refl s
      · exact .refl s
      · exact contextWrite_guarded _ _ _ _ _ s

theorem handleParts_guarded (run : RunState) (id : Nat) (ps : List Part) (w : WriteWork) (s : State) :
    (handleParts run id ps w s).2.GuardedFrom s := by
  induction ps generalizing w s with
  | nil => exact .refl s
  | cons p ps ih =>
    unfold handleParts
    split
    · exact .refl s
    · next h => exact ((ih _ _).trans (pump_guarded _)).trans (handlePart_guarded h)

theorem handleTxn_guarded (t : Txn) (s : State) : (handleTxn t s).GuardedFrom s := by
  unfold handleTxn
  split
  · split
    · exact .refl s
    · exact .of_cached rfl rfl
  · next todo bytes dropped key _ =>
    have parts := handleParts_guarded t.run t.id todo ⟨todo, bytes, dropped, key⟩ s
    split
    · next h =>
      rw [h] at parts
      exact (State.GuardedFrom.of_cached (finishWrite_fixed _ _ _ _ _) (finishWrite_cached _ _ _ _ _)).trans parts
    · next h =>
      rw [h] at parts
      exact (State.GuardedFrom.of_cached (modifyTxn_fixed _ _ _) (modifyTxn_cached _ _ _)).trans parts

theorem advanceOne_guarded (acc : State × List Initiator) (id : Nat) : (advanceOne acc id).1.GuardedFrom acc.1 := by
  unfold advanceOne
  split
  · exact .refl _
  · next t _ =>
    split
    · exact .refl _
    · have handled : (grantAll (handleTxn t acc.1)).GuardedFrom acc.1 :=
        (State.GuardedFrom.of_cached (grantAll_fixed _) (grantAll_cached _)).trans (handleTxn_guarded t acc.1)
      dsimp only
      split <;> exact handled

/-- A walk over the open transactions keeps what each of its steps does. -/
theorem walk_guarded (f : State × List Initiator → Nat → State × List Initiator)
    (h : ∀ acc id, (f acc id).1.GuardedFrom acc.1) (ids : List Nat) (acc : State × List Initiator) :
    (ids.foldl f acc).1.GuardedFrom acc.1 := by
  induction ids generalizing acc with
  | nil => exact .refl _
  | cons id ids ih => exact (ih _).trans (h acc id)

theorem advance_guarded (s : State) : (advance s).GuardedFrom s := walk_guarded _ advanceOne_guarded _ (s, [])

theorem takeTxn_guarded (p : PortTxn) (s : State) : (takeTxn p s).GuardedFrom s := by
  cases p with
  | read init addr len =>
    refine (guarded_foldl (fun s (q : ReadPart) => ⟨placeHold_fixed q.owner s, fun h => cacheOk_placeHold h q.owner⟩)
      _ _).trans (.of_cached rfl rfl)
  | write init addr bytes => exact .of_cached rfl rfl

theorem settle_guarded (s : State) : (settle s).GuardedFrom s :=
  (State.GuardedFrom.of_cached (flush_fixed _) (flush_cached _)).trans (pump_guarded s)

theorem drainLoop_guarded (n : Nat) (s : State) : (drainLoop n s).GuardedFrom s := by
  induction n generalizing s with
  | zero => exact .refl s
  | succ n ih =>
    unfold drainLoop
    split
    · exact .refl s
    · next p rest _ =>
      split
      · exact (((ih _).trans (settle_guarded _)).trans (advance_guarded _)).trans
          ((takeTxn_guarded p _).trans (.of_cached rfl rfl))
      · exact .refl s

theorem drainPort_guarded (s : State) : (drainPort s).GuardedFrom s := drainLoop_guarded _ s

theorem completeReadPart_guarded (id k : Nat) (s : State) : (completeReadPart id k s).GuardedFrom s := by
  refine ⟨completeReadPart_fixed id k s, fun h => ?_⟩
  unfold completeReadPart
  split
  · exact h
  · split
    · exact h.same (completePart_cached _ _ _ _)
    · exact cacheOk_readSlot h _ _ _
    · exact cacheOk_completeContext h _ _ _ _ _
    · exact h

theorem readArrived_guarded (id : Nat) (data : List Byte) (s : State) : (readArrived id data s).GuardedFrom s :=
  (guarded_foldl (fun s k => (pump_guarded _).trans (completeReadPart_guarded id k s)) _ _).trans (.of_cached rfl rfl)

theorem readFailed_guarded (id : Nat) (s : State) : (readFailed id s).GuardedFrom s := by
  unfold readFailed
  split
  · exact .refl s
  · refine (guarded_foldl (fun s (p : ReadPart) => (pump_guarded _).trans ?_) _ _).trans (.of_cached rfl rfl)
    exact ⟨releasePart_fixed p.owner s, fun h => cacheOk_releasePart h p.owner⟩

theorem rejudgePart_guarded (id k : Nat) (s : State) : (rejudgePart id k s).GuardedFrom s := by
  refine ⟨rejudgePart_fixed id k s, fun h => ?_⟩
  unfold rejudgePart
  split
  · split
    · split
      · exact h
      · next idx _ _ =>
        have judged : (placeHold (s.judgeContext idx) (s.modifyTxn id
            (Txn.mapPart k fun q => { q with owner := s.judgeContext idx }))).CacheOk :=
          cacheOk_placeHold (h.same (modifyTxn_cached _ _ _)) _
        dsimp only
        split
        · exact cacheOk_pump ((completeReadPart_guarded id k _).cache judged)
        · exact judged
    · exact h
  · exact h

theorem resumeOne_guarded (acc : State × List Initiator) (id : Nat) : (resumeOne acc id).1.GuardedFrom acc.1 :=
  (advanceOne_guarded _ id).trans (guarded_foldl (fun s k => rejudgePart_guarded id k s) _ acc.1)

theorem resume_guarded (s : State) : (resume s).GuardedFrom s :=
  (walk_guarded _ resumeOne_guarded _ (pump s, [])).trans (pump_guarded s)

/-! ## The window table (R162, R163) -/

/-- The rules of the window table speak of reset, the strap base and the table alone. -/
theorem windowsOk_same {s t : State} (h : s.WindowsOk) (hr : t.inReset = s.inReset) (hb : t.strapBase = s.strapBase)
    (hw : t.windows = s.windows) : t.WindowsOk := by
  have window : t.window = s.window := funext fun i => by rw [State.window, State.window, hw]
  have windows : t.windowsOf = s.windowsOf := by unfold State.windowsOf; rw [window]
  have control : t.overlapsControl = s.overlapsControl := by
    unfold State.overlapsControl State.controlBase; rw [hb]
  obtain ⟨reset, legal, apart, clear, one, five⟩ := h
  constructor
  · rw [window, hr]; exact reset
  · rw [window]; exact legal
  · rw [window]; exact apart
  · rw [window, control]; exact clear
  · rw [windows]; exact one
  · rw [windows]; exact five

theorem windowsOk_of_fixed {s t : State} (h : s.WindowsOk) (hf : t.fixed = s.fixed) : t.WindowsOk := by
  simp only [State.fixed, Prod.mk.injEq] at hf
  obtain ⟨hr, hb, -, hw, -⟩ := hf
  exact windowsOk_same h hr hb hw

/-- The windows of a kind are those of the other entries, and this one where it is of the kind. -/
theorem windowsOf_length (s : State) (k : WindowKind) {n : Nat} (hn : n < 6) :
    (s.windowsOf k).length = s.otherWindows n k + if s.isKind k n then 1 else 0 := by
  have all : (s.windowsOf k).length = (List.range 6).countP (s.isKind k) := by
    have none : ((List.range 6).filter fun i => i != 6) = List.range 6 := by decide
    have same : ((s.windowsOf k).filter fun p => p.1 != 6) = s.windowsOf k :=
      List.filter_eq_self.2 fun p hp => by
        obtain ⟨hl, -⟩ := windowsOf_mem.1 hp
        simpa using Nat.ne_of_lt hl
    rw [List.countP_eq_length_filter, ← none, ← otherWindows_eq, State.otherWindows, same]
  have this : ((List.range 6).filter fun i => !(i != n)) = [n] := by interval_cases n <;> rfl
  rw [all, List.countP_eq_countP_filter_add _ _ fun i => i != n, this, otherWindows_eq,
    ← List.countP_eq_length_filter, List.countP_singleton]

/-- What the other entries hold is not changed by replacing one. -/
theorem otherWindows_setWindow (s : State) (n : Nat) (w : Option Window) (k : WindowKind) :
    (s.setWindow n w).otherWindows n k = s.otherWindows n k := by
  rw [otherWindows_eq, otherWindows_eq]
  refine congrArg List.length (List.filter_congr fun i hi => ?_)
  have other : i ≠ n := by simpa using (List.mem_filter.1 hi).2
  rw [State.isKind, State.isKind, window_setWindow_ne s n i w (Ne.symm other)]

/-- The value a SET_WINDOW that passes its checks gives an entry: none, or a window that breaks no rule (R163). -/
structure State.Admits (s : State) (n : Nat) (w : Window) : Prop where
  legal : w.legal
  apart : s.windowOverlaps n w = false
  control : s.overlapsControl w.base w.size = false
  room : s.windowCrowded n w.kind = false

theorem checkWindow_admits {s : State} {n kind base size : Nat} {w : Option Window}
    (h : s.checkWindow n kind base size = .ok w) : n < 6 ∧ ∀ x, w = some x → s.Admits n x := by
  unfold State.checkWindow at h
  split at h
  · cases h
  · next hn =>
    refine ⟨by omega, ?_⟩
    dsimp only at h
    (repeat' split at h) <;> cases h
    · exact nofun
    · next hl ho hc _ =>
      simp only [Bool.or_eq_true, Bool.not_eq_true', bne_iff_ne, not_or, Bool.not_eq_false, ne_eq, not_not,
        Bool.not_eq_true] at hl ho hc
      rintro x hx
      cases hx
      exact ⟨hl, ho.1, ho.2, hc⟩

/-- A window admitted shares no byte with that of another entry. -/
theorem State.Admits.overlaps {s : State} {n i : Nat} {w x : Window} (h : s.Admits n w) (hi : i ≠ n)
    (hx : s.window i = some x) : overlaps w.base w.size x.base x.size = false := by
  refine Bool.eq_false_iff.2 fun ho => ?_
  have shares := windowOverlaps_iff.2 ⟨i, x, hi, hx, overlaps_iff.1 ho⟩
  rw [h.apart] at shares
  cases shares

theorem overlaps_comm (a n b m : Nat) : overlaps a n b m = overlaps b m a n := Bool.and_comm _ _

/-- An entry given a value that passes its checks leaves no more windows of a kind than the rules allow (R162). -/
theorem windowsOf_setWindow_le {s : State} {n bound : Nat} {k : WindowKind} {w : Option Window} (hn : n < 6)
    (hs : (s.windowsOf k).length ≤ bound) (hw : ∀ x, w = some x → x.kind = k → s.otherWindows n k < bound) :
    ((s.setWindow n w).windowsOf k).length ≤ bound := by
  have before := windowsOf_length s k hn
  rw [windowsOf_length _ k hn, otherWindows_setWindow]
  split
  · next hk =>
    obtain ⟨x, hx, hxk⟩ := isKind_iff.1 hk
    rw [window_setWindow_self s n w hn] at hx
    exact hw x hx hxk
  · omega

/-- SET_WINDOW keeps the rules of the window table (R163). -/
theorem windowsOk_setWindow {s : State} (h : s.WindowsOk) (hr : s.inReset = false) {n : Nat} (hn : n < 6)
    {w : Option Window} (hw : ∀ x, w = some x → s.Admits n x) : (s.setWindow n w).WindowsOk := by
  have reads : ∀ i x, (s.setWindow n w).window i = some x → i = n ∧ s.Admits n x ∨ i ≠ n ∧ s.window i = some x := by
    intro i x hx
    by_cases hi : i = n
    · subst hi
      exact .inl ⟨rfl, hw x ((window_setWindow_self s i w hn).symm.trans hx)⟩
    · exact .inr ⟨hi, (window_setWindow_ne s n i w (Ne.symm hi)).symm.trans hx⟩
  refine ⟨fun hi => ?_, fun i x hx => ?_, fun i j x y hx hy hij => ?_, fun i x hx => ?_, ?_, ?_⟩
  · exact absurd (hr.symm.trans hi) Bool.false_ne_true
  · rcases reads i x hx with ⟨-, ha⟩ | ⟨-, hx⟩
    · exact ha.legal
    · exact h.legal i x hx
  · rcases reads i x hx with ⟨hi, ha⟩ | ⟨hi, old⟩ <;> rcases reads j y hy with ⟨hj, hb⟩ | ⟨hj, old'⟩
    · exact absurd (hi.trans hj.symm) hij
    · exact ha.overlaps hj old'
    · exact (overlaps_comm _ _ _ _).trans (hb.overlaps hi old)
    · exact h.apart i j x y old old' hij
  · rcases reads i x hx with ⟨-, ha⟩ | ⟨-, hx⟩
    · exact ha.control
    · exact h.control i x hx
  · refine windowsOf_setWindow_le hn h.oneContext fun x hx hk => ?_
    have room := (hw x hx).room
    rw [hk] at room
    simpa [State.windowCrowded] using room
  · refine windowsOf_setWindow_le hn h.fiveCapture fun x hx hk => ?_
    have room := (hw x hx).room
    rw [hk] at room
    simpa [State.windowCrowded] using room

/-- The event of a SET_WINDOW (R164). -/
theorem windowsOk_applyWindow {s : State} (h : s.WindowsOk) (hr : s.inReset = false) {n kind base size : Nat}
    {w : Option Window} (hc : s.checkWindow n kind base size = .ok w) : (applyWindow n w s).WindowsOk := by
  obtain ⟨hn, admits⟩ := checkWindow_admits hc
  unfold applyWindow
  split
  · exact h
  · have fixed := discardAssembly_fixed n .windowChanged s
    simp only [State.fixed, Prod.mk.injEq] at fixed
    obtain ⟨reset, base, -, windows, -⟩ := fixed
    exact windowsOk_same (windowsOk_setWindow h hr hn admits) reset base
      (congrArg (fun v => v.setIfInBounds n w) windows)

/-! ## Every step -/

/-- What a step keeps of the window table, the run state and the cache. -/
structure StepKeeps (i : Instr) (s t : State) : Prop where
  windows : s.WindowsOk → t.WindowsOk
  run : t.run = s.run ∨ i = .pinReset ∨ i = .start ∧ t.run = .running
    ∨ i = .stop ∧ s.run = .running ∧ t.run = .stopped
  cache : s.CacheOk → t.CacheOk

/-- A state's run state is part of what no operation of a block changes. -/
theorem run_of_fixed {s t : State} (h : t.fixed = s.fixed) : t.run = s.run :=
  congrArg (fun f => f.2.2.1) h

theorem StepKeeps.of_guarded {i : Instr} {s t : State} (h : t.GuardedFrom s) : StepKeeps i s t where
  windows := fun hw => windowsOk_of_fixed hw h.fixed
  run := .inl (run_of_fixed h.fixed)
  cache := h.cache

/-- An event is its effect but for the grants of the memory port, or nothing while RESET_N is asserted (R172). -/
theorem event_guarded {s t : State} {f : State → State} (ht : event s f = .next t) :
    t = s ∨ s.inReset = false ∧ t.GuardedFrom (f s) := by
  unfold event at ht
  split at ht <;> cases ht
  · exact .inl rfl
  · next hr => exact .inr ⟨Bool.eq_false_iff.2 hr, .of_cached rfl rfl⟩

section
variable {i : Instr} {s t : State} {f : State → State}

theorem keeps_event (hf : (f s).GuardedFrom s) (ht : event s f = .next t) : StepKeeps i s t := by
  rcases event_guarded ht with rfl | ⟨-, hg⟩
  · exact .of_guarded (.refl t)
  · exact .of_guarded (hg.trans hf)

theorem keeps_cacheEvent (hf : (f s).GuardedFrom s) (ht : cacheEvent s f = .next t) : StepKeeps i s t :=
  keeps_event (f := fun x => drainPort (settle (f x))) (((drainPort_guarded _).trans (settle_guarded _)).trans hf) ht

theorem keeps_arrival {p : PortTxn} (ht : arrival p s = .next t) : StepKeeps i s t := by
  unfold arrival at ht
  split at ht
  · cases ht; exact .of_guarded (.of_cached rfl rfl)
  · exact keeps_cacheEvent (.of_cached rfl rfl) ht

theorem keeps_controlWrite {init : Initiator} {off : Nat} {bytes : List WByte}
    (ht : controlWrite init off bytes s = .next t) : StepKeeps i s t := by
  unfold controlWrite at ht
  split at ht
  · exact keeps_cacheEvent (.of_cached rfl rfl) ht
  · cases ht

theorem ending_guarded {p : Purpose → Bool} {k : Access → State → State} (hk : ∀ a x, (k a x).GuardedFrom x) :
    (s.ending p k).GuardedFrom s := by
  unfold State.ending
  split
  · exact .refl s
  · exact (hk _ _).trans (.of_cached rfl rfl)

theorem onCommand_guarded {code : Nat} {g : List Byte → State → State} (hg : ∀ d x, (g d x).GuardedFrom x) :
    (onCommand code g s).GuardedFrom s := by
  unfold onCommand
  split
  · split
    · exact hg _ s
    · exact .refl s
  · exact .refl s

/-- A step that ends an access. -/
theorem keeps_ending {p : Purpose → Bool} {k : Access → State → State} (hk : ∀ a x, (k a x).GuardedFrom x)
    (ht : event s (fun x => x.ending p k) = .next t) : StepKeeps i s t := keeps_event (ending_guarded hk) ht

theorem keeps_cacheEnding {p : Purpose → Bool} {k : Access → State → State} (hk : ∀ a x, (k a x).GuardedFrom x)
    (ht : cacheEvent s (fun x => x.ending p k) = .next t) : StepKeeps i s t := keeps_cacheEvent (ending_guarded hk) ht

/-- A step at which CMU begins a command. -/
theorem keeps_command {code : Nat} {g : List Byte → State → State} (hg : ∀ d x, (g d x).GuardedFrom x)
    (ht : event s (onCommand code g) = .next t) : StepKeeps i s t := keeps_event (onCommand_guarded hg) ht

theorem keeps_cacheCommand {code : Nat} {g : List Byte → State → State} (hg : ∀ d x, (g d x).GuardedFrom x)
    (ht : cacheEvent s (onCommand code g) = .next t) : StepKeeps i s t := keeps_cacheEvent (onCommand_guarded hg) ht

end

theorem answer_guarded (st : Status) (s : State) : (answer st s).GuardedFrom s := .of_cached rfl rfl

theorem giveIfReady_guarded (who : Requester) (s : State) : (giveIfReady who s).GuardedFrom s :=
  ⟨giveIfReady_fixed who s, fun h => cacheOk_giveIfReady h who⟩

theorem releaseNext_guarded (rest : List (Key × Nat)) (failed : Bool) (s : State) :
    (releaseNext rest failed s).GuardedFrom s :=
  ⟨releaseNext_fixed rest failed s, fun h => cacheOk_releaseNext h rest failed⟩

theorem reviveNext_guarded (rest : List (Key × Nat)) (failed : Bool) (s : State) :
    (reviveNext rest failed s).GuardedFrom s :=
  ⟨reviveNext_fixed rest failed s, fun h => cacheOk_reviveNext h rest failed⟩

theorem copyNext_guarded (w : CopyWork) (s : State) : (copyNext w s).GuardedFrom s :=
  ⟨copyNext_fixed w s, fun h => cacheOk_copyNext h w⟩

theorem releaseEnded_guarded (error : Bool) (s : State) : (releaseEnded error s).GuardedFrom s := by
  unfold releaseEnded
  split
  · refine (releaseNext_guarded _ _ _).trans ?_
    split
    · exact .of_cached (memoryFault_fixed _ _ _ s) (memoryFault_cached _ _ _ s)
    · exact .refl s
  · exact .refl s

theorem copyWriteEnded_guarded (error : Bool) (s : State) : (copyWriteEnded error s).GuardedFrom s := by
  unfold copyWriteEnded
  split
  · split
    · exact .of_cached (by simp) (by simp)
    · exact copyNext_guarded _ s
  · exact .refl s

/-- Pin reset empties the window table and the cache (R172). -/
theorem keeps_reset {s t : State} (hw : t.windows = State.reset.windows) (hb : t.strapBase = 0)
    (he : t.entries = State.reset.entries) (hr : t.reqs = []) (ht : t.inReset = true) : StepKeeps .pinReset s t := by
  obtain ⟨-, windows, -, cache, -⟩ := invariantsAtReset
  exact ⟨fun _ => windowsOk_same windows ht hb hw, .inr (.inl rfl),
    fun _ => cache.same (by rw [State.cached, he, hr]; rfl)⟩

/-- The strap base is latched under an empty window table (R158, R172). -/
theorem windowsOk_latched {s : State} (h : s.WindowsOk) (hr : s.inReset = true) (strap : BitVec 16) :
    ({ s with inReset := false, strapBase := strap, now := 0 } : State).WindowsOk := by
  have none := h.reset hr
  refine ⟨nofun, fun i w hw => ?_, fun i _ w _ hw => ?_, fun i w hw => ?_, h.oneContext, h.fiveCapture⟩ <;>
    cases (none i).symm.trans hw

theorem keeps_deassertion {s t : State} (strap : BitVec 16) (ht : execPinResetDeassertion strap s = .next t) :
    StepKeeps (.pinResetDeassertion strap) s t := by
  unfold execPinResetDeassertion at ht
  split at ht <;> cases ht
  · next hr =>
    have drained := (State.GuardedFrom.of_cached (grantAll_fixed _) (grantAll_cached _)).trans
      (drainPort_guarded { s with inReset := false, strapBase := strap, now := 0 })
    exact ⟨fun h => windowsOk_of_fixed (windowsOk_latched h hr strap) drained.fixed,
      .inl (congrArg (fun f => f.2.2.1) drained.fixed), fun h => drained.cache (h.same rfl)⟩
  · exact .of_guarded (.refl s)

/-- A command that CMU begins by the effect of one kind or by an answer. -/
theorem event_onCommand {s t : State} {code : Nat} {f : List Byte → State → State}
    (ht : event s (onCommand code f) = .next t) :
    t = s ∨ s.inReset = false ∧ (t.GuardedFrom s ∨ ∃ d, t.GuardedFrom (f d s)) := by
  rcases event_guarded ht with h | ⟨hr, hg⟩
  · exact .inl h
  · unfold onCommand at hg
    split at hg
    · split at hg
      · exact .inr ⟨hr, .inr ⟨_, hg⟩⟩
      · exact .inr ⟨hr, .inl hg⟩
    · exact .inr ⟨hr, .inl hg⟩

/-- START leaves all but the run state of what no operation of a block changes (R165). -/
theorem startRun_fixed (s : State) :
    (startRun s).fixed = ({ s with run := .running } : State).fixed := by
  unfold startRun
  rw [restartQuietAll_fixed]
  split <;> rfl

/-- STOP leaves all but the run state of what no operation of a block changes (R166). -/
theorem stopRun_fixed (s : State) : (stopRun s).fixed = ({ s with run := .stopped } : State).fixed := by
  have torn := discardAll_fixed .stopped { s with run := .stopped }
  unfold stopRun
  generalize discardAll .stopped { s with run := .stopped } = x at torn ⊢
  exact torn

theorem keeps_start {s t : State} (ht : execStart s = .next t) : StepKeeps .start s t := by
  rcases event_onCommand ht with rfl | ⟨-, hg | ⟨d, hg⟩⟩
  · exact .of_guarded (.refl t)
  · exact .of_guarded hg
  · split at hg
    · have fixed := (hg.fixed.trans (writeMirror_fixed _)).trans (startRun_fixed s)
      refine ⟨fun h => windowsOk_of_fixed (s := { s with run := .running }) (windowsOk_same h rfl rfl rfl) fixed,
        .inr (.inr (.inl ⟨rfl, run_of_fixed fixed⟩)), fun h => hg.cache (h.same ?_)⟩
      exact (writeMirror_cached _).trans (startRun_cached s)
    · exact .of_guarded (hg.trans (answer_guarded _ s))

theorem keeps_stop {s t : State} (ht : execStop s = .next t) : StepKeeps .stop s t := by
  rcases event_onCommand ht with rfl | ⟨-, hg | ⟨d, hg⟩⟩
  · exact .of_guarded (.refl t)
  · exact .of_guarded hg
  · split at hg
    · next hr =>
      have fixed := (hg.fixed.trans (writeMirror_fixed _)).trans (stopRun_fixed s)
      refine ⟨fun h => windowsOk_of_fixed (s := { s with run := .stopped }) (windowsOk_same h rfl rfl rfl) fixed,
        .inr (.inr (.inr ⟨rfl, hr, run_of_fixed fixed⟩)), fun h => hg.cache (h.same ?_)⟩
      exact (writeMirror_cached _).trans (stopRun_cached s)
    · exact .of_guarded (hg.trans (answer_guarded _ s))

theorem keeps_setWindow {s t : State} (ht : execSetWindow s = .next t) : StepKeeps .setWindow s t := by
  rcases event_onCommand ht with rfl | ⟨hr, hg | ⟨d, hg⟩⟩
  · exact .of_guarded (.refl t)
  · exact .of_guarded hg
  · split at hg
    · exact .of_guarded (hg.trans (answer_guarded _ s))
    · next w hc =>
      have fixed := hg.fixed.trans (answer_fixed _ _)
      refine ⟨fun h => windowsOk_of_fixed (windowsOk_applyWindow h hr hc) fixed, .inl ?_,
        fun h => hg.cache (h.same ((answer_cached _ _).trans (applyWindow_cached _ w s)))⟩
      refine (run_of_fixed fixed).trans ?_
      unfold applyWindow
      split
      · rfl
      · exact congrArg (fun f => f.2.2.1) (discardAssembly_fixed _ _ s)

/-- Every step of the part keeps the window table, the run state but for three of its steps, and the cache. -/
theorem keeps_exec {s t : State} (i : Instr) (ht : exec i s = .next t) : StepKeeps i s t := by
  cases i with
  | pinReset => cases ht; exact keeps_reset rfl rfl rfl rfl rfl
  | pinResetDeassertion strap => exact keeps_deassertion strap ht
  | passingRead init addr len =>
    change execPassingRead init addr len s = _ at ht
    unfold execPassingRead at ht
    split at ht
    · exact keeps_arrival ht
    · cases ht
  | passingWrite init addr bytes =>
    change execPassingWrite init addr bytes s = _ at ht
    unfold execPassingWrite at ht
    split at ht
    · exact keeps_arrival ht
    · cases ht
  | readDataReturn txn data =>
    change execReadDataReturn txn data s = _ at ht
    unfold execReadDataReturn at ht
    split at ht
    · split at ht
      · exact keeps_cacheEnding (fun _ x => readFailed_guarded txn x) ht
      · next bs =>
        split at ht
        · exact keeps_cacheEnding (fun _ x => readArrived_guarded txn bs x) ht
        · cases ht
    · cases ht; exact .of_guarded (.refl s)
  | writeResponseReturn txn error =>
    change execWriteResponseReturn txn error s = _ at ht
    unfold execWriteResponseReturn at ht
    split at ht
    · exact keeps_cacheEnding
        (fun _ x => .of_cached (writeCompleted_fixed txn error x) (writeCompleted_cached txn error x)) ht
    · cases ht; exact .of_guarded (.refl s)
  | commandProducerWrite init bytes => exact keeps_controlWrite ht
  | noticeConsumerWrite init bytes => exact keeps_controlWrite ht
  | dueConsumerWrite init bytes => exact keeps_controlWrite ht
  | partIndexWordWrite init word bytes => exact keeps_controlWrite ht
  | slotHeaderWrite init slot bytes => exact keeps_controlWrite ht
  | fetchDataArrival index data =>
    change execFetchDataArrival index data s = _ at ht
    unfold execFetchDataArrival at ht
    split at ht
    · refine keeps_cacheEnding (fun _ x => ?_) ht
      cases data with
      | none => exact ⟨fetchFailed_fixed index x, fun h => cacheOk_fetchFailed h index⟩
      | some bs => exact ⟨fetchArrived_fixed index bs x, fun h => cacheOk_fetchArrived h index bs⟩
    · cases ht
  | writeBackEnd index error =>
    exact keeps_cacheEnding
      (fun a x => ⟨writeBackEnded_fixed index _ error x, fun h => cacheOk_writeBackEnded h index _ error⟩) ht
  | jobTake => exact keeps_cacheEvent ⟨takeJob_fixed s, cacheOk_takeJob⟩ ht
  | jobContextGiven => exact keeps_cacheEvent (giveIfReady_guarded _ s) ht
  | jobCompletion => exact keeps_cacheEvent ⟨completeJob_fixed s, cacheOk_completeJob⟩ ht
  | offerTaking =>
    change execOfferTaking s = _ at ht
    unfold execOfferTaking at ht
    refine keeps_event (.of_cached ?_ ?_) ht <;> (repeat' split) <;> simp
  | graceExpiry =>
    change execGraceExpiry s = _ at ht
    unfold execGraceExpiry at ht
    refine keeps_cacheEvent ?_ ht
    split
    · exact .refl s
    · next e _ =>
      split
      · exact ⟨takeGrace_fixed e s, fun h => cacheOk_takeGrace h e⟩
      · exact .refl s
  | silentLapseApplied =>
    change execSilentLapseApplied s = _ at ht
    unfold execSilentLapseApplied at ht
    refine keeps_cacheEvent ?_ ht
    split
    · exact ⟨giveLapse_fixed s, cacheOk_giveLapse⟩
    · exact ⟨startLapse_fixed s, cacheOk_startLapse⟩
  | quietTimerExpiry channel =>
    change execQuietTimerExpiry channel s = _ at ht
    unfold execQuietTimerExpiry at ht
    refine keeps_event (.of_cached ?_ ?_) ht <;> (repeat' split) <;> simp
  | coalescingTimerExpiry =>
    change execCoalescingTimerExpiry s = _ at ht
    unfold execCoalescingTimerExpiry at ht
    refine keeps_event (.of_cached ?_ ?_) ht <;> split <;> rfl
  | slotBindingMade slot => exact keeps_cacheEvent (giveIfReady_guarded _ s) ht
  | promotion => exact keeps_cacheEvent (giveIfReady_guarded _ s) ht
  | noticeWriteEnd error =>
    refine keeps_ending (fun _ x => .trans (.of_cached (publishNotice_fixed _) (publishNotice_cached _)) ?_) ht
    split <;> exact .of_cached rfl rfl
  | noticeProducerWriteEnd error => exact keeps_ending (fun _ x => .refl x) ht
  | offerWriteEnd error => exact keeps_ending (fun _ x => .of_cached (by split <;> simp) (by split <;> simp)) ht
  | dueProducerWriteEnd error =>
    exact keeps_ending (fun _ x => .of_cached (by split <;> simp) (by split <;> simp)) ht
  | descriptorFetchEnd data =>
    change execDescriptorFetchEnd data s = _ at ht
    unfold execDescriptorFetchEnd at ht
    split at ht
    · refine keeps_ending (fun _ x => ?_) ht
      cases data with
      | none => exact .of_cached (descriptorFailed_fixed x) (descriptorFailed_cached x)
      | some bs => exact .of_cached (descriptorArrived_fixed bs x) (descriptorArrived_cached bs x)
    · cases ht
  | start => exact keeps_start ht
  | stop => exact keeps_stop ht
  | setWindow => exact keeps_setWindow ht
  | setPolicy =>
    refine keeps_command (fun _ x => ?_) ht
    (repeat' split) <;> exact .of_cached rfl rfl
  | readChannel =>
    refine keeps_command (fun _ x => ?_) ht
    dsimp only
    split <;> exact .of_cached rfl rfl
  | admitLink =>
    refine keeps_command (fun _ x => ?_) ht
    split <;> exact .of_cached rfl rfl
  | release =>
    refine keeps_cacheCommand (fun _ x => ?_) ht
    dsimp only
    split
    · exact answer_guarded _ x
    · split
      · exact releaseNext_guarded _ _ x
      · split
        · exact answer_guarded _ x
        · exact releaseNext_guarded _ _ x
  | revive =>
    refine keeps_cacheCommand (fun _ x => ?_) ht
    dsimp only
    split
    · exact answer_guarded _ x
    · split
      · exact reviveNext_guarded _ _ x
      · split
        · exact answer_guarded _ x
        · split
          · exact answer_guarded _ x
          · exact reviveNext_guarded _ _ x
  | forceDue =>
    change execForceDue s = _ at ht
    unfold execForceDue at ht
    refine keeps_event ?_ ht
    split
    · exact .of_cached (forceNext_fixed _ s) (forceNext_cached _ s)
    · exact onCommand_guarded fun _ x => .of_cached (forceDue_fixed _ _ x) (forceDue_cached _ _ x)
  | trial =>
    refine keeps_command (fun _ x => ?_) ht
    dsimp only
    (repeat' split) <;> exact .of_cached rfl rfl
  | readContexts =>
    refine keeps_cacheCommand (fun _ x => ?_) ht
    dsimp only
    split
    · exact answer_guarded _ x
    · split
      · exact answer_guarded _ x
      · split
        · exact answer_guarded _ x
        · exact copyNext_guarded _ x
  | setNotify =>
    refine keeps_command (fun _ x => ?_) ht
    exact .of_cached rfl rfl
  | identify =>
    refine keeps_command (fun _ x => ?_) ht
    exact .of_cached rfl rfl
  | admitImageWriteEnd error =>
    exact keeps_cacheEnding
      (fun _ x => (resume_guarded _).trans (.of_cached (admitEnded_fixed error x) (admitEnded_cached error x))) ht
  | releaseHeaderWriteEnd error =>
    exact keeps_cacheEnding (fun _ x => (resume_guarded _).trans (releaseEnded_guarded error x)) ht
  | reviveContextGiven => exact keeps_cacheEvent (giveIfReady_guarded _ s) ht
  | policyBlockReadEnd data =>
    change execPolicyBlockReadEnd data s = _ at ht
    unfold execPolicyBlockReadEnd at ht
    split at ht
    · exact keeps_ending (fun _ x => .of_cached (policyReadEnded_fixed data x) (policyReadEnded_cached data x)) ht
    · cases ht
  | channelRecordWriteEnd error =>
    exact keeps_ending (fun _ x => .of_cached (channelWriteEnded_fixed error x) (channelWriteEnded_cached error x)) ht
  | trialRecordReadEnd data =>
    change execTrialRecordReadEnd data s = _ at ht
    unfold execTrialRecordReadEnd at ht
    split at ht
    · exact keeps_ending (fun _ x => .of_cached (trialReadEnded_fixed data x) (trialReadEnded_cached data x)) ht
    · cases ht
  | trialResultWriteEnd error =>
    exact keeps_ending (fun _ x => .of_cached (trialWriteEnded_fixed error x) (trialWriteEnded_cached error x)) ht
  | contextCopyComposed => exact keeps_cacheEvent (giveIfReady_guarded _ s) ht
  | copyWriteEnd error => exact keeps_cacheEnding (fun _ x => copyWriteEnded_guarded error x) ht
  | identifyWriteEnd error =>
    exact keeps_ending (fun _ x => .of_cached (identifyWriteEnded_fixed error x) (identifyWriteEnded_cached error x)) ht
  | mirrorWriteEnd error =>
    exact keeps_ending (fun _ x => .of_cached (mirrorWriteEnded_fixed error x) (mirrorWriteEnded_cached error x)) ht
  | resultWriteEnd error =>
    exact keeps_ending (fun _ x => .of_cached (resultWriteEnded_fixed error x) (resultWriteEnded_cached error x)) ht
  | statusWriteEnd error =>
    exact keeps_ending (fun _ x => .of_cached (statusWriteEnded_fixed error x) (statusWriteEnded_cached error x)) ht
  | commandIndexWriteEnd error =>
    exact keeps_ending (fun _ x => .of_cached (indexWriteEnded_fixed error x) (indexWriteEnded_cached error x)) ht

/-- Settles O58: the step takes the front of the queue, or ticks, and every step of the part keeps the window table, the
cache's invariant, and the run state but for START, STOP and pin reset. -/
theorem stepKeepsWindows : Obligations.StepKeepsWindows := by
  intro s t ht
  unfold step at ht
  split at ht
  · cases ht
    unfold tick
    split
    · exact ⟨id, .inl rfl, id⟩
    · exact ⟨fun h => windowsOk_same h rfl rfl rfl, .inl rfl, fun h => h.same rfl⟩
  · next i rest hp =>
    obtain ⟨windows, run, cache⟩ := keeps_exec (s := { s with pending := rest }) i ht
    refine ⟨fun h => windows (windowsOk_same h rfl rfl rfl), ?_, fun h => cache (h.same rfl)⟩
    rcases run with same | rfl | ⟨rfl, running⟩ | ⟨rfl, was, stopped⟩
    · exact .inl same
    · exact .inr ⟨rest, .inl hp⟩
    · exact .inr ⟨rest, .inr (.inl ⟨hp, running⟩)⟩
    · exact .inr ⟨rest, .inr (.inr ⟨hp, was, stopped⟩)⟩

end Sys2Proof.Machine
end

section
/-!
PROOFS. WRITE_BACK_END: the reuse of an entry cancelled, kept back, passed on or faulted (R92, R95).
-/

namespace Sys2Proof.Machine

/-- With no RELEASE waiting for the write-back of a context none goes on at its end (R92). -/
theorem drainRelease_other {s : State} {idx : Nat} (h : ∀ k r f, s.cmu.phase ≠ .releaseDrain k idx r f) :
    drainRelease idx s = s := by
  unfold drainRelease
  split
  · next k i r f hp =>
    split
    · next hi => exact absurd (hi ▸ hp) (h k r f)
    · rfl
  · rfl

/-- The entry a write-back was issued for is found by its context. -/
theorem retiringEntry_of {s : State} {idx e : Nat} (hf : s.findEntry idx = some e) (hc : (s.entry e).cond = .retiring) :
    s.retiringEntry idx (s.entry e).key = some e := by
  simp only [State.retiringEntry, hf, hc, and_self, if_true]

/-- The reuse of an entry that no allocation waits for is cancelled (R92). -/
theorem cancelReuse_idle {s : State} {e : Nat} (h : ∀ r ∈ s.reqs, r.wait ≠ .writeBack e) :
    cancelReuse e s
      = s.setEntry e { s.entry e with cond := .valid, dirty := (s.entry e).retire.changed, retire := {} } :=
  rechoose_idle (s := s.setEntry e _) h

/-- An entry that no allocation waits for is passed on to none (log 13). -/
theorem passOn_idle {s : State} {e : Nat} (h : ∀ r ∈ s.reqs, r.wait ≠ .writeBack e) :
    passOn e s = s.setEntry e { s.entry e with cond := .valid, dirty := false, retire := {} } := by
  have none : s.reqs.find? (fun r => r.wait == .writeBack e) = none :=
    List.find?_eq_none.2 fun r hr => by simpa using h r hr
  simp only [passOn, none]

/-- An entry is passed on to the one allocation that waits for it, whose fetch is issued (R88, R92). -/
theorem passOn_waiting {s : State} {e : Nat} {pre post : List Req} {r : Req} (hr : s.reqs = pre ++ r :: post)
    (hwait : r.wait = .writeBack e) (hw : r.who.isWrite = false)
    (ho : ∀ q ∈ pre ++ post, q.index ≠ r.index ∧ q.wait ≠ .writeBack e) (hc : (s.entry e).cond ≠ .invalid) :
    passOn e s = ({ s.withoutEntry e (s.entry e).index with
      entries := s.entriesWith e { cond := .fetching, index := r.index, key := r.key }
      reqs := pre ++ { r with wait := .fetch } :: post } : State).submit .cache
        ⟨.fetch r.index, s.contextAddr r.index, .read 256⟩ (some s.takes) := by
  have before : pre.find? (fun q => q.wait == .writeBack e) = none :=
    List.find?_eq_none.2 fun q hq => by simpa using (ho q (List.mem_append_left post hq)).2
  have found : s.reqs.find? (fun q => q.wait == .writeBack e) = some r := by
    simp [hr, List.find?_append, before, hwait]
  have fetch := startFetch_takes hr hw (by rw [hwait]; rfl) (fun q hq hi => absurd hi (ho q hq).1) e
  rw [invalidate_eq hc] at fetch
  simp only [passOn, found]
  exact fetch

section
variable {s : State} {idx e : Nat} {a : Access} {rest : List Access} (ha : s.oldest (isWriteBack idx) a rest)
  (hf : s.findEntry idx = some e) (hc : (s.entry e).cond = .retiring) (hk : a.writeBackKey = (s.entry e).key)
include ha hf hc hk

/-- The end of the write-back without error goes on with its entry, where no RELEASE waits for it. -/
theorem writeBack_ends {z : State} (hz : writeBackDone e (s.ended rest) = z)
    (hp : ∀ k r f, z.cmu.phase ≠ .releaseDrain k idx r f) :
    ∃ f, exec (.writeBackEnd idx false) s = cacheEvent s f ∧ f s = z := by
  refine ⟨fun x => x.ending (isWriteBack idx) fun a y => writeBackEnded idx a.writeBackKey false y, rfl,
    (ending_ended ha _).trans ?_⟩
  have entry : (s.ended rest).retiringEntry idx (s.entry e).key = some e := retiringEntry_of (s := s.ended rest) hf hc
  simp only [writeBackEnded, hk, entry, Bool.false_eq_true, if_false, hz]
  exact drainRelease_other hp

/-- The end of the write-back in an error (R95, R96). -/
theorem writeBack_fails (hr : ∀ r ∈ s.reqs, r.wait ≠ .writeBack e)
    (hp : ∀ k r f, s.cmu.phase ≠ .releaseDrain k idx r f) :
    ∃ f, exec (.writeBackEnd idx true) s = cacheEvent s f ∧
      f s = notify ⟨.memoryFault, 2, (s.entry e).key, s.now, idx⟩ ((s.ended rest).setEntry e
        { s.entry e with cond := .valid, dirty := true, faulted := true, retire := {} }) := by
  refine ⟨fun x => x.ending (isWriteBack idx) fun a y => writeBackEnded idx a.writeBackKey true y, rfl,
    (ending_ended ha _).trans ?_⟩
  have entry : (s.ended rest).retiringEntry idx (s.entry e).key = some e := retiringEntry_of (s := s.ended rest) hf hc
  have fault : writeBackFault e (s.ended rest) = (s.ended rest).setEntry e
      { s.entry e with cond := .valid, dirty := true, faulted := true, retire := {} } :=
    rechoose_idle (s := (s.ended rest).setEntry e _) hr
  simp only [writeBackEnded, hk, entry, if_true, fault]
  exact drainRelease_other (by rw [memoryFault, notify_cmu_same]; exact hp)

/-- The entry replaced by one that stays in the cache, with nothing issued and nothing to go on. -/
theorem writeBack_leaves (hs : s.Steady) (hp : ∀ k r f, s.cmu.phase ≠ .releaseDrain k idx r f) {x : Entry}
    (hx : x.faulted = (s.entry e).faulted) (hz : writeBackDone e (s.ended rest) = (s.ended rest).setEntry e x) :
    NextIs (exec (.writeBackEnd idx false) s) { s.ended rest with entries := s.entriesWith e x } [] := by
  obtain ⟨f, event, effect⟩ := writeBack_ends ha hf hc hk hz hp
  rw [event]
  exact cacheEvent_silent hs.running effect
    (hs.quiet.of rfl hs.requests (sound_setEntry hs.sound fun h => hx ▸ h) rfl)

/-- The entry passed on to the allocation that waits for it (R92). -/
theorem writeBack_passes (hs : s.Steady) (hp : ∀ k r f, s.cmu.phase ≠ .releaseDrain k idx r f)
    {pre post : List Req} {who : Requester} {i : Nat} {key : Key}
    (hr : s.reqs = pre ++ ⟨who, i, key, .writeBack e⟩ :: post) (hw : who.isWrite = false)
    (ho : ∀ r ∈ pre ++ post, r.index ≠ i ∧ r.wait ≠ .writeBack e)
    (hz : writeBackDone e (s.ended rest) = passOn e (s.ended rest)) :
    NextIs (exec (.writeBackEnd idx false) s)
      { (s.ended rest).withoutEntry e idx with
        entries := s.entriesWith e { cond := .fetching, index := i, key := key }
        reqs := pre ++ ⟨who, i, key, .fetch⟩ :: post } [⟨.fetch i, s.contextAddr i, .read 256⟩] := by
  obtain ⟨-, hi, hv⟩ := findEntry_some hf
  have passed := passOn_waiting (s := s.ended rest) hr rfl hw ho hv
  rw [show ((s.ended rest).entry e).index = idx from hi] at passed
  obtain ⟨f, event, effect⟩ := writeBack_ends ha hf hc hk (hz.trans passed) hp
  rw [event]
  refine cacheEvent_nextIs hs.running f effect ?_ rfl (submit_gains _ _ _ _)
  refine ⟨hs.port, fun r hm => ?_, sound_entriesWith hs.sound rfl nofun, unanswered_dropHolds _ hs.unanswered⟩
  rcases List.mem_append.1 hm with hm | hm
  · exact hs.requests r (hr ▸ List.mem_append_left _ hm)
  · rcases List.mem_cons.1 hm with rfl | hm
    · exact nofun
    · exact hs.requests r (hr ▸ List.mem_append_right _ (List.mem_cons_of_mem _ hm))

end

/-- Settles O20: what the end of a write-back does with its entry, by whether it was given out or changed, by the reads
that hold it, by the allocation that waits, and by its error. -/
theorem writeBackEnds : Obligations.WriteBackEnds := by
  intro s idx e a rest hs ha hf hc hk hp x y back
  have done (h : ¬ (x.retire.given = true ∨ x.retire.changed = true)) : writeBackDone e y
      = if 0 < x.holds then y.setEntry e { x with retire := { x.retire with ended := true } } else passOn e y :=
    if_neg h
  have unchanged (hg : x.retire.given = false) (hch : x.retire.changed = false) :
      ¬ (x.retire.given = true ∨ x.retire.changed = true) := by simp [hg, hch]
  refine ⟨fun hr => ⟨fun h => ?_, fun hg hch hh => ?_, fun ⟨d, hd, hne, hsound⟩ => ?_⟩, fun hg hch hh => ?_,
    fun pre post who i key hreqs hw ho hg hch hh => ?_⟩
  · refine writeBack_leaves ha hf hc hk hs hp rfl ?_
    exact (if_pos h).trans (cancelReuse_idle (s := y) hr)
  · refine writeBack_leaves ha hf hc hk hs hp rfl ?_
    rw [done (unchanged hg hch), if_neg (by omega)]
    exact passOn_idle (s := y) hr
  · obtain ⟨f, event, effect⟩ := writeBack_fails ha hf hc hk hr hp
    rw [event]
    refine cacheEvent_silent hs.running effect (State.Quiet.notify ?_ _)
    refine hs.quiet.of rfl hs.requests ⟨d, hd, ?_⟩ rfl
    exact (congrArg Entry.faulted (entry_setEntry_ne s e d _ (Ne.symm hne))).trans hsound
  · refine writeBack_leaves ha hf hc hk hs hp rfl ?_
    rw [done (unchanged hg hch), if_pos hh]
  · refine writeBack_passes ha hf hc hk hs hp hreqs hw ho ?_
    rw [done (unchanged hg hch), if_neg (by omega)]

end Sys2Proof.Machine
end

section
/-!
PROOFS. A write of guarded bytes alone, which the part completes (R99, R160).
-/

namespace Sys2Proof.Machine

/-! ## The return of a completed transaction behind a step -/

/-- With no request waiting for an entry and one entry not faulted the cache does nothing more, whatever has been
completed (R89, R95). -/
theorem pump_rest {s : State} (hr : ∀ r ∈ s.reqs, r.wait ≠ .list) (hs : ∃ e, e < 32 ∧ (s.entry e).faulted = false) :
    pump s = s := by
  obtain ⟨e, he, hf⟩ := hs
  have some_sound : s.allFaulted = false := by
    rw [State.allFaulted, List.all_eq_false]
    exact ⟨e, List.mem_range.2 he, by simp [hf]⟩
  simp [pump, serveList, pumpLoop_quiet _ hr, some_sound]

/-- What is left of a step when one transaction is complete: its return. -/
theorem settle_one {s : State} {pre post : List Txn} {t : Txn} {r : Response} (h : s.txns = pre ++ t :: post)
    (hr : t.result = some r) (hd : t.responded = false) (hf : ∀ x ∈ pre, x.init ≠ t.init) (ha : s.awaits t.id = false)
    (hq : ({ s with txns := pre ++ post } : State).Quiet) :
    settle s = { s with txns := pre ++ post, returned := s.returned ++ [⟨t.init, t.id, r⟩] } := by
  rw [settle, pump_rest (s := s) hq.requests hq.sound, flush_one h hr hd hf ha hq.unanswered]

/-! ## The write completed by the part -/

/-- A write with no operator byte goes out with none. -/
theorem operatorBytes_none {off : Nat} {bytes : List WByte}
    (h : ∀ b ∈ carriedAt off bytes, isOperatorOffset b.1 = false) :
    (operatorBytes off bytes).all Option.isNone = true := by
  refine List.all_eq_true.2 fun b hb => ?_
  obtain ⟨⟨w, i⟩, hm, rfl⟩ := List.mem_map.1 hb
  cases w with
  | none => simp
  | some v => simp [h (off + i, v) (mem_carriedAt.2 ⟨i, hm, rfl⟩)]

/-- A write that reaches a part at rest, every byte of it dropped, is told of, completed and returned (R99, R160). -/
theorem write_completed {s : State} {init : Initiator} {addr dropped : Nat} {bytes out : List WByte} {k : Option Key}
    (h : s.Steady) (hl : s.txns.length < Config.openLimit)
    (hp : handleParts s.run s.takes (s.partsOf addr bytes.length) ⟨s.partsOf addr bytes.length, bytes, 0, none⟩
        (s.taking init addr bytes) = (⟨[], out, dropped, k⟩, s.taking init addr bytes))
    (hd : 0 < dropped) (ho : out.all Option.isNone = true) (hf : ∀ t ∈ s.txns, t.init ≠ init)
    (ha : s.awaits s.takes = false) :
    let n : Notice := ⟨.guardedWrite, 0, k.getD {}, s.now, dropped⟩
    ∃ m, cacheEvent s (arrive (.write init addr bytes)) = .next { notify n s with
          takes := s.takes + 1
          returned := s.returned ++ [⟨init, s.takes, .normal []⟩]
          mem := m }
      ∧ (notify n s).mem.gains m [] := by
  intro n
  have ids : ∀ x ∈ s.txns, x.id ≠ s.takes := fun x hx => Nat.ne_of_lt (h.numbered x hx)
  let opened : Txn :=
    ⟨s.takes, init, addr, s.run, .write (s.partsOf addr bytes.length) bytes 0 none, false, none, false⟩
  let done : Txn := ⟨s.takes, init, addr, s.run, .write [] out dropped k, true, some (.normal []), false⟩
  obtain ⟨as, m1, apart, hs, hm1⟩ := notifyAll_apart [n] s (s.takes + 1) (s.txns ++ [opened]) s.mem
  obtain ⟨w, mn, told⟩ := notify_with n s
  have same : (notify n s).mem.gains m1 [] := MemPort.gains_apart hs hm1
  have finished : finishWrite s.takes init addr ⟨[], out, dropped, k⟩ (s.taking init addr bytes)
      = wakePort { notify n s with takes := s.takes + 1, txns := s.txns ++ [done], mem := m1 } := by
    have completed := modifyTxn_last
      (s := { notify n s with takes := s.takes + 1, txns := s.txns ++ [opened], mem := m1 }) (t := opened) rfl ids
      fun t => { t with body := .write [] out dropped k, handled := true, result := some (.normal []) }
    simp only [finishWrite, hd, ho, and_self, if_true]
    exact congrArg wakePort ((congrArg (fun x : State => x.modifyTxn s.takes _) apart).trans completed)
  obtain ⟨m2, granted, hm2⟩ := grantAll_eq
    (wakePort { notify n s with takes := s.takes + 1, txns := s.txns ++ [done], mem := m1 })
  let z : State := { notify n s with takes := s.takes + 1, txns := s.txns ++ [done], mem := m2 }
  have effect : advance (takeTxn (.write init addr bytes) s) = z := by
    refine (advance_last (s := s.taking init addr bytes) (ts := s.txns) (t := opened) rfl h.handled rfl ids).trans ?_
    simp only [handleTxn, opened, hp, finished]
    exact granted
  have quiet : ({ z with txns := s.txns ++ [] } : State).Quiet := by
    simp only [z, told, List.append_nil]
    exact ⟨h.port, h.requests, h.sound, h.unanswered⟩
  have returns := settle_one (s := z) (t := done) rfl rfl rfl hf
    (by simp only [z, told]; exact ha) quiet
  obtain ⟨m, hm, hg⟩ := event_next h.running fun x => drainPort (settle (arrive (.write init addr bytes) x))
  rw [arrive_taken h hl, effect, returns] at hm hg
  refine ⟨m, ?_, MemPort.gains_trans (MemPort.gains_trans (MemPort.gains_trans same (MemPort.wake_gains _ _)) hm2) hg⟩
  refine hm.trans ?_
  simp only [z, told, done, List.append_nil]

/-- Settles O8: the one part of the write is guarded bytes, so nothing is left of it to go out. -/
theorem guardedBytesDropped : Obligations.GuardedBytesDropped := by
  intro s init addr idx off key bytes hs hl hrun hsome howner hcap hheld hkey hguarded hinit hawaits
  have length : 0 < bytes.length := by
    obtain ⟨b, hb, -⟩ := List.any_eq_true.1 hsome
    exact List.length_pos_of_mem hb
  have part := partsOf_run length howner
  have unoperated : (carriedAt off bytes).filter (fun b => isOperatorOffset b.1) = [] :=
    List.filter_eq_nil_iff.2 fun b hb => by simp [hguarded b hb]
  have all : (carriedAt off bytes).filter (fun b => !isOperatorOffset b.1) = carriedAt off bytes :=
    List.filter_eq_self.2 fun b hb => by simp [hguarded b hb]
  have count : (carriedAt off bytes).length = (carriedBytes bytes).length := List.length_map _
  have dropped : 0 < (carriedBytes bytes).length := by
    rw [← count, List.length_pos_iff]
    exact fun hn => operator_carried (off := off) hsome (by rw [hn]; rfl) unoperated
  have handled := handlePart_operator (init := init) (addr := addr) (off := off) (bytes := bytes) hs hcap hheld hkey
  simp only [unoperated, all, count, if_neg (Nat.pos_iff_ne_zero.1 dropped), List.isEmpty_nil, if_true] at handled
  have quiet : pump (s.taking init addr bytes) = s.taking init addr bytes := pump_rest hs.requests hs.sound
  have parts : handleParts s.run s.takes (s.partsOf addr bytes.length)
      ⟨s.partsOf addr bytes.length, bytes, 0, none⟩ (s.taking init addr bytes)
      = (⟨[], operatorBytes off bytes, (carriedBytes bytes).length, some key⟩, s.taking init addr bytes) := by
    rw [part]
    simp [handleParts, handled, quiet]
  rw [exec_passingWrite hs.running hrun]
  have completed := write_completed hs hl parts dropped (operatorBytes_none hguarded) hinit hawaits
  simpa only [Option.getD_some] using completed

end Sys2Proof.Machine
end

section
/-!
PROOFS. A read of one admitted context when its data returns, or an error (R98, R160).
-/

namespace Sys2Proof.Machine

/-! ## The return of a read of one part (R160) -/

/-- A step on the cache that leaves one transaction complete is its effect, followed by the return and the grants. -/
theorem cacheEvent_returns {s u : State} {f : State → State} {pre post : List Txn} {t : Txn} {r : Response}
    (h : s.inReset = false) (hf : f s = u) (ht : u.txns = pre ++ t :: post) (hr : t.result = some r)
    (hd : t.responded = false) (hi : ∀ x ∈ pre, x.init ≠ t.init) (ha : u.awaits t.id = false)
    (hq : ({ u with txns := pre ++ post } : State).Quiet) :
    ∃ m, cacheEvent s f = .next { u with txns := pre ++ post, returned := u.returns t r, mem := m }
      ∧ u.mem.gains m [] := by
  obtain ⟨m, hm, hg⟩ := event_next h fun x => drainPort (settle (f x))
  rw [hf, settled_one ht hr hd hi ha hq] at hm hg
  exact ⟨m, hm, hg⟩

/-- The others of the open transactions are as they were at rest. -/
theorem State.Opens.others {s : State} {pre post : List Txn} {t : Txn} (ho : s.Opens pre t post) (hs : s.Steady) :
    ∀ x ∈ pre ++ post, x.result = none ∧ x.responded = false := fun x hx => by
  refine hs.unanswered x ?_
  rw [ho.place]
  exact (List.mem_append.1 hx).elim (List.mem_append_left _) fun h => List.mem_append_right _ (List.mem_cons_of_mem _ h)

/-- READ_DATA_RETURN for a read that is outstanding. -/
theorem exec_readDataReturn {s : State} {id : Nat} {a : Access} {rest : List Access} {data : List Byte}
    (ha : s.oldest (isPassing id) a rest) (hb : a.body = .read data.length) :
    exec (.readDataReturn id none) s = cacheEvent s (fun x => x.ending (isPassing id) fun _ y => readFailed id y)
    ∧ exec (.readDataReturn id (some data)) s
      = cacheEvent s (fun x => x.ending (isPassing id) fun _ y => readArrived id data y) := by
  obtain ⟨hp, hperm⟩ := extract_some ha
  have read (n : Nat → Bool) (hn : n data.length = true) : s.mem.outstanding.any (isReadOf id n) = true := by
    refine List.any_eq_true.2 ⟨a, hperm.mem_iff.2 (List.mem_cons_self ..), ?_⟩
    cases hpurpose : a.purpose <;> simp_all [isReadOf, isPassing]
  have outstanding := read (fun _ => true) rfl
  have length := read (fun len => data.length == len) (by simp)
  constructor
  · change execReadDataReturn id none s = _
    simp only [execReadDataReturn, outstanding, if_true]
  · change execReadDataReturn id (some data) s = _
    simp only [execReadDataReturn, outstanding, length, if_true]

/-- The part once the data of a read among the open transactions is back. -/
def State.dataBack (s : State) (rest : List Access) (pre : List Txn) (t : Txn) (post : List Txn) (p : ReadPart)
    (data : List Byte) : State :=
  { s.ended rest with txns := pre ++ { t with body := .read data.length [p] (some data) } :: post }

section
variable {s : State} {pre post : List Txn} {t : Txn} {a : Access} {rest : List Access} {data : List Byte} {p : ReadPart}
  (ho : s.Opens pre t post) (ha : s.oldest (isPassing t.id) a rest) (hb : a.body = .read data.length)
  (ht : t.body = .read data.length [p] none)
include ho ha hb ht

/-- The data of a read of one part returns: the part is completed, an event of its own (R97). -/
theorem read_arrives : ∃ f, exec (.readDataReturn t.id (some data)) s = cacheEvent s f
    ∧ f s = pump (completeReadPart t.id 0 (s.dataBack rest pre t post p data)) := by
  refine ⟨_, (exec_readDataReturn ha hb).2, (ending_ended ha _).trans ?_⟩
  have back := modifyTxn_mid (s := s.ended rest) ho.place ho.alone fun t =>
    match t.body with
    | .read len parts _ => { t with body := .read len parts (some data) }
    | .write _ _ _ _ => t
  simp only [ht] at back
  have parts : (s.ended rest).partCount t.id = 1 := by
    simp only [State.partCount, txn_mid (s := s.ended rest) ho.place ho.alone, Txn.readParts, ht, List.length_singleton]
  simp only [readArrived, parts]
  exact congrArg (fun x => pump (completeReadPart t.id 0 x)) back

/-- A read of one part ends in an error: its part releases what it holds. -/
theorem read_fails : ∃ f, exec (.readDataReturn t.id none) s = cacheEvent s f
    ∧ f s = pump (releasePart p.owner
      { s.ended rest with txns := pre ++ { t with result := some .error } :: post }) := by
  refine ⟨_, (exec_readDataReturn ha hb).1, (ending_ended ha _).trans ?_⟩
  have failed := modifyTxn_mid (s := s.ended rest) ho.place ho.alone fun t => { t with result := some .error }
  have found := txn_mid (s := s.ended rest) ho.place ho.alone
  have parts : t.readParts = [p] := by simp only [Txn.readParts, ht]
  simp only [readFailed, found, parts, List.foldl_cons, List.foldl_nil]
  exact congrArg (fun x => pump (releasePart p.owner x)) failed

/-- The read completed with these bytes is returned, and the rest of what its completion left stays (R160). -/
theorem read_returned (hs : s.Steady) {u : State} {t' : Txn} {r : Response} (hr : t'.result = some r)
    (hd : completeReadPart t.id 0 (s.dataBack rest pre t post p data) = u) (hu : u.txns = pre ++ t' :: post)
    (hi : t'.init = t.init ∧ t'.id = t.id ∧ t'.responded = t.responded)
    (hw : u.awaits t.id = false) (hq : ({ u with txns := pre ++ post } : State).Quiet) :
    ∃ m, exec (.readDataReturn t.id (some data)) s
        = .next { u with txns := pre ++ post, returned := u.returns t r, mem := m } ∧ u.mem.gains m [] := by
  obtain ⟨init, id, responded⟩ := hi
  obtain ⟨-, unresponded⟩ := hs.unanswered t (by rw [ho.place]; simp)
  obtain ⟨f, event, effect⟩ := read_arrives ho ha hb ht
  rw [hd, pump_rest (s := u) hq.requests hq.sound] at effect
  have returns := cacheEvent_returns hs.running effect hu hr (responded.trans unresponded)
    (by rw [init]; exact ho.first) (by rw [id]; exact hw) hq
  simpa only [event, State.returns, init, id] using returns

end

/-! ## The hold of a read (R98) -/

/-- A read releases its hold on an entry that has no ended write-back. -/
theorem releaseHold_serving {s : State} {idx e : Nat} {key : Key} (hf : s.findEntry idx = some e)
    (hv : (s.entry e).serves = true) (hk : (s.entry e).key = key)
    (hr : ¬ ((s.entry e).cond = .retiring ∧ (s.entry e).retire.ended = true)) :
    releaseHold idx key s = s.setEntry e { s.entry e with holds := (s.entry e).holds - 1 } := by
  have serving : s.servingEntry idx = some e := by simp only [State.servingEntry, hf, hv, if_true]
  have stays : ¬ ((s.entry e).cond = .retiring ∧ (s.entry e).retire.ended = true ∧ (s.entry e).holds ≤ 1) :=
    fun h => hr ⟨h.1, h.2.1⟩
  simp only [releaseHold, serving, hk, if_true, stays, if_false]

/-- Where no entry serves the context none is held. -/
theorem releaseHold_none {s : State} {idx : Nat} {key : Key} (h : s.servingEntry idx = none) :
    releaseHold idx key s = s := by
  simp only [releaseHold, h]

/-- Releasing a hold changes no merge list. -/
theorem merge_released {s t : State} {e : Nat} {n : Nat}
    (ht : t.entries = s.entriesWith e { s.entry e with holds := n }) (d : Nat) :
    (t.entry d).merge = [] ∨ (t.entry d).merge = (s.entry d).merge := by
  have entry : t.entry d = (s.setEntry e { s.entry e with holds := n }).entry d := by
    simp only [State.entry, ht]
    rfl
  rw [entry]
  rcases entry_setEntry s e d { s.entry e with holds := n } with ⟨new, rfl, -⟩ | ⟨old, -⟩
  · exact .inr ((congrArg Entry.merge new).trans rfl)
  · exact .inr (congrArg Entry.merge old)

/-- A part at rest stays at rest when a hold is released. -/
theorem State.Quiet.released {s t : State} (h : s.Quiet) {e n : Nat} (hp : t.atPort = s.atPort) (hr : t.reqs = s.reqs)
    (he : t.entries = s.entriesWith e { s.entry e with holds := n })
    (hu : ∀ x ∈ t.txns, x.result = none ∧ x.responded = false) : t.Quiet :=
  ⟨hp.trans h.port, hr ▸ h.requests, sound_entriesWith h.sound he fun hf => hf, hu⟩

/-! ## The part of the read in the context (R98) -/

section
variable {s : State} {idx e id k : Nat} {key : Key} {held : Bool}

/-- An entry that serves the context patches every byte, and lets go of the hold. -/
theorem completeContext_held (hp : s.present idx key = true) (hf : s.findEntry idx = some e)
    (hv : (s.entry e).serves = true) : completeContext idx key true id k s
      = releaseHold idx key (touch e (s.completePart id k fun o b => (s.contextBytes e).getD o b)) := by
  simp only [completeContext, hp, hf, hv, if_true]

/-- One that is FETCHING has the read wait. -/
theorem completeContext_fetching (hp : s.present idx key = true) (hf : s.findEntry idx = some e)
    (hc : (s.entry e).cond = .fetching) : completeContext idx key held id k s = s := by
  have serves : (s.entry e).serves = false := by simp [Entry.serves, hc]
  simp only [completeContext, hp, hf, serves, if_true, Bool.false_eq_true, if_false]

/-- With no entry the calendar-owned bytes and the unused bits of the control byte are the part's (log 30). -/
theorem completeContext_uncached (hp : s.present idx key = true) (hf : s.findEntry idx = none) :
    completeContext idx key held id k s = s.completePart id k (uncachedByte s idx) := by
  simp only [completeContext, hp, hf, if_true]

/-- With the context gone the bytes are DRAM's. -/
theorem completeContext_gone (hp : s.present idx key = false)
    (hf : (s.completePart id k asReturned).servingEntry idx = none) :
    completeContext idx key held id k s = s.completePart id k asReturned := by
  simp only [completeContext, hp, Bool.false_eq_true, if_false]
  cases held
  · rfl
  · exact releaseHold_none hf

end

/-- Bytes left as DRAM returned them. -/
theorem patchedFrom_asReturned (off : Nat) (data : List Byte) : patchedFrom off asReturned data = data :=
  List.zipIdx_map_fst 0 data

/-- A read whose one part is of a context, completed with these bytes. -/
def Txn.patched (t : Txn) (owner : ReadOwner) (off len : Nat) (out : List Byte) : Txn :=
  { t with body := .read len [⟨owner, 0, len, off, true⟩] (some out), result := some (.normal out) }

/-- The one part of a read in a context, not yet completed. -/
abbrev contextPart (idx : Nat) (key : Key) (held : Bool) (off len : Nat) : ReadPart :=
  ⟨.context idx key held, 0, len, off, false⟩

/-- The part of a read is completed once its data is back, by its context or by `f`. -/
theorem contextRead_completes {s : State} {pre post : List Txn} {t : Txn} (ho : s.Opens pre t post)
    (rest : List Access) (data : List Byte) (idx off : Nat) (key : Key) (held : Bool) (f : Nat → Byte → Byte) :
    let z := s.dataBack rest pre t post (contextPart idx key held off data.length) data
    completeReadPart t.id 0 z = completeContext idx key held t.id 0 z
    ∧ z.completePart t.id 0 f = { s.ended rest with
        txns := pre ++ t.patched (.context idx key held) off data.length (patchedFrom off f data) :: post } := by
  intro z
  let back : Txn := { t with body := .read data.length [contextPart idx key held off data.length] (some data) }
  have alone : ∀ x ∈ pre ++ post, x.id ≠ back.id := ho.alone
  have part : z.readPart t.id 0 = some (contextPart idx key held off data.length) :=
    readPart_single (s := z) (t := back) rfl alone rfl
  refine ⟨?_, completePart_single (s := z) (t := back) rfl alone rfl f⟩
  simp only [completeReadPart, part]

section
variable {s : State} {pre post : List Txn} {t : Txn} {a : Access} {rest : List Access} {data : List Byte}
  {idx off : Nat} {key : Key} {held : Bool}
  (hs : s.Steady) (ho : s.Opens pre t post) (ha : s.oldest (isPassing t.id) a rest) (hb : a.body = .read data.length)
  (ht : t.body = .read data.length [⟨.context idx key held, 0, data.length, off, false⟩] none)
include hs ho ha hb ht

/-- A read completed with no entry changed is returned. -/
theorem contextRead_plain {f : Nat → Byte → Byte}
    (hc : let z := s.dataBack rest pre t post (contextPart idx key held off data.length) data
      completeContext idx key held t.id 0 z = z.completePart t.id 0 f) :
    ∃ m, exec (.readDataReturn t.id (some data)) s = .next { s with
          txns := pre ++ post, returned := s.returns t (.normal (patchedFrom off f data)), mem := m }
      ∧ (s.portWithout rest).gains m [] := by
  obtain ⟨begins, completes⟩ := contextRead_completes ho rest data idx off key held f
  exact read_returned ho ha hb ht hs (t' := t.patched _ off data.length (patchedFrom off f data)) rfl
    (begins.trans (hc.trans completes)) rfl ⟨rfl, rfl, rfl⟩ ho.taken
    ⟨hs.port, hs.requests, hs.sound, ho.others hs⟩

/-- A read completed by the entry that serves it, which it held (R98); the recency order is what the touch of the entry
leaves. -/
theorem contextRead_held {e : Nat} {recency : List Nat} (hheld : held = true) (hp : s.present idx key = true)
    (hf : s.findEntry idx = some e) (hv : (s.entry e).serves = true) (hk : (s.entry e).key = key)
    (hr : ¬ ((s.entry e).cond = .retiring ∧ (s.entry e).retire.ended = true))
    (htouch : ∀ y : State, y.entries = s.entries → y.recency = s.recency → touch e y = { y with recency := recency }) :
    ∃ m, exec (.readDataReturn t.id (some data)) s = .next { s with
          entries := s.entriesWith e { s.entry e with holds := (s.entry e).holds - 1 }
          recency := recency
          txns := pre ++ post
          returned := s.returns t (.normal (patchedFrom off (fun o b => (s.contextBytes e).getD o b) data))
          mem := m }
      ∧ (s.portWithout rest).gains m [] := by
  subst hheld
  obtain ⟨begins, completes⟩ := contextRead_completes ho rest data idx off key true
    fun o b => (s.contextBytes e).getD o b
  let t' := t.patched (.context idx key true) off data.length
    (patchedFrom off (fun o b => (s.contextBytes e).getD o b) data)
  let y : State := { s.ended rest with txns := pre ++ t' :: post, recency := recency }
  have held := completeContext_held (s := s.dataBack rest pre t post (contextPart idx key true off data.length) data)
    (id := t.id) (k := 0) hp hf hv
  have touched := htouch { s.ended rest with txns := pre ++ t' :: post } rfl rfl
  have released : releaseHold idx key y = y.setEntry e { s.entry e with holds := (s.entry e).holds - 1 } :=
    releaseHold_serving (s := y) hf hv hk hr
  have effect := begins.trans (held.trans (congrArg (releaseHold idx key)
    ((congrArg (touch e) completes).trans touched)))
  exact read_returned ho ha hb ht hs (t' := t') rfl (effect.trans released) rfl ⟨rfl, rfl, rfl⟩
    (awaits_less ho.taken (fun r hr => hr) (merge_released (s := s) rfl))
    (hs.quiet.released rfl rfl rfl (ho.others hs))

/-- A read in an error releases its hold and is returned (R98, R160). -/
theorem contextRead_fails {e : Nat} (hheld : held = true) (hf : s.findEntry idx = some e)
    (hc : (s.entry e).cond = .valid) (hk : (s.entry e).key = key) :
    ∃ m, exec (.readDataReturn t.id none) s = .next { s with
          entries := s.entriesWith e { s.entry e with holds := (s.entry e).holds - 1 }
          txns := pre ++ post
          returned := s.returns t .error
          mem := m }
      ∧ (s.portWithout rest).gains m [] := by
  subst hheld
  let t' : Txn := { t with result := some .error }
  let y : State := { s.ended rest with txns := pre ++ t' :: post }
  let u : State := y.setEntry e { s.entry e with holds := (s.entry e).holds - 1 }
  have released : releaseHold idx key y = u := releaseHold_serving (s := y) hf (by
    show (s.entry e).serves = true
    simp [Entry.serves, hc]) hk (by
    show ¬ ((s.entry e).cond = .retiring ∧ _)
    simp [hc])
  have quiet : ({ u with txns := pre ++ post } : State).Quiet :=
    hs.quiet.released rfl rfl rfl (ho.others hs)
  obtain ⟨f, event, effect⟩ := read_fails ho ha hb ht
  obtain ⟨-, unresponded⟩ := hs.unanswered t (by rw [ho.place]; simp)
  have fails : f s = u := by
    rw [effect, show releasePart (.context idx key true) _ = u from released]
    exact pump_rest (s := u) quiet.requests quiet.sound
  rw [event]
  exact cacheEvent_returns hs.running fails (t := t') rfl rfl unresponded ho.first
    (awaits_less ho.taken (fun r hr => hr) (merge_released (s := s) rfl)) quiet

/-- A read of a context that is FETCHING waits with its data (R98). -/
theorem contextRead_waits {e : Nat} (hp : s.present idx key = true) (hf : s.findEntry idx = some e)
    (hc : (s.entry e).cond = .fetching) :
    ∃ m, exec (.readDataReturn t.id (some data)) s = .next { s with
          txns := pre
            ++ { t with
              body := .read data.length [⟨.context idx key held, 0, data.length, off, false⟩] (some data) } :: post
          mem := m }
      ∧ (s.portWithout rest).gains m [] := by
  let z := s.dataBack rest pre t post (contextPart idx key held off data.length) data
  obtain ⟨begins, -⟩ := contextRead_completes ho rest data idx off key held asReturned
  have waits : completeReadPart t.id 0 z = z := begins.trans (completeContext_fetching (s := z) hp hf hc)
  have quiet : z.Quiet := by
    refine ⟨hs.port, hs.requests, hs.sound, fun x hx => ?_⟩
    rcases List.mem_append.1 hx with hx | hx
    · exact ho.others hs x (List.mem_append_left _ hx)
    · rcases List.mem_cons.1 hx with rfl | hx
      · exact hs.unanswered t (by rw [ho.place]; simp)
      · exact ho.others hs x (List.mem_append_right _ hx)
  obtain ⟨f, event, effect⟩ := read_arrives ho ha hb ht
  have same : f s = z := by rw [effect, waits, pump_quiet quiet]
  obtain ⟨m, hm, hg⟩ := cacheEvent_next hs.running f (same ▸ quiet)
  rw [same] at hm hg
  rw [event]
  exact ⟨m, hm, hg⟩

end

/-- Settles O13: the read by the condition of its context's entry, each by its own lemma. -/
theorem contextReadPatched : Obligations.ContextReadPatched := by
  intro s pre post t a rest data idx off key held hs ho ha hb ht patched freed
  refine ⟨fun e hserved hk hheld => ⟨?_, ?_⟩, fun e hp hf hc hr hk hheld => ?_, fun e hp hf hc _ => ?_,
    fun hp hf _ => ?_, fun hp hf => ?_⟩
  · obtain ⟨hp, hf, hv⟩ := hserved
    exact contextRead_held hs ho ha hb ht hheld hp hf (by simp [Entry.serves, hv]) hk (by simp [hv])
      fun y he hr => by
        have valid : (y.entry e).cond = .valid := by rw [State.entry, he]; exact hv
        rw [touch_valid valid, State.recencyWith, hr]
        rfl
  · exact contextRead_fails hs ho ha hb ht hheld hserved.2.1 hserved.2.2 hk
  · exact contextRead_held hs ho ha hb ht hheld hp hf (by simp [Entry.serves, hc]) hk (by simp [hr])
      fun y he hr => by
        have retiring : (y.entry e).cond = .retiring := by rw [State.entry, he]; exact hc
        rw [touch_retiring retiring, ← hr]
  · exact contextRead_waits hs ho ha hb ht hp hf hc
  · exact contextRead_plain hs ho ha hb ht
      (completeContext_uncached (s := s.dataBack rest pre t post (contextPart idx key held off data.length) data) hp hf)
  · have plain := contextRead_plain (f := asReturned) hs ho ha hb ht (completeContext_gone
      (s := s.dataBack rest pre t post (contextPart idx key held off data.length) data) hp (by
        rw [(contextRead_completes ho rest data idx off key held asReturned).2]
        exact hf))
    rwa [patchedFrom_asReturned] at plain

end Sys2Proof.Machine
end

section
/-!
PROOFS. READ_CONTEXTS: its checks, the walk over the keys, the copy composed, and what ends it (R102 to R105).
-/

namespace Sys2Proof.Machine

/-! ## What surrounds an answer -/

/-- What a port gained beyond what another gained over the same one. -/
theorem MemPort.gains_beyond {m a b : MemPort} {as fs : List Access} (ha : m.gains a as) (hb : m.gains b (fs ++ as)) :
    a.gains b fs := by
  unfold MemPort.gains at *
  refine hb.trans (((List.perm_append_comm (l₁ := fs)).append_left _).trans ?_)
  rw [← List.append_assoc]
  exact ha.symm.append_right fs

/-- A notice behind accesses of CMU's says and issues what it does before them, but for the order at the memory port. -/
theorem notify_behind (n : Notice) (s : State) (c : Cmu) {m : MemPort} {fs : List Access} (hg : s.mem.gains m fs) :
    ∃ m', notify n { s with cmu := c, mem := m } = { notify n s with cmu := c, mem := m' }
      ∧ (notify n s).mem.gains m' fs := by
  rcases notify_cases n s with ⟨h, e⟩ | ⟨h, e⟩ <;>
    rcases notify_cases n { s with cmu := c, mem := m } with ⟨h', e'⟩ | ⟨h', e'⟩
  · let b := ownWrite .notice (s.controlBase + 0x4000 + 16 * s.nw.notices.claimed) n.toBytes
    have before : s.mem.gains (notify n s).mem [b] := by rw [e]; exact submit_gains { s with nw := _ } .notice b none
    have behind : m.gains (notify n { s with cmu := c, mem := m }).mem [b] := by
      rw [e']
      exact submit_gains { s with cmu := c, mem := m, nw := _ } .notice b none
    exact ⟨(notify n { s with cmu := c, mem := m }).mem, by rw [e, e']; rfl,
      MemPort.gains_beyond before (MemPort.gains_trans hg behind)⟩
  · exact absurd h h'
  · exact absurd h' h
  · refine ⟨m, by rw [e, e'], ?_⟩
    rw [e]
    exact hg

/-! ## The end of the command (R105) -/

/-- The fields that tell how many of the count were not copied, and the last key copied. -/
def State.copyFields (s : State) (count made : Nat) (last : Key) : List Access :=
  let result := s.controlBase + 0x2000 + 32 * s.cmu.consumer
  [ownWrite .resultField (result + 20) (le 2 (count - made)), ownWrite .resultField (result + 24) last.toBytes]

/-- With none copied the last key is zero. -/
theorem copyFields_none (s : State) (count : Nat) :
    let result := s.controlBase + 0x2000 + 32 * s.cmu.consumer
    s.copyFields count 0 {}
      = [ownWrite .resultField (result + 20) (le 2 count), ownWrite .resultField (result + 24) [0, 0, 0, 0]] := by
  have zero : Key.toBytes {} = [0, 0, 0, 0] := by decide
  simp only [State.copyFields, zero, Nat.sub_zero]

/-- READ_CONTEXTS ends with the writes of its two fields. -/
theorem finishCopies_eq (w : CopyWork) (st : Status) (s : State) :
    ∃ m, finishCopies w st s = { s with cmu := s.cmuIn (.resultWrite 2 st), mem := m }
      ∧ s.mem.gains m (s.copyFields w.count w.made w.last) := by
  have first := submit_gains { s with cmu := s.cmuIn (.resultWrite 2 st) } .command
    (ownWrite .resultField (s.controlBase + 0x2000 + 32 * s.cmu.consumer + 20) (le 2 (w.count - w.made))) none
  exact ⟨_, rfl, MemPort.gains_trans first (submit_gains _ .command _ none)⟩

/-! ## The walk over the keys (R103) -/

section
variable {s x : State} {f : State → State} {w : CopyWork}

/-- With no key left the command ends. -/
theorem copies_end (hr : s.inReset = false) (hf : f s = copyNext w x) (hq : x.Quiet) (hw : w.rest = []) :
    NextIs (cacheEvent s f) { x with cmu := x.cmuIn (.resultWrite 2 .done) } (x.copyFields w.count w.made w.last) := by
  obtain ⟨m, ends, hg⟩ := finishCopies_eq w .done x
  have effect : f s = { x with cmu := x.cmuIn (.resultWrite 2 .done), mem := m } := by
    rw [hf, ← ends]
    simp only [copyNext, hw]
  exact cacheEvent_nextIs hr f effect ⟨hq.port, hq.requests, hq.sound, hq.unanswered⟩ rfl hg

/-- With no key to begin with nothing has been copied. -/
theorem copies_none (hr : s.inReset = false) (hf : f s = copyNext w x) (hq : x.Quiet) (hw : w.rest = [])
    (hm : w.made = 0) (hl : w.last = {}) :
    let result := x.controlBase + 0x2000 + 32 * x.cmu.consumer
    NextIs (cacheEvent s f) { x with cmu := x.cmuIn (.resultWrite 2 .done) }
      [ownWrite .resultField (result + 20) (le 2 w.count), ownWrite .resultField (result + 24) [0, 0, 0, 0]] := by
  have ends := copies_end hr hf hq hw
  rwa [hm, hl, copyFields_none] at ends

/-- The next key's context is asked of the cache, which serves it. -/
theorem copies_ask (hr : s.inReset = false) (hf : f s = copyNext w x) (hq : x.Quiet) {k : Key} {idx e : Nat}
    {more : List (Key × Nat)} (hw : w.rest = (k, idx) :: more) (hs : x.ServedBy idx k e) :
    NextIs (cacheEvent s f) { x with
      cmu := x.cmuIn (.copying k idx { w with rest := more })
      reqs := x.reqs ++ [⟨.copy, idx, k, .ready⟩] } [] := by
  have asked := request_served (s := { x with cmu := x.cmuIn (.copying k idx { w with rest := more }) })
    (who := .copy) hs
  have effect : f s = request .copy idx k { x with cmu := x.cmuIn (.copying k idx { w with rest := more }) } := by
    rw [hf]
    simp only [copyNext, hw]
    rfl
  exact cacheEvent_silent hr (effect.trans asked) (hq.of rfl (wait_concat hq.requests nofun) hq.sound rfl)

end

/-! ## The checks (R102) -/

/-- A run of bytes that shares one with the context window. -/
theorem overlapsContexts_iff {s : State} {a n : Nat} :
    s.overlapsContexts a n = true ↔ ∃ w, s.contextWindow = some w ∧ a < w.base + w.size ∧ w.base < a + n := by
  unfold State.overlapsContexts
  split
  · next h => simp [h]
  · next w h => simp [h, overlaps_iff]

/-- A READ_CONTEXTS CMU holds answers by the first of its checks that fails, or begins its walk (R102, R103). -/
theorem readContexts_begins {s : State} {d : List Byte} {key : Key} {count dest : Nat} (h : s.Executing 0x15 d)
    (hk : cmdKey d = key) (hc : copyCount (byteAt d 8) = count) (hd : getAddress d 12 = dest) :
    let barred := dest % 256 ≠ 0 ∨ 2 ^ 40 < dest + 256 * count
      ∨ s.overlapsContexts dest (256 * count) = true ∨ s.overlapsControl dest (256 * count) = true
    ∃ f, exec .readContexts s = cacheEvent s f
      ∧ (key.valid = false → f s = answer .keyInvalid s)
      ∧ (key.valid = true → (barred → f s = answer .range s)
        ∧ (¬ barred → f s = copyNext (s.copyWork key count dest) s)) := by
  subst hk hc hd
  intro barred
  refine ⟨_, rfl, ?_⟩
  rw [onCommand_of (code := codeReadContexts) h]
  dsimp only
  refine ⟨fun hk => if_pos (by rw [hk]; rfl), fun hk => ?_⟩
  rw [if_neg (by rw [hk]; exact Bool.false_ne_true)]
  have overlapping := Bool.or_eq_true (s.overlapsContexts (getAddress d 12) (256 * copyCount (byteAt d 8)))
    (s.overlapsControl (getAddress d 12) (256 * copyCount (byteAt d 8)))
  refine ⟨fun hb => ?_, fun hb => ?_⟩
  · split
    · rfl
    · next hp =>
      refine if_pos ?_
      rcases hb with hb | hb | hb
      · exact absurd (.inl hb) hp
      · exact absurd (.inr hb) hp
      · exact overlapping ▸ hb
  · rw [if_neg fun hp => hb (hp.elim .inl fun hp => .inr (.inl hp)),
      if_neg fun hp => hb (.inr (.inr (overlapping ▸ hp)))]

/-! ## The copy composed and written (R104, R105) -/

/-- The context given is composed and its copy written. -/
theorem giveCopy_served {s : State} {key : Key} {idx e : Nat} {w : CopyWork} (hp : s.cmu.phase = .copying key idx w)
    (hr : s.Ready .copy idx key) (hs : s.ServedBy idx key e) : giveCopy s
      = ({ s with reqs := s.reqsWithout .copy, recency := s.recencyWith e } : State).cmuSubmit
          (ownWrite .contextCopy (w.dest + 256 * w.made) (s.supply idx (s.entry e).image).toBytes)
          (.copyWrite key w) := by
  obtain ⟨-, hi, -⟩ := findEntry_some hs.2.1
  have bytes : s.contextBytes e = (s.supply idx (s.entry e).image).toBytes := by rw [State.contextBytes, hi]
  have touched : touchFor .copy e s (dropReq .copy s)
      = { s with recency := s.recencyWith e, reqs := s.reqsWithout .copy } :=
    touchFor_ready (s := dropReq .copy s) hr hs.2.2
  simp only [giveCopy, hp, hs.given, touched, bytes]

/-- The end of a copy's write goes on with READ_CONTEXTS. -/
theorem copyWrite_ends {s : State} {a : Access} {rest : List Access} {key : Key} {w : CopyWork}
    (ha : s.oldest (isPurpose .contextCopy) a rest) (hp : s.cmu.phase = .copyWrite key w) (error : Bool) :
    ∃ f, exec (.copyWriteEnd error) s = cacheEvent s f ∧ f s =
      if error then memoryFault .copyWrite key w.made (finishCopies w .memory (s.ended rest))
      else copyNext { w with made := w.made + 1, last := key } (s.ended rest) := by
  refine ⟨fun x => x.ending (isPurpose .contextCopy) fun _ y => copyWriteEnded error y, rfl,
    (ending_ended ha _).trans ?_⟩
  have phase : (s.ended rest).cmu.phase = .copyWrite key w := hp
  simp only [copyWriteEnded, phase]

/-- Settles O49: the checks of READ_CONTEXTS and its walk, the copy of a context given, and the ends of its writes. -/
theorem contextsRead : Obligations.ContextsRead := by
  refine ⟨fun s d hs hd => ?_, fun s key idx e w hs hphase hready hserved => ?_,
    fun s key w a rest hs hphase ha => ?_⟩
  · intro key count dest len keys valid clear result
    obtain ⟨f, event, invalid, begins⟩ := readContexts_begins hd rfl rfl rfl
    have validIff : key.valid = true ↔ valid := keyValid_iff key
    have clearIff : clear ↔ ¬ (dest % 256 ≠ 0 ∨ 2 ^ 40 < dest + len ∨ s.overlapsContexts dest len = true
        ∨ s.overlapsControl dest len = true) := by
      have control : s.overlapsControl dest len = true ↔ dest < s.controlBase + 0x10000 ∧ s.controlBase < dest + len :=
        overlaps_iff
      simp only [clear, overlapsContexts_iff, control, not_or, not_not, Nat.not_lt, not_exists, not_and]
    rw [event]
    refine ⟨fun hv => ?_, fun hv hc => ?_, fun hv hc => ?_⟩
    · exact cacheEvent_answers hs.running (invalid (Bool.eq_false_iff.2 (mt validIff.1 hv))) hs.quiet
    · exact cacheEvent_answers hs.running ((begins (validIff.2 hv)).1 (not_not.1 (mt clearIff.2 hc))) hs.quiet
    · have walks := (begins (validIff.2 hv)).2 (clearIff.1 hc)
      exact ⟨fun hk => copies_none hs.running walks hs.quiet hk rfl rfl,
        fun k idx more e hk hserved => copies_ask hs.running walks hs.quiet hk hserved⟩
  · have gives : giveIfReady .copy s = giveCopy s := by
      rw [giveIfReady, readyReq_of hready]
      rfl
    exact cacheEvent_submits (t := { s with reqs := s.reqsWithout .copy, recency := s.recencyWith e }) hs.running
      (gives.trans (giveCopy_served hphase hready hserved))
      (hs.quiet.of rfl (reqsWithout_wait hs.requests .copy) hs.sound rfl)
  · intro result fields
    have quiet := hs.quiet.ended rest
    obtain ⟨f, event, ends⟩ := copyWrite_ends ha hphase false
    obtain ⟨g, failEvent, fails⟩ := copyWrite_ends ha hphase true
    rw [event, failEvent]
    refine ⟨fun hw => copies_end hs.running ends quiet hw,
      fun k idx more e hw hserved => copies_ask hs.running ends quiet hw hserved, ?_⟩
    obtain ⟨m, finished, hm⟩ := finishCopies_eq w .memory (s.ended rest)
    obtain ⟨m', told, hm'⟩ := notify_behind ⟨.memoryFault, 7, key, s.now, w.made⟩ (s.ended rest)
      ((s.ended rest).cmuIn (.resultWrite 2 .memory)) hm
    have effect := fails.trans ((congrArg (memoryFault .copyWrite key w.made) finished).trans told)
    have quieter := quiet.notify ⟨.memoryFault, 7, key, s.now, w.made⟩
    exact cacheEvent_nextIs hs.running g effect
      ⟨quieter.port, quieter.requests, quieter.sound, quieter.unanswered⟩ rfl hm'

end Sys2Proof.Machine
end

section
/-!
PROOFS. A passing read: the owners of its bytes, its parts, what a part in a context is, and its take (R97, R98,
R159 to R161).
-/

namespace Sys2Proof.Machine

/-! ## The owner of a byte (R159, R161, R162) -/

theorem inControl_iff {s : State} {a : Nat} :
    s.inControl a = true ↔ s.controlBase ≤ a ∧ a < s.controlBase + 0x10000 := by
  simp [State.inControl]

theorem covers_iff {w : Window} {a : Nat} : w.covers a = true ↔ w.base ≤ a ∧ a < w.base + w.size := by
  simp [Window.covers]

/-- The owner of a byte of the control region (R161). -/
theorem controlOwner_eq (off : Nat) :
    (off < 0x1C → controlOwner off = (.word (off / 4), off % 4))
    ∧ (0x1000 ≤ off → off < 0x2000 → controlOwner off = (.slot (off / 64 - 64), off % 64))
    ∧ (0x1C ≤ off → off < 0x1000 ∨ 0x2000 ≤ off → controlOwner off = (.plain, 0)) := by
  refine ⟨fun h => if_pos h, fun h1 h2 => ?_, fun h1 h2 => ?_⟩
  · rw [controlOwner, if_neg (by omega), if_pos ⟨h1, h2⟩, show (off - 0x1000) / 64 = off / 64 - 64 by omega]
  · rw [controlOwner, if_neg (by omega), if_neg (by omega)]

/-- A window that covers a byte is the one found: no other does (R162). -/
theorem windowAt_covered {s : State} (h : s.WindowsOk) {a i : Nat} {w : Window} (hw : s.window i = some w)
    (hc : w.covers a = true) : s.windowAt a = some (i, w) := by
  cases hf : s.windowAt a with
  | none =>
    have uncovered := List.findSome?_eq_none_iff.1 hf i (List.mem_range.2 (window_lt hw))
    simp [hw, hc] at uncovered
  | some q =>
    obtain ⟨j, hj, found⟩ := List.exists_of_findSome?_eq_some hf
    split at found
    · cases found
    · next x hx =>
      split at found
      · next hcx =>
        cases found
        by_cases hij : j = i
        · subst hij
          rw [Option.some.inj (hx.symm.trans hw)]
        · have shares : overlaps x.base x.size w.base w.size = true :=
            overlaps_iff.2 (by have := covers_iff.1 hc; have := covers_iff.1 hcx; omega)
          rw [h.apart j i x w hx hw hij] at shares
          cases shares
      · cases found

/-- Where no window covers a byte none is found. -/
theorem windowAt_none {s : State} {a : Nat} (h : ∀ i w, s.window i = some w → w.covers a = false) :
    s.windowAt a = none := by
  refine List.findSome?_eq_none_iff.2 fun i _ => ?_
  split
  · rfl
  · next w hw => rw [h i w hw]; rfl

/-- No window covers a byte of the control region (R163). -/
theorem covered_outside {s : State} (h : s.WindowsOk) {a i : Nat} {w : Window} (hw : s.window i = some w)
    (hc : w.covers a = true) : s.inControl a = false := by
  refine Bool.eq_false_iff.2 fun hi => ?_
  have shares : s.overlapsControl w.base w.size = true :=
    overlaps_iff.2 (by have := covers_iff.1 hc; have := inControl_iff.1 hi; omega)
  rw [h.control i w hw] at shares
  cases shares

/-- The owner of a byte of an enabled window. -/
theorem ownerOf_covered {s : State} (h : s.WindowsOk) {a i : Nat} {w : Window} (hw : s.window i = some w)
    (hc : w.covers a = true) :
    (w.kind = .capture → s.ownerOf a = (.capture i (a / 64 * 64), a % 64))
    ∧ (w.kind = .context → s.ownerOf a = (.context ((a - w.base) / 256), (a - w.base) % 256)) := by
  have block : a - a % 64 = a / 64 * 64 := by omega
  constructor <;> intro hk <;>
    simp only [State.ownerOf, covered_outside h hw hc, windowAt_covered h hw hc, hk, block, Bool.false_eq_true,
      if_false]

/-- The owner of a byte of the control region, by its offset in the region. -/
theorem ownerOf_control {s : State} {a : Nat} (h1 : s.controlBase ≤ a) (h2 : a < s.controlBase + 0x10000) :
    s.ownerOf a = controlOwner (a - s.controlBase) := by
  simp only [State.ownerOf, inControl_iff.2 ⟨h1, h2⟩, if_true]

/-- Any other byte is plain. -/
theorem ownerOf_outside {s : State} {a : Nat} (hc : a < s.controlBase ∨ s.controlBase + 0x10000 ≤ a)
    (h : ∀ i w, s.window i = some w → a < w.base ∨ w.base + w.size ≤ a) : s.ownerOf a = (.plain, 0) := by
  have outside : s.inControl a = false :=
    Bool.eq_false_iff.2 fun hi => by have := inControl_iff.1 hi; omega
  have uncovered : s.windowAt a = none := windowAt_none fun i w hw =>
    Bool.eq_false_iff.2 fun hi => by have := covers_iff.1 hi; have := h i w hw; omega
  simp only [State.ownerOf, outside, uncovered, Bool.false_eq_true, if_false]

/-! ## The parts of a transaction (R159) -/

section
variable {own : Nat → Owner × Nat}

/-- A byte before a run joins its first part where the owner is the same, and is a part of its own otherwise. -/
theorem partsFrom_succ (own : Nat → Owner × Nat) (n i : Nat) :
    (partsFrom own n (i + 1) = [] ∧ partsFrom own (n + 1) i = [⟨(own i).1, i, 1, (own i).2⟩])
    ∨ ∃ p rest, partsFrom own n (i + 1) = p :: rest
      ∧ (p.owner = (own i).1 ∧ partsFrom own (n + 1) i = ⟨(own i).1, i, p.len + 1, (own i).2⟩ :: rest
        ∨ p.owner ≠ (own i).1 ∧ partsFrom own (n + 1) i = ⟨(own i).1, i, 1, (own i).2⟩ :: p :: rest) := by
  rw [partsFrom]
  cases h : partsFrom own n (i + 1) with
  | nil => exact .inl ⟨rfl, rfl⟩
  | cons p rest =>
    refine .inr ⟨p, rest, rfl, ?_⟩
    by_cases ho : p.owner = (own i).1
    · exact .inl ⟨ho, if_pos ho⟩
    · exact .inr ⟨ho, if_neg ho⟩

/-- The parts cover the bytes in order, each byte by its owner. -/
theorem partsFrom_owners (own : Nat → Owner × Nat) (n i : Nat) :
    (partsFrom own n i).flatMap (fun p => List.replicate p.len p.owner)
      = (List.range' i n).map fun k => (own k).1 := by
  induction n generalizing i with
  | zero => rfl
  | succ n ih =>
    have behind := ih (i + 1)
    rw [List.range'_succ, List.map_cons, ← behind]
    rcases partsFrom_succ own n i with ⟨none, one⟩ | ⟨p, rest, some, ⟨ho, joined⟩ | ⟨-, apart⟩⟩
    · rw [one, none]
      rfl
    · rw [joined, some, List.flatMap_cons, List.flatMap_cons, List.replicate_succ, ho]
      rfl
    · rw [apart, some]
      rfl

/-- Parts that follow one another from a byte on, each with the offset of its first byte. -/
def Placed (own : Nat → Owner × Nat) : Nat → List Part → Prop
  | _, [] => True
  | i, p :: ps => 0 < p.len ∧ p.start = i ∧ p.off = (own i).2 ∧ Placed own (i + p.len) ps

theorem partsFrom_placed (own : Nat → Owner × Nat) (n i : Nat) : Placed own i (partsFrom own n i) := by
  induction n generalizing i with
  | zero => trivial
  | succ n ih =>
    have behind := ih (i + 1)
    rcases partsFrom_succ own n i with ⟨-, one⟩ | ⟨p, rest, some, ⟨-, joined⟩ | ⟨-, apart⟩⟩
    · rw [one]
      exact ⟨Nat.one_pos, rfl, rfl, trivial⟩
    · rw [some] at behind
      obtain ⟨-, -, -, placed⟩ := behind
      rw [joined]
      refine ⟨Nat.succ_pos _, rfl, rfl, ?_⟩
      rwa [Nat.add_assoc, Nat.add_comm 1] at placed
    · rw [apart, ← some]
      exact ⟨Nat.one_pos, rfl, rfl, behind⟩

/-- Where one of the parts stands among the others. -/
theorem Placed.mid {i : Nat} {pre post : List Part} {p : Part} (h : Placed own i (pre ++ p :: post)) :
    0 < p.len ∧ p.start = i + (pre.map fun q => q.len).sum ∧ p.off = (own p.start).2 := by
  induction pre generalizing i with
  | nil =>
    obtain ⟨length, start, off, -⟩ := h
    exact ⟨length, start, start ▸ off⟩
  | cons q pre ih =>
    obtain ⟨-, -, -, behind⟩ := h
    obtain ⟨length, start, off⟩ := ih behind
    refine ⟨length, start.trans ?_, off⟩
    rw [List.map_cons, List.sum_cons, Nat.add_assoc]

/-- Parts that touch have different owners. -/
theorem partsFrom_longest (own : Nat → Owner × Nat) (n i : Nat) :
    (partsFrom own n i).IsChain fun p q => p.owner ≠ q.owner := by
  induction n generalizing i with
  | zero => exact .nil
  | succ n ih =>
    have behind := ih (i + 1)
    rcases partsFrom_succ own n i with ⟨-, one⟩ | ⟨p, rest, some, ⟨ho, joined⟩ | ⟨ho, apart⟩⟩
    · rw [one]
      exact .singleton _
    · rw [some] at behind
      rw [joined]
      cases rest with
      | nil => exact .singleton _
      | cons q rest =>
        obtain ⟨differ, behind⟩ := List.isChain_cons_cons.1 behind
        exact List.isChain_cons_cons.2 ⟨ho ▸ differ, behind⟩
    · rw [apart]
      rw [some] at behind
      exact List.isChain_cons_cons.2 ⟨Ne.symm ho, behind⟩

end

/-- The parts of a transaction are those of the run of its bytes' owners. -/
theorem partsOf_eq (s : State) (addr len : Nat) :
    ∃ own, (∀ i, own i = s.ownerOf (addr + i)) ∧ s.partsOf addr len = partsFrom own len 0 := ⟨_, fun _ => rfl, rfl⟩

/-- The parts of a transaction cover its bytes, each by its owner. -/
theorem partsOf_owners (s : State) (addr len : Nat) :
    ((s.partsOf addr len).flatMap fun p => List.replicate p.len p.owner)
      = (List.range len).map fun i => (s.ownerOf (addr + i)).1 := by
  obtain ⟨own, owns, parts⟩ := partsOf_eq s addr len
  rw [parts, partsFrom_owners, ← List.range_eq_range']
  exact List.map_congr_left fun i _ => by rw [owns]

/-- Where a part of a transaction stands, and where it enters its owner's unit. -/
theorem partsOf_mid {s : State} {addr len : Nat} {pre post : List Part} {p : Part}
    (h : s.partsOf addr len = pre ++ p :: post) :
    0 < p.len ∧ p.start = (pre.map fun q => q.len).sum ∧ p.off = (s.ownerOf (addr + p.start)).2 := by
  obtain ⟨own, owns, parts⟩ := partsOf_eq s addr len
  have placed : Placed own 0 (pre ++ p :: post) := h ▸ parts ▸ partsFrom_placed own len 0
  obtain ⟨length, start, off⟩ := placed.mid
  exact ⟨length, start.trans (Nat.zero_add _), owns p.start ▸ off⟩

/-- Parts of a transaction that touch have different owners. -/
theorem partsOf_longest {s : State} {addr len : Nat} {pre post : List Part} {p q : Part}
    (h : s.partsOf addr len = pre ++ p :: q :: post) : p.owner ≠ q.owner := by
  obtain ⟨own, -, parts⟩ := partsOf_eq s addr len
  have chain : (pre ++ p :: q :: post).IsChain fun p q => p.owner ≠ q.owner := h ▸ parts ▸ partsFrom_longest own len 0
  obtain ⟨-, differ, -⟩ := List.isChain_append_cons_cons.1 chain
  exact differ

/-! ## A part in a context (R97, R98) -/

/-- What a context part of a read is. -/
theorem judgeContext_eq (s : State) (idx : Nat) :
    (s.capacity ≤ idx → s.judgeContext idx = .plain)
    ∧ (idx < s.capacity → s.heldIndex = some idx → s.judgeContext idx = .unjudged idx)
    ∧ (idx < s.capacity → s.heldIndex ≠ some idx →
      (s.keyAt idx = none → s.judgeContext idx = .plain)
      ∧ ∀ key, s.keyAt idx = some key →
        s.judgeContext idx = .context idx key (s.servingEntry idx).isSome) := by
  refine ⟨fun h => if_pos h, fun h hh => ?_, fun h hh => ⟨fun hk => ?_, fun key hk => ?_⟩⟩
  · rw [State.judgeContext, if_neg (Nat.not_le.2 h), if_pos hh]
  · simp only [State.judgeContext, Nat.not_le.2 h, hh, hk, if_false]
  · simp only [State.judgeContext, Nat.not_le.2 h, hh, hk, if_false]

/-! ## The holds of a read (R98) -/

/-- A hold changes the entries alone, whatever the takes and the open transactions are. -/
theorem placeHold_with (o : ReadOwner) (s : State) (n : Nat) (ts : List Txn) :
    placeHold o { s with takes := n, txns := ts }
      = { s with takes := n, txns := ts, entries := (placeHold o s).entries } := by
  unfold placeHold
  split
  · next idx _ =>
    have same : ({ s with takes := n, txns := ts } : State).servingEntry idx = s.servingEntry idx := rfl
    rw [same]
    cases s.servingEntry idx <;> rfl
  · rfl

/-- So do the holds of all the parts of a read. -/
theorem placeHolds_with (ps : List ReadPart) (s : State) (n : Nat) (ts : List Txn) :
    ps.foldl (fun acc q => placeHold q.owner acc) { s with takes := n, txns := ts }
      = { s with
          takes := n
          txns := ts
          entries := (ps.foldl (fun acc q => placeHold q.owner acc) s).entries } := by
  induction ps generalizing s with
  | nil => rfl
  | cons p ps ih =>
    have first : placeHold p.owner s = { s with entries := (placeHold p.owner s).entries } :=
      placeHold_with p.owner s s.takes s.txns
    rw [List.foldl_cons, List.foldl_cons, placeHold_with]
    refine Eq.trans ?_ ((ih (placeHold p.owner s)).trans ?_)
    · rw [first]
    · rw [first]

/-- A hold leaves an entry's fault. -/
theorem placeHold_faulted (o : ReadOwner) (s : State) (d : Nat) :
    ((placeHold o s).entry d).faulted = (s.entry d).faulted := by
  unfold placeHold
  split
  · split
    · rfl
    · next e _ =>
      rcases entry_setEntry s e d { s.entry e with holds := (s.entry e).holds + 1 } with ⟨new, rfl, -⟩ | ⟨old, -⟩
      · rw [new]
      · rw [old]
  · rfl

theorem placeHolds_faulted (ps : List ReadPart) (s : State) (d : Nat) :
    ((ps.foldl (fun acc q => placeHold q.owner acc) s).entry d).faulted = (s.entry d).faulted := by
  induction ps generalizing s with
  | nil => rfl
  | cons p ps ih => exact (ih _).trans (placeHold_faulted p.owner s d)

/-! ## The take of a read (R159, R160) -/

/-- A read that has just been taken. -/
def State.openedRead (s : State) (init : Initiator) (addr len : Nat) (ps : List ReadPart) (handled : Bool) : Txn :=
  ⟨s.takes, init, addr, s.run, .read len ps none, handled, none, false⟩

/-- With every transaction handled but a read just taken, nothing of an earlier write is still to be handled (R169). -/
theorem read_behind {s t : State} (h : s.Steady) {x : Txn} {len : Nat} {ps : List ReadPart} {data : Option (List Byte)}
    (hx : x.body = .read len ps data) (ht : t.txns = s.txns ++ [x]) (id : Nat) (o : Owner) : t.behind id o = false := by
  have none : t.ahead id = [] := by
    refine List.flatMap_eq_nil_iff.2 fun y hy => ?_
    rw [ht] at hy
    rcases List.mem_append.1 hy with hy | hy
    · have := h.handled y hy
      split <;> simp [this]
    · rw [List.mem_singleton.1 hy, hx]
  rw [State.behind, none]
  rfl

/-- A read that reaches a part at rest is taken, holds what it covers and goes out (R98, R159, R160). -/
theorem read_taken {s : State} (h : s.Steady) (hl : s.txns.length < Config.openLimit) (init : Initiator)
    (addr len : Nat) :
    let ps := (s.partsOf addr len).map s.judgePart
    ∃ m, cacheEvent s (arrive (.read init addr len)) = .next { s with
          entries := (ps.foldl (fun acc q => placeHold q.owner acc) s).entries
          takes := s.takes + 1
          txns := s.txns ++ [s.openedRead init addr len ps true]
          mem := m }
      ∧ s.mem.gains m [⟨.passing s.takes, addr, .read len⟩] := by
  intro ps
  have ids : ∀ x ∈ s.txns, x.id ≠ s.takes := fun x hx => Nat.ne_of_lt (h.numbered x hx)
  let opened := s.openedRead init addr len ps false
  let held := (ps.foldl (fun acc q => placeHold q.owner acc) s).entries
  let z : State := { s with entries := held, takes := s.takes + 1, txns := s.txns ++ [opened] }
  let gone : State := { z with txns := s.txns ++ [s.openedRead init addr len ps true] }
  have taken : takeTxn (.read init addr len) s = z := placeHolds_with ps s (s.takes + 1) (s.txns ++ [opened])
  have handled : handleTxn opened z = gone.pass s.takes init addr (.read len) := by
    have unblocked : ¬ (ps.any fun p => z.behind s.takes p.owner.owner) = true := by
      simp [read_behind (t := z) h (x := opened) rfl rfl]
    have marked := modifyTxn_last (s := z) (t := opened) rfl ids fun x => { x with handled := true }
    refine (if_neg unblocked).trans ?_
    exact congrArg (fun x : State => x.pass s.takes init addr (.read len)) marked
  obtain ⟨m0, granted, hm0⟩ := grantAll_eq (gone.pass s.takes init addr (.read len))
  have effect : advance (takeTxn (.read init addr len) s) = { gone with mem := m0 } := by
    rw [taken, advance_last (s := z) (ts := s.txns) (t := opened) rfl h.handled rfl ids, handled, granted]
    rfl
  have quiet : ({ gone with mem := m0 } : State).Quiet := by
    obtain ⟨e, he, hf⟩ := h.sound
    refine ⟨h.port, h.requests, ⟨e, he, (placeHolds_faulted ps s e).trans hf⟩, fun t ht => ?_⟩
    rcases List.mem_append.1 ht with ht | ht
    · exact h.unanswered t ht
    · rw [List.mem_singleton.1 ht]
      exact ⟨rfl, rfl⟩
  obtain ⟨m, hm, hg⟩ := event_next h.running fun x => drainPort (settle (arrive (.read init addr len) x))
  rw [arrive_taken h hl, effect, settle, pump_quiet quiet, flush_quiet quiet.unanswered] at hm hg
  exact ⟨m, hm, by simpa using MemPort.gains_trans (MemPort.gains_trans (pass_gains gone _ _ _ _) hm0) hg⟩

/-- Out of reset a passing read reaches the system port (R159). -/
theorem exec_passingRead {s : State} (hr : s.inReset = false) {init : Initiator} {addr len : Nat}
    (hp : isPortRun addr len = true) :
    exec (.passingRead init addr len) s = cacheEvent s (arrive (.read init addr len)) := by
  change execPassingRead init addr len s = _
  simp [execPassingRead, hp, arrival, hr]

/-- Settles O6: the take of a read and its wait at the port, the owners of bytes, the parts of a transaction, and what a
part in a context is. -/
theorem passingReadTaken : Obligations.PassingReadTaken := by
  refine ⟨fun s init addr len hs hrun => ⟨fun hl => ?_, fun hl => ?_⟩, fun s a hw => ⟨fun h1 h2 => ?_, ?_, ?_⟩,
    fun s addr len => ⟨?_, fun pre p post hp => ?_, fun pre p q post hp => ?_⟩, fun s idx => ?_⟩
  · rw [exec_passingRead hs.running hrun]
    exact read_taken hs hl init addr len
  · rw [exec_passingRead hs.running hrun]
    obtain ⟨m, hm, hg⟩ := event_next hs.running fun x => drainPort (settle (arrive (.read init addr len) x))
    rw [arrive_waits hs (Nat.not_lt.2 hl)] at hm hg
    exact ⟨m, hm, hg⟩
  · rw [ownerOf_control h1 h2]
    exact controlOwner_eq _
  · exact fun i w hi h1 h2 => ownerOf_covered hw hi (covers_iff.2 ⟨h1, h2⟩)
  · exact ownerOf_outside
  · exact partsOf_owners s addr len
  · exact partsOf_mid hp
  · exact partsOf_longest hp
  · obtain ⟨above, waits, judged⟩ := judgeContext_eq s idx
    refine ⟨above, waits, fun h hh => ⟨(judged h hh).1, fun key hk => ?_⟩⟩
    rw [(judged h hh).2 key hk]
    cases s.servingEntry idx <;> rfl

end Sys2Proof.Machine
end

section
/-!
PROOFS. The maintenance calendar: the entry it takes, the offer made or deferred, the miss of a grace, and FORCE_DUE
(R107, R109, R111 to R115, R122 to R124); and the step of the model (R106, R188).
-/

namespace Sys2Proof.Machine

/-! ## The step (R106, R188) -/

/-- A step with a queue makes its front with the rest. -/
theorem step_front {s : State} {c : Instr} {rest : List Instr} (h : s.pending = c :: rest) :
    step s = exec c { s with pending := rest } := by rw [step, h]

/-- A step with an empty queue is one period of REFCLK. -/
theorem step_empty {s : State} (h : s.pending = []) : step s = .next (tick s) := by rw [step, h]

/-- Settles O1: the front of the queue, and the tick in reset and out of it. -/
theorem stepTakesFront : Obligations.StepTakesFront := by
  refine fun s => ⟨fun c rest h => step_front h, fun h hr => ?_, fun h hr => ?_⟩
  · rw [step_empty h, tick, if_pos hr]
  · rw [step_empty h, tick, if_neg (by simp [hr])]
    rfl

/-! ## The head of the due order (R109) -/

/-- Taking the earlier of two entries is how the first least element of a list is found. -/
theorem foldl_earlier (now : Tick) (a : CalEntry) (es : List CalEntry) :
    some (es.foldl (earlier now) a)
      = es.foldl (List.argAux fun b c => distance now b.due < distance now c.due) (some a) := by
  refine (List.foldl_hom some fun x y => ?_).symm
  exact (apply_ite some _ _ _).symm

/-- The head of the due order is the first entry, of those without the lapsing mark, at the least distance. -/
theorem calHead_eq_argmin (s : State) :
    s.calHead = (s.calendar.filter fun e => !e.lapsing).argmin fun e => distance s.now e.due := by
  unfold State.calHead
  split
  · next h => rw [h]; rfl
  · next e rest h => rw [h, foldl_earlier]; rfl

/-- The calendar takes an entry exactly out of IDLE, at the head of the due order, with its due time reached. -/
theorem calTaken_iff {s : State} {e : CalEntry} :
    s.calTaken = some e ↔ s.run ≠ .idle ∧ s.calHead = some e ∧ reached s.now e.due = true := by
  unfold State.calTaken
  split
  · next hr => simp [hr]
  · next hr =>
    cases s.calHead with
    | none => simp
    | some x =>
      simp only [Option.ite_none_right_eq_some, Option.some.injEq]
      exact ⟨fun ⟨hd, h⟩ => h ▸ ⟨hr, rfl, hd⟩, fun ⟨_, h, hd⟩ => h ▸ ⟨h ▸ hd, rfl⟩⟩

/-- An entry at a distance less than those before it, and no greater than those behind it, is the first least. -/
theorem argmin_between {α : Type} [DecidableEq α] (f : α → Int) {pre post : List α} {e : α}
    (before : ∀ x ∈ pre, f e < f x) (behind : ∀ x ∈ post, f e ≤ f x) : (pre ++ e :: post).argmin f = some e := by
  have fresh : e ∉ pre := fun h => lt_irrefl _ (before e h)
  refine List.mem_argmin_iff.2 ⟨by simp, fun a ha => ?_, fun a _ hle => ?_⟩
  · rcases List.mem_append.1 ha with h | h
    · exact (before a h).le
    · rcases List.mem_cons.1 h with rfl | h
      · exact le_rfl
      · exact behind a h
  · have later : a ∉ pre := fun h => absurd hle (not_le.2 (before a h))
    rw [List.idxOf_append_of_notMem fresh, List.idxOf_append_of_notMem later, List.idxOf_cons_self]
    omega

/-- Settles O25: the entry taken is the first least of those without the mark. -/
theorem dueHead : Obligations.DueHead := by
  refine ⟨fun s e h => ?_, fun s pre post e hr hs hl hd before behind => ?_, fun s e => rfl⟩
  · obtain ⟨hr, hh, hd⟩ := calTaken_iff.1 h
    obtain ⟨hmem, least, -⟩ := List.mem_argmin_iff.1 ((calHead_eq_argmin s).symm.trans hh)
    obtain ⟨hc, hl⟩ := List.mem_filter.1 hmem
    exact ⟨hr, hc, by simpa using hl, of_decide_eq_true hd,
      fun x hx hxl => least x (List.mem_filter.2 ⟨hx, by simp [hxl]⟩)⟩
  · refine calTaken_iff.2 ⟨hr, ?_, decide_eq_true hd⟩
    have unmarked : (s.calendar.filter fun x => !x.lapsing)
        = (pre.filter fun x => !x.lapsing) ++ e :: post.filter fun x => !x.lapsing := by simp [hs, hl]
    have kept {es : List CalEntry} {x : CalEntry} (hx : x ∈ es.filter fun x => !x.lapsing) :
        x ∈ es ∧ x.lapsing = false := by simpa using List.mem_filter.1 hx
    rw [calHead_eq_argmin, unmarked]
    refine argmin_between _ (fun x hx => ?_) fun x hx => ?_
    · exact before x (kept hx).1 (kept hx).2
    · exact behind x (kept hx).1 (kept hx).2

/-! ## OFFER_TAKING (R111, R112) -/

/-- Out of reset an OFFER or OFFER_FORCED entry that is taken is offered. -/
theorem offerTaking_next {s t : State} {e : CalEntry} {as : List Access} (hr : s.inReset = false)
    (ht : s.calTaken = some e) (hk : e.kind ≠ .grace) (hs : { takeOffer e s with mem := t.mem } = t)
    (hg : t.mem.gains (takeOffer e s).mem as) : NextIs (exec .offerTaking s) t as := by
  change NextIs (execOfferTaking s) t as
  unfold execOfferTaking
  exact event_nextIs hr _ (by simp only [ht, if_neg hk]) hs hg

/-- Settles O26: the offer claimed in the due ring, and its entry in GRACE. -/
theorem offerPlaced : Obligations.OfferPlaced := by
  intro s e hr ht hk hroom reason
  have room : s.dueRoom = true := decide_eq_true hroom
  have ticks : msTicks (s.policy e.key.channel).grace = 16384 * (s.policyOf e.key).grace := Nat.mul_comm _ _
  have taken : takeOffer e s
      = calSet { e with kind := .grace, due := s.now + BitVec.ofNat 32 (16384 * (s.policyOf e.key).grace) }
        (claimOffer e reason s) := by rw [takeOffer, if_pos room, ticks]; rfl
  refine offerTaking_next hr ht hk ?_ ?_ <;> rw [taken]
  · rfl
  · have bytes : offerBytes e.key reason e.miss s.now
        = e.key.toBytes ++ [BitVec.ofNat 8 reason.code, BitVec.ofNat 8 e.miss] ++ le 2 (s.now.toNat % 65536) := by
      simp [offerBytes, le]
    rw [← bytes]
    exact submit_gains { s with nw := _ } .notice _ none

/-- Settles O27: the entry deferred by one millisecond. -/
theorem offerDeferred : Obligations.OfferDeferred := by
  intro s e hr ht hk hfull
  have full : s.dueRoom = false := decide_eq_false (Nat.not_lt.2 hfull)
  have taken : takeOffer e s = { s with calendar := s.calendarWith { e with due := s.now + 16384 } } := by
    rw [takeOffer, if_neg (by simp [full])]
    rfl
  refine offerTaking_next hr ht hk ?_ ?_ <;> rw [taken]
  exact MemPort.gains_refl _

/-! ## GRACE_EXPIRY (R113 to R115) -/

/-- A GRACE entry that is taken on a part at rest is offered again or lapses, and nothing else goes on. -/
theorem graceExpiry_next {s t : State} {e : CalEntry} (hs : s.Steady) (ht : s.calTaken = some e)
    (hk : e.kind = .grace) (hg : takeGrace e s = t) (hq : t.Quiet) : NextIs (exec .graceExpiry s) t [] := by
  change NextIs (execGraceExpiry s) t []
  unfold execGraceExpiry
  exact cacheEvent_silent hs.running (by simp only [ht, if_pos hk, hg]) hq

/-- A taking that changes the calendar and the lapse list alone leaves a part at rest with nothing to go on. -/
theorem State.Steady.quiet_calendar {s : State} (h : s.Steady) (cal : List CalEntry) (ls : List Lapse) :
    ({ s with calendar := cal, lapses := ls } : State).Quiet :=
  h.quiet.of rfl h.requests h.sound rfl

/-- With the calendar's request outstanding no other is made (R115). -/
theorem startLapse_asked {s : State} (h : (s.reqOf .lapse).isSome = true) : startLapse s = s := by
  obtain ⟨r, hr⟩ := Option.isSome_iff_exists.1 h
  rw [startLapse, hr]

/-- Settles O28: the miss below the limit, and the lapse at it with the calendar's request outstanding or made. -/
theorem graceMissed : Obligations.GraceMissed := by
  intro s e hs ht hk hrun hopen limit lapse lapsing
  have missed : takeGrace e s = if e.miss + 1 < limit
      then { s with calendar := s.calendarWith { e with kind := .offer, miss := e.miss + 1, due := s.now } }
      else startLapse { s with calendar := lapsing, lapses := s.lapses ++ [lapse] } := if_pos ⟨hrun, hopen⟩
  refine ⟨fun hlt => ?_, fun hle => ?_⟩
  · exact graceExpiry_next hs ht hk (missed.trans (if_pos hlt)) (hs.quiet_calendar _ s.lapses)
  · have lapses := missed.trans (if_neg (Nat.not_lt.2 hle))
    refine ⟨fun hreq => ?_, fun d hreq hempty hserved => ?_⟩
    · exact graceExpiry_next hs ht hk (lapses.trans (startLapse_asked hreq)) (hs.quiet_calendar _ _)
    · rw [hempty, List.nil_append] at lapses
      have asks : takeGrace e s = { s with
          calendar := lapsing
          lapses := [lapse]
          reqs := s.reqs ++ [⟨.lapse, e.index, e.key, .ready⟩] } :=
        (lapses.trans (startLapse_asks hreq rfl)).trans
          (request_served (s := { s with calendar := lapsing, lapses := [lapse] }) hserved)
      refine graceExpiry_next hs ht hk asks (hs.quiet.of rfl (fun r hr => ?_) hs.sound rfl)
      rcases List.mem_append.1 hr with hr | hr
      · exact hs.requests r hr
      · rw [List.mem_singleton.1 hr]
        exact nofun

/-- Settles O29: in STOPPED, or on a QUIET channel, the taking is no miss. -/
theorem graceSuspended : Obligations.GraceSuspended := by
  intro s e hs ht hk hsuspended
  have counts : ¬ (s.run = .running ∧ (s.channel e.key.channel).state = .opened) := by
    rintro ⟨hrun, hopen⟩
    rcases hsuspended with h | h
    · simp [hrun] at h
    · simp [hopen] at h
  exact graceExpiry_next hs ht hk (if_neg counts) (hs.quiet_calendar _ s.lapses)

/-! ## FORCE_DUE (R122 to R124) -/

/-- A visit of FORCE_DUE changes the calendar alone (R123). -/
theorem calForce_eq (idx : Nat) (s : State) : calForce idx s = { s with calendar := s.calendarForced idx } := by
  unfold calForce State.calendarForced
  cases s.calEntry idx with
  | none => rfl
  | some e =>
    dsimp only
    split <;> rfl

/-- A mask of one bit names one channel. -/
theorem maskChannels_bit {c : Nat} (hc : c < 16) : maskChannels (2 ^ c) = [c] := by
  have each : ∀ c < 16, maskChannels (2 ^ c) = [c] := by decide
  exact each c hc

/-- A mask of 16 bits that names one channel is the bit of that channel. -/
theorem mask_of_channel {mask c : Nat} (hm : mask < 2 ^ 16) (h : maskChannels mask = [c]) : c < 16 ∧ mask = 2 ^ c := by
  have named (i : Nat) : i < 16 ∧ mask.testBit i = true ↔ i = c := by
    rw [← List.mem_singleton (b := c), ← h, maskChannels, List.mem_filter, List.mem_range]
  refine ⟨((named c).2 rfl).1, Nat.eq_of_testBit_eq fun i => ?_⟩
  rw [Nat.testBit_two_pow, Bool.eq_iff_iff, decide_eq_true_iff, eq_comm (a := c), ← named i]
  refine ⟨fun hb => ⟨Nat.lt_of_not_le fun hi => ?_, hb⟩, fun hb => hb.2⟩
  rw [Nat.testBit_lt_two_pow (hm.trans_le (Nat.pow_le_pow_right (by decide) hi))] at hb
  exact Bool.noConfusion hb

/-- A step whose effect is the next visit of FORCE_DUE, or its end (R124). -/
theorem force_visits {s : State} {f : State → State} {keys : List (Key × Nat)} (hr : s.inReset = false)
    (hf : f s = forceNext keys s) :
    (keys = [] → Answers (event s f) s .done)
    ∧ ∀ p more, keys = p :: more →
      NextIs (event s f) { s with calendar := s.calendarForced p.2, cmu := s.cmuIn (.forcing more) } [] := by
  refine ⟨?_, ?_⟩
  · rintro rfl
    exact event_answers hr hf
  · rintro p more rfl
    refine event_silent hr (hf.trans ?_)
    rw [forceNext, calForce_eq]
    rfl

/-- FORCE_DUE on a command held and not begun makes its checks (R122). -/
theorem forceDue_begins {s : State} {d : List Byte} (hs : s.Executing 0x13 d) :
    ∃ f, exec .forceDue s = event s f ∧ f s = forceDue (getLe d 4 4) (getLe d 8 2) s := by
  change ∃ f, execForceDue s = event s f ∧ _
  unfold execForceDue
  refine ⟨_, rfl, ?_⟩
  simp only [hs.2.1]
  exact onCommand_of (code := codeForceDue) hs _

/-- FORCE_DUE between its visits makes the next one, or ends (R124; log 18). -/
theorem forceDue_goesOn {s : State} {keys : List (Key × Nat)} (hp : s.cmu.phase = .forcing keys) :
    ∃ f, exec .forceDue s = event s f ∧ f s = forceNext keys s := by
  change ∃ f, execForceDue s = event s f ∧ _
  unfold execForceDue
  refine ⟨_, rfl, ?_⟩
  simp only [hp]

section
variable {s : State} {mask station : Nat}

/-- Of a mask that names channels and no more, FORCE_DUE with station 0 visits every link of each (R122, R124). -/
theorem forceDue_channels (hw : ¬ (mask = 0 ∨ 65536 ≤ mask)) :
    forceDue mask 0 s = forceNext ((maskChannels mask).flatMap s.keysOf) s := by
  rw [forceDue, if_neg (by decide), if_neg hw, if_pos rfl]

/-- With a station the mask names one channel (R122). -/
theorem forceDue_notOne (hst : station ≤ 16383) (hw : ¬ (mask = 0 ∨ 65536 ≤ mask)) (hn : station ≠ 0)
    (hm : ∀ c, maskChannels mask ≠ [c]) : forceDue mask station s = answer .range s := by
  rw [forceDue, if_neg (Nat.not_lt.2 hst), if_neg hw, if_neg hn]
  split
  · next c hc => exact absurd hc (hm c)
  · rfl

/-- With a station and a mask of one channel the link is looked up (R122, R123). -/
theorem forceDue_link {c : Nat} (hst : station ≤ 16383) (hc : c < 16) (hn : station ≠ 0) :
    (s.lookup ⟨c, station⟩ = none → forceDue (2 ^ c) station s = answer .notFound s)
    ∧ ∀ idx, s.lookup ⟨c, station⟩ = some idx →
      forceDue (2 ^ c) station s
        = if (s.calEntry idx).isNone then answer .state s else answer .done (calForce idx s) := by
  have narrow : ¬ (2 ^ c = 0 ∨ 65536 ≤ 2 ^ c) := by
    rintro (h | h)
    · exact absurd h (Nat.two_pow_pos c).ne'
    · exact absurd h (Nat.not_le.2 (Nat.pow_lt_pow_right (a := 2) (n := 16) (by decide) hc))
  rw [forceDue, if_neg (Nat.not_lt.2 hst), if_neg narrow, if_neg hn, maskChannels_bit hc]
  exact ⟨fun h => by simp only [h], fun idx h => by simp only [h]⟩

end

/-- Settles O47: the checks in their order, the one link forced, and the visits of station 0 from its start and on. -/
theorem forcedDue : Obligations.ForcedDue := by
  refine ⟨fun s d hs => ?_, fun s keys hr hp => ?_⟩
  · obtain ⟨f, begun, effect⟩ := forceDue_begins hs
    intro mask station wide
    change f s = forceDue mask station s at effect
    rw [begun]
    refine ⟨fun hst => event_answers hs.1 (effect.trans (if_pos hst)), fun hst => ⟨fun hw => ?_, ?_, ?_⟩⟩
    · refine event_answers hs.1 (effect.trans ?_)
      rw [forceDue, if_neg (Nat.not_lt.2 hst), if_pos hw]
    · refine fun hw hn => ⟨fun hm => ?_, fun c hc hm => ?_⟩
      · refine event_answers hs.1 (effect.trans (forceDue_notOne hst hw hn fun c hc => ?_))
        obtain ⟨hlt, bit⟩ := mask_of_channel (Nat.lt_of_not_le fun h => hw (.inr h)) hc
        exact hm c hlt bit
      · obtain ⟨absent, found⟩ := forceDue_link (s := s) hst hc hn
        rw [hm] at effect
        refine ⟨fun hl => event_answers hs.1 (effect.trans (absent hl)), fun idx hl => ⟨fun he => ?_, fun he => ?_⟩⟩
        · exact event_answers hs.1 (effect.trans ((found idx hl).trans (if_pos (Option.isNone_iff_eq_none.2 he))))
        · have forced := (found idx hl).trans (if_neg (mt Option.isNone_iff_eq_none.1 he))
          rw [calForce_eq] at forced
          exact event_answers hs.1 (effect.trans forced)
    · intro hw hz
      rw [hz] at effect
      exact force_visits hs.1 (effect.trans (forceDue_channels hw))
  · obtain ⟨f, goes, effect⟩ := forceDue_goesOn hp
    rw [goes]
    exact force_visits hr effect

end Sys2Proof.Machine
end

section
/-!
PROOFS. The response slots at the cache's answers and at a header write: the promotion at the head of the list is
decided (R138, R139), and key bytes arm a slot or are held back (R128, R129).
-/

namespace Sys2Proof.Machine

/-- A requester whose request is ready is given what the cache has for it. -/
theorem giveIfReady_of {s : State} {who : Requester} {idx : Nat} {key : Key} (h : s.Ready who idx key) :
    giveIfReady who s = give who s := by
  rw [giveIfReady, readyReq_of h]

/-- A reference to a context that is gone is given no entry (R3). -/
theorem givenEntry_gone {s : State} {idx : Nat} {key : Key} (h : s.present idx key = false) :
    s.givenEntry idx key = none := by
  simp only [State.givenEntry, h, Bool.false_eq_true, if_false]

/-! ## The promotion decided (R138, R139) -/

/-- What a promotion that takes effect makes of its context: the correction is delivered, and but for an ABORT the
issued taps and offsets are the delivered ones. -/
theorem promoted_eq (c : Context) (k : Correction) :
    let gone := { c with
      pending := none, counters := { c.counters with delivered := min 4294967295 (c.counters.delivered + 1) } }
    c.promoted k = if k.status = .abort then gone else { gone with
      offTiming := c.offTiming + k.timing
      offPower := c.offPower + k.power
      offFreq := c.offFreq + k.freq
      taps := match k.taps with | none => c.taps | some ts => ts
      basis := (c.basis + 1) % 65536 } := by
  unfold Context.promoted
  cases k.taps <;> rfl

section
variable {s : State} {p : Promotion} {e : Nat}

/-- A promotion whose basis has moved is stale. -/
theorem promoteOn_basis (h : (s.entry e).image.basis ≠ p.corr.basis) :
    promoteOn p e s = notify (staleNotice p .basis s.now) s := by
  simp only [promoteOn, ne_eq, h, not_false_eq_true, if_true]

/-- One with no correction pending is stale. -/
theorem promoteOn_noPending (h : (s.entry e).image.basis = p.corr.basis) (hq : (s.entry e).image.pending = none) :
    promoteOn p e s = notify (staleNotice p .noPending s.now) s := by
  simp only [promoteOn, ne_eq, h, hq, not_true_eq_false, if_false]

/-- One that takes effect changes the image of a VALID entry, and discards a pending correction of another id. -/
theorem promoteOn_takes (he : e < 32) (hv : (s.entry e).cond = .valid)
    (h : (s.entry e).image.basis = p.corr.basis) {q : Correction} (hq : (s.entry e).image.pending = some q) :
    let applied := s.setEntry e { s.entry e with image := (s.entry e).image.promoted p.corr, dirty := true }
    promoteOn p e s = if q.id = p.corr.id then applied
      else notify ⟨.pendingDiscarded, 2, p.key, s.now, q.id % 65536 + 65536 * p.slot⟩ applied := by
  simp only [promoteOn, ne_eq, h, hq, not_true_eq_false, if_false, modifyImage_valid he hv]
  rfl

/-- With no other promotion and no header write held back, nothing follows a promotion. -/
theorem nextPromotion_last {n : Nat} (hw : (s.slot n).heldWrites = []) (hp : s.promotions = []) :
    nextPromotion n s = s := by
  rw [nextPromotion, releaseHeld_none hw, startPromotion_empty hp]

/-- The same behind a notice. -/
theorem nextPromotion_told {n : Nat} (k : Notice) (hw : (s.slot n).heldWrites = []) (hp : s.promotions = []) :
    nextPromotion n (notify k s) = notify k s := by
  obtain ⟨w, m, told⟩ := notify_with k s
  rw [told]
  exact nextPromotion_last hw hp

/-- The only promotion is decided on the entry of its context, or found with its context gone. -/
theorem givePromotion_only (hp : s.promotions = [p]) (hr : s.Ready .promotion p.index p.key) :
    let y := { s with reqs := s.reqsWithout .promotion, promotions := [] }
    (s.present p.index p.key = false →
      givePromotion s = nextPromotion p.slot (notify (staleNotice p .gone s.now) y))
    ∧ (∀ e, s.ServedBy p.index p.key e →
      givePromotion s = nextPromotion p.slot (promoteOn p e { y with recency := s.recencyWith e })) := by
  intro y
  refine ⟨fun gone => ?_, fun e served => ?_⟩
  · simp only [givePromotion, hp, givenEntry_gone gone]
    rfl
  · have touched : touchFor .promotion e s y = { y with recency := s.recencyWith e } :=
      touchFor_ready (s := y) hr served.2.2
    simp only [givePromotion, hp, served.given]
    exact congrArg (fun x => nextPromotion p.slot (promoteOn p e x)) touched

end

/-- Settles O34: the decision on the entry given, each by its own lemma; nothing follows it. -/
theorem promotionDecided : Obligations.PromotionDecided := by
  intro s p hs hp hr hw y stale
  have quiet : y.Quiet := hs.quiet.of rfl (reqsWithout_wait hs.requests .promotion) hs.sound rfl
  have gives (t : State) (hq : t.Quiet) (h : givePromotion s = t) : NextIs (exec .promotion s) t [] :=
    cacheEvent_silent hs.running ((giveIfReady_of hr).trans h) hq
  refine ⟨fun gone => ?_, fun e served => ?_⟩
  · refine gives _ (quiet.notify _) (((givePromotion_only hp hr).1 gone).trans ?_)
    exact nextPromotion_told _ hw rfl
  · intro x c z delivered done applied
    have decided := (givePromotion_only hp hr).2 e served
    obtain ⟨-, find, valid⟩ := served
    obtain ⟨he, -, -⟩ := findEntry_some find
    have zquiet : z.Quiet := quiet.of rfl quiet.requests quiet.sound rfl
    have aquiet : applied.Quiet :=
      zquiet.of rfl zquiet.requests (sound_entriesWith zquiet.sound rfl fun hf => hf) rfl
    refine ⟨fun moved => ?_, fun stands none => ?_, fun q stands pending => ?_⟩
    · refine gives _ (zquiet.notify _) (decided.trans ?_)
      rw [promoteOn_basis (s := z) moved]
      exact nextPromotion_told _ hw rfl
    · refine gives _ (zquiet.notify _) (decided.trans ?_)
      rw [promoteOn_noPending (s := z) stands none]
      exact nextPromotion_told _ hw rfl
    · have takes := promoteOn_takes (s := z) he valid stands pending
      rw [promoted_eq] at takes
      refine ⟨fun same => gives _ aquiet (decided.trans ?_), fun other => gives _ (aquiet.notify _) (decided.trans ?_)⟩
      · rw [takes, if_pos same]
        exact nextPromotion_last hw rfl
      · rw [takes, if_neg other]
        exact nextPromotion_told _ hw rfl

/-! ## Arming (R128, R129) -/

/-- The slot once key bytes have armed it (R128). -/
def Slot.armedBy (x : Slot) (ps : List (Nat × Byte)) : Slot :=
  { x with
    state := .armed
    keyImage := putBytes x.keyImage ps
    latched := getKey (putBytes x.keyImage ps) 0
    copy := none }

/-- Key bytes that arm a slot change its record alone. -/
theorem armSlot_eq (n : Nat) (ps : List (Nat × Byte)) (s : State) :
    armSlot n ps s = s.setSlot n ((s.slot n).armedBy ps) := rfl

/-- Key bytes taken change the slot records alone: they are kept, or arm the slot, or in IDLE do nothing. -/
theorem takeHeader_eq (n : Nat) (ps : List (Nat × Byte)) (s : State) : takeHeader n ps s = { s with
    slots :=
      if s.run = .idle then s.slots
      else if s.holdsBack n then s.slotsWith n { s.slot n with heldWrites := (s.slot n).heldWrites ++ [ps] }
      else s.slotsWith n ((s.slot n).armedBy ps) } := by
  unfold takeHeader
  split
  · rfl
  · split
    · rfl
    · exact armSlot_eq n ps s

/-- The bytes of a word carried into a unit at its first byte. -/
theorem carriedAt_zero (bytes : List WByte) : carriedAt 0 bytes = carriedBytes bytes := by
  simp [carriedAt]

/-- The bytes of a word write are all key bytes of the slot whose first four it covers. -/
theorem carriedBytes_keys {bytes : List WByte} (h : bytes.length = 4) :
    (carriedBytes bytes).filter (fun b => decide (b.1 < 4)) = carriedBytes bytes := by
  refine List.filter_eq_self.2 fun b hb => ?_
  obtain ⟨⟨w, i⟩, hm, hv⟩ := List.mem_filterMap.1 hb
  have lt := (List.mem_zipIdx hm).2.1
  obtain ⟨v, -, rfl⟩ := Option.map_eq_some_iff.1 hv
  simp only [decide_eq_true_eq]
  omega

/-- The part of a write of key bytes is taken at once (R128, R169). -/
theorem handlePart_slot {s : State} (hs : s.Steady) (init : Initiator) (addr n : Nat) {bytes : List WByte}
    (h : isWordWrite bytes = true) :
    let t := s.taking init addr bytes
    handlePart s.run s.takes ⟨.slot n, 0, bytes.length, 0⟩ bytes t
      = some ⟨takeHeader n (carriedBytes bytes) t, bytes, 0, none⟩ := by
  intro t
  simp only [isWordWrite, Bool.and_eq_true, beq_iff_eq] at h
  obtain ⟨length, enabled⟩ := h
  have ahead : t.behind s.takes (.slot n) = false := taking_behind hs init addr bytes _
  have carries : (carriedBytes bytes).isEmpty = false := by
    rw [← carriedAt_zero, List.isEmpty_eq_false_iff]
    exact carriedAt_ne_nil enabled 0
  simp only [handlePart, ahead, carried_whole, carriedAt_zero, carriedBytes_keys length, carries, Bool.false_eq_true,
    if_false]

/-- A step on the cache depends on its effect on the state it is made in. -/
theorem cacheEvent_congr {s : State} {f g : State → State} (h : f s = g s) : cacheEvent s f = cacheEvent s g := by
  simp only [cacheEvent, event, h]

/-- The key bytes of a slot in the control region (R127). -/
theorem ownerOf_slot (s : State) {n i : Nat} (hn : n < 64) (hi : i < 4) :
    s.ownerOf (s.controlBase + (0x1000 + 64 * n) + i) = (.slot n, 0 + i) := by
  let off := 0x1000 + 64 * n + i
  have owned : controlOwner off = (.slot (off / 64 - 64), off % 64) :=
    (controlOwner_eq off).2.1 (by omega) (by omega)
  have number : off / 64 - 64 = n := by omega
  have first : off % 64 = 0 + i := by omega
  have here : s.controlBase + (0x1000 + 64 * n) + i = s.controlBase + off := Nat.add_assoc ..
  have control : s.ownerOf (s.controlBase + off) = controlOwner (s.controlBase + off - s.controlBase) :=
    ownerOf_control (Nat.le_add_right ..) (by omega)
  rw [here, control, Nat.add_sub_cancel_left, owned, number, first]

/-- Settles O18: the write is one part, of its slot, which takes the key bytes. -/
theorem slotHeaderArms : Obligations.SlotHeaderArms := by
  intro s init n bytes hs hl hword x addr image
  have length : bytes.length = 4 := by
    simp only [isWordWrite, Bool.and_eq_true, beq_iff_eq] at hword
    exact hword.1
  have place : addr = s.controlBase + (0x1000 + 64 * n.val) := Nat.add_assoc ..
  have part : s.partsOf addr bytes.length = [⟨.slot n.val, 0, bytes.length, 0⟩] :=
    partsOf_run (by omega) fun i hi =>
      (congrArg (fun a => s.ownerOf (a + i)) place).trans (ownerOf_slot s n.isLt (by omega))
  have handled := handlePart_slot hs init addr n.val hword
  dsimp only at handled
  rw [takeHeader_eq] at handled
  have written : exec (.slotHeaderWrite init n bytes) s = cacheEvent s (arrive (.write init addr bytes)) := by
    change controlWrite init (0x1000 + 64 * n.val) bytes s = _
    rw [controlWrite, if_pos hword]
    exact cacheEvent_congr (congrArg (fun a => arrive (.write init a bytes) s) place.symm)
  rw [written]
  exact write_taken_part hs hl part handled rfl rfl rfl ⟨hs.port, hs.requests, hs.sound, hs.unanswered⟩

end Sys2Proof.Machine
end

section
/-!
PROOFS. The response slots at a read: the slot delivered (R136, R137), the read patched from the copy (R134), the
binding made from the cache's answer (R132, R133), and the read of one slot whole.
-/

namespace Sys2Proof.Machine

/-! ## Delivery (R136, R137) -/

/-- A slot record replaced twice is replaced by the second. -/
theorem setSlot_twice (s : State) (n : Nat) (a b : Slot) : (s.setSlot n a).setSlot n b = s.setSlot n b := by
  simp [State.setSlot]

section
variable {s : State} {n i : Nat} {key : Key} {q : Correction}

/-- A slot with a correction is delivered: the correction goes on the promotion list. -/
theorem deliver_correction (hc : (s.slot n).copy = some (.correction i key q)) :
    deliver n s = startPromotion { s.setSlot n { s.slot n with state := .delivered } with
      promotions := s.promotions ++ [⟨n, i, key, q⟩] } := by
  unfold deliver
  dsimp only
  split
  · next h =>
    rw [hc] at h
    cases h
    rfl
  · next h => exact absurd hc (h i key q)

/-- Behind a promotion in progress none is begun. -/
theorem startPromotion_busy (h : (s.reqOf .promotion).isSome = true) : startPromotion s = s := by
  obtain ⟨r, hr⟩ := Option.isSome_iff_exists.1 h
  simp only [startPromotion, hr]

/-- The first on the list begins its promotion: it asks for its context, which is there or gone. -/
theorem startPromotion_asks (hr : s.reqOf .promotion = none) {p : Promotion} {more : List Promotion}
    (hp : s.promotions = p :: more) (hi : (∃ e, s.ServedBy p.index p.key e) ∨ s.present p.index p.key = false) :
    startPromotion s = addReq .promotion p.index p.key .ready s := by
  simp only [startPromotion, hr, hp]
  rcases hi with ⟨e, served⟩ | gone
  · exact request_served served
  · exact request_gone gone

end

/-! ## The read patched (R134) -/

/-- The one part of a read in a slot, not yet completed. -/
abbrev slotPart (n off len : Nat) : ReadPart := ⟨.slot n, 0, len, off, false⟩

/-- It covers body bytes where it goes past byte 7. -/
theorem slotPart_coversBody {n off len : Nat} : (slotPart n off len).coversBody = true ↔ 8 < off + len :=
  decide_eq_true_iff

/-- It covers the last word where it goes past byte 59. -/
theorem slotPart_coversLast {n off len : Nat} : (slotPart n off len).coversLast = true ↔ 60 < off + len :=
  decide_eq_true_iff

/-- The bytes of a read as a copy gives its body (R134). -/
def BoundCopy.patch (c : BoundCopy) (off : Nat) (data : List Byte) : List Byte :=
  patchedFrom off (fun o b => if 8 ≤ o then c.toBytes.getD o 0 else b) data

/-- A NOCHANGE copy gives a body of zeros (R134). -/
theorem noChange_patch (off : Nat) (data : List Byte) :
    BoundCopy.noChange.patch off data = patchedFrom off (fun o b => if 8 ≤ o then 0 else b) data := by
  have zero (o : Nat) : BoundCopy.noChange.toBytes.getD o 0 = 0 := by
    simp only [BoundCopy.toBytes, zeros, List.getD_eq_getElem?_getD, List.getElem?_replicate]
    split <;> rfl
  simp only [BoundCopy.patch, zero]

section
variable {s : State} {n off : Nat} {pre post : List Txn} {t : Txn} {data : List Byte} {c : BoundCopy}
  (place : s.txns = pre ++ t :: post) (alone : ∀ x ∈ pre ++ post, x.id ≠ t.id)
  (body : t.body = .read data.length [slotPart n off data.length] (some data))
include place alone body

/-- A read of a slot with a copy is completed from the copy, and delivers the slot where it covers the last word and
finds the slot BOUND (R134, R136). -/
theorem patchSlot_read (hc : (s.slot n).copy = some c) :
    let z : State := { s with txns := pre ++ t.patched (.slot n) off data.length (c.patch off data) :: post }
    ((s.slot n).state = .bound → 60 < off + data.length → patchSlot n t.id 0 s = deliver n z)
    ∧ (¬ ((s.slot n).state = .bound ∧ 60 < off + data.length) → patchSlot n t.id 0 s = z) := by
  intro z
  have part := readPart_single place alone body
  have completed : s.completePart t.id 0 (fun o b => if 8 ≤ o then c.toBytes.getD o 0 else b) = z :=
    completePart_single place alone body _
  simp only [patchSlot, part, hc, completed, slotPart_coversLast]
  exact ⟨fun hb hl => if_pos ⟨hl, hb⟩, fun h => if_neg fun hlb => h hlb.symm⟩

/-- A slot just BOUND is patched, and no promotion follows where the read leaves the last word or the copy is
NOCHANGE (R134, R136). -/
theorem patchSlot_bound (hn : n < 64) {x : Slot} (hb : x.state = .bound) (hc : x.copy = some c)
    (h : off + data.length ≤ 60 ∨ c = .noChange) :
    patchSlot n t.id 0 (s.setSlot n x) = { s with
      slots := s.slotsWith n { x with state := if 60 < off + data.length then .delivered else .bound }
      txns := pre ++ t.patched (.slot n) off data.length (c.patch off data) :: post } := by
  have here : (s.setSlot n x).slot n = x := slot_setSlot_self s n x hn
  obtain ⟨delivers, stays⟩ := patchSlot_read (s := s.setSlot n x) place alone body (c := c) (by rw [here]; exact hc)
  rw [here] at delivers stays
  by_cases hl : 60 < off + data.length
  · obtain rfl := h.resolve_left (by omega)
    let y : State := { s with
      txns := pre ++ t.patched (.slot n) off data.length (BoundCopy.noChange.patch off data) :: post }
    have delivered : deliver n (y.setSlot n x) = y.setSlot n { x with state := .delivered } :=
      (deliver_noChange (by exact here) hc).trans (setSlot_twice y n x _)
    rw [if_pos hl]
    exact (delivers hb hl).trans delivered
  · rw [stays fun h => hl h.2, if_neg hl, ← hb]
    rfl

/-- A slot just BOUND to a correction is patched and delivered by a read that covers the last word (R134, R136). -/
theorem patchSlot_delivers (hn : n < 64) {x : Slot} {i : Nat} {key : Key} {q : Correction} (hb : x.state = .bound)
    (hc : x.copy = some (.correction i key q)) (hl : 60 < off + data.length) :
    patchSlot n t.id 0 (s.setSlot n x) = startPromotion { s with
      slots := s.slotsWith n { x with state := .delivered }
      promotions := s.promotions ++ [⟨n, i, key, q⟩]
      txns := pre
        ++ t.patched (.slot n) off data.length ((BoundCopy.correction i key q).patch off data) :: post } := by
  have here : (s.setSlot n x).slot n = x := slot_setSlot_self s n x hn
  obtain ⟨delivers, -⟩ := patchSlot_read (s := s.setSlot n x) place alone body (by rw [here]; exact hc)
  rw [here] at delivers
  let y : State := { s with
    txns := pre ++ t.patched (.slot n) off data.length ((BoundCopy.correction i key q).patch off data) :: post }
  have same : (y.setSlot n x).slot n = x := here
  have delivered := deliver_correction (s := y.setSlot n x) (by rw [same]; exact hc)
  rw [same, setSlot_twice] at delivered
  exact (delivers hb hl).trans delivered

end

/-! ## A read of one slot among other transactions (R160) -/

/-- What a slot does at a read leaves nothing to go on but the read's return, its one request at most being the
promotion's, and ready. -/
theorem returns_promoting {s u : State} {pre post : List Txn} {t : Txn} (hs : s.Steady)
    (ho : s.Opens pre t post) (hp : u.atPort = s.atPort) (he : u.entries = s.entries)
    (hr : ∀ r ∈ u.reqs, r ∈ s.reqs ∨ r.who = .promotion ∧ r.wait = .ready) :
    u.awaits t.id = false ∧ ({ u with txns := pre ++ post } : State).Quiet := by
  have entry (d : Nat) : u.entry d = s.entry d := by simp only [State.entry, he]
  refine ⟨?_, hp.trans hs.port, fun r hm => ?_, ?_, ho.others hs⟩
  · have taken := ho.taken
    simp only [State.awaits, Bool.or_eq_false_iff, List.any_eq_false, entry] at taken ⊢
    refine ⟨fun r hm => ?_, taken.2⟩
    rcases hr r hm with old | ⟨promotes, -⟩
    · exact taken.1 r old
    · simp [promotes]
  · rcases hr r hm with old | ⟨-, ready⟩
    · exact hs.requests r old
    · simp [ready]
  · obtain ⟨e, hlt, hf⟩ := hs.sound
    exact ⟨e, hlt, (congrArg Entry.faulted (entry e)).trans hf⟩

/-! ## SLOT_BINDING_MADE (R133) -/

/-- The slot BOUND to a copy, with the reads that waited taken up (R132, R133). -/
def Slot.boundTo (x : Slot) (c : BoundCopy) : Slot :=
  { x with state := .bound, copy := some c, binding := false, waiting := [] }

/-- The one read that waited is patched, and what the binding held back is let go (R129, R132). -/
theorem answerWaiting_one {s : State} {n id : Nat} (hn : n < 64) (hw : (s.slot n).waiting = [(id, 0)])
    (c : BoundCopy) : answerWaiting n (bindCopy n c s)
      = releaseHeld n (patchSlot n id 0 (s.setSlot n ((s.slot n).boundTo c))) := by
  have here : (bindCopy n c s).slot n = { s.slot n with state := .bound, copy := some c, binding := false } :=
    slot_setSlot_self s n _ hn
  unfold answerWaiting
  dsimp only
  rw [here]
  simp only [hw, List.foldl_cons, List.foldl_nil, bindCopy, setSlot_twice]
  rfl

/-- A requester keeps its request when the one of another leaves. -/
theorem reqOf_dropReq_ne (s : State) {who other : Requester} (h : who ≠ other) :
    (dropReq other s).reqOf who = s.reqOf who := by
  simp only [State.reqOf, dropReq, List.find?_filter]
  refine congrArg (fun f => s.reqs.find? f) (funext fun r => ?_)
  by_cases hw : r.who = who
  · simp [hw, h]
  · simp [hw]

/-- The cache gives a binding slot its context, or answers that it is gone (R133). -/
theorem giveSlot_ready {s : State} {n idx : Nat} {key : Key} (hr : s.Ready (.slot n) idx key) :
    (s.present idx key = false →
      giveSlot n s = answerWaiting n (bindCopy n .noChange { s with reqs := s.reqsWithout (.slot n) }))
    ∧ (∀ e, s.ServedBy idx key e →
      giveSlot n s = answerWaiting n (bindCopy n (copyOf idx key (s.entry e).image)
        { s with reqs := s.reqsWithout (.slot n), recency := s.recencyWith e })) := by
  refine ⟨fun gone => ?_, fun e served => ?_⟩
  · simp only [giveSlot, hr, givenEntry_gone gone]
    rfl
  · have touched : touchFor (.slot n) e s (dropReq (.slot n) s)
        = { s with reqs := s.reqsWithout (.slot n), recency := s.recencyWith e } :=
      touchFor_ready (s := dropReq (.slot n) s) hr served.2.2
    simp only [giveSlot, hr, served.given, touched]

/-- Key bytes held back arm a slot once neither a binding nor a promotion holds them (R129). -/
theorem releaseHeld_arms {s : State} {n : Nat} {ps : List (Nat × Byte)} (hn : n < 64)
    (hb : s.holdsBack n = false) (hw : (s.slot n).heldWrites = [ps]) :
    releaseHeld n s = s.setSlot n (({ s.slot n with heldWrites := [] } : Slot).armedBy ps) := by
  simp only [releaseHeld, hb, hw, Bool.false_eq_true, if_false, List.foldl_cons, List.foldl_nil, armSlot_eq,
    slot_setSlot_self s n _ hn, setSlot_twice]

/-- A promotion on the list holds key bytes back (R129). -/
theorem releaseHeld_promoting {s : State} {n : Nat} (h : s.promoting n = true) : releaseHeld n s = s := by
  simp only [releaseHeld, State.holdsBack, h, Bool.or_true, if_true]

section
variable {s : State} {n : Fin 64} {pre post : List Txn} {t : Txn} {data : List Byte} {off idx : Nat} {key : Key}
  (hs : s.Steady) (ho : s.Opens pre t post) (hready : s.Ready (.slot n.val) idx key)
include hs ho hready

/-- What the binding leaves of the slot is all that changes, but for the return of the read that waited (R132). -/
theorem slotBinding_returns {u : State} {out : List Byte} (effect : giveSlot n.val s = u)
    (hu : u.txns = pre ++ t.patched (.slot n.val) off data.length out :: post) (hp : u.atPort = s.atPort)
    (he : u.entries = s.entries) (hr : ∀ r ∈ u.reqs, r ∈ s.reqs ∨ r.who = .promotion ∧ r.wait = .ready) :
    NextIs (exec (.slotBindingMade n) s)
      { u with txns := pre ++ post, returned := u.returns t (.normal out) } [] := by
  obtain ⟨untaken, quiet⟩ := returns_promoting hs ho hp he hr
  obtain ⟨-, unresponded⟩ := hs.unanswered t (by rw [ho.place]; simp)
  exact cacheEvent_returns (t := t.patched (.slot n.val) off data.length out) hs.running
    ((giveIfReady_of hready).trans effect) hu rfl unresponded ho.first untaken quiet

section
variable {c : BoundCopy} {recency : List Nat}
  (body : t.body = .read data.length [slotPart n.val off data.length] (some data))
  (hw : (s.slot n.val).waiting = [(t.id, 0)])
  (gives : giveSlot n.val s
    = answerWaiting n.val (bindCopy n.val c { s with reqs := s.reqsWithout (.slot n.val), recency := recency }))
include body hw gives

/-- A binding with no promotion to begin ends with the slot as it is left, or armed by the key bytes held back
(R129, R134, R136). -/
theorem slotBinding_bound (h : off + data.length ≤ 60 ∨ c = .noChange) :
    let bound : Slot := { (s.slot n.val).boundTo c with
      state := if 60 < off + data.length then .delivered else .bound }
    let ended := fun (y : Slot) => { s with
      slots := s.slotsWith n.val y
      reqs := s.reqsWithout (.slot n.val)
      recency := recency
      txns := pre ++ post
      returned := s.returns t (.normal (c.patch off data)) }
    ((s.slot n.val).heldWrites = [] → NextIs (exec (.slotBindingMade n) s) (ended bound) [])
    ∧ (∀ ps, (s.slot n.val).heldWrites = [ps] → s.promoting n.val = false →
      NextIs (exec (.slotBindingMade n) s) (ended (({ bound with heldWrites := [] } : Slot).armedBy ps)) []) := by
  intro bound ended
  let y : State := { s with reqs := s.reqsWithout (.slot n.val), recency := recency }
  let v : State := { y with
    slots := s.slotsWith n.val bound
    txns := pre ++ t.patched (.slot n.val) off data.length (c.patch off data) :: post }
  have here : v.slot n.val = bound := slot_setSlot_self y n.val bound n.isLt
  have patched : giveSlot n.val s = releaseHeld n.val v :=
    gives.trans ((answerWaiting_one (s := y) n.isLt hw c).trans (congrArg (releaseHeld n.val)
      (patchSlot_bound (s := y) ho.place ho.alone body n.isLt rfl rfl h)))
  have fewer : ∀ r ∈ y.reqs, r ∈ s.reqs ∨ r.who = .promotion ∧ r.wait = .ready := fun r hr =>
    .inl (List.mem_filter.1 hr).1
  refine ⟨fun hh => ?_, fun ps hh hp => ?_⟩
  · have kept : releaseHeld n.val v = v := releaseHeld_none ((congrArg Slot.heldWrites here).trans hh)
    exact slotBinding_returns hs ho hready (patched.trans kept) rfl rfl rfl fewer
  · have free : v.holdsBack n.val = false := by
      rw [State.holdsBack, here]
      exact hp
    have armed := releaseHeld_arms n.isLt free ((congrArg Slot.heldWrites here).trans hh)
    rw [here] at armed
    have once : v.setSlot n.val (({ bound with heldWrites := [] } : Slot).armedBy ps)
        = { v with slots := s.slotsWith n.val (({ bound with heldWrites := [] } : Slot).armedBy ps) } :=
      setSlot_twice { v with slots := s.slots } n.val bound _
    exact slotBinding_returns hs ho hready (patched.trans (armed.trans once)) rfl rfl rfl fewer

/-- A binding to a correction that the read delivers begins its promotion, or lists it behind one in progress, and key
bytes stay held back (R129, R136, R137). -/
theorem slotBinding_delivers {i : Nat} {k : Key} {q : Correction} (hc : c = .correction i k q)
    (hl : 60 < off + data.length) :
    let v : State := { s with
      slots := s.slotsWith n.val { (s.slot n.val).boundTo c with state := .delivered }
      reqs := s.reqsWithout (.slot n.val)
      recency := recency
      promotions := s.promotions ++ [⟨n.val, i, k, q⟩]
      txns := pre ++ post
      returned := s.returns t (.normal (c.patch off data)) }
    ((s.reqOf .promotion).isSome = true → NextIs (exec (.slotBindingMade n) s) v [])
    ∧ (s.reqOf .promotion = none → s.promotions = [] → (∃ e, s.ServedBy i k e) ∨ s.present i k = false →
      NextIs (exec (.slotBindingMade n) s)
        { v with reqs := s.reqsWithout (.slot n.val) ++ [⟨.promotion, i, k, .ready⟩] } []) := by
  subst hc
  let c : BoundCopy := .correction i k q
  intro v
  let y : State := { s with reqs := s.reqsWithout (.slot n.val), recency := recency }
  let w : State := { y with
    slots := s.slotsWith n.val { (s.slot n.val).boundTo c with state := .delivered }
    promotions := s.promotions ++ [⟨n.val, i, k, q⟩]
    txns := pre ++ t.patched (.slot n.val) off data.length (c.patch off data) :: post }
  have patched : giveSlot n.val s = releaseHeld n.val (startPromotion w) :=
    gives.trans ((answerWaiting_one (s := y) n.isLt hw c).trans (congrArg (releaseHeld n.val)
      (patchSlot_delivers (s := y) ho.place ho.alone body n.isLt rfl rfl hl)))
  have listed : w.promoting n.val = true := by
    simp [State.promoting, w]
  have request : w.reqOf .promotion = s.reqOf .promotion := reqOf_dropReq_ne s nofun
  have fewer : ∀ r ∈ y.reqs, r ∈ s.reqs := fun r hr => (List.mem_filter.1 hr).1
  refine ⟨fun hr => ?_, fun hr hp hi => ?_⟩
  · rw [startPromotion_busy (by rw [request]; exact hr), releaseHeld_promoting listed] at patched
    exact slotBinding_returns hs ho hready patched rfl rfl rfl fun r hm => .inl (fewer r hm)
  · have first : w.promotions = [⟨n.val, i, k, q⟩] := congrArg (· ++ [_]) hp
    have asked : (addReq .promotion i k .ready w).promoting n.val = true := listed
    rw [startPromotion_asks (request.trans hr) first hi, releaseHeld_promoting asked] at patched
    refine slotBinding_returns hs ho hready patched rfl rfl rfl fun r hm => ?_
    exact (List.mem_append.1 hm).imp (fewer r) fun own => by simp [List.mem_singleton.1 own]

end

end

/-- Settles O33: the copy by what the cache gives, and what the read's patch and the key bytes held back make of the
slot. -/
theorem slotBound : Obligations.SlotBound := by
  intro s n pre post t data off idx key c hs ho hready body _ hw _ x bound ended armed
  obtain ⟨gone, served⟩ := giveSlot_ready hready
  refine ⟨fun absent hc => ?_, fun e hserved hc => ?_⟩
  · subst hc
    exact slotBinding_bound hs ho hready body hw (gone absent) (.inr rfl)
  · have gives := served e hserved
    rw [show copyOf idx key (s.entry e).image = c from hc.symm] at gives
    refine ⟨fun h => slotBinding_bound hs ho hready body hw gives h, fun q hq hl => ?_⟩
    obtain ⟨behind, begins⟩ := slotBinding_delivers hs ho hready body hw gives hq hl
    have delivered : bound = { (s.slot n.val).boundTo c with state := .delivered } := by
      simp only [bound, if_pos hl]
      rfl
    rw [delivered]
    exact ⟨behind, fun free first => begins free first (.inl ⟨e, hserved⟩)⟩

/-! ## The read of one slot (R131, R132) -/

section
variable {s : State} {n id k : Nat} {p : ReadPart} (hp : s.readPart id k = some p)
include hp

/-- Header bytes alone, and any read of an IDLE slot, pass (R131, R134). -/
theorem readSlot_plain (h : p.coversBody = false ∨ (s.slot n).state = .idle) :
    readSlot n id k s = s.completePart id k asReturned := by
  unfold readSlot
  simp only [hp]
  rcases h with h | h
  · rw [h]
    rfl
  · rw [h, ite_self]

/-- A body read of a BOUND or DELIVERED slot is patched from the copy (R134). -/
theorem readSlot_copied (hb : p.coversBody = true) (h : (s.slot n).state = .bound ∨ (s.slot n).state = .delivered) :
    readSlot n id k s = patchSlot n id k s := by
  unfold readSlot
  simp only [hp, hb, if_true]
  rcases h with h | h <;> rw [h]

/-- A body read of an ARMED slot binds it: NOCHANGE at once, or from the context of its key (R132). -/
theorem readSlot_binds (hb : p.coversBody = true) (h : (s.slot n).state = .armed) (hf : (s.slot n).binding = false) :
    (s.bindingSource n = none → readSlot n id k s = patchSlot n id k (bindCopy n .noChange s))
    ∧ (∀ idx, s.bindingSource n = some idx → readSlot n id k s = request (.slot n) idx (s.slot n).latched
      (s.setSlot n { s.slot n with binding := true, waiting := (s.slot n).waiting ++ [(id, k)] })) := by
  unfold readSlot
  simp only [hp, hb, if_true, h, hf, Bool.false_eq_true, if_false]
  exact ⟨fun source => by rw [source], fun idx source => by rw [source]⟩

end

/-- What a binding asks for (R132). -/
theorem bindingSource_iff {s : State} {n idx : Nat} : s.bindingSource n = some idx ↔ s.run ≠ .stopped
    ∧ (s.slot n).latched.channel ≤ 15 ∧ 1 ≤ (s.slot n).latched.station ∧ (s.slot n).latched.station ≤ 16383
    ∧ s.lookup (s.slot n).latched = some idx := by
  have key : (s.slot n).latched.admissible = true ↔ (s.slot n).latched.channel ≤ 15
      ∧ 1 ≤ (s.slot n).latched.station ∧ (s.slot n).latched.station ≤ 16383 := by
    simp [Key.admissible, channelValid, stationValid]
  by_cases hr : s.run = .stopped
  · simp [State.bindingSource, hr]
  · by_cases hk : (s.slot n).latched.admissible = true
    · obtain ⟨h1, h2, h3⟩ := key.1 hk
      simp [State.bindingSource, hr, hk, h1, h2, h3]
    · simp only [State.bindingSource, if_neg hr, if_neg hk, reduceCtorEq, false_iff]
      exact fun ⟨_, h1, h2, h3, _⟩ => hk (key.2 ⟨h1, h2, h3⟩)

section
variable {s : State} {pre post : List Txn} {t : Txn} {a : Access} {rest : List Access} {data : List Byte} {n off : Nat}
  (hs : s.Steady) (ho : s.Opens pre t post) (ha : s.oldest (isPassing t.id) a rest) (hb : a.body = .read data.length)
  (ht : t.body = .read data.length [slotPart n off data.length] none)

/-- A read of one slot once its data is back. -/
abbrev Txn.slotBack (t : Txn) (n off : Nat) (data : List Byte) : Txn :=
  { t with body := .read data.length [slotPart n off data.length] (some data) }

/-- The part once the data of a read of one slot is back. -/
abbrev State.slotData (s : State) (rest : List Access) (pre : List Txn) (t : Txn) (post : List Txn) (n off : Nat)
    (data : List Byte) : State :=
  s.dataBack rest pre t post (slotPart n off data.length) data

include ho

/-- The one part of the read is the slot's to complete. -/
theorem slotRead_part : (s.slotData rest pre t post n off data).readPart t.id 0 = some (slotPart n off data.length) :=
  readPart_single (s := s.slotData rest pre t post n off data)
    (t := t.slotBack n off data) rfl ho.alone rfl

include hs ha hb ht

/-- A read that the slot completes is returned, and what the slot made of itself is all that changes else. -/
theorem slotRead_returns {u : State} {out : List Byte}
    (hd : readSlot n t.id 0 (s.slotData rest pre t post n off data) = u)
    (hu : u.txns = pre ++ t.patched (.slot n) off data.length out :: post) (hp : u.atPort = s.atPort)
    (he : u.entries = s.entries) (hr : ∀ r ∈ u.reqs, r ∈ s.reqs ∨ r.who = .promotion ∧ r.wait = .ready) :
    ∃ m, exec (.readDataReturn t.id (some data)) s
        = .next { u with txns := pre ++ post, returned := u.returns t (.normal out), mem := m } ∧ u.mem.gains m [] := by
  obtain ⟨untaken, quiet⟩ := returns_promoting hs ho hp he hr
  have completes : completeReadPart t.id 0 (s.slotData rest pre t post n off data) = u := by
    simp only [completeReadPart, slotRead_part ho]
    exact hd
  exact read_returned ho ha hb ht hs rfl completes hu ⟨rfl, rfl, rfl⟩ untaken quiet

/-- A read that waits for the binding of its slot stays open with its data (R132). -/
theorem slotRead_waits {u : State} (hd : readSlot n t.id 0 (s.slotData rest pre t post n off data) = u)
    (hu : u.txns = (s.slotData rest pre t post n off data).txns) (hp : u.atPort = s.atPort)
    (he : u.entries = s.entries) (hr : ∀ r ∈ u.reqs, r.wait ≠ .list) :
    ∃ m, exec (.readDataReturn t.id (some data)) s = .next { u with mem := m } ∧ u.mem.gains m [] := by
  have quiet : u.Quiet := by
    refine ⟨hp.trans hs.port, hr, by simpa only [State.entry, he] using hs.sound, fun x hx => ?_⟩
    rw [hu] at hx
    rcases List.mem_append.1 hx with hx | hx
    · exact ho.others hs x (List.mem_append_left _ hx)
    · rcases List.mem_cons.1 hx with rfl | hx
      · exact hs.unanswered t (by rw [ho.place]; simp)
      · exact ho.others hs x (List.mem_append_right _ hx)
  have completes : completeReadPart t.id 0 (s.slotData rest pre t post n off data) = u := by
    simp only [completeReadPart, slotRead_part ho]
    exact hd
  obtain ⟨f, event, effect⟩ := read_arrives ho ha hb ht
  have same : f s = u := effect.trans ((congrArg pump completes).trans (pump_quiet quiet))
  obtain ⟨m, hm, hg⟩ := cacheEvent_next hs.running f (same ▸ quiet)
  rw [same] at hm hg
  exact ⟨m, event.trans hm, hg⟩

/-- A read patched from the copy of a slot that has one is returned (R134). -/
theorem slotRead_patched {c : BoundCopy} (hc : (s.slot n).copy = some c) (hl : 8 < off + data.length)
    (h : (s.slot n).state = .delivered ∨ (s.slot n).state = .bound ∧ off + data.length ≤ 60) :
    ∃ m, exec (.readDataReturn t.id (some data)) s = .next { s with
          txns := pre ++ post, returned := s.returns t (.normal (c.patch off data)), mem := m }
      ∧ (s.portWithout rest).gains m [] := by
  let z := s.slotData rest pre t post n off data
  have body : (slotPart n off data.length).coversBody = true := slotPart_coversBody.2 hl
  have copied := readSlot_copied (slotRead_part ho) body (s := z) (h.symm.imp And.left id)
  have stays : ¬ ((z.slot n).state = .bound ∧ 60 < off + data.length) := by
    rintro ⟨bound, last⟩
    rcases h with delivered | ⟨-, before⟩
    · cases delivered.symm.trans bound
    · omega
  have patched := (patchSlot_read (s := z) (t := t.slotBack n off data) rfl ho.alone rfl hc).2 stays
  exact slotRead_returns hs ho ha hb ht (copied.trans patched) rfl rfl rfl fun r hr => .inl hr

/-- A read of a BOUND slot that covers its last word delivers it (R136). -/
theorem slotRead_delivers {c : BoundCopy} (hc : (s.slot n).copy = some c) (hbound : (s.slot n).state = .bound)
    (hl : 60 < off + data.length) :
    let v : State := { s with
      slots := s.slotsWith n { s.slot n with state := .delivered }
      txns := pre ++ post
      returned := s.returns t (.normal (c.patch off data)) }
    let answers := fun (v : State) => ∃ m, exec (.readDataReturn t.id (some data)) s = .next { v with mem := m }
      ∧ (s.portWithout rest).gains m []
    (c = .noChange → answers v)
    ∧ (∀ i k q, c = .correction i k q → (s.reqOf .promotion).isSome = true →
      answers { v with promotions := s.promotions ++ [⟨n, i, k, q⟩] })
    ∧ (∀ i k q, c = .correction i k q → s.reqOf .promotion = none → s.promotions = [] →
      (∃ e, s.ServedBy i k e) ∨ s.present i k = false →
      answers { v with promotions := [⟨n, i, k, q⟩], reqs := s.reqs ++ [⟨.promotion, i, k, .ready⟩] }) := by
  intro v answers
  let z := s.slotData rest pre t post n off data
  let y : State := { s.ended rest with
    txns := pre ++ t.patched (.slot n) off data.length (c.patch off data) :: post }
  have body : (slotPart n off data.length).coversBody = true := slotPart_coversBody.2 (by omega)
  have copied := readSlot_copied (slotRead_part ho) body (s := z) (.inl hbound)
  have delivered : readSlot n t.id 0 z = deliver n y :=
    copied.trans ((patchSlot_read (s := z) (t := t.slotBack n off data) rfl ho.alone rfl hc).1 hbound hl)
  refine ⟨fun h => ?_, fun i k q h hr => ?_, fun i k q h hr hp hi => ?_⟩
  · have silent := delivered.trans (deliver_noChange (s := y) rfl (hc.trans (congrArg some h)))
    exact slotRead_returns hs ho ha hb ht silent rfl rfl rfl fun r hr => .inl hr
  · have corrected := delivered.trans (deliver_correction (s := y) (hc.trans (congrArg some h)))
    rw [startPromotion_busy (by exact hr)] at corrected
    exact slotRead_returns hs ho ha hb ht corrected rfl rfl rfl fun r hr => .inl hr
  · have corrected := delivered.trans (deliver_correction (s := y) (hc.trans (congrArg some h)))
    have first : y.promotions ++ [⟨n, i, k, q⟩] = [⟨n, i, k, q⟩] := congrArg (· ++ _) hp
    rw [first, startPromotion_asks (by exact hr) rfl hi] at corrected
    exact slotRead_returns hs ho ha hb ht corrected rfl rfl rfl fun r hm =>
      (List.mem_append.1 hm).imp id fun own => by simp [List.mem_singleton.1 own]

/-- A read that passes unchanged is returned (R131). -/
theorem slotRead_plain (h : off + data.length ≤ 8 ∨ (s.slot n).state = .idle) :
    ∃ m, exec (.readDataReturn t.id (some data)) s
        = .next { s with txns := pre ++ post, returned := s.returns t (.normal data), mem := m }
      ∧ (s.portWithout rest).gains m [] := by
  let z := s.slotData rest pre t post n off data
  have plain := readSlot_plain (slotRead_part ho) (s := z) (h.imp (fun hl =>
    Bool.eq_false_iff.2 fun hb => absurd (slotPart_coversBody.1 hb) (by omega)) id)
  have completed := completePart_single (s := z) (t := t.slotBack n off data) rfl ho.alone rfl asReturned
  rw [patchedFrom_asReturned] at completed
  exact slotRead_returns hs ho ha hb ht (plain.trans completed) rfl rfl rfl fun r hr => .inl hr

/-- A read of an ARMED slot with nothing to bind from finds NOCHANGE (R132). -/
theorem slotRead_unchanged (hn : n < 64) (harmed : (s.slot n).state = .armed) (hf : (s.slot n).binding = false)
    (hl : 8 < off + data.length) (hsource : s.bindingSource n = none) :
    ∃ m, exec (.readDataReturn t.id (some data)) s = .next { s with
          slots := s.slotsWith n { s.slot n with
            state := if 60 < off + data.length then .delivered else .bound
            copy := some .noChange }
          txns := pre ++ post
          returned := s.returns t (.normal (BoundCopy.noChange.patch off data))
          mem := m }
      ∧ (s.portWithout rest).gains m [] := by
  let z := s.slotData rest pre t post n off data
  have body : (slotPart n off data.length).coversBody = true := slotPart_coversBody.2 hl
  have binds := (readSlot_binds (slotRead_part ho) body (s := z) harmed hf).1 hsource
  have patched := patchSlot_bound (s := z) (t := t.slotBack n off data) rfl ho.alone rfl hn
    (x := { s.slot n with state := .bound, copy := some .noChange }) rfl rfl (.inr rfl)
  have bound : bindCopy n .noChange z = z.setSlot n { s.slot n with state := .bound, copy := some .noChange } := by
    simp only [bindCopy, hf]
    rfl
  rw [bound] at binds
  exact slotRead_returns hs ho ha hb ht (binds.trans patched) rfl rfl rfl fun r hr => .inl hr

/-- A read of an ARMED slot with a context to bind from asks for it and waits (R132). -/
theorem slotRead_asks (harmed : (s.slot n).state = .armed) (hf : (s.slot n).binding = false)
    (hl : 8 < off + data.length) {idx e : Nat} (hsource : s.bindingSource n = some idx)
    (hserved : s.ServedBy idx (s.slot n).latched e) :
    ∃ m, exec (.readDataReturn t.id (some data)) s = .next { s with
          slots := s.slotsWith n { s.slot n with
            binding := true, waiting := (s.slot n).waiting ++ [(t.id, 0)] }
          reqs := s.reqs ++ [⟨.slot n, idx, (s.slot n).latched, .ready⟩]
          txns := pre
            ++ { t with body := .read data.length [⟨.slot n, 0, data.length, off, false⟩] (some data) } :: post
          mem := m }
      ∧ (s.portWithout rest).gains m [] := by
  let z := s.slotData rest pre t post n off data
  let y : State := { s.ended rest with
    slots := s.slotsWith n { s.slot n with binding := true, waiting := (s.slot n).waiting ++ [(t.id, 0)] }
    txns := z.txns }
  have body : (slotPart n off data.length).coversBody = true := slotPart_coversBody.2 hl
  have asks : readSlot n t.id 0 z = request (.slot n) idx (s.slot n).latched y :=
    (readSlot_binds (slotRead_part ho) body (s := z) harmed hf).2 idx hsource
  have ready : request (.slot n) idx (s.slot n).latched y = addReq (.slot n) idx (s.slot n).latched .ready y :=
    request_served (s := y) hserved
  let u : State := { y with reqs := s.reqs ++ [⟨.slot n, idx, (s.slot n).latched, .ready⟩] }
  have asked : readSlot n t.id 0 z = u := asks.trans ready
  have placed : ∀ r ∈ u.reqs, r.wait ≠ .list := wait_concat hs.requests nofun
  exact slotRead_waits (u := u) hs ho ha hb ht asked rfl rfl rfl placed

end

/-- Settles O14: the read by the state of its slot, each by its own lemma. -/
theorem slotReads : Obligations.SlotReads := by
  intro s pre post t a rest data n off hs ho ha hb hn ht body
  refine ⟨slotRead_plain hs ho ha hb ht, fun c hc hl => ⟨slotRead_patched hs ho ha hb ht hc hl, fun hbound hlast => ?_⟩,
    fun idx => bindingSource_iff, fun harmed hf hl => ⟨fun hsource => ?_, fun idx e hsource hserved => ?_⟩⟩
  · exact slotRead_delivers hs ho ha hb ht hc hbound hlast
  · rw [← noChange_patch]
    exact slotRead_unchanged hs ho ha hb ht hn harmed hf hl hsource
  · exact slotRead_asks hs ho ha hb ht harmed hf hl hsource hserved

end Sys2Proof.Machine
end

section
/-!
PROOFS. The policy block: each field brought into its range (R148, R149), and the 64 bytes read back as they were
written (R195).
-/

namespace Sys2Proof.Machine

/-! ## Ranges (R148, R149) -/

/-- A clamped value is the value brought into its range. -/
theorem clampTo_broughtInto {lo hi : Nat} (h : lo ≤ hi) (v : Nat) : broughtInto lo hi v (clampTo lo hi v) := by
  unfold broughtInto clampTo
  refine ⟨fun ⟨hlo, hhi⟩ => ?_, fun hlo => if_pos hlo, fun hhi => ?_⟩
  · rw [if_neg (Nat.not_lt.2 hlo), if_neg (Nat.not_lt.2 hhi)]
  · rw [if_neg (Nat.not_lt.2 (h.trans hhi.le)), if_pos hhi]

/-- What is in its range fits the bytes that hold the range's upper bound. -/
theorem fits_of_broughtInto {lo hi n v : Nat} (h : broughtInto lo hi v v) (hn : hi < 2 ^ (8 * n)) : fits n v := by
  obtain ⟨-, -, atMost⟩ := h
  have most : v ≤ hi := Nat.le_of_not_lt fun above => Nat.ne_of_gt above (atMost above)
  exact lt_of_le_of_lt most hn

/-- The shifts of a gain set brought into 0 to 3 (R148). -/
def Gains.BroughtInto (g h : Gains) : Prop :=
  broughtInto 0 3 g.timing h.timing ∧ broughtInto 0 3 g.power h.power ∧ broughtInto 0 3 g.freq h.freq
  ∧ broughtInto 0 3 g.taps h.taps

/-- The fields of a policy brought into the ranges of R148. -/
def Policy.BroughtInto (p c : Policy) : Prop :=
  broughtInto 0 11 p.mainTap c.mainTap ∧ p.acq.BroughtInto c.acq ∧ p.trk.BroughtInto c.trk
  ∧ broughtInto 1 1048576 p.timingStep c.timingStep ∧ broughtInto 1 134217727 p.timingRange c.timingRange
  ∧ broughtInto 1 64 p.powerStep c.powerStep ∧ broughtInto 1 127 p.powerRange c.powerRange
  ∧ broughtInto 1 32767 p.freqStep c.freqStep ∧ broughtInto 1 32767 p.freqRange c.freqRange
  ∧ broughtInto 0 8388607 p.settleTiming c.settleTiming ∧ broughtInto 0 32767 p.settlePower c.settlePower
  ∧ broughtInto 0 32767 p.settleFreq c.settleFreq ∧ broughtInto 0 255 p.settleHealth c.settleHealth
  ∧ broughtInto 0 8388607 p.relapseTiming c.relapseTiming ∧ broughtInto 0 32767 p.relapsePower c.relapsePower
  ∧ broughtInto 0 255 p.impaired c.impaired ∧ broughtInto 0 255 p.snrMin c.snrMin
  ∧ broughtInto 1 8 p.settleTarget c.settleTarget ∧ broughtInto 1 64 p.acquireLimit c.acquireLimit
  ∧ broughtInto 10 65535 p.acquirePeriod c.acquirePeriod ∧ broughtInto 10 65535 p.trackingPeriod c.trackingPeriod
  ∧ broughtInto 10 65535 p.grace c.grace ∧ broughtInto 1 15 p.missLimit c.missLimit
  ∧ broughtInto 0 255 p.quiet c.quiet

/-- Clamping a gain set brings it into its ranges. -/
theorem Gains.clamp_broughtInto (g : Gains) : g.BroughtInto g.clamp :=
  have shift (v : Nat) : broughtInto 0 3 v (clampTo 0 3 v) := clampTo_broughtInto (by decide) v
  ⟨shift _, shift _, shift _, shift _⟩

/-- Clamping a policy brings each field into its range. -/
theorem Policy.clamp_broughtInto (p : Policy) : p.BroughtInto p.clamp := by
  refine ⟨?_, p.acq.clamp_broughtInto, p.trk.clamp_broughtInto, ?_, ?_, ?_, ?_, ?_, ?_, ?_, ?_, ?_, ?_, ?_, ?_, ?_, ?_,
    ?_, ?_, ?_, ?_, ?_, ?_, ?_⟩ <;> exact clampTo_broughtInto (by decide) _

/-! ## The block read back (R195) -/

/-- The bytes of a policy, one field behind another. -/
theorem Policy.toBytes_eq (p : Policy) : p.toBytes = le 1 p.mainTap
    ++ (le 1 p.acq.timing ++ (le 1 p.acq.power ++ (le 1 p.acq.freq ++ (le 1 p.acq.taps
    ++ (le 1 p.trk.timing ++ (le 1 p.trk.power ++ (le 1 p.trk.freq ++ (le 1 p.trk.taps
    ++ (le 1 p.powerStep ++ (le 1 p.powerRange ++ (le 1 p.settleTarget
    ++ (le 4 p.timingStep ++ (le 4 p.timingRange ++ (le 2 p.freqStep ++ (le 2 p.freqRange
    ++ (le 4 p.settleTiming ++ (le 2 p.settlePower ++ (le 2 p.settleFreq
    ++ (le 1 p.settleHealth ++ (le 1 p.impaired ++ (le 1 p.snrMin ++ (le 1 p.acquireLimit
    ++ (le 4 p.relapseTiming ++ (le 2 p.relapsePower
    ++ (le 2 p.acquirePeriod ++ (le 2 p.trackingPeriod ++ (le 2 p.grace
    ++ (le 1 p.missLimit ++ (le 1 p.quiet ++ zeros 14))))))))))))))))))))))))))))) := by
  delta Policy.toBytes
  simp only [List.append_assoc]

@[simp] theorem Policy.toBytes_length (p : Policy) : p.toBytes.length = 64 := by
  simp only [Policy.toBytes_eq, List.length_append, le_length, zeros_length]

/-- A policy in its ranges is read back: each field fits its bytes and stands behind those before it. -/
theorem Policy.read_toBytes {p : Policy} (h : p.BroughtInto p) : Policy.read p.toBytes = p := by
  obtain ⟨mainTap, ⟨acqTiming, acqPower, acqFreq, acqTaps⟩, ⟨trkTiming, trkPower, trkFreq, trkTaps⟩, timingStep,
    timingRange, powerStep, powerRange, freqStep, freqRange, settleTiming, settlePower, settleFreq, settleHealth,
    relapseTiming, relapsePower, impaired, snrMin, settleTarget, acquireLimit, acquirePeriod, trackingPeriod, grace,
    missLimit, quiet⟩ := h
  have own {lo hi n v : Nat} {post : List Byte} (hv : broughtInto lo hi v v) (hn : hi < 2 ^ (8 * n)) :
      getLe (le n v ++ post) 0 n = v := getLe_field (fits_of_broughtInto hv hn)
  simp [Policy.read, Policy.toBytes_eq, byteAt_eq_getLe, getLe_append_right, own mainTap, own acqTiming, own acqPower,
    own acqFreq, own acqTaps, own trkTiming, own trkPower, own trkFreq, own trkTaps, own timingStep, own timingRange,
    own powerStep, own powerRange, own freqStep, own freqRange, own settleTiming, own settlePower, own settleFreq,
    own settleHealth, own relapseTiming, own relapsePower, own impaired, own snrMin, own settleTarget,
    own acquireLimit, own acquirePeriod, own trackingPeriod, own grace, own missLimit, own quiet]

/-- Settles O55: a policy that its clamp leaves as it is has every field in its range. -/
theorem policyRoundTrip : Obligations.PolicyRoundTrip := by
  intro p h
  have inRanges : p.BroughtInto p := by simpa only [h] using p.clamp_broughtInto
  exact ⟨p.toBytes_length, Policy.read_toBytes inRanges⟩

end Sys2Proof.Machine
end

section
/-!
PROOFS. SET_POLICY and the end of its block read, and the records READ_CHANNEL and IDENTIFY report, with the ends of
their writes (R148 to R157, R180, R196, R197).
-/

namespace Sys2Proof.Machine

/-! ## The ends of the command unit's accesses (R177, R96) -/

section
variable {s t : State} {p : Purpose → Bool} {a : Access} {rest : List Access} {k : State → State} {st : Status}

/-- The end of an access that goes on to an answer. -/
theorem ending_answers (hr : s.inReset = false) (ha : s.oldest p a rest) (hk : k (s.ended rest) = answer st t) :
    Answers (event s fun x => x.ending p fun _ y => k y) t st := event_answers hr ((ending_ended ha _).trans hk)

/-- The end of an access that goes on to an answer and a notice behind it. -/
theorem ending_answers_told {n : Notice} (hr : s.inReset = false) (ha : s.oldest p a rest)
    (hk : k (s.ended rest) = notify n (answer st t)) :
    Answers (event s fun x => x.ending p fun _ y => k y) (notify n t) st :=
  event_answers_told hr ((ending_ended ha _).trans hk)

end

/-! ## SET_POLICY (R153) -/

/-- A channel above 15 is none (R1). -/
theorem not_channelValid_iff {ch : Nat} : (!channelValid ch) = true ↔ 15 < ch := by simp [channelValid]

/-- A SET_POLICY CMU holds answers by the first of its checks that fails, or reads its block. -/
theorem setPolicy_begins {s : State} {d : List Byte} (hs : s.Executing 0x04 d) : ∃ f, exec .setPolicy s = event s f
    ∧ (15 < byteAt d 4 → f s = answer .keyInvalid s)
    ∧ (byteAt d 4 ≤ 15 → getAddress d 8 % 64 ≠ 0 → f s = answer .range s)
    ∧ (byteAt d 4 ≤ 15 → getAddress d 8 % 64 = 0 → f s
      = s.cmuSubmit ⟨.policyBlock, getAddress d 8, .read 64⟩ (.policyRead (byteAt d 4)) (some s.takes)) := by
  refine ⟨_, rfl, ?_⟩
  rw [onCommand_of (code := codeSetPolicy) hs]
  refine ⟨fun h => if_pos (not_channelValid_iff.2 h), fun h hm => ?_, fun h hm => ?_⟩
  · exact (if_neg (mt not_channelValid_iff.1 (Nat.not_lt.2 h))).trans (if_pos hm)
  · exact (if_neg (mt not_channelValid_iff.1 (Nat.not_lt.2 h))).trans (if_neg (not_not_intro hm))

/-! ## The policy block read (R151, R154) -/

/-- A policy is barred where it moves the main tap or lowers a step limit or a range (R151). -/
theorem Policy.bars_iff {old new : Policy} : old.bars new = true ↔ new.mainTap ≠ old.mainTap
    ∨ new.timingStep < old.timingStep ∨ new.powerStep < old.powerStep ∨ new.freqStep < old.freqStep
    ∨ new.timingRange < old.timingRange ∨ new.powerRange < old.powerRange ∨ new.freqRange < old.freqRange := by
  simp only [Policy.bars, Bool.or_eq_true, decide_eq_true_eq, or_assoc]

/-- A channel has admitted contexts where the directory has a key of it. -/
theorem keysOf_nonempty_iff {s : State} {ch : Nat} :
    (!(s.keysOf ch).isEmpty) = true ↔ ∃ k ∈ s.kdir, k.1.channel = ch := by
  simp [State.keysOf]

/-- A policy replaces that of a channel that is not CLOSED. -/
theorem applyPolicy_open {s : State} {ch : Nat} (h : (s.channel ch).state ≠ .closed) (p : Policy) :
    applyPolicy ch p s = s.setChannel ch { s.channel ch with policy := p } := if_neg h

/-- It opens a CLOSED one. -/
theorem applyPolicy_opens {s : State} {ch : Nat} (h : (s.channel ch).state = .closed) (hr : s.run ≠ .running)
    (p : Policy) : applyPolicy ch p s = s.setChannel ch { s.channel ch with policy := p, state := .opened } :=
  (if_pos h).trans (if_neg hr)

/-- In RUNNING the quiet timer of the opened channel starts, with the interval of the new policy (R62). -/
theorem applyPolicy_starts {s : State} {ch : Nat} (h : (s.channel ch).state = .closed) (hr : s.run = .running)
    (hch : ch < 16) (p : Policy) : applyPolicy ch p s
      = (s.setChannel ch { s.channel ch with policy := p, state := .opened }).setQuietTimer ch
        (some ⟨quietInterval p.quiet, s.now⟩) := by
  have policy : (s.setChannel ch { s.channel ch with policy := p, state := .opened }).policy ch = p := by
    simp [State.policy, State.channel, State.setChannel, Vector.getD, hch]
  refine (if_pos h).trans ((if_pos hr).trans ?_)
  rw [restartQuiet, policy]
  rfl

section
variable {s : State} {ch : Nat}

/-- A policy that R151 bars is answered IN_USE. -/
theorem policyReadEnded_barred (hc : s.cmu.phase = .policyRead ch) {block : List Byte}
    (h : (!(s.keysOf ch).isEmpty) = true ∧ (s.policy ch).bars (Policy.read block).clamp = true) :
    policyReadEnded (some block) s = answer .inUse s := by
  simp only [policyReadEnded, hc]
  exact if_pos h

/-- Any other takes effect, and the answer says whether a field was clamped (R154). -/
theorem policyReadEnded_applied (hc : s.cmu.phase = .policyRead ch) {block : List Byte}
    (h : ¬ ((!(s.keysOf ch).isEmpty) = true ∧ (s.policy ch).bars (Policy.read block).clamp = true)) :
    policyReadEnded (some block) s
      = answer (if (Policy.read block).clamp = Policy.read block then .done else .doneClamped)
        (applyPolicy ch (Policy.read block).clamp s) := by
  simp only [policyReadEnded, hc]
  exact if_neg h

/-- A block that could not be read answers MEMORY, with MEMORY_FAULT (R153, R96). -/
theorem policyReadEnded_fails (hc : s.cmu.phase = .policyRead ch) :
    policyReadEnded none s = notify ⟨.memoryFault, 8, ⟨ch, 0⟩, s.now, ch⟩ (answer .memory s) := by
  simp only [policyReadEnded, hc]
  rfl

end

/-- The end of the block's read goes on with SET_POLICY. -/
theorem execPolicyBlockReadEnd_eq {data : Option (List Byte)} (s : State) (h : isAnswer 64 data = true) :
    exec (.policyBlockReadEnd data) s
      = event s fun x => x.ending (isPurpose .policyBlock) fun _ y => policyReadEnded data y := if_pos h

/-- Settles O42: the checks of SET_POLICY, the clamp, and the policy barred, applied, or not read. -/
theorem policySet : Obligations.PolicySet := by
  refine ⟨fun s d hs => ?_, fun p => p.clamp_broughtInto, fun s ch block a rest hr hc ha hl => ?_⟩
  · obtain ⟨f, step, invalid, misplaced, reads⟩ := setPolicy_begins hs
    rw [step]
    exact ⟨fun h => event_answers hs.1 (invalid h), fun h hm => event_answers hs.1 (misplaced h hm),
      fun h hm => event_submits hs.1 (reads h hm)⟩
  · intro old p barred st y opens
    have phase : y.cmu.phase = .policyRead ch := hc
    have barredIff : (!(y.keysOf ch).isEmpty) = true ∧ (y.policy ch).bars p = true ↔ barred :=
      and_congr keysOf_nonempty_iff Policy.bars_iff
    rw [execPolicyBlockReadEnd_eq s (by simp [isAnswer, hl]), execPolicyBlockReadEnd_eq s rfl]
    have applied {t : State} (hb : ¬ barred) (ht : applyPolicy ch p y = t) :
        policyReadEnded (some block) y = answer st t :=
      ht ▸ policyReadEnded_applied phase (mt barredIff.1 hb)
    refine ⟨fun hb => ending_answers hr ha (policyReadEnded_barred phase (barredIff.2 hb)),
      fun hb => ⟨fun ho => ?_, fun ho hn => ?_, fun ho hn hch => ?_⟩,
      ending_answers_told hr ha (policyReadEnded_fails phase)⟩
    · exact ending_answers hr ha (applied hb (applyPolicy_open (s := y) ho p))
    · exact ending_answers hr ha (applied hb (applyPolicy_opens (s := y) ho hn p))
    · exact ending_answers hr ha (applied hb (applyPolicy_starts (s := y) ho hn hch p))

/-! ## READ_CHANNEL and IDENTIFY (R155 to R157, R180) -/

/-- A READ_CHANNEL CMU holds is answered KEY, or writes the channel's record. -/
theorem readChannel_begins {s : State} {d : List Byte} (hs : s.Executing 0x05 d) :
    let ch := byteAt d 4
    ∃ f, exec .readChannel s = event s f
      ∧ (15 < ch → f s = answer .keyInvalid s)
      ∧ (ch ≤ 15 → f s = s.cmuSubmit
        (ownWrite .channelRecord (s.controlBase + 0xA000)
          (channelRecordBytes ch (s.channel ch) (s.kdir.filter fun p => p.1.channel == ch).length))
        (.channelWrite ch ((byteAt d 8).testBit 0) (s.channel ch).counters)) := by
  refine ⟨_, rfl, ?_⟩
  rw [onCommand_of (code := codeReadChannel) hs]
  exact ⟨fun h => if_pos (not_channelValid_iff.2 h), fun h => if_neg (mt not_channelValid_iff.1 (Nat.not_lt.2 h))⟩

section
variable {s : State} {ch : Nat} {clear : Bool} {r : ChanCounters}

/-- The record written, with CLEAR each counter loses what it reported (R156). -/
theorem channelWriteEnded_done (hc : s.cmu.phase = .channelWrite ch clear r) : channelWriteEnded false s
    = answer .done (if clear then s.countChannel ch fun k => k.minus r else s) := by
  simp only [channelWriteEnded, hc, Bool.false_eq_true, if_false]

/-- A write that ends in an error leaves the counters (R157). -/
theorem channelWriteEnded_fails (hc : s.cmu.phase = .channelWrite ch clear r) : channelWriteEnded true s
    = notify ⟨.memoryFault, 9, ⟨ch, 0⟩, s.now, ch⟩ (answer .memory s) := by
  simp only [channelWriteEnded, hc, if_true]
  rfl

end

/-- The capability record written, or MEMORY with MEMORY_FAULT (R180, R96; log 25 for the key). -/
theorem identifyWriteEnded_eq (error : Bool) {s : State} (hc : s.cmu.phase = .identifyWrite) :
    identifyWriteEnded error s = if error then notify ⟨.memoryFault, 15, ⟨0, 0⟩, s.now, 0⟩ (answer .memory s)
      else answer .done s := by
  simp only [identifyWriteEnded, hc]
  rfl

/-! ## The record layouts (R196, R197) -/

/-- The last field of a record is what is left. -/
theorem field_last {x : List Byte} {n : Nat} (h : x.length = n) : field x 0 n = x := by
  rw [field, List.drop_zero, List.take_of_length_le h.le]

/-- The fields of the channel record (R196). -/
theorem channelRecordBytes_fields (ch : Nat) (c : Channel) (admitted : Nat) :
    let b := channelRecordBytes ch c admitted
    b.length = 128 ∧ field b 0 1 = le 1 2 ∧ field b 1 1 = le 1 ch ∧ field b 2 1 = le 1 c.state.code
    ∧ field b 4 2 = le 2 admitted ∧ field b 8 4 = le 4 c.counters.taken ∧ field b 12 4 = le 4 c.counters.unknown
    ∧ field b 16 4 = le 4 c.counters.lapsedCapture ∧ field b 20 4 = le 4 c.counters.collided
    ∧ field b 24 4 = le 4 c.counters.dropped ∧ field b 28 4 = le 4 c.counters.torn
    ∧ field b 3 1 = zeros 1 ∧ field b 6 2 = zeros 2 ∧ field b 32 32 = zeros 32 ∧ field b 64 64 = c.policy.toBytes := by
  simp [channelRecordBytes, field_append_right, field_head, field_last]

/-- The capability record, one field behind another, the four counts in one and the two kinds of window in one. -/
def capabilityLayout (counts windows : List Byte) (capacity strap code : Nat) : List Byte :=
  le 4 0x2640 ++ (counts ++ (le 2 8192 ++ (le 2 capacity ++ (le 2 256 ++ (le 2 1024 ++ (le 2 1024
    ++ (windows ++ (le 2 strap ++ (le 1 code ++ zeros 9)))))))))

/-- The capability record is laid out so (R197). -/
theorem capabilityBytes_eq (capacity strap : Nat) (run : RunState) : capabilityBytes capacity strap run
    = capabilityLayout [16, 32, 64, 64] [6, 5] capacity strap run.code := rfl

/-- Each field stands at its offset. -/
theorem capabilityLayout_fields {counts windows : List Byte} (hc : counts.length = 4) (hw : windows.length = 2)
    (capacity strap code : Nat) :
    let b := capabilityLayout counts windows capacity strap code
    b.length = 32 ∧ field b 0 4 = le 4 0x2640 ∧ field b 4 4 = counts ∧ field b 8 2 = le 2 8192
    ∧ field b 10 2 = le 2 capacity ∧ field b 12 2 = le 2 256 ∧ field b 14 2 = le 2 1024 ∧ field b 16 2 = le 2 1024
    ∧ field b 18 2 = windows ∧ field b 20 2 = le 2 strap ∧ field b 22 1 = le 1 code ∧ field b 23 9 = zeros 9 := by
  simp [capabilityLayout, field_append_right, field_head, field_last, hc, hw]

/-- Settles O43: each command and the end of its write, and the two records field by field. -/
theorem recordsReported : Obligations.RecordsReported := by
  refine ⟨fun s d hs => ?_, fun s ch clear r a rest hr hc ha => ?_, fun s d hs => ?_, fun s a rest hr hc ha => ?_,
    fun ch c admitted => channelRecordBytes_fields ch c admitted, fun capacity strap run => ?_⟩
  · obtain ⟨f, step, invalid, writes⟩ := readChannel_begins hs
    rw [step]
    exact ⟨fun h => event_answers hs.1 (invalid h), fun h => event_submits hs.1 (writes h)⟩
  · have phase : (s.ended rest).cmu.phase = .channelWrite ch clear r := hc
    refine ⟨ending_answers hr ha ((channelWriteEnded_done phase).trans ?_),
      ending_answers_told hr ha (channelWriteEnded_fails phase)⟩
    cases clear <;> rfl
  · exact event_submits hs.1 (onCommand_of (code := codeIdentify) hs _)
  · have phase : (s.ended rest).cmu.phase = .identifyWrite := hc
    exact ⟨ending_answers hr ha (identifyWriteEnded_eq false phase),
      ending_answers_told hr ha (identifyWriteEnded_eq true phase)⟩
  · intro b
    rw [show b = _ from capabilityBytes_eq capacity strap run]
    exact capabilityLayout_fields rfl rfl capacity strap run.code

end Sys2Proof.Machine
end

section
/-!
PROOFS. What a step can answer at all: while RESET_N is asserted (R172), on a term that is no step of the part (log 11),
and on any other (R159, R160); and the two edges of RESET_N (R172, R178).
-/

namespace Sys2Proof.Machine

/-! ## The forms of a step -/

/-- An event of one part always has a next state. -/
theorem event_total (s : State) (f : State → State) : ∃ t, event s f = .next t := by
  unfold event
  split <;> exact ⟨_, rfl⟩

/-- So has the arrival of a transaction at the system port. -/
theorem arrival_total (p : PortTxn) (s : State) : ∃ t, arrival p s = .next t := by
  unfold arrival
  split
  · exact ⟨_, rfl⟩
  · exact event_total s _

/-- A well-formed write of a place in the control region is an event (log 16). -/
theorem controlWrite_arrives {init : Initiator} {off : Nat} {bytes : List WByte} (h : isWordWrite bytes = true)
    (s : State) : controlWrite init off bytes s = cacheEvent s (arrive (.write init (s.controlBase + off) bytes)) := by
  rw [controlWrite, if_pos h]
  exact cacheEvent_congr rfl

/-- The forms of a well-formed step: the two edges of RESET_N, the two arrivals at the system port, the two answers of
DRAM to a passing transaction, and events. -/
inductive StepForm (s : State) : Instr → Prop where
  | asserts : StepForm s .pinReset
  | deasserts (strap : BitVec 16) : StepForm s (.pinResetDeassertion strap)
  | reads (init : Initiator) (addr len : Nat)
      (arrives : exec (.passingRead init addr len) s = arrival (.read init addr len) s) :
      StepForm s (.passingRead init addr len)
  | writes (init : Initiator) (addr : Nat) (bytes : List WByte)
      (arrives : exec (.passingWrite init addr bytes) s = arrival (.write init addr bytes) s) :
      StepForm s (.passingWrite init addr bytes)
  | dataBack (txn : Nat) (data : Option (List Byte)) : StepForm s (.readDataReturn txn data)
  | written (txn : Nat) (error : Bool) : StepForm s (.writeResponseReturn txn error)
  | happens {c : Instr} (f : State → State) (noRead : ∀ init addr len, c ≠ .passingRead init addr len)
      (noWrite : ∀ init addr bytes, c ≠ .passingWrite init addr bytes) (effect : exec c s = event s f) : StepForm s c

/-- Every well-formed step has one of these forms. -/
theorem form_of_wellFormed {c : Instr} (h : c.wellFormed = true) (s : State) : StepForm s c := by
  cases c with
  | pinReset => exact .asserts
  | pinResetDeassertion strap => exact .deasserts strap
  | passingRead init addr len => exact .reads init addr len (if_pos h)
  | passingWrite init addr bytes => exact .writes init addr bytes (if_pos h)
  | readDataReturn txn data => exact .dataBack txn data
  | writeResponseReturn txn error => exact .written txn error
  | commandProducerWrite init bytes => exact .happens _ nofun nofun (controlWrite_arrives h s)
  | noticeConsumerWrite init bytes => exact .happens _ nofun nofun (controlWrite_arrives h s)
  | dueConsumerWrite init bytes => exact .happens _ nofun nofun (controlWrite_arrives h s)
  | partIndexWordWrite init word bytes => exact .happens _ nofun nofun (controlWrite_arrives h s)
  | slotHeaderWrite init slot bytes => exact .happens _ nofun nofun (controlWrite_arrives h s)
  | fetchDataArrival index data => exact .happens _ nofun nofun (by exact if_pos h)
  | descriptorFetchEnd data => exact .happens _ nofun nofun (by exact if_pos h)
  | policyBlockReadEnd data => exact .happens _ nofun nofun (by exact if_pos h)
  | trialRecordReadEnd data => exact .happens _ nofun nofun (by exact if_pos h)
  | _ => exact .happens _ nofun nofun (by rfl)

/-- A term that is no step of the part is refused, but for data returned, which is judged by the reads outstanding. -/
theorem exec_illFormed {c : Instr} (h : c.wellFormed = false) (hd : ∀ txn bs, c ≠ .readDataReturn txn (some bs))
    (s : State) : exec c s = .refused .illFormed := by
  have unmet : ¬ c.wellFormed = true := Bool.eq_false_iff.1 h
  cases c with
  | passingRead init addr len => exact if_neg unmet
  | passingWrite init addr bytes => exact if_neg unmet
  | readDataReturn txn data =>
    cases data with
    | none => cases h
    | some bs => exact absurd rfl (hd txn bs)
  | commandProducerWrite init bytes => exact if_neg unmet
  | noticeConsumerWrite init bytes => exact if_neg unmet
  | dueConsumerWrite init bytes => exact if_neg unmet
  | partIndexWordWrite init word bytes => exact if_neg unmet
  | slotHeaderWrite init slot bytes => exact if_neg unmet
  | fetchDataArrival index data => exact if_neg unmet
  | descriptorFetchEnd data => exact if_neg unmet
  | policyBlockReadEnd data => exact if_neg unmet
  | trialRecordReadEnd data => exact if_neg unmet
  | _ => cases h

/-! ## The answers of DRAM to passing transactions (R160) -/

/-- A read of this number is outstanding. -/
abbrev State.readAwaited (s : State) (txn : Nat) : Prop :=
  ∃ a ∈ s.mem.outstanding, ∃ len, a.purpose = .passing txn ∧ a.body = .read len

/-- Every outstanding read of this number asked for another number of bytes. -/
abbrev State.otherAsked (s : State) (txn : Nat) (bs : List Byte) : Prop :=
  ∀ a ∈ s.mem.outstanding, ∀ len, a.purpose = .passing txn → a.body = .read len → len ≠ bs.length

/-- A read of a number is outstanding that asks for such a number of bytes. -/
theorem outstandingRead_iff {s : State} {txn : Nat} {n : Nat → Bool} :
    s.mem.outstanding.any (isReadOf txn n) = true
      ↔ ∃ a ∈ s.mem.outstanding, ∃ len, a.purpose = .passing txn ∧ a.body = .read len ∧ n len = true := by
  rw [List.any_eq_true]
  refine exists_congr fun a => and_congr_right fun _ => ?_
  obtain ⟨purpose, addr, body⟩ := a
  cases purpose <;> cases body <;> simp [isReadOf]

/-- An error returned to a read always has a next state. -/
theorem errorReturn_total (txn : Nat) (s : State) : ∃ t, exec (.readDataReturn txn none) s = .next t := by
  change ∃ t, execReadDataReturn txn none s = .next t
  unfold execReadDataReturn
  split
  · exact event_total s _
  · exact ⟨s, rfl⟩

/-- Data returned is refused where reads of the number are outstanding and every one asked for another number of bytes
(log 11). -/
theorem dataReturn_refused {s : State} {txn : Nat} {bs : List Byte} (awaits : s.readAwaited txn)
    (other : s.otherAsked txn bs) : exec (.readDataReturn txn (some bs)) s = .refused .illFormed := by
  obtain ⟨a, ha, len, purpose, body⟩ := awaits
  have awaited := (outstandingRead_iff (n := fun _ => true)).2 ⟨a, ha, len, purpose, body, rfl⟩
  have unasked : ¬ s.mem.outstanding.any (isReadOf txn fun len => bs.length == len) = true := fun h => by
    obtain ⟨b, hb, n, hp, hn, same⟩ := outstandingRead_iff.1 h
    exact other b hb n hp hn (beq_iff_eq.1 same).symm
  change execReadDataReturn txn (some bs) s = _
  rw [execReadDataReturn, if_pos awaited]
  exact if_neg unasked

/-- Data returned has a next state otherwise: it is an answer, or there is no read to answer (log 6). -/
theorem dataReturn_total {s : State} {txn : Nat} {bs : List Byte}
    (h : ¬ (s.readAwaited txn ∧ s.otherAsked txn bs)) :
    ∃ t, exec (.readDataReturn txn (some bs)) s = .next t := by
  change ∃ t, execReadDataReturn txn (some bs) s = .next t
  unfold execReadDataReturn
  split
  · next awaited =>
    dsimp only
    split
    · exact event_total s _
    · next unasked =>
      obtain ⟨a, ha, len, purpose, body, -⟩ := outstandingRead_iff.1 awaited
      refine absurd ⟨⟨a, ha, len, purpose, body⟩, fun b hb n hp hn same => unasked ?_⟩ h
      exact outstandingRead_iff.2 ⟨b, hb, n, hp, hn, beq_iff_eq.2 same.symm⟩
  · exact ⟨s, rfl⟩

/-- DRAM's response to a write always has a next state. -/
theorem responseReturn_total (txn : Nat) (error : Bool) (s : State) :
    ∃ t, exec (.writeResponseReturn txn error) s = .next t := by
  change ∃ t, execWriteResponseReturn txn error s = .next t
  unfold execWriteResponseReturn
  split
  · exact event_total s _
  · exact ⟨s, rfl⟩

/-- A well-formed step that is no data returned has a next state. -/
theorem exec_total {c : Instr} (h : c.wellFormed = true) (hd : ∀ txn bs, c ≠ .readDataReturn txn (some bs))
    (s : State) : ∃ t, exec c s = .next t := by
  cases form_of_wellFormed h s with
  | asserts => exact ⟨_, rfl⟩
  | deasserts strap =>
    change ∃ t, execPinResetDeassertion strap s = .next t
    unfold execPinResetDeassertion
    split <;> exact ⟨_, rfl⟩
  | reads init addr len arrives => rw [arrives]; exact arrival_total _ s
  | writes init addr bytes arrives => rw [arrives]; exact arrival_total _ s
  | dataBack txn data =>
    cases data with
    | none => exact errorReturn_total txn s
    | some bs => exact absurd rfl (hd txn bs)
  | written txn error => exact responseReturn_total txn error s
  | happens f _ _ effect => rw [effect]; exact event_total s f

/-- Settles O5: data returned is judged by the reads outstanding, any other step by whether it is well-formed. -/
theorem stepsComplete : Obligations.StepsComplete := by
  refine ⟨fun c s => ?_, fun s txn bs awaits other => dataReturn_refused awaits other⟩
  by_cases returned : ∃ txn bs, c = .readDataReturn txn (some bs)
  · obtain ⟨txn, bs, rfl⟩ := returned
    by_cases mismatch : s.readAwaited txn ∧ s.otherAsked txn bs
    · obtain ⟨awaits, other⟩ := mismatch
      have ⟨a, ha, len, purpose, body⟩ := awaits
      exact .inr ⟨dataReturn_refused awaits other,
        .inr ⟨txn, bs, rfl, ⟨a, ha, len, purpose, body, other a ha len purpose body⟩, other⟩⟩
    · exact .inl (dataReturn_total mismatch)
  · have others : ∀ txn bs, c ≠ .readDataReturn txn (some bs) := fun txn bs h => returned ⟨txn, bs, h⟩
    cases formed : c.wellFormed with
    | true => exact .inl (exec_total formed others s)
    | false => exact .inr ⟨exec_illFormed formed others s, .inl rfl⟩

/-! ## Reset (R172, R178) -/

/-- While RESET_N is asserted a transaction waits at the system port. -/
theorem arrival_reset {s : State} (h : s.inReset = true) (p : PortTxn) :
    arrival p s = .next { s with atPort := s.atPort ++ [p] } := if_pos h

/-- With no access outstanding an answer of DRAM to a passing transaction is discarded (log 6). -/
theorem return_discarded {s : State} (h : s.mem.outstanding = []) (txn : Nat) (data : Option (List Byte))
    (error : Bool) :
    exec (.readDataReturn txn data) s = .next s ∧ exec (.writeResponseReturn txn error) s = .next s := by
  constructor
  · change execReadDataReturn txn data s = _
    simp [execReadDataReturn, h]
  · change execWriteResponseReturn txn error s = _
    simp [execWriteResponseReturn, h]

/-- Settles O4: an arrival waits, an answer of DRAM finds nothing outstanding, and an event does nothing. -/
theorem nothingWhileInReset : Obligations.NothingWhileInReset := by
  intro c s hr hm hc hreset hdeassert
  cases form_of_wellFormed hc s with
  | asserts => exact absurd rfl hreset
  | deasserts strap => exact absurd rfl (hdeassert strap)
  | reads init addr len arrives => exact .inl ⟨init, addr, len, rfl, arrives.trans (arrival_reset hr _)⟩
  | writes init addr bytes arrives =>
    exact .inr (.inl ⟨init, addr, bytes, rfl, arrives.trans (arrival_reset hr _)⟩)
  | dataBack txn data => exact .inr (.inr ⟨nofun, nofun, (return_discarded hm txn data false).1⟩)
  | written txn error => exact .inr (.inr ⟨nofun, nofun, (return_discarded hm txn none error).2⟩)
  | happens f noRead noWrite effect => exact .inr (.inr ⟨noRead, noWrite, effect.trans (event_reset hr f)⟩)

/-- Settles O3: the values PIN_RESET leaves, and at the deassertion an empty port and the grants. -/
theorem resetEndsAndStarts : Obligations.ResetEndsAndStarts := by
  refine fun s => ⟨rfl, fun strap => ⟨fun hr hp => ?_, fun hr => if_neg (Bool.eq_false_iff.1 hr)⟩⟩
  let started : State := { s with inReset := false, strapBase := strap, now := 0 }
  obtain ⟨m, granted, gains⟩ := grantAll_eq started
  have drained : drainPort started = started := drainPort_empty hp
  refine ⟨m, ?_, gains⟩
  change execPinResetDeassertion strap s = _
  rw [execPinResetDeassertion, if_pos hr, drained, granted]

end Sys2Proof.Machine
end

section
/-!
PROOFS. Writes of the index words and writes that no block acts on: the words the part writes only pass (R160, R161),
and the others are handed to their block once their initiator's earlier writes are issued (R161, R173).
-/

namespace Sys2Proof.Machine

/-! ## What a word takes (R161, R173) -/

/-- The bytes a word is given compose its new value; a word the part writes takes none. -/
theorem takeWord_eq {ps : List (Nat × Byte)} (h : ps ≠ []) (id : Nat) (s : State) :
    takeWord 0 id ps s = handProducer id (composeWord s.cmu.shadow ps) s
    ∧ takeWord 3 id ps s = handNoticeConsumer (composeWord s.nw.noticeShadow ps) s
    ∧ takeWord 5 id ps s = handDueConsumer (composeWord s.nw.dueShadow ps) s := by
  obtain ⟨p, ps, rfl⟩ := List.exists_cons_of_ne_nil h
  exact ⟨takeWord_producer id p ps s, takeWord_noticeConsumer id p ps s, takeWord_dueConsumer id p ps s⟩

/-- A word the part writes only passes, whatever is written to it (R161). -/
theorem takeWord_passes {w : Nat} (h : isHandedWord w = false) (id : Nat) (ps : List (Nat × Byte)) (s : State) :
    takeWord w id ps s = s := by
  simp only [isHandedWord, Bool.or_eq_false_iff, beq_eq_false_iff_ne] at h
  obtain ⟨⟨h0, h3⟩, h5⟩ := h
  cases ps with
  | nil => rfl
  | cons p ps => exact takeWord_other w id h0 h3 h5 p ps s

/-- The state a write that the part has taken finds has nothing to go on with. -/
theorem taking_quiet {s : State} (h : s.Steady) (init : Initiator) (addr : Nat) (bytes : List WByte) :
    (s.taking init addr bytes).Quiet := by
  refine ⟨h.port, h.requests, h.sound, fun t ht => ?_⟩
  rcases List.mem_append.1 ht with ht | ht
  · exact h.unanswered t ht
  · rw [List.mem_singleton.1 ht]
    exact ⟨rfl, rfl⟩

/-! ## Writes that pass (R160, R161) -/

/-- No block acts on the bytes of this owner that a write carries. -/
def Owner.passes (o : Owner) : Prop := o = .plain ∨ ∃ w, o = .word w ∧ isHandedWord w = false

/-- The owner of a byte no block acts on. -/
theorem State.passesThrough.passes {s : State} {a : Nat} (h : s.passesThrough a) : (s.ownerOf a).1.passes := by
  rcases h with plain | ⟨w, word, hw⟩
  · exact .inl plain
  · refine .inr ⟨w, word, ?_⟩
    simp only [List.mem_cons, List.not_mem_nil, or_false] at hw
    rcases hw with rfl | rfl | rfl | rfl <;> rfl

/-- Each part has the owner of its first byte. -/
theorem partsOf_owner {s : State} {addr len : Nat} {p : Part} (h : p ∈ s.partsOf addr len) :
    ∃ i, i < len ∧ p.owner = (s.ownerOf (addr + i)).1 := by
  obtain ⟨pre, post, parts⟩ := List.append_of_mem h
  obtain ⟨length, -, -⟩ := partsOf_mid parts
  have covered : p.owner ∈ (s.partsOf addr len).flatMap fun q => List.replicate q.len q.owner :=
    List.mem_flatMap.2 ⟨p, h, List.mem_replicate.2 ⟨Nat.ne_of_gt length, rfl⟩⟩
  rw [partsOf_owners] at covered
  obtain ⟨i, hi, owner⟩ := List.mem_map.1 covered
  exact ⟨i, List.mem_range.1 hi, owner.symm⟩

/-- A part no block acts on is handled at once, and changes nothing. -/
theorem handlePart_passes {s : State} {p : Part} (h : p.owner.passes) {id : Nat} (hb : s.behind id p.owner = false)
    (run : RunState) (bytes : List WByte) : handlePart run id p bytes s = some ⟨s, bytes, 0, none⟩ := by
  rcases h with plain | ⟨w, word, unhanded⟩
  · rw [plain] at hb
    simp only [handlePart, hb, plain, Bool.false_eq_true, if_false]
  · rw [word] at hb
    simp only [handlePart, hb, word, unhanded, takeWord_passes unhanded, Bool.false_and, Bool.false_eq_true, if_false]

/-- So are all the parts of a write no block acts on. -/
theorem handleParts_pass {s : State} {id : Nat} (hb : ∀ o, s.behind id o = false) (hp : pump s = s) (run : RunState)
    (ps : List Part) (h : ∀ p ∈ ps, p.owner.passes) (w : WriteWork) :
    handleParts run id ps w s = ({ w with todo := [] }, s) := by
  induction ps generalizing w with
  | nil => rfl
  | cons p ps ih =>
    have first := handlePart_passes (h p (List.mem_cons_self ..)) (hb p.owner) run w.bytes
    have rest := ih (fun q hq => h q (List.mem_cons_of_mem p hq)) { w with todo := ps }
    simpa only [handleParts, first, hp, Option.or_none, Nat.add_zero] using rest

/-- A write no block acts on goes out as it came and changes nothing else. -/
theorem write_passes {s : State} (hs : s.Steady) (hl : s.txns.length < Config.openLimit) {init : Initiator}
    {addr : Nat} {bytes : List WByte} (h : ∀ i, i < bytes.length → s.passesThrough (addr + i)) :
    ∃ m, cacheEvent s (arrive (.write init addr bytes)) = .next { s with
          takes := s.takes + 1, txns := s.txns ++ [s.openedWrite init addr bytes], mem := m }
      ∧ s.mem.gains m [s.passingAccess addr bytes] := by
  have passing : ∀ p ∈ s.partsOf addr bytes.length, p.owner.passes := fun p hp => by
    obtain ⟨i, hi, owner⟩ := partsOf_owner hp
    exact owner ▸ (h i hi).passes
  have handled := handleParts_pass (taking_behind hs init addr bytes) (pump_quiet (taking_quiet hs init addr bytes))
    s.run _ passing ⟨s.partsOf addr bytes.length, bytes, 0, none⟩
  exact write_taken hs hl handled rfl ⟨hs.port, hs.requests, hs.sound, hs.unanswered⟩

/-! ## The bytes of an index word (R161) -/

/-- The bytes of an index word in the control region. -/
theorem ownerOf_word (s : State) {w i : Nat} (hw : w < 7) (hi : i < 4) :
    s.ownerOf (s.controlBase + 4 * w + i) = (.word w, 0 + i) := by
  have owned : controlOwner (4 * w + i) = (.word ((4 * w + i) / 4), (4 * w + i) % 4) :=
    (controlOwner_eq (4 * w + i)).1 (by omega)
  have number : (4 * w + i) / 4 = w := by omega
  have byte : (4 * w + i) % 4 = 0 + i := by omega
  have offset : s.controlBase + 4 * w + i - s.controlBase = 4 * w + i := by omega
  rw [ownerOf_control (by omega) (by omega), offset, owned, number, byte]

/-- The number of a word the part writes (R198). -/
def partWordNumber : PartWord → Nat
  | .commandConsumer => 1
  | .noticeProducer => 2
  | .dueProducer => 4
  | .runStateMirror => 6

theorem partWordOffset_eq (word : PartWord) : partWordOffset word = 4 * partWordNumber word := by
  cases word <;> rfl

/-- It is one of the four that only pass (R161). -/
theorem partWordNumber_mem (word : PartWord) : partWordNumber word ∈ [1, 2, 4, 6] := by
  cases word <;> decide

/-- A write of four bytes covers the word whole. -/
theorem isWordWrite_iff {bytes : List WByte} :
    isWordWrite bytes = true ↔ bytes.length = 4 ∧ bytes.any Option.isSome = true := by
  simp only [isWordWrite, Bool.and_eq_true, beq_iff_eq]

/-- Settles O7: each part of the write is plain or of a word the part writes, and none changes anything. -/
theorem plainWritesPass : Obligations.PlainWritesPass := by
  refine fun s init bytes hs hl => ⟨fun addr hrun hp => ?_, fun word hword => ?_⟩
  · rw [exec_passingWrite hs.running hrun]
    exact write_passes hs hl hp
  · obtain ⟨length, -⟩ := isWordWrite_iff.1 hword
    have number := partWordNumber_mem word
    have below : partWordNumber word < 7 := by cases word <;> decide
    have arrives : exec (.partIndexWordWrite init word bytes) s
        = cacheEvent s (arrive (.write init (s.controlBase + partWordOffset word) bytes)) :=
      controlWrite_arrives hword s
    rw [arrives]
    refine write_passes hs hl fun i hi => .inr ⟨partWordNumber word, ?_, number⟩
    rw [partWordOffset_eq, ownerOf_word s below (by omega)]

/-! ## Words handed to their block (R161, R173) -/

/-- A write of an index word is one part (R159). -/
theorem partsOf_word (s : State) {w : Nat} (hw : w < 7) {bytes : List WByte} (h : isWordWrite bytes = true) :
    s.partsOf (s.controlBase + 4 * w) bytes.length = [⟨.word w, 0, bytes.length, 0⟩] := by
  obtain ⟨length, -⟩ := isWordWrite_iff.1 h
  exact partsOf_run (by omega) fun i hi => ownerOf_word s hw (by omega)

/-- A word write carries a byte. -/
theorem carriedBytes_ne_nil {bytes : List WByte} (h : isWordWrite bytes = true) : carriedBytes bytes ≠ [] := by
  obtain ⟨-, enabled⟩ := isWordWrite_iff.1 h
  rw [← carriedAt_zero]
  exact carriedAt_ne_nil enabled 0

/-- A write of an earlier take waits at the memory port exactly where the initiator's writes are not all issued
(R161). -/
theorem taking_unissued_iff {s : State} (h : s.Steady) (init : Initiator) (addr : Nat) (bytes : List WByte) :
    (s.taking init addr bytes).unissued s.takes = true ↔ ¬ s.issuedAll init := by
  let opened : Txn :=
    ⟨s.takes, init, addr, s.run, .write (s.partsOf addr bytes.length) bytes 0 none, false, none, false⟩
  have found : (s.taking init addr bytes).txn s.takes = some opened :=
    txn_mid (pre := s.txns) (post := []) (t := opened) rfl fun x hx =>
      Nat.ne_of_lt (h.numbered x (by simpa using hx))
  have port : (s.taking init addr bytes).mem = s.mem := rfl
  simp [State.unissued, found, opened, port, State.issuedAll]

/-- The part of a write of a handed word is handed over once its initiator's earlier writes are issued, and waits till
then (R161). -/
theorem handlePart_word {s : State} (hs : s.Steady) (init : Initiator) (addr : Nat) (bytes : List WByte) {w : Nat}
    (hw : isHandedWord w = true) :
    let t := s.taking init addr bytes
    let part : Part := ⟨.word w, 0, bytes.length, 0⟩
    (s.issuedAll init → handlePart s.run s.takes part bytes t
      = some ⟨takeWord w s.takes (carriedBytes bytes) t, bytes, 0, none⟩)
    ∧ (¬ s.issuedAll init → handlePart s.run s.takes part bytes t = none) := by
  intro t part
  have ahead : t.behind s.takes (.word w) = false := taking_behind hs init addr bytes _
  have carried : part.carried bytes = carriedBytes bytes := (carried_whole _ 0 bytes).trans (carriedAt_zero bytes)
  have waits := taking_unissued_iff hs init addr bytes
  refine ⟨fun issued => ?_, fun unissued => ?_⟩
  · have free : t.unissued s.takes = false := Bool.eq_false_iff.2 fun h => waits.1 h issued
    simp only [handlePart, part, ahead, hw, free, carried, Bool.and_false, Bool.false_eq_true, if_false]
  · have held : t.unissued s.takes = true := waits.2 unissued
    simp only [handlePart, part, ahead, hw, held, Bool.and_true, Bool.false_eq_true, if_false, if_true]

/-- A write of one part that has to wait is taken and stays on the open list; nothing goes out. -/
theorem write_waits {s : State} {init : Initiator} {addr : Nat} {bytes : List WByte} {p : Part} (h : s.Steady)
    (hl : s.txns.length < Config.openLimit) (hp : s.partsOf addr bytes.length = [p])
    (hn : handlePart s.run s.takes p bytes (s.taking init addr bytes) = none) :
    ∃ m, cacheEvent s (arrive (.write init addr bytes)) = .next { s with
          takes := s.takes + 1
          txns := s.txns ++ [⟨s.takes, init, addr, s.run, .write [p] bytes 0 none, false, none, false⟩]
          mem := m }
      ∧ s.mem.gains m [] := by
  have ids : ∀ x ∈ s.txns, x.id ≠ s.takes := fun x hx => Nat.ne_of_lt (h.numbered x hx)
  let opened : Txn := ⟨s.takes, init, addr, s.run, .write [p] bytes 0 none, false, none, false⟩
  let t := s.taking init addr bytes
  have open_last : t.txns = s.txns ++ [opened] := by simp only [t, State.taking, hp, opened]
  have kept : handleTxn opened t = t := by
    have same := modifyTxn_last open_last ids fun x => { x with body := .write [p] bytes 0 none }
    have held : handlePart s.run s.takes p bytes t = none := hn
    simp only [handleTxn, opened, handleParts, held]
    exact same.trans (congrArg (fun ts => { t with txns := ts }) open_last.symm)
  obtain ⟨m0, granted, hm0⟩ := grantAll_eq t
  have effect : advance (takeTxn (.write init addr bytes) s) = { t with mem := m0 } := by
    refine (advance_last (s := t) open_last h.handled rfl ids).trans ?_
    rw [kept, granted]
  have quiet : ({ t with mem := m0 } : State).Quiet :=
    let q := taking_quiet h init addr bytes
    ⟨q.port, q.requests, q.sound, q.unanswered⟩
  obtain ⟨m, hm, hg⟩ := event_next h.running fun x => drainPort (settle (arrive (.write init addr bytes) x))
  rw [arrive_taken h hl, effect, settle, pump_quiet quiet, flush_quiet quiet.unanswered] at hm hg
  refine ⟨m, hm.trans ?_, MemPort.gains_trans hm0 hg⟩
  simp only [t, State.taking, hp]

/-- A write of a handed word whose initiator's earlier writes are issued goes out, and what the word's block did is all
that changes besides. -/
theorem wordWrite_handed {s : State} (hs : s.Steady) (hl : s.txns.length < Config.openLimit) {w off addr : Nat}
    (hw : w < 7) (ho : off = 4 * w) (ha : addr = s.controlBase + off) (hh : isHandedWord w = true) {init : Initiator}
    {bytes : List WByte} (hb : isWordWrite bytes = true) (hi : s.issuedAll init) {c : Cmu} {n : Nw} {m : MemPort}
    (hu : takeWord w s.takes (carriedBytes bytes) (s.taking init addr bytes)
      = { s.taking init addr bytes with cmu := c, nw := n, mem := m })
    {as : List Access} (hg : s.mem.gains m as) :
    ∃ m, controlWrite init off bytes s = .next { s with
          cmu := c
          nw := n
          takes := s.takes + 1
          txns := s.txns ++ [s.openedWrite init addr bytes]
          mem := m }
      ∧ s.mem.gains m (s.passingAccess addr bytes :: as) := by
  subst ho ha
  have handled := (handlePart_word hs init (s.controlBase + 4 * w) bytes hh).1 hi
  rw [hu] at handled
  obtain ⟨m, hm, passed⟩ := write_taken_part hs hl (partsOf_word s hw hb) handled rfl rfl rfl
    ⟨hs.port, hs.requests, hs.sound, hs.unanswered⟩
  rw [controlWrite_arrives hb]
  exact ⟨m, hm, (MemPort.gains_trans hg passed).trans (List.Perm.append_left _ List.perm_append_comm)⟩

/-- A write of a handed word is taken and waits while one its initiator made before it waits at the memory port. -/
theorem wordWrite_waits {s : State} (hs : s.Steady) (hl : s.txns.length < Config.openLimit) {w off addr : Nat}
    (hw : w < 7) (ho : off = 4 * w) (ha : addr = s.controlBase + off) (hh : isHandedWord w = true) {init : Initiator}
    {bytes : List WByte} (hb : isWordWrite bytes = true) (hi : ¬ s.issuedAll init) :
    ∃ m, controlWrite init off bytes s = .next { s with
          takes := s.takes + 1
          txns := s.txns
            ++ [⟨s.takes, init, addr, s.run, .write [⟨.word w, 0, 4, 0⟩] bytes 0 none, false, none, false⟩]
          mem := m }
      ∧ s.mem.gains m [] := by
  subst ho ha
  obtain ⟨length, -⟩ := isWordWrite_iff.1 hb
  have part := partsOf_word s hw hb
  have waits := (handlePart_word hs init (s.controlBase + 4 * w) bytes hh).2 hi
  rw [controlWrite_arrives hb]
  simpa only [length] using write_waits hs hl part waits

/-! ## The three words (R173, R174, R183, R187) -/

/-- CMU in IDLE is woken by a producer that differs from its consumer, and fetches the descriptor there (R174). -/
theorem handProducer_wakes {s : State} {v : BitVec 32} (id : Nat) (idle : s.cmu.phase = .idle)
    (more : v.toNat % 256 ≠ s.cmu.consumer) :
    ∃ m, handProducer id v s = { s with
          cmu := { s.cmu with shadow := v, producer := v.toNat % 256, producerTake := id, phase := .fetching }
          mem := m }
      ∧ s.mem.gains m [⟨.descriptor, s.descriptorAddr, .read 32⟩] :=
  ⟨_, if_pos ⟨idle, more⟩, submit_gains { s with cmu := _ } .command _ _⟩

/-- Otherwise only the producer changes (R174). -/
theorem handProducer_waits {s : State} {v : BitVec 32} (id : Nat)
    (h : s.cmu.phase ≠ .idle ∨ v.toNat % 256 = s.cmu.consumer) :
    handProducer id v s = { s with
      cmu := { s.cmu with shadow := v, producer := v.toNat % 256, producerTake := id } } :=
  if_neg fun ⟨idle, more⟩ => h.elim (fun busy => busy idle) more

/-- Settles O15: the word is handed over or waits, and CMU is woken or not. -/
theorem producerWriteWakes : Obligations.ProducerWriteWakes := by
  intro s init bytes hs hl hb v cmu txns
  have written : exec (.commandProducerWrite init bytes) s = controlWrite init 0x00 bytes s := rfl
  have place : s.controlBase = s.controlBase + 0x00 := (Nat.add_zero _).symm
  let t := s.taking init s.controlBase bytes
  have taken : takeWord 0 s.takes (carriedBytes bytes) t = handProducer s.takes v t :=
    (takeWord_eq (carriedBytes_ne_nil hb) s.takes t).1
  clear_value v
  rw [written]
  refine ⟨fun hi idle more => ?_, fun hi h => ?_, fun hi => ?_⟩
  · obtain ⟨m, wakes, gains⟩ := handProducer_wakes (s := t) s.takes idle more
    exact wordWrite_handed (w := 0) hs hl (by decide) rfl place rfl hb hi (taken.trans wakes) gains
  · have waits := handProducer_waits (s := t) s.takes h
    exact wordWrite_handed (w := 0) hs hl (by decide) rfl place rfl hb hi (taken.trans waits) (MemPort.gains_refl _)
  · exact wordWrite_waits (w := 0) hs hl (by decide) rfl place rfl hb hi

/-- NW once it has been handed a notice consumer value (R183, R188), before the line is judged. -/
def Nw.consume (w : Nw) (v : BitVec 32) : Nw :=
  { w with
    noticeShadow := v
    notices := { w.notices with consumer := v.toNat % 1024 }
    timer := timerAfter w.notices.unread (ringDiff w.notices.published (v.toNat % 1024)) w.timer }

/-- A consumer that frees no place, or finds no overflow counted, changes NW alone (R183, R188). -/
theorem handNoticeConsumer_plain {s : State} {v : BitVec 32}
    (h : ¬ (ringDiff s.nw.notices.published (v.toNat % 1024) < s.nw.notices.unread ∧ 0 < s.nw.overflow)) :
    handNoticeConsumer v s = { s with nw := (s.nw.consume v).judge } :=
  congrArg (fun u : State => { u with nw := u.nw.judge }) (if_neg h)

/-- One that frees places with an overflow counted has the OVERFLOW notice take the next place (R183). -/
theorem handNoticeConsumer_overflow {s : State} {v : BitVec 32}
    (h : ringDiff s.nw.notices.published (v.toNat % 1024) < s.nw.notices.unread ∧ 0 < s.nw.overflow) :
    ∃ m, handNoticeConsumer v s = { s with
          nw := { s.nw.consume v with
            overflow := 0
            notices := { (s.nw.consume v).notices with claimed := (s.nw.notices.claimed + 1) % 1024 } }.judge
          mem := m }
      ∧ s.mem.gains m [ownWrite .notice (s.controlBase + 0x4000 + 16 * s.nw.notices.claimed)
          (overflowNotice s.nw.overflow s.now).toBytes] :=
  ⟨_, congrArg (fun u : State => { u with nw := u.nw.judge }) (if_pos h), submit_gains { s with nw := _ } .notice _ _⟩

/-- Settles O16: the word is handed over or waits, and places freed have an OVERFLOW notice follow or not. -/
theorem noticeConsumerTaken : Obligations.NoticeConsumerTaken := by
  intro s init bytes hs hl hb v before after nw txns
  have written : exec (.noticeConsumerWrite init bytes) s = controlWrite init 0x0C bytes s := rfl
  let t := s.taking init (s.controlBase + 0x0C) bytes
  have taken : takeWord 3 s.takes (carriedBytes bytes) t = handNoticeConsumer v t :=
    (takeWord_eq (carriedBytes_ne_nil hb) s.takes t).2.1
  clear_value v
  rw [written]
  refine ⟨fun hi h => ?_, fun hi freed counted => ?_, fun hi => ?_⟩
  · have plain := handNoticeConsumer_plain (s := t) h
    exact wordWrite_handed (w := 3) hs hl (by decide) rfl rfl rfl hb hi (taken.trans plain) (MemPort.gains_refl _)
  · obtain ⟨m, overflow, gains⟩ := handNoticeConsumer_overflow (s := t) ⟨freed, counted⟩
    exact wordWrite_handed (w := 3) hs hl (by decide) rfl rfl rfl hb hi (taken.trans overflow) gains
  · exact wordWrite_waits (w := 3) hs hl (by decide) rfl rfl rfl hb hi

/-- Settles O17: the word is handed over or waits, and the due consumer is all that it changes. -/
theorem dueConsumerTaken : Obligations.DueConsumerTaken := by
  intro s init bytes hs hl hb v
  have written : exec (.dueConsumerWrite init bytes) s = controlWrite init 0x14 bytes s := rfl
  let t := s.taking init (s.controlBase + 0x14) bytes
  have taken : takeWord 5 s.takes (carriedBytes bytes) t = handDueConsumer v t :=
    (takeWord_eq (carriedBytes_ne_nil hb) s.takes t).2.2
  clear_value v
  have changes : handDueConsumer v t = { t with
      nw := { s.nw with dueShadow := v, due := { s.nw.due with consumer := v.toNat % 1024 } } } := rfl
  rw [written]
  refine ⟨fun hi => ?_, fun hi => ?_⟩
  · exact wordWrite_handed (w := 5) hs hl (by decide) rfl rfl rfl hb hi (taken.trans changes) (MemPort.gains_refl _)
  · exact wordWrite_waits (w := 5) hs hl (by decide) rfl rfl rfl hb hi

end Sys2Proof.Machine
end

section
/-!
PROOFS. What DRAM returns to passing transactions (R160, R168): a plain read completed part by part, a read that ends in
an error, a write completed, and each returned.
-/

namespace Sys2Proof.Machine

/-! ## A plain read (R160) -/

/-- Changing the element behind the first of a list changes no other. -/
theorem modify_mid {α : Type} (l r : List α) (x : α) (f : α → α) :
    (l ++ x :: r).modify l.length f = l ++ f x :: r := by
  induction l with
  | nil => rfl
  | cons y l ih => simp [ih]

/-- Bytes left as they were returned change no byte of the read. -/
theorem patchBytes_asReturned (start len off : Nat) (data : List Byte) :
    patchBytes start len off asReturned data = data := by
  unfold patchBytes
  simp only [asReturned, ite_self]
  exact List.zipIdx_map_fst 0 data

/-- A read with these bytes, its parts so far: complete once every part is. -/
def Txn.plainly (t : Txn) (len : Nat) (data : List Byte) (parts : List ReadPart) : Txn :=
  { t with
    body := .read len parts (some data)
    result := if parts.all (fun q => q.done) then some (.normal data) else none }

/-- The part that is completed. -/
abbrev ReadPart.completed (p : ReadPart) : ReadPart := { p with done := true }

/-- A part of a plain read that is not completed yet. -/
abbrev ReadPart.plainOpen (p : ReadPart) : Prop := p.owner = .plain ∧ p.done = false

/-- The state in which a plain read among the open transactions has its data and these parts. -/
def State.readingPlain (s : State) (pre post : List Txn) (t : Txn) (len : Nat) (data : List Byte)
    (parts : List ReadPart) : State := { s with txns := pre ++ t.plainly len data parts :: post }

section
variable {s : State} {pre post : List Txn} {t : Txn} (hi : ∀ x ∈ pre ++ post, x.id ≠ t.id)
  (hr : ∀ r ∈ s.reqs, r.wait ≠ .list) (hs : ∃ e, e < 32 ∧ (s.entry e).faulted = false) (len : Nat) (data : List Byte)
include hi

/-- The first part not completed is left as DRAM returned it. -/
theorem completeReadPart_plain (before after : List ReadPart) {p : ReadPart} (hp : p.plainOpen) :
    completeReadPart t.id before.length (s.readingPlain pre post t len data (before ++ p :: after))
      = s.readingPlain pre post t len data (before ++ p.completed :: after) := by
  obtain ⟨owner, opened⟩ := hp
  let u := s.readingPlain pre post t len data (before ++ p :: after)
  let now := t.plainly len data (before ++ p :: after)
  have place : u.txns = pre ++ now :: post := rfl
  have part : u.readPart t.id before.length = some p := by
    have found : u.txn t.id = some now := txn_mid (t := now) place hi
    simp [State.readPart, found, now, Txn.plainly, Txn.readParts]
  have completes : completeReadPart t.id before.length u = u.completePart t.id before.length asReturned := by
    simp only [completeReadPart, part, owner]
  have incomplete : (before ++ p :: after).all (fun q => q.done) = false := by simp [opened]
  have bytes := patchBytes_asReturned p.start p.len p.off data
  refine completes.trans ?_
  simp only [State.completePart, part]
  refine (modifyTxn_mid (t := now) place hi _).trans (congrArg (fun x => ({ s with txns := pre ++ x :: post } : State))
    (?_ : _ = t.plainly len data (before ++ p.completed :: after)))
  simp only [now, Txn.plainly, Txn.mapData, Txn.mapPart, Option.map_some, bytes, modify_mid, incomplete,
    ReadPart.completed, Bool.false_eq_true, if_false]
  split <;> rfl

include hr hs

/-- The parts of a plain read are completed one after another, and the read with the last. -/
theorem completeReadParts_plain (before after : List ReadPart) (h : ∀ p ∈ after, p.plainOpen) :
    (List.range' before.length after.length).foldl (fun acc k => pump (completeReadPart t.id k acc))
        (s.readingPlain pre post t len data (before ++ after))
      = s.readingPlain pre post t len data (before ++ after.map ReadPart.completed) := by
  induction after generalizing before with
  | nil => rfl
  | cons p after ih =>
    have first := completeReadPart_plain (s := s) (post := post) hi len data before after (h p (List.mem_cons_self ..))
    have next := ih (before ++ [p.completed]) fun q hq => h q (List.mem_cons_of_mem p hq)
    rw [List.length_cons, List.range'_succ, List.foldl_cons, first, pump_rest (by exact hr) (by exact hs)]
    simpa only [List.length_append, List.length_singleton, List.append_assoc, List.singleton_append, List.map_cons]
      using next

end

/-! ## The returns (R160, R168) -/

/-- WRITE_RESPONSE_RETURN for a write that is outstanding. -/
theorem exec_writeResponseReturn {s : State} {id : Nat} {a : Access} {rest : List Access} {bs : List WByte}
    (ha : s.oldest (isPassing id) a rest) (hb : a.body = .write bs) (error : Bool) :
    exec (.writeResponseReturn id error) s
      = cacheEvent s fun x => x.ending (isPassing id) fun _ y => writeCompleted id error y := by
  obtain ⟨hp, hperm⟩ := extract_some ha
  have outstanding : s.mem.outstanding.any (isWriteOf id) = true := by
    refine List.any_eq_true.2 ⟨a, hperm.mem_iff.2 (List.mem_cons_self ..), ?_⟩
    cases hpurpose : a.purpose <;> simp_all [isWriteOf, isPassing]
  change execWriteResponseReturn id error s = _
  simp only [execWriteResponseReturn, outstanding, if_true]

section
variable {s : State} {pre post : List Txn} {t : Txn} {a : Access} {rest : List Access} (hs : s.Steady)
  (ho : s.Opens pre t post) (ha : s.oldest (isPassing t.id) a rest)
include hs ho ha

/-- A transaction completed by what DRAM returned, and nothing else changed, is returned (R168). -/
theorem ending_returns {c : Instr} {k : Access → State → State} {t' : Txn} {r : Response}
    (hc : exec c s = cacheEvent s fun x => x.ending (isPassing t.id) k)
    (hk : k a (s.ended rest) = { s.ended rest with txns := pre ++ t' :: post }) (hr : t'.result = some r)
    (hi : t'.init = t.init ∧ t'.id = t.id ∧ t'.responded = t.responded) :
    ∃ m, exec c s = .next { s with txns := pre ++ post, returned := s.returns t r, mem := m }
      ∧ (s.portWithout rest).gains m [] := by
  obtain ⟨init, id, responded⟩ := hi
  obtain ⟨-, unresponded⟩ := hs.unanswered t (by rw [ho.place]; simp)
  have returns := cacheEvent_returns (f := fun x => x.ending (isPassing t.id) k)
    (u := { s.ended rest with txns := pre ++ t' :: post }) hs.running ((ending_ended ha k).trans hk) rfl hr
    (responded.trans unresponded) (by rw [init]; exact ho.first)
    (by rw [id]; exact ho.taken) ⟨hs.port, hs.requests, hs.sound, ho.others hs⟩
  rw [hc]
  simp only [State.returns, init, id] at returns ⊢
  exact returns

/-- A plain read is returned with the bytes DRAM returned (R160). -/
theorem plainRead_returned {len : Nat} {parts : List ReadPart} {data : List Byte} (hb : a.body = .read data.length)
    (ht : t.body = .read len parts none) (hn : parts ≠ []) (hp : ∀ p ∈ parts, p.plainOpen) :
    ∃ m, exec (.readDataReturn t.id (some data)) s
        = .next { s with txns := pre ++ post, returned := s.returns t (.normal data), mem := m }
      ∧ (s.portWithout rest).gains m [] := by
  obtain ⟨unanswered, -⟩ := hs.unanswered t (by rw [ho.place]; simp)
  have found := txn_mid (s := s.ended rest) ho.place ho.alone
  have count : (s.ended rest).partCount t.id = parts.length := by
    simp only [State.partCount, found, Txn.readParts, ht]
  have incomplete : parts.all (fun q => q.done) = false := by
    obtain ⟨p, hm⟩ := List.exists_mem_of_ne_nil _ hn
    exact List.all_eq_false.2 ⟨p, hm, by simp [(hp p hm).2]⟩
  have back := modifyTxn_mid (s := s.ended rest) ho.place ho.alone fun t =>
    match t.body with
    | .read len parts _ => { t with body := .read len parts (some data) }
    | .write _ _ _ _ => t
  have begins : ({ t with body := .read len parts (some data) } : Txn) = t.plainly len data parts := by
    simp only [Txn.plainly, incomplete, ← unanswered, Bool.false_eq_true, if_false]
  simp only [ht, begins] at back
  have completes := completeReadParts_plain (s := s.ended rest) (post := post) ho.alone hs.requests hs.sound len data []
    parts hp
  refine ending_returns hs ho ha (exec_readDataReturn ha hb).2
    (t' := t.plainly len data (parts.map ReadPart.completed)) ?_ ?_ ⟨rfl, rfl, rfl⟩
  · simp only [readArrived, count, List.range_eq_range']
    exact (congrArg (fun u => (List.range' 0 parts.length).foldl
      (fun acc k => pump (completeReadPart t.id k acc)) u) back).trans completes
  · exact if_pos (by simp)

/-- A plain read that DRAM answers with an error ends in one: its parts hold nothing to release (R98, R160). -/
theorem plainRead_failed {len : Nat} {parts : List ReadPart} (hb : a.body = .read len)
    (ht : t.body = .read len parts none) (hp : ∀ p ∈ parts, p.plainOpen) :
    ∃ m, exec (.readDataReturn t.id none) s
        = .next { s with txns := pre ++ post, returned := s.returns t .error, mem := m }
      ∧ (s.portWithout rest).gains m [] := by
  let u : State := { s.ended rest with txns := pre ++ { t with result := some .error } :: post }
  have failed : (s.ended rest).failTxn t.id = u := modifyTxn_mid (s := s.ended rest) ho.place ho.alone _
  have found := txn_mid (s := s.ended rest) ho.place ho.alone
  have quiet : pump u = u := pump_rest hs.requests hs.sound
  have nothing : ∀ ps : List ReadPart, (∀ p ∈ ps, p.plainOpen) →
      ps.foldl (fun acc p => pump (releasePart p.owner acc)) u = u := by
    intro ps hps
    induction ps with
    | nil => rfl
    | cons p ps ih =>
      obtain ⟨plain, -⟩ := hps p (List.mem_cons_self ..)
      have kept : pump (releasePart p.owner u) = u := by rw [plain]; exact quiet
      rw [List.foldl_cons, kept]
      exact ih fun q hq => hps q (List.mem_cons_of_mem p hq)
  have read : a.body = .read (List.replicate len (0 : Byte)).length := by rw [hb, List.length_replicate]
  refine ending_returns hs ho ha (exec_readDataReturn ha read).1 (t' := { t with result := some .error }) ?_ rfl
    ⟨rfl, rfl, rfl⟩
  have its : t.readParts = parts := by simp only [Txn.readParts, ht]
  simp only [readFailed, found, its, failed]
  exact nothing parts hp

/-- DRAM's response completes a write, error included (R160). -/
theorem write_returned {bs : List WByte} (hb : a.body = .write bs) (error : Bool) :
    ∃ m, exec (.writeResponseReturn t.id error) s = .next { s with
          txns := pre ++ post, returned := s.returns t (if error then .error else .normal []), mem := m }
      ∧ (s.portWithout rest).gains m [] :=
  ending_returns hs ho ha (exec_writeResponseReturn ha hb error)
    (modifyTxn_mid (s := s.ended rest) ho.place ho.alone _) rfl ⟨rfl, rfl, rfl⟩

end

/-- Settles O12: the plain read with its data, the one that fails, and the write. -/
theorem responsesReturned : Obligations.ResponsesReturned := by
  intro s pre post t a rest hs ho ha
  refine ⟨fun len parts ht hn hp => ⟨fun data hb => plainRead_returned hs ho ha hb ht hn hp, fun hb =>
    plainRead_failed hs ho ha hb ht hp⟩, fun todo bytes dropped key bs error _ hb => write_returned hs ho ha hb error⟩

end Sys2Proof.Machine
end

section
/-!
PROOFS. The notice writer and the ATTN line: notices handed to NW, the ends of the writes NW makes for its two rings,
the coalescing timer's expiry and SET_NOTIFY (R179, R181, R182, R185, R186, R188).
-/

namespace Sys2Proof.Machine

/-! ## The ends of accesses -/

section
variable {s t u : State} {p : Purpose → Bool} {a : Access} {rest : List Access} {k : Access → State → State}

/-- The end of an access that goes on to a state that differs from `t` in the memory port alone. -/
theorem ending_nextIs {as : List Access} (hr : s.inReset = false) (ha : s.oldest p a rest)
    (hk : k a (s.ended rest) = u) (ht : { u with mem := t.mem } = t) (hg : t.mem.gains u.mem as) :
    NextIs (event s fun x => x.ending p k) t as := event_nextIs hr _ ((ending_ended ha k).trans hk) ht hg

/-- The end of an access that goes on without another. -/
theorem ending_silent (hr : s.inReset = false) (ha : s.oldest p a rest) (hk : k a (s.ended rest) = t) :
    NextIs (event s fun x => x.ending p k) t [] := ending_nextIs hr ha hk rfl (MemPort.gains_refl _)

/-- The end of an access that goes on to another of CMU's. -/
theorem ending_submits {b : Access} {c : CmuPhase} {o : Option Nat} (hr : s.inReset = false) (ha : s.oldest p a rest)
    (hk : k a (s.ended rest) = t.cmuSubmit b c o) :
    NextIs (event s fun x => x.ending p k) { t with cmu := t.cmuIn c } [b] :=
  ending_nextIs hr ha hk rfl (submit_gains _ _ _ _)

end

/-! ## The ATTN line (R188) -/

/-- The line stands where the unread count has reached N, or a notice is unread and T, not being 0, has run out. -/
theorem Nw.judge_attn_iff (w : Nw) : w.judge.attn = true ↔
    w.coalesceN ≤ w.notices.unread ∨ 1 ≤ w.notices.unread ∧ w.timeReached = true := by
  simp only [Nw.judge, Nw.timeReached, Bool.or_eq_true, Bool.and_eq_true, decide_eq_true_eq, and_assoc]

/-- T has run out where it is not 0 and the coalescing timer runs and has counted it. -/
theorem Nw.timeReached_iff (w : Nw) :
    w.timeReached = true ↔ w.coalesceT ≠ 0 ∧ ∃ n, w.timer = some n ∧ 16384 * w.coalesceT ≤ n := by
  simp only [Nw.timeReached, Bool.and_eq_true, decide_eq_true_eq]
  refine and_congr_right fun _ => ?_
  cases w.timer with
  | none => simp
  | some n => simp [msTicks, Config.ticksPerMs, Nat.mul_comm w.coalesceT]

/-- With T of 0 no time trigger acts (R179). -/
theorem Nw.not_timeReached_zero {w : Nw} (h : w.coalesceT = 0) : ¬ w.timeReached = true := fun reached =>
  (w.timeReached_iff.1 reached).1 h

/-- With T of 0 the unread count alone decides the line (R179). -/
theorem Nw.judge_attn_zero {w : Nw} (h : w.coalesceT = 0) :
    w.judge.attn = true ↔ w.coalesceN ≤ w.notices.unread :=
  w.judge_attn_iff.trans (or_iff_left fun timed => Nw.not_timeReached_zero h timed.2)

/-- With T run out one unread notice is enough, as N unread ones are. -/
theorem Nw.judge_reached {w : Nw} (h : w.timeReached = true) :
    w.judge = { w with attn := decide (w.coalesceN ≤ w.notices.unread ∨ 1 ≤ w.notices.unread) } := by
  have line : w.judge.attn = decide (w.coalesceN ≤ w.notices.unread ∨ 1 ≤ w.notices.unread) := by
    rw [Bool.eq_iff_iff, decide_eq_true_eq, w.judge_attn_iff, and_iff_left h]
  rw [← line]
  rfl

/-- Settles O32: T has run out or not, and when the line stands. -/
theorem coalescingExpiry : Obligations.CoalescingExpiry := by
  refine ⟨fun s n hr ht hn => ⟨fun hrun => ?_, fun hwait => ?_⟩, fun w => ?_⟩
  · have reached : s.nw.timeReached = true := s.nw.timeReached_iff.2 ⟨ht, n, hn, hrun⟩
    exact event_silent hr ((if_pos reached).trans (congrArg (fun w => { s with nw := w }) (Nw.judge_reached reached)))
  · refine event_silent hr (if_neg fun reached => ?_)
    obtain ⟨-, count, running, enough⟩ := s.nw.timeReached_iff.1 reached
    obtain rfl : n = count := Option.some.inj (hn.symm.trans running)
    exact Nat.not_le.2 hwait enough
  · exact w.judge_attn_iff.trans (or_congr_right (and_congr_right fun _ => w.timeReached_iff))

/-! ## SET_NOTIFY (R179) -/

/-- A coalescing count of 0 is taken as 1, one above 64 as 64. -/
theorem notifyCount_eq (n : Nat) : notifyCount n = if n = 0 then 1 else if 64 < n then 64 else n := by
  simp only [notifyCount, clampTo, Nat.lt_one_iff]

/-- A coalescing time above 1000 is taken as 1000. -/
theorem notifyTime_eq (t : Nat) : notifyTime t = if 1000 < t then 1000 else t := by
  rw [notifyTime, clampTo, if_neg (Nat.not_lt_zero t)]

/-- Settles O50: the two values taken, and the line with T of 0 and after pin reset. -/
theorem notifySet : Obligations.NotifySet := by
  refine ⟨fun s d hs => ?_, fun w => Nw.judge_attn_zero, rfl, rfl, fun w hn ht => ?_⟩
  · intro n t n' t'
    rw [show n' = notifyCount n from (notifyCount_eq n).symm, show t' = notifyTime t from (notifyTime_eq t).symm]
    exact event_answers hs.1 (onCommand_of (code := codeSetNotify) hs _)
  · exact (Nw.judge_attn_zero ht).trans (by rw [hn, Nat.one_le_iff_ne_zero, Nat.pos_iff_ne_zero])

/-! ## Notices handed to NW and published (R181, R182) -/

/-- A value of one byte. -/
theorem le_one (v : Nat) : le 1 v = [BitVec.ofNat 8 v] := by simp [le]

/-- The 16 bytes of a notice (R194). -/
theorem Notice.toBytes_eq (n : Notice) : n.toBytes = [BitVec.ofNat 8 n.kind.code, BitVec.ofNat 8 n.detail, 0, 0]
    ++ n.key.toBytes ++ le 4 n.stamp.toNat ++ le 4 n.datum := by
  rw [Notice.toBytes, le_one, le_one]
  rfl

/-- While fewer than 1023 places are held a notice takes the next and is written there (R181). -/
theorem notify_claims {s : State} (n : Notice) (h : s.nw.notices.held < 1023) :
    notify n s = { s with
        nw := { s.nw with notices := { s.nw.notices with claimed := (s.nw.notices.claimed + 1) % 1024 } }
        mem := (notify n s).mem }
      ∧ s.mem.gains (notify n s).mem
        [ownWrite .notice (s.controlBase + 0x4000 + 16 * s.nw.notices.claimed) n.toBytes] := by
  rw [show notify n s = claimNotice n s from if_pos h]
  exact ⟨rfl, submit_gains { s with nw := _ } .notice _ none⟩

/-- A notice published: the published index passes it, the timer starts where none was unread, the line is judged and
the producer word is written (R181, R188). -/
theorem publishNotice_next (s : State) :
    let w := s.nw
    let published := ringNext w.notices.published
    ∃ m, publishNotice s = { s with
        nw := Nw.judge { w with
          notices := { w.notices with published := published }
          timer := if w.notices.unread = 0 then some 0 else w.timer }
        mem := m }
      ∧ s.mem.gains m [ownWrite .noticeProducer (s.controlBase + 0x08) (le 4 published)] :=
  ⟨_, rfl, submit_gains { s with nw := _ } .notice _ none⟩

/-- Settles O35: a place for the notice or none, its write ended with or without an error, its producer word written. -/
theorem notices : Obligations.Notices := by
  refine ⟨fun s n => ⟨fun room => ?_, fun full => ?_⟩, fun s error a rest hr => ⟨fun ha => ?_, fun ha => ?_⟩⟩
  · rw [← Notice.toBytes_eq]
    exact notify_claims n room
  · exact if_neg (Nat.not_lt.2 full)
  · cases error with
    | false =>
      obtain ⟨m, published, gained⟩ := publishNotice_next (s.ended rest)
      exact ending_nextIs hr ha published rfl gained
    | true =>
      obtain ⟨m, published, gained⟩ := publishNotice_next { s.ended rest with nw := s.nw.countOverflow }
      exact ending_nextIs hr ha published rfl gained
  · exact ending_silent hr ha rfl

/-! ## Offers published (R185, R186) -/

/-- Two accesses gained in either order. -/
theorem MemPort.gains_swap {m x y z : MemPort} {as bs : List Access} (hx : m.gains x bs) (hy : m.gains y as)
    (hz : y.gains z bs) : x.gains z as := by
  unfold MemPort.gains at *
  have both := hz.trans (hy.append_right bs)
  have other := hx.append_right as
  rw [List.append_assoc] at both other
  exact both.trans ((List.perm_append_comm.append_left _).trans other.symm)

/-- A notice told after an access is made is told as before it; the port has gained both (R96: the notice follows the
other effects). -/
theorem notify_submit (n : Notice) (s : State) (src : Source) (a : Access) (o : Option Nat) :
    ∃ m, notify n (s.submit src a o) = { notify n s with mem := m } ∧ (notify n s).mem.gains m [a] := by
  have made := submit_gains s src a o
  rcases notify_cases n s with ⟨h, e⟩ | ⟨h, e⟩ <;> rcases notify_cases n (s.submit src a o) with ⟨h', e'⟩ | ⟨h', e'⟩
  · rw [e, e']
    exact ⟨_, rfl, MemPort.gains_swap (submit_gains { s with nw := _ } .notice _ none) made
      (submit_gains { s.submit src a o with nw := _ } .notice _ none)⟩
  · exact absurd h h'
  · exact absurd h' h
  · rw [e, e']
    exact ⟨_, rfl, made⟩

/-- The due ring's published index passes an offer and the producer word is written, a notice being told behind it
where something went wrong (R185, R186). -/
theorem publishOffer_next (error : Bool) (n : Notice) (s : State) :
    let published := ringNext s.nw.due.published
    let t : State := { s with nw := { s.nw with due := { s.nw.due with published := published } } }
    ∃ m, noticeIf error n (publishOffer s) = { noticeIf error n t with mem := m }
      ∧ (noticeIf error n t).mem.gains m
        [ownWrite (.dueProducer published) (s.controlBase + 0x10) (le 4 published)] := by
  cases error with
  | false => exact ⟨_, rfl, submit_gains { s with nw := _ } .notice _ none⟩
  | true => exact notify_submit n { s with nw := _ } .notice _ none

/-- Settles O36: the offer published and its producer word written, each with a notice where it failed. -/
theorem offersPublished : Obligations.OffersPublished := by
  intro s error rest addr body hr
  refine ⟨fun pos key ha => ?_, fun value ha => ?_⟩
  · obtain ⟨m, told, gained⟩ := publishOffer_next error ⟨.memoryFault, 16, key, s.now, pos⟩ (s.ended rest)
    exact ending_nextIs hr ha told rfl gained
  · exact ending_silent hr ha rfl

end Sys2Proof.Machine
end

section
/-!
PROOFS. The command ring: the end of a descriptor's fetch, and the ends of the writes of its answer (R174 to R177).
-/

namespace Sys2Proof.Machine

/-! ## The descriptor fetch (R175, R176) -/

/-- A copy whose code names a command is held to be executed (R175). -/
theorem descriptorArrived_known {d : List Byte} (h : cmdCode d ∈ commandCodes) (s : State) :
    descriptorArrived d s = { s with cmu := s.cmuIn (.executing d) } := if_pos h

/-- One whose code names none is answered BAD_OPCODE (R176). -/
theorem descriptorArrived_unknown {d : List Byte} (h : cmdCode d ∉ commandCodes) (s : State) :
    descriptorArrived d s = answer .badOpcode s := if_neg h

/-- The end of a descriptor's fetch with its 32 bytes. -/
theorem execDescriptorFetchEnd_data {d : List Byte} (h : d.length = 32) (s : State) :
    exec (.descriptorFetchEnd (some d)) s
      = event s fun x => x.ending (isPurpose .descriptor) fun _ y => descriptorArrived d y :=
  if_pos (by simp [isAnswer, h])

/-- Its end in an error. -/
theorem execDescriptorFetchEnd_error (s : State) : exec (.descriptorFetchEnd none) s
    = event s fun x => x.ending (isPurpose .descriptor) fun _ y => descriptorFailed y := rfl

/-- Settles O37: a command, no command, and no copy. -/
theorem descriptorFetched : Obligations.DescriptorFetched := by
  intro s d a rest hr ha hd
  rw [execDescriptorFetchEnd_data hd, execDescriptorFetchEnd_error]
  exact ⟨fun known => ending_silent hr ha (descriptorArrived_known known _),
    fun unknown => ending_answers hr ha (descriptorArrived_unknown unknown _), ending_answers hr ha rfl⟩

/-! ## The answer (R177) -/

section
variable {s : State} {left : Nat} {st : Status}

/-- The state in which the end of an access of the answer has told its error, if it had one (R96; log 25 for the
key). -/
def answerFault (error : Bool) (detail datum : Nat) (s : State) : State :=
  noticeIf error ⟨.memoryFault, detail, ⟨0, 0⟩, s.now, datum⟩ s

/-- Telling it changes NW and the memory port alone. -/
theorem answerFault_with (error : Bool) (detail datum : Nat) (s : State) :
    ∃ w m, answerFault error detail datum s = { s with nw := w, mem := m } := noticeIf_with _ _ _

/-- So CMU comes to a phase from there as it does without. -/
theorem answerFault_cmuIn (error : Bool) (detail datum : Nat) (s : State) (p : CmuPhase) :
    (answerFault error detail datum s).cmuIn p = s.cmuIn p := by
  obtain ⟨w, m, told⟩ := answerFault_with error detail datum s
  rw [told]
  rfl

/-- After the last result field the status byte is written. -/
theorem resultWriteEnded_last (error : Bool) (hc : s.cmu.phase = .resultWrite left st) (h : left ≤ 1) :
    resultWriteEnded error s = answer st (answerFault error 12 s.cmu.consumer s) := by
  rw [resultWriteEnded, hc]
  exact if_pos h

/-- After any other the next is awaited. -/
theorem resultWriteEnded_more (error : Bool) (hc : s.cmu.phase = .resultWrite left st) (h : 1 < left) :
    resultWriteEnded error s = { answerFault error 12 s.cmu.consumer s with
      cmu := s.cmuIn (.resultWrite (left - 1) st) } := by
  have awaits : resultWriteEnded error s = { answerFault error 12 s.cmu.consumer s with
      cmu := (answerFault error 12 s.cmu.consumer s).cmuIn (.resultWrite (left - 1) st) } := by
    rw [resultWriteEnded, hc]
    exact if_neg (Nat.not_le.2 h)
  rw [awaits, answerFault_cmuIn]

/-- After the status byte the consumer advances and its word is written. -/
theorem statusWriteEnded_eq (error : Bool) (hc : s.cmu.phase = .statusWrite) :
    let next := (s.cmu.consumer + 1) % 256
    statusWriteEnded error s
      = { answerFault error 13 s.cmu.consumer s with cmu := { s.cmu with consumer := next } }.cmuSubmit
        (ownWrite .consumerWord (s.controlBase + 0x04) (le 4 next)) .indexWrite := by
  have advances : statusWriteEnded error s = advanceConsumer (answerFault error 13 s.cmu.consumer s) := by
    rw [statusWriteEnded, hc]
    rfl
  obtain ⟨w, m, told⟩ := answerFault_with error 13 s.cmu.consumer s
  rw [advances, told]
  rfl

/-- After the consumer word CMU is IDLE where its producer is its consumer (R174). -/
theorem indexWriteEnded_idle (error : Bool) (hc : s.cmu.phase = .indexWrite) (h : s.cmu.producer = s.cmu.consumer) :
    indexWriteEnded error s = { answerFault error 14 s.cmu.consumer s with cmu := s.cmuIn .idle } := by
  have rests : indexWriteEnded error s = { answerFault error 14 s.cmu.consumer s with
      cmu := (answerFault error 14 s.cmu.consumer s).cmuIn .idle } := by
    rw [indexWriteEnded, hc]
    exact if_pos h
  rw [rests, answerFault_cmuIn]

/-- Otherwise it fetches the next descriptor (R174). -/
theorem indexWriteEnded_fetches (error : Bool) (hc : s.cmu.phase = .indexWrite)
    (h : s.cmu.producer ≠ s.cmu.consumer) : indexWriteEnded error s
      = { answerFault error 14 s.cmu.consumer s with cmu := s.cmu }.cmuSubmit
        ⟨.descriptor, s.descriptorAddr, .read 32⟩ .fetching (some s.cmu.producerTake) := by
  have fetches : indexWriteEnded error s = fetchDescriptor (answerFault error 14 s.cmu.consumer s) := by
    rw [indexWriteEnded, hc]
    exact if_neg h
  obtain ⟨w, m, told⟩ := answerFault_with error 14 s.cmu.consumer s
  rw [fetches, told]
  rfl

end

/-- Settles O38: the ends of a result field's, the status byte's and the consumer word's writes. -/
theorem answerWritten : Obligations.AnswerWritten := by
  intro s error a rest hr fault position
  refine ⟨fun left st hc ha => ⟨fun hl => ?_, fun hl => ?_⟩, fun hc ha => ?_, fun hc ha => ⟨fun hp => ?_, fun hp => ?_⟩⟩
  · exact ending_answers hr ha (resultWriteEnded_last (s := s.ended rest) error hc hl)
  · exact ending_silent hr ha (resultWriteEnded_more (s := s.ended rest) error hc hl)
  · exact ending_submits (k := fun _ y => statusWriteEnded error y) hr ha
      (statusWriteEnded_eq (s := s.ended rest) error hc)
  · exact ending_silent hr ha (indexWriteEnded_idle (s := s.ended rest) error hc hp)
  · exact ending_submits (k := fun _ y => indexWriteEnded error y) hr ha
      (indexWriteEnded_fetches (s := s.ended rest) error hc hp)

end Sys2Proof.Machine
end
